-- ==== Sys2Proof/Word.lean ====
section
/-! DEFINITION. The words of the OH264: bytes as its links carry them, and elapsed-second values. -/

namespace Sys2Proof

/-- One byte of a frame (spec/12, A-1). -/
abbrev Byte := BitVec 8

/-- An elapsed-second value, 0 to 4294967295, counted modulo 2^32 (R67, R128). -/
abbrev Elapsed := BitVec 32

end Sys2Proof
end

