-- ==== Sys2Proof/Syntax.lean ====
section
/-! DEFINITION. The commands of the block: one constructor of Instr for each row of spec/opcode_table.json. -/

namespace Sys2Proof

/-- The two ports (spec/00, 1-3). -/
inductive Port where
  | A
  | B
  deriving DecidableEq, Repr, Inhabited

/-- What a processor does on a port's link toward ending a request frame (R167, R168).
A transfer is given whole, or cut into phases so that other steps can land inside it. -/
inductive FrameEvent where
  /-- A whole transfer with nothing between its start and its end. On port B it is a write to the address the part holds. -/
  | whole (bytes : List Byte)
  /-- The transfer begins: SEL falls on port A, or a start condition with this 7-bit address and the write bit on port B. -/
  | opens (address : BitVec 7)
  /-- Bits are clocked, most significant bit of each byte first. -/
  | clocks (bits : List Bool)
  /-- The transfer ends: SEL rises on port A, or a stop condition on port B. -/
  | closes
  deriving DecidableEq, Repr, Inhabited

/-- What the processor on port B does toward a read transaction (R168, R177). -/
inductive ReadEvent where
  /-- A whole read of the address the part holds, transferring this many bytes. -/
  | whole (count : Nat)
  /-- A start condition with this 7-bit address and the read bit. -/
  | opens (address : BitVec 7)
  /-- This many bits are clocked out. -/
  | clocks (count : Nat)
  /-- The stop condition. -/
  | closes
  deriving DecidableEq, Repr, Inhabited

/-- The commands of the block, one for each row of spec/opcode_table.json, in the table's order.
A command of the table or of the clock names the port whose request it carries out.
Its arguments are those of the frame that port sent. -/
inductive Instr where
  /-- REQUEST_FRAME (R169): a transfer toward a request frame. -/
  | requestFrame (p : Port) (ev : FrameEvent)
  /-- READ_TRANSACTION (R177): a transfer toward a read on port B. -/
  | readTransaction (ev : ReadEvent)
  /-- STAT (R172): a whole transfer of a STAT frame with these argument bytes. -/
  | stat (p : Port) (args : List Byte)
  /-- RPLY (R176): a port A select period of a RPLY frame, then this many further bytes clocked. -/
  | rply (args : List Byte) (clocked : Nat)
  /-- CNCL (R178): a whole transfer of a CNCL frame. -/
  | cncl (p : Port) (args : List Byte)
  /-- PLAC (R38). -/
  | plac (p : Port)
  /-- AMND (R46). -/
  | amnd (p : Port)
  /-- HOLD (R47). -/
  | hold (p : Port)
  /-- RSUM (R48). -/
  | rsum (p : Port)
  /-- RTIR (R49). -/
  | rtir (p : Port)
  /-- PURG (R53). -/
  | purg (p : Port)
  /-- LOOK (R54). -/
  | look (p : Port)
  /-- LIST (R57). -/
  | list (p : Port)
  /-- QUOT (R26), accepted from port A. -/
  | quot
  /-- INFO (R27). -/
  | info (p : Port)
  /-- TAKE (R112). -/
  | take (p : Port)
  /-- FNSH (R118). -/
  | fnsh (p : Port)
  /-- CEIL (R122). -/
  | ceil (p : Port)
  /-- NEST (R123). -/
  | nest (p : Port)
  /-- GSET_CONFIGURE (R146), accepted from port A. -/
  | gsetConfigure
  /-- GSET_RELEASE (R148), accepted from port A. -/
  | gsetRelease
  /-- GRED (R149). -/
  | gred (p : Port)
  /-- GCLR (R150). -/
  | gclr (p : Port)
  /-- CKRD (R74). -/
  | ckrd (p : Port)
  /-- CKST (R75), accepted from port A. -/
  | ckst
  /-- CKAD (R78), accepted from port A. -/
  | ckad
  /-- CKHD (R76), accepted from port A. -/
  | ckhd
  /-- CKRL (R76), accepted from port A. -/
  | ckrl
  /-- CKSE (R77), accepted from port A. -/
  | ckse
  /-- ALRD (R162): a whole transfer of an ALRD frame. -/
  | alrd (p : Port) (args : List Byte)
  /-- ALCL (R163): a whole transfer of an ALCL frame. -/
  | alcl (p : Port) (args : List Byte)
  /-- FIRE (R87). -/
  | fire
  /-- EXPIRE (R130). -/
  | expire
  /-- SECOND (R68). -/
  | second
  /-- END_OF_SETTLING (R70). -/
  | endOfSettling
  /-- OSCILLATOR_LOSS (R71). -/
  | oscillatorLoss
  /-- RETURN_OF_OSCILLATION (R71). -/
  | returnOfOscillation
  /-- POWER_ON (R154), with the level of the ADDR pin. -/
  | powerOn (addrHigh : Bool)
  /-- BACKUP_ENTRY (R155), with the VBAT level in millivolts. -/
  | backupEntry (vbat : Nat)
  /-- BACKUP_ENTRY_WORK (R34). -/
  | backupEntryWork
  /-- RETENTION_LOST (R157). -/
  | retentionLost
  /-- RETURN_RETENTION_HELD (R158), with the level of the ADDR pin. -/
  | returnRetentionHeld (addrHigh : Bool)
  /-- RETURN_WORK (R138). -/
  | returnWork
  /-- RETURN_RETENTION_LOST (R159), with the level of the ADDR pin. -/
  | returnRetentionLost (addrHigh : Bool)
  /-- RESET_ASSERTION (R180). -/
  | resetAssertion
  /-- RESET_WORK (R33). -/
  | resetWork
  /-- RESET_RELEASE (R180), with the level of the ADDR pin. -/
  | resetRelease (addrHigh : Bool)
  /-- WITHOUT_SUPPLY (R157). -/
  | withoutSupply
  /-- FIRST_CYCLE_SEEN (R71). -/
  | firstCycleSeen
  deriving DecidableEq, Repr

end Sys2Proof
end

