-- ==== Sys2Proof/Decode.lean ====
section
/-! DEFINITION. The command a table word spells: spec/opcode_table.json gives no row any bits, so none does. -/

namespace Sys2Proof

/-- The command that an instruction word of `nbits` bits spells, by the bits of spec/opcode_table.json.
The block has no instruction words: no row of the table gives bits, so every word spells none. -/
def decodeTableWord (_nbits _w : Nat) : Option Instr := none

/-- No word of any width spells a command. -/
theorem decodeTableWord_eq_none (nbits w : Nat) : decodeTableWord nbits w = none := rfl

end Sys2Proof
end

