-- ==== Sys2Proof/Machine/Records.lean ====
section
/-! DEFINITION. The records of which the machine's state is made: dates, orders, groups, answer contexts,
requests, replies, command units, clock, scheduler, table and links. Plain data only. -/

namespace Sys2Proof.Machine

/-- One value for each port. -/
structure PerPort (α : Type) where
  a : α
  b : α
  deriving DecidableEq, Repr, Inhabited

/-! ### Dates -/

/-- A date and time to the second (R59). -/
structure DateTime where
  year : Nat
  month : Nat
  day : Nat
  hour : Nat
  minute : Nat
  second : Nat
  deriving DecidableEq, Repr, Inhabited

/-- The calendar: a date and time with its weekday, 1 = Monday to 7 = Sunday (R59). -/
structure Calendar where
  now : DateTime
  weekday : Nat
  deriving DecidableEq, Repr, Inhabited

/-! ### Orders (spec/01, Table 2-1) -/

/-- A repeat rule with the parameters of its kind (R6 to R8). The weekday set has bit d set for weekday d. -/
inductive Rule where
  | single
  | interval (days hours minutes seconds : Nat)
  | monthly (step day : Nat)
  | weekdays (set : Byte)
  deriving DecidableEq, Repr, Inhabited

/-- Anchoring (R10). -/
inductive Anchoring where
  | wall
  | elapsed
  deriving DecidableEq, Repr, Inhabited

/-- Catch-up policy (R10). -/
inductive Policy where
  | gather
  | drop
  deriving DecidableEq, Repr, Inhabited

/-- The state of a present call (R16). -/
inductive CallState where
  | raised
  | taken
  deriving DecidableEq, Repr, Inhabited

/-- The call of an order (R16). -/
structure Call where
  state : CallState
  level : Nat
  deadline : Option Elapsed
  deriving DecidableEq, Repr, Inhabited

/-- The schedule state of an order that is not FREE, with the due where one is held (R5, R15). -/
inductive Standing where
  | waiting (due : DateTime)
  | held (due : DateTime)
  | spent
  deriving DecidableEq, Repr, Inhabited

/-- A group membership (R12). -/
structure Member where
  group : Fin 8
  position : Fin 8
  deriving DecidableEq, Repr, Inhabited

/-- The record of an order that is not FREE (spec/01, Table 2-1). Remaining absent is unlimited (R9). -/
structure Order where
  owner : Port
  standing : Standing
  rule : Rule
  remaining : Option Nat
  anchoring : Anchoring
  policy : Policy
  level : Nat
  floor : Nat
  window : Byte
  answering : Port
  member : Option Member
  label : List Byte
  missed : Nat
  tally : Nat
  skipped : Bool
  call : Option Call
  deriving DecidableEq, Repr, Inhabited

/-- A slot: its generation, and its order or FREE (R1, R2). -/
structure Slot where
  generation : BitVec 4
  order : Option Order
  deriving DecidableEq, Repr, Inhabited

/-! ### Groups (spec/08, Table 9-1) -/

/-- The level and answering port of a configured group (R139). -/
structure GroupConfig where
  level : Nat
  answering : Port
  deriving DecidableEq, Repr, Inhabited

/-- A group record. `config` is absent when the group is not configured; `call` absent is NONE (R139). -/
structure Group where
  config : Option GroupConfig
  enable : Byte
  factor : Byte
  positions : Vector (Option (Fin 64)) 8
  call : Option CallState
  deriving DecidableEq, Repr, Inhabited

/-! ### Answer contexts (spec/06) -/

/-- The source an entry or an FNSH names (spec/06, Table 7-1; R117). -/
inductive Source where
  | order (slot : Fin 64) (generation : BitVec 4)
  | group (g : Fin 8)
  deriving DecidableEq, Repr, Inhabited

/-- An acceptance-stack entry (spec/06, Table 7-1). -/
structure Entry where
  source : Source
  level : Nat
  deadline : Option Elapsed
  overdue : Bool
  retired : Bool
  deriving DecidableEq, Repr, Inhabited

/-- An answer context (R106). The head of `stack` is the top entry. -/
structure Context where
  base : Nat
  nesting : Bool
  stack : List Entry
  deriving DecidableEq, Repr, Inhabited

/-! ### Commands and replies (spec/12) -/

/-- The commands of Table A-2. -/
inductive Code where
  | stat | rply | cncl
  | plac | amnd | hold | rsum | rtir | purg | look | list | quot | info
  | take | fnsh | ceil | nest
  | gset | gred | gclr
  | ckrd | ckst | ckad | ckhd | ckrl | ckse
  | alrd | alcl
  deriving DecidableEq, Repr, Inhabited

/-- A command as a unit holds it: its code and argument bytes (R165). -/
structure Command where
  code : Code
  args : List Byte
  deriving DecidableEq, Repr, Inhabited

/-- The reply codes of Table A-3. -/
inductive ReplyCode where
  | done | nothing | cancelled | noReply | notYet
  | noSuchOrder | notPermitted | badArgument | badTime | badRule | tableFull | quotaFull | quotaBelow
  | notWaiting | notHeld | callOutstanding | noSuchGroup | positionTaken | groupInUse
  | stackFull | stackEmpty | notTop | stackNotEmpty | clockUnset | clockLost
  deriving DecidableEq, Repr, Inhabited

/-- A reply: its code and payload bytes (R165). -/
structure Reply where
  code : ReplyCode
  payload : List Byte
  deriving DecidableEq, Repr, Inhabited

/-! ### Command units (spec/10) -/

/-- The command state with what it holds: the held command in PENDING and WORKING, the reply in REPLY (R165). -/
inductive Phase where
  | idle
  | pending (c : Command)
  | working (c : Command)
  | reply (r : Reply)
  deriving DecidableEq, Repr, Inhabited

/-- A command unit (R165). The alert word has bit 0 CLOCK-LOST, bit 1 RETENTION-LOST, bit 2 UNANSWERED,
bit 3 OVERDUE (Table A-4). -/
structure CmdUnit where
  phase : Phase
  refused : Bool
  frameFault : Bool
  restarted : Bool
  discardTable : Bool
  discardClock : Bool
  offer : Bool
  valid : Bool
  alert : BitVec 4
  deriving DecidableEq, Repr, Inhabited

/-! ### The clock (spec/04) -/

/-- The clock states (R69). -/
inductive ClockState where
  | settling
  | running
  | held
  | lost
  deriving DecidableEq, Repr, Inhabited

/-- The calendar clock. `taking` holds, for each port, the clock commands handed over and not yet taken,
oldest first (R73, R180). -/
structure Clock where
  calendar : Calendar
  valid : Bool
  elapsed : Elapsed
  state : ClockState
  divider : Nat
  choice : Nat
  settleTarget : Nat
  settleCount : Nat
  armed : Bool
  taking : PerPort (List Command)
  deriving DecidableEq, Repr, Inhabited

/-! ### The scheduler (spec/05) -/

/-- The scheduler's requests (R31). -/
inductive SchedRequest where
  | fire
  | expire
  deriving DecidableEq, Repr, Inhabited

/-- The clock view of the scheduler (R83). -/
structure ClockView where
  now : DateTime
  valid : Bool
  state : ClockState
  elapsed : Elapsed
  deriving DecidableEq, Repr, Inhabited

/-- The scheduler: its view and request state (R83), and whether it puts no EXPIRE (R155, R158). -/
structure Scheduler where
  head : Option DateTime
  deadline : Option Elapsed
  view : ClockView
  request : Option SchedRequest
  barred : Bool
  deriving DecidableEq, Repr, Inhabited

/-! ### The table (spec/02) -/

/-- The requesters of the arbiter (R28). -/
inductive Requester where
  | unit (p : Port)
  | scheduler
  deriving DecidableEq, Repr, Inhabited

/-- A request as the table serves it (R28, R31). -/
inductive Request where
  | command (p : Port) (c : Command)
  | fire
  | expire
  deriving DecidableEq, Repr, Inhabited

/-- The request in hand, with the calendar, validity and elapsed counter read at its grant (R28, R87, R113, R128). -/
structure InHand where
  request : Request
  now : DateTime
  valid : Bool
  elapsed : Elapsed
  deriving DecidableEq, Repr, Inhabited

/-- The indications that give the table work (R32). -/
inductive Indication where
  | reset
  | backupEntry
  | returnHeld
  deriving DecidableEq, Repr, Inhabited

/-- The order table with its arbiter. `inBackup` is the time between the backup-entry work and the return work (R34). -/
structure Table where
  slots : Vector Slot 64
  groups : Vector Group 8
  quotas : PerPort Nat
  contexts : PerPort Context
  inHand : Option InHand
  waiting : PerPort (Option Command)
  schedWaiting : Option SchedRequest
  lastServed : Requester
  work : List Indication
  inBackup : Bool
  deriving DecidableEq, Repr, Inhabited

/-! ### The links (spec/10) -/

/-- What became of a RPLY request within a port A select period (R176): not judged yet, judged faulty,
or valid with the reply frame it chose, shifted out from byte `start` on; `buffered` says the reply came
from the buffer. -/
inductive RplyJudged where
  | undecided
  | faulty
  | chosen (start : Nat) (frame : List Byte) (buffered : Bool)
  deriving DecidableEq, Repr, Inhabited

/-- A port A select period in progress (R167): the status byte it carries, the whole bytes taken, the bits
taken since, and the judgement of a RPLY. -/
structure Period where
  status : Byte
  bytes : List Byte
  bits : List Bool
  rply : RplyJudged
  deriving DecidableEq, Repr, Inhabited

/-- The SEL line: high, low in a select period the link ignores, or low in a select period (R167). -/
inductive SelectLine where
  | high
  | ignoring
  | period (q : Period)
  deriving DecidableEq, Repr, Inhabited

/-- Port A's link: the select period, and the whole bytes SDO carried in the present or latest one. -/
structure LinkA where
  line : SelectLine
  sdo : List Byte
  deriving DecidableEq, Repr, Inhabited

/-- A port B transfer in progress (R168): none addressed to the part, a write, or a read with the status byte
and reply frame chosen at its start and the number of bits transferred. -/
inductive Transfer where
  | none
  | write (bytes : List Byte) (bits : List Bool)
  | read (status : Byte) (frame : List Byte) (buffered : Bool) (clocked : Nat)
  deriving DecidableEq, Repr, Inhabited

/-- Port B's link: the transfer, the link's answers at the ninth clocks since the latest start condition, the whole
bytes SDA carried from the part in the present or latest read, and the level of ADDR last sampled. `acks` holds one
answer for the address byte, true where it was acknowledged, and one for each data byte of a write addressed to the
part (R168). A byte of another transfer, or one that follows an abandonment, gets no answer and adds none. -/
structure LinkB where
  line : Transfer
  acks : List Bool
  sda : List Byte
  addrHigh : Bool
  deriving DecidableEq, Repr, Inhabited

/-! ### The supply (spec/09) -/

/-- The power state, or without supply (R154). -/
inductive Power where
  | withoutSupply
  | main
  | backup
  deriving DecidableEq, Repr, Inhabited

/-- The retention flag (R154). -/
inductive Retention where
  | held
  | lost
  deriving DecidableEq, Repr, Inhabited

/-- The state of the blocks that the backup supply retains or loses (R157). -/
structure Blocks where
  clock : Clock
  sched : Scheduler
  table : Table
  units : PerPort CmdUnit
  deriving DecidableEq, Repr, Inhabited

end Sys2Proof.Machine
end

