-- ==== Sys2Proof/Config.lean ====
section
/-! DEFINITION. What the manual fixes as numbers, and the free value it leaves open. -/

namespace Sys2Proof.Config

/-- The largest second number, 2099-12-31 23:59:59 (R62). -/
def maxSecond : Nat := 3155759999

/-- The largest day number, 2099-12-31 (R61). -/
def maxDay : Nat := 36524

/-- The largest month count, December 2099 (R91). -/
def maxMonth : Nat := 1199

/-- Crystal cycles in one second (R68). -/
def dividerModulus : Nat := 32768

/-- The crystal cycles of each settle choice (Table 5-4). -/
def settleCycles (choice : Nat) : Nat := 8192 * 2 ^ choice

/-- The largest settle choice (Table 5-4). -/
def maxChoice : Nat := 4

/-- The largest adjustment of CKAD, in seconds (R78). -/
def maxAdjustment : Int := 7200

/-- The most entries an acceptance stack holds (R108). -/
def stackDepth : Nat := 4

/-- The largest quota (R25). -/
def maxQuota : Nat := 64

/-- Missed stays at this value (R13). -/
def maxMissed : Nat := 15

/-- Tally stays at this value (R13). -/
def maxTally : Nat := 65535

/-- The most argument bytes of a request frame (R166). -/
def maxArgs : Nat := 40

/-- The most bytes of a label (R12). -/
def maxLabel : Nat := 12

/-- A deadline is running while its difference lies from 1 to this value (R128). -/
def maxRunning : Nat := 255

/-- The hold level of VBAT in millivolts (Table A-8). -/
def holdLevel : Nat := 1800

/-- FREE VALUE (entry 6): the state of the blocks once retention is lost or the part is without supply.
R157 says it can no longer be relied upon, R154 that the part holds no state. Applied to State.freeCount. -/
opaque unreliableBlocks : Nat → Machine.Blocks

end Sys2Proof.Config
end

