-- ==== Sys2Proof/Machine/Flags.lean ====
section
/-! DEFINITION. The flags of a command unit: status byte, sticky flags, alert word, discard marker. -/

namespace Sys2Proof.Machine

/-- The bits of the alert word (R161). -/
inductive AlertBit where
  | clockLost
  | retentionLost
  | unanswered
  | overdue
  deriving DecidableEq, Repr

/-- The place of an alert bit in the word (Table A-4). -/
def AlertBit.mask : AlertBit → BitVec 4
  | .clockLost => 1#4
  | .retentionLost => 2#4
  | .unanswered => 4#4
  | .overdue => 8#4

/-- A setting of an alert bit; a bit already set stays set (R161). -/
def CmdUnit.setAlert (u : CmdUnit) (b : AlertBit) : CmdUnit := { u with alert := u.alert ||| b.mask }

/-- ALCL clears the bits named and keeps the others (R163). -/
def CmdUnit.clearAlert (u : CmdUnit) (set : BitVec 4) : CmdUnit := { u with alert := u.alert &&& ~~~set }

/-- The command state is REPLY (R170). -/
def Phase.ready : Phase → Bool
  | .reply _ => true
  | _ => false

/-- The command state is PENDING or WORKING (R170). -/
def Phase.busy : Phase → Bool
  | .pending _ => true
  | .working _ => true
  | _ => false

/-- The word of a port is not 0 (R164). -/
def CmdUnit.alerting (u : CmdUnit) : Bool := u.alert != 0#4

/-- One bit of a byte, at its place. -/
def bitAt (place : Nat) (b : Bool) : Byte := if b then 1#8 <<< place else 0#8

/-- The status byte (R170; Table A-1). -/
def CmdUnit.status (u : CmdUnit) : Byte :=
  bitAt 7 u.phase.ready ||| bitAt 6 u.phase.busy ||| bitAt 5 u.refused ||| bitAt 4 u.frameFault
    ||| bitAt 3 u.offer ||| bitAt 2 u.alerting ||| bitAt 1 u.valid ||| bitAt 0 u.restarted

/-- The end of a transaction that reported `status` clears the sticky flags that read 1 in it (R171). -/
def CmdUnit.clearReported (u : CmdUnit) (status : Byte) : CmdUnit :=
  { u with
    refused := u.refused && !status.getLsbD 5
    frameFault := u.frameFault && !status.getLsbD 4
    restarted := u.restarted && !status.getLsbD 0 }

/-- The blocks that hand replies to a unit (R165). -/
inductive Block where
  | table
  | clock
  deriving DecidableEq, Repr

/-- The discard marker holds the block (R165). -/
def CmdUnit.discards (u : CmdUnit) : Block → Bool
  | .table => u.discardTable
  | .clock => u.discardClock

/-- The discard marker with a block put in or taken out (R174, R180). -/
def CmdUnit.markDiscard (u : CmdUnit) (b : Block) (on : Bool) : CmdUnit :=
  match b with
  | .table => { u with discardTable := on }
  | .clock => { u with discardClock := on }

/-- The block that carries out a command routed past the unit (R173; Table 11-2). -/
def Code.block : Code → Block
  | .ckrd | .ckst | .ckhd | .ckrl | .ckse => .clock
  | .stat | .rply | .cncl | .plac | .amnd | .hold | .rsum | .rtir | .purg | .look | .list | .quot | .info
  | .take | .fnsh | .ceil | .nest | .gset | .gred | .gclr | .ckad | .alrd | .alcl => .table

/-- A reply handed to a unit by a block (R174). Where the marker holds the block the reply is thrown away and
the block leaves the marker. Where the unit is WORKING on a command of that block the reply is placed in the
buffer. A reply no command waits for is dropped (DESIGN CHOICE, entry 14). -/
def CmdUnit.takeReply (u : CmdUnit) (b : Block) (r : Reply) : CmdUnit :=
  if u.discards b then u.markDiscard b false
  else
    match u.phase with
    | .working c => if c.code.block = b then { u with phase := .reply r } else u
    | .idle | .pending _ | .reply _ => u

/-- A unit as the RESET line or backup entry resets it (R180, R181): a WORKING command adds its block to the
marker, the command state becomes IDLE with nothing held and an empty buffer, REFUSED and FRAME-FAULT are
cleared and RESTARTED is set. -/
def CmdUnit.reset (u : CmdUnit) : CmdUnit :=
  let v := match u.phase with
    | .working c => u.markDiscard c.code.block true
    | .idle | .pending _ | .reply _ => u
  { v with phase := .idle, refused := false, frameFault := false, restarted := true }

/-- A unit as it comes up at the return announcement, retention held (R158, R181). The alert word, the
indications and the discard marker are kept. -/
def CmdUnit.comeUp (u : CmdUnit) : CmdUnit :=
  { u with phase := .idle, refused := false, frameFault := false, restarted := true }

/-- The call line of a unit is asserted in MAIN while its offer indication is yes or its alert word is not 0,
and released in BACKUP (R179). R179 names no other supply state: a part without supply is taken to release its call
lines, whatever the free values of the offer and the alert word (DESIGN CHOICE, entry 23). -/
def CmdUnit.callLine (u : CmdUnit) (power : Power) : Bool := power = .main && (u.offer || u.alerting)

end Sys2Proof.Machine
end

