-- ==== Sys2Proof/Machine/Calendar.lean ====
section
/-! DEFINITION. Calendar arithmetic: month lengths, day and second numbers, weekdays, the calendar step. -/

namespace Sys2Proof.Machine

/-- Leap years of 2000 to 2099 (R60). -/
def isLeap (year : Nat) : Bool := year % 4 == 0

/-- Month lengths (Table 5-1). -/
def monthLength (year month : Nat) : Nat :=
  match month with
  | 2 => if isLeap year then 29 else 28
  | 4 => 30
  | 6 => 30
  | 9 => 30
  | 11 => 30
  | _ => 31

/-- The days of a year (R60). -/
def yearLength (year : Nat) : Nat := if isLeap year then 366 else 365

/-- The number of leap years from 2000 up to the year before (R61). -/
def leapsBefore (year : Nat) : Nat := (year - 2000 + 3) / 4

/-- The days of the first `n` months of a year (R61). -/
def daysOfMonths (year : Nat) : Nat → Nat
  | 0 => 0
  | n + 1 => daysOfMonths year n + monthLength year (n + 1)

/-- The day number of a date (R61). -/
def dayNumber (d : DateTime) : Nat :=
  365 * (d.year - 2000) + leapsBefore d.year + daysOfMonths d.year (d.month - 1) + (d.day - 1)

/-- The weekday of a day number (R61). -/
def weekdayOfDay (n : Nat) : Nat := (n + 5) % 7 + 1

/-- The weekday of a date (R61). -/
def weekdayOf (d : DateTime) : Nat := weekdayOfDay (dayNumber d)

/-- The seconds of the day a time stands at (R62). -/
def secondOfDay (d : DateTime) : Nat := 3600 * d.hour + 60 * d.minute + d.second

/-- The second number of a date and time (R62). -/
def secondNumber (d : DateTime) : Nat := 86400 * dayNumber d + secondOfDay d

/-- The year that holds the `n`-th day from the start of `year`, with the day left within it. -/
def splitYears : Nat → Nat → Nat → Nat × Nat
  | 0, year, n => (year, n)
  | fuel + 1, year, n =>
    if n < yearLength year then (year, n) else splitYears fuel (year + 1) (n - yearLength year)

/-- The month that holds the `n`-th day from the start of `month`, with the day left within it. -/
def splitMonths (year : Nat) : Nat → Nat → Nat → Nat × Nat
  | 0, month, n => (month, n)
  | fuel + 1, month, n =>
    if n < monthLength year month then (month, n)
    else splitMonths year fuel (month + 1) (n - monthLength year month)

/-- The date of a day number with a second of the day: the inverse of `secondNumber` (R62). -/
def ofDayAndSecond (day second : Nat) : DateTime :=
  let y := splitYears 99 2000 day
  let m := splitMonths y.1 11 1 y.2
  { year := y.1, month := m.1, day := m.2 + 1
    hour := second / 3600, minute := second % 3600 / 60, second := second % 60 }

/-- The date and time of a second number (R62). -/
def ofSecondNumber (n : Nat) : DateTime := ofDayAndSecond (n / 86400) (n % 86400)

/-- A real date and time of the calendar range (R59; Table 2-3, class 1). -/
def DateTime.real (d : DateTime) : Bool :=
  2000 ≤ d.year && d.year ≤ 2099 && 1 ≤ d.month && d.month ≤ 12
    && 1 ≤ d.day && d.day ≤ monthLength d.year d.month
    && d.hour ≤ 23 && d.minute ≤ 59 && d.second ≤ 59

/-- The start of the calendar range, 2000-01-01 00:00:00 (R59). -/
def rangeStart : DateTime := ⟨2000, 1, 1, 0, 0, 0⟩

/-- `d` lies at or before `e` (R62). -/
def DateTime.atOrBefore (d e : DateTime) : Bool := secondNumber d ≤ secondNumber e

/-- A date and time with the weekday derived from it (R59, R61). -/
def Calendar.ofDateTime (d : DateTime) : Calendar := ⟨d, weekdayOf d⟩

/-- The law of the calendar: a real date and time with the weekday that belongs to it (R59). -/
def Calendar.lawful (c : Calendar) : Bool := c.now.real && c.weekday == weekdayOf c.now

/-- A weekday advanced by one day (R64, step 3). -/
def nextWeekday (w : Nat) : Nat := if w = 7 then 1 else w + 1

/-- The calendar step (R64), or none where it is the wrap of R65. -/
def Calendar.next (c : Calendar) : Option Calendar :=
  let d := c.now
  if d.second < 59 then some { c with now := { d with second := d.second + 1 } }
  else if d.minute < 59 then some { c with now := { d with minute := d.minute + 1, second := 0 } }
  else if d.hour < 23 then some { c with now := { d with hour := d.hour + 1, minute := 0, second := 0 } }
  else
    let w := nextWeekday c.weekday
    if d.day < monthLength d.year d.month then some ⟨⟨d.year, d.month, d.day + 1, 0, 0, 0⟩, w⟩
    else if d.month < 12 then some ⟨⟨d.year, d.month + 1, 1, 0, 0, 0⟩, w⟩
    else if d.year < 2099 then some ⟨⟨d.year + 1, 1, 1, 0, 0, 0⟩, w⟩
    else none

end Sys2Proof.Machine
end

