-- ==== Sys2Proof/Machine/Occurrence.lean ====
section
/-! DEFINITION. The occurrences of an order: how many a firing passed, and the next due (R89 to R92). -/

namespace Sys2Proof.Machine

/-- What a firing finds (R89): `k`, the later occurrences at or before N, and the next due after N. -/
structure Passed where
  k : Nat
  next : Option DateTime
  deriving DecidableEq, Repr

/-- The duration of an INTERVAL rule in seconds (R90). -/
def intervalSeconds (days hours minutes seconds : Nat) : Nat :=
  86400 * days + 3600 * hours + 60 * minutes + seconds

/-- Occurrences passed by an INTERVAL rule of `len` seconds (R90). -/
def passedInterval (len : Nat) (due now : DateTime) : Passed :=
  let k := (secondNumber now - secondNumber due) / len
  let sum := secondNumber due + (k + 1) * len
  ⟨k, if sum ≤ Config.maxSecond then some (ofSecondNumber sum) else none⟩

/-- The month count of a date (R91). -/
def monthCount (d : DateTime) : Nat := 12 * (d.year - 2000) + (d.month - 1)

/-- The `j`-th later occurrence of a MONTHLY rule, or none beyond December 2099 (R63, R91). -/
def monthlyOccurrence (step day : Nat) (due : DateTime) (j : Nat) : Option DateTime :=
  let m := monthCount due + j * step
  if Config.maxMonth < m then none
  else
    let year := 2000 + m / 12
    let month := m % 12 + 1
    some { due with year := year, month := month, day := min day (monthLength year month) }

/-- Counts the occurrences of a MONTHLY rule from the `j`-th on that lie at or before `now` (R91). -/
def scanMonthly (step day : Nat) (due now : DateTime) : Nat → Nat → Nat → Passed
  | 0, _, k => ⟨k, none⟩
  | fuel + 1, j, k =>
    match monthlyOccurrence step day due j with
    | none => ⟨k, none⟩
    | some o => if o.atOrBefore now then scanMonthly step day due now fuel (j + 1) (k + 1) else ⟨k, some o⟩

/-- Whether a weekday is in a WEEKDAYS set: bit d for weekday d (R8; Table A-4). -/
def inWeekdaySet (set : Byte) (weekday : Nat) : Bool := set.getLsbD weekday

/-- Counts the occurrences of a WEEKDAYS rule from day number `day` on that lie at or before `now` (R92). -/
def scanWeekdays (set : Byte) (second nowSecond : Nat) : Nat → Nat → Nat → Passed
  | 0, _, k => ⟨k, none⟩
  | fuel + 1, day, k =>
    if Config.maxDay < day then ⟨k, none⟩
    else if inWeekdaySet set (weekdayOfDay day) then
      if 86400 * day + second ≤ nowSecond then scanWeekdays set second nowSecond fuel (day + 1) (k + 1)
      else ⟨k, some (ofDayAndSecond day second)⟩
    else scanWeekdays set second nowSecond fuel (day + 1) k

/-- The occurrences a firing at `now` of an order due at `due` passed, and its next due (R89 to R92).
The fuel of each scan is the length of the calendar range, so a scan never runs out of it. -/
def passed (rule : Rule) (due now : DateTime) : Passed :=
  match rule with
  | .single => ⟨0, none⟩
  | .interval d h m s => passedInterval (intervalSeconds d h m s) due now
  | .monthly step day => scanMonthly step day due now 1200 1 0
  | .weekdays set => scanWeekdays set (secondOfDay due) (secondNumber now) 36526 (dayNumber due + 1) 0

end Sys2Proof.Machine
end

