-- ==== Sys2Proof/Machine/Operands.lean ====
section
/-! DEFINITION. Field encodings, argument layouts and frames: what the bytes of requests and replies mean
(spec/12, Tables A-2 to A-6; R166, R184 to R186). -/

namespace Sys2Proof.Machine

/-! ### Small readings of bytes -/

/-- A number as a byte. -/
def byteOf (n : Nat) : Byte := BitVec.ofNat 8 n

/-- A byte that names one of `k` things by number. -/
def finOf (k : Nat) (b : Byte) : Option (Fin k) := if h : b.toNat < k then some ⟨b.toNat, h⟩ else none

/-- The byte at an index of the arguments, 0 past their end. -/
def byteAt (args : List Byte) (i : Nat) : Byte := args.getD i 0

/-- A number as two bytes, most significant first (spec/12; R186). -/
def bytes2 (n : Nat) : List Byte := [byteOf (n / 256), byteOf n]

/-- An elapsed-second value as four bytes, most significant first (R186). -/
def bytes4 (e : Elapsed) : List Byte :=
  [byteOf (e.toNat / 16777216), byteOf (e.toNat / 65536), byteOf (e.toNat / 256), byteOf e.toNat]

/-- Yes/no and on/off: 0x00 no or off, 0x01 yes or on (Table A-4). -/
def flagOf (b : Byte) : Option Bool :=
  match b.toNat with
  | 0 => some false
  | 1 => some true
  | _ => none

/-- The byte of a yes/no field (Table A-4). -/
def flagByte (b : Bool) : Byte := if b then 1 else 0

/-- A port byte, 0x00 A, 0x01 B (Table A-4). -/
def portOf (b : Byte) : Option Port :=
  match b.toNat with
  | 0 => some .A
  | 1 => some .B
  | _ => none

/-- The byte of a port (Table A-4). -/
def portByte : Port → Byte
  | .A => 0
  | .B => 1

/-! ### Times -/

/-- Two BCD digits: each half a decimal digit (R184). -/
def bcdOf (b : Byte) : Option Nat :=
  let hi := b.toNat / 16
  let lo := b.toNat % 16
  if hi ≤ 9 && lo ≤ 9 then some (10 * hi + lo) else none

/-- A number of two digits in BCD (Table A-4). -/
def bcdByte (n : Nat) : Byte := byteOf (16 * (n / 10) + n % 10)

/-- A time of a request: six BCD bytes that make a real date and time (Table A-4; Table 2-3, class 1). -/
def timeOf (bytes : List Byte) : Option DateTime :=
  match bytes.map bcdOf with
  | [some y, some mo, some d, some h, some mi, some s] =>
    let t : DateTime := ⟨2000 + y, mo, d, h, mi, s⟩
    if t.real then some t else none
  | _ => none

/-- A time of a reply: the six request bytes, then the weekday (Table A-4). -/
def timeBytes (d : DateTime) (weekday : Nat) : List Byte :=
  [bcdByte (d.year - 2000), bcdByte d.month, bcdByte d.day, bcdByte d.hour, bcdByte d.minute, bcdByte d.second,
    byteOf weekday]

/-- A due in a reply, its weekday derived from the date (R5). -/
def dueBytes (d : DateTime) : List Byte := timeBytes d (weekdayOf d)

/-- The calendar in a reply. -/
def Calendar.bytes (c : Calendar) : List Byte := timeBytes c.now c.weekday

/-! ### The fields of an order -/

/-- A repeat rule of a request: its kind and four parameter bytes, checked by class 2 of Table 2-3. The
parameters of another kind are neither checked nor kept (R14). -/
def ruleOf (bytes : List Byte) : Option Rule :=
  match bytes.map BitVec.toNat with
  | [0, _, _, _, _] => some .single
  | [1, d, h, m, s] =>
    if d ≤ 99 && h ≤ 23 && m ≤ 59 && s ≤ 59 && (d != 0 || h != 0 || m != 0 || s != 0) then
      some (.interval d h m s) else none
  | [2, step, day, _, _] =>
    if 1 ≤ step && step ≤ 12 && 1 ≤ day && day ≤ 31 then some (.monthly step day) else none
  | [3, set, _, _, _] => if set != 0 && set % 2 == 0 then some (.weekdays (byteOf set)) else none
  | _ => none

/-- A repeat rule in LOOK, parameters the kind does not use reported as 0 (Table A-6). -/
def ruleBytes : Rule → List Byte
  | .single => [0, 0, 0, 0, 0]
  | .interval d h m s => [1, byteOf d, byteOf h, byteOf m, byteOf s]
  | .monthly step day => [2, byteOf step, byteOf day, 0, 0]
  | .weekdays set => [3, set, 0, 0, 0]

/-- Remaining in a request: 0 stands for unlimited (R9). -/
def remainingOf (b : Byte) : Option Nat := if b = 0 then none else some b.toNat

/-- Anchoring (Table A-4). -/
def anchoringOf (b : Byte) : Option Anchoring :=
  match b.toNat with
  | 0 => some .wall
  | 1 => some .elapsed
  | _ => none

/-- The byte of the anchoring (Table A-4). -/
def anchoringByte : Anchoring → Byte
  | .wall => 0
  | .elapsed => 1

/-- Catch-up policy (Table A-4). -/
def policyOf (b : Byte) : Option Policy :=
  match b.toNat with
  | 0 => some .gather
  | 1 => some .drop
  | _ => none

/-- The byte of the policy (Table A-4). -/
def policyByte : Policy → Byte
  | .gather => 0
  | .drop => 1

/-- The level of an order, 0 to 7 (R11). -/
def levelOf (b : Byte) : Option Nat := if b.toNat ≤ 7 then some b.toNat else none

/-- A floor, and the level of a group: 0 to 6 (R11, R144). -/
def floorOf (b : Byte) : Option Nat := if b.toNat ≤ 6 then some b.toNat else none

/-- The answering port of PLAC and AMND: A, B, or default, which is the owner (R4, R184). -/
def answeringOf (owner : Port) (b : Byte) : Option Port :=
  match b.toNat with
  | 0 => some .A
  | 1 => some .B
  | 2 => some owner
  | _ => none

/-- A group membership: a group and position, or 0xFF for none with the position byte unread (Table A-4).
The outer option is absent where a byte lies outside its encoding. -/
def memberOf (group position : Byte) : Option (Option Member) :=
  if group = 0xFF then some none
  else
    match finOf 8 group, finOf 8 position with
    | some g, some p => some (some ⟨g, p⟩)
    | _, _ => none

/-- The bytes of a membership. None is the group byte 0xFF, and the absent position is 0xFF (Table A-4; R186). -/
def memberBytes : Option Member → List Byte
  | none => [0xFF, 0xFF]
  | some m => [byteOf m.group.val, byteOf m.position.val]

/-- A label of a request: its length, 0 to 12, and exactly that many bytes (Table A-4). -/
def labelOf (bytes : List Byte) : Option (List Byte) :=
  match bytes with
  | [] => none
  | l :: rest => if l.toNat ≤ Config.maxLabel && rest.length == l.toNat then some rest else none

/-- The bytes of a handle (Table A-4). -/
def handleBytes (slot : Fin 64) (generation : BitVec 4) : List Byte :=
  [byteOf slot.val, byteOf generation.toNat]

/-- The schedule state of an order in a reply (Table A-4). -/
def Standing.byte : Standing → Byte
  | .waiting _ => 0
  | .held _ => 1
  | .spent => 2

/-- The due of an order, absent when SPENT (R5). -/
def Standing.due : Standing → Option DateTime
  | .waiting d => some d
  | .held d => some d
  | .spent => none

/-- The state byte of an order's or a group's call, 0x00 absent or NONE (Table A-4). -/
def callByte : Option CallState → Byte
  | none => 0
  | some .raised => 1
  | some .taken => 2

/-- The state byte of the clock (Table A-5, CKRD). -/
def ClockState.byte : ClockState → Byte
  | .settling => 0
  | .running => 1
  | .held => 2
  | .lost => 3

/-! ### PLAC -/

/-- The arguments of a PLAC that pass its field checks (R36). -/
structure PlacArgs where
  due : DateTime
  rule : Rule
  remaining : Option Nat
  anchoring : Anchoring
  policy : Policy
  level : Nat
  floor : Nat
  window : Byte
  answering : Port
  member : Option Member
  label : List Byte
  deriving DecidableEq, Repr

/-- The argument count of PLAC: 21 plus the label length carried in the 21st byte (R185). -/
def placCount (args : List Byte) : Bool := 21 ≤ args.length && args.length == 21 + (byteAt args 20).toNat

/-- The checks of class 3 over the arguments of a PLAC, once the due and the rule passed theirs (Table 2-3). -/
def placFields (owner : Port) (args : List Byte) (due : DateTime) (rule : Rule) : Option PlacArgs :=
  match anchoringOf (byteAt args 12), policyOf (byteAt args 13), levelOf (byteAt args 14), floorOf (byteAt args 15),
      answeringOf owner (byteAt args 17), memberOf (byteAt args 18) (byteAt args 19), labelOf (args.drop 20) with
  | some an, some po, some lv, some fl, some port, some mem, some label =>
    if fl ≤ lv then
      some ⟨due, rule, remainingOf (byteAt args 11), an, po, lv, fl, byteAt args 16, port, mem, label⟩
    else none
  | _, _, _, _, _, _, _ => none

/-- The field checks of PLAC in their order (R14, R37; Table 2-3): the argument count, then BAD-TIME, then
BAD-RULE, then BAD-ARGUMENT. -/
def placDecode (owner : Port) (args : List Byte) : Except ReplyCode PlacArgs :=
  if placCount args then
    match timeOf (args.take 6) with
    | none => .error .badTime
    | some due =>
      match ruleOf ((args.drop 6).take 5) with
      | none => .error .badRule
      | some rule =>
        match placFields owner args due rule with
        | none => .error .badArgument
        | some a => .ok a
  else .error .badArgument

/-! ### AMND -/

/-- The changes an AMND selects; a field absent is not selected (R40). -/
structure Amend where
  due : Option DateTime
  rule : Option Rule
  remaining : Option (Option Nat)
  anchoring : Option Anchoring
  policy : Option Policy
  level : Option Nat
  floor : Option Nat
  window : Option Byte
  answering : Option Port
  member : Option (Option Member)
  label : Option (List Byte)
  deriving DecidableEq, Repr

/-- The bytes of each selectable field but the label, by its bit in the select set (R185). -/
def fieldLength (bit : Nat) : Nat :=
  match bit with
  | 0 => 6
  | 1 => 5
  | 9 => 2
  | _ => 1

/-- Where the field of a bit begins among the bytes after the select set: after the selected fields of lower
bits (R185). -/
def fieldOffset (sel : BitVec 16) : Nat → Nat
  | 0 => 0
  | bit + 1 => fieldOffset sel bit + if sel.getLsbD bit then fieldLength bit else 0

/-- The bytes of a selected field. -/
def fieldBytes (sel : BitVec 16) (rest : List Byte) (bit : Nat) : List Byte :=
  (rest.drop (fieldOffset sel bit)).take (fieldLength bit)

/-- A field is selected and its bytes are all there. -/
def fieldWhole (sel : BitVec 16) (rest : List Byte) (bit : Nat) : Bool :=
  sel.getLsbD bit && fieldOffset sel bit + fieldLength bit ≤ rest.length

/-- The bytes after the select set agree with the fields it names (R14, R185). -/
def amndAgrees (sel : BitVec 16) (rest : List Byte) : Bool :=
  if sel.getLsbD 10 then
    fieldOffset sel 10 + 1 ≤ rest.length
      && rest.length == fieldOffset sel 10 + 1 + (byteAt rest (fieldOffset sel 10)).toNat
  else rest.length == fieldOffset sel 10

/-- A selected field read by its encoding: absent if not selected; the outer option is absent where the
bytes lie outside the encoding. -/
def selected {α : Type} (sel : BitVec 16) (bit : Nat) (read : Option α) : Option (Option α) :=
  if sel.getLsbD bit then read.map some else some none

/-- The record would stand WAITING or HELD holding remaining 0 (R14, class 3): a SPENT order given a due
without a count, or an order not SPENT whose count stands at 0. -/
def amndStarved (o : Order) (a : Amend) : Bool :=
  (o.standing != .spent || a.due.isSome) && a.remaining.getD o.remaining == some 0

/-- The first byte of a selected field of one byte. -/
def fieldByte (sel : BitVec 16) (rest : List Byte) (bit : Nat) : Byte := byteAt rest (fieldOffset sel bit)

/-- The checks of class 3 over an AMND, against the record as it would stand (R14; Table 2-3). -/
def amndFields (o : Order) (sel : BitVec 16) (rest : List Byte) (due : Option DateTime) (rule : Option Rule) :
    Option Amend :=
  if amndAgrees sel rest then
    match selected sel 3 (anchoringOf (fieldByte sel rest 3)), selected sel 4 (policyOf (fieldByte sel rest 4)),
        selected sel 5 (levelOf (fieldByte sel rest 5)), selected sel 6 (floorOf (fieldByte sel rest 6)),
        selected sel 8 (answeringOf o.owner (fieldByte sel rest 8)),
        selected sel 9 (memberOf (fieldByte sel rest 9) (byteAt rest (fieldOffset sel 9 + 1))),
        selected sel 10 (labelOf (rest.drop (fieldOffset sel 10))) with
    | some an, some po, some lv, some fl, some port, some mem, some label =>
      let a : Amend :=
        { due := due, rule := rule
          remaining := if sel.getLsbD 2 then some (remainingOf (fieldByte sel rest 2)) else none
          anchoring := an, policy := po, level := lv, floor := fl
          window := if sel.getLsbD 7 then some (fieldByte sel rest 7) else none
          answering := port, member := mem, label := label }
      if fl.getD o.floor ≤ lv.getD o.level && !amndStarved o a then some a else none
    | _, _, _, _, _, _, _ => none
  else none

/-- The field checks of AMND in their order (R14, R40): BAD-TIME, then BAD-RULE, then BAD-ARGUMENT. A due or a rule
is examined by its class where its bytes are all there; where they are cut short the disagreement of the bytes
with the select set decides, in class 3 (DESIGN CHOICE, entry 11). -/
def amndDecode (o : Order) (sel : BitVec 16) (rest : List Byte) : Except ReplyCode Amend :=
  let due := if fieldWhole sel rest 0 then timeOf (fieldBytes sel rest 0) else none
  let rule := if fieldWhole sel rest 1 then ruleOf (fieldBytes sel rest 1) else none
  if fieldWhole sel rest 0 && due.isNone then .error .badTime
  else if fieldWhole sel rest 1 && rule.isNone then .error .badRule
  else
    match amndFields o sel rest due rule with
    | none => .error .badArgument
    | some a => .ok a

/-! ### LIST, FNSH and CKAD -/

/-- The state filter of LIST (R56). -/
inductive StateFilter where
  | waiting
  | held
  | spent
  | any
  deriving DecidableEq, Repr

/-- The group filter of LIST (R56). -/
inductive GroupFilter where
  | any
  | none
  | group (g : Fin 8)
  deriving DecidableEq, Repr

/-- The filters of LIST; an absent owner is any (R56). -/
structure Filters where
  owner : Option Port
  state : StateFilter
  group : GroupFilter
  deriving DecidableEq, Repr

/-- The owner filter: A, B, or 0x02 any (Table A-4). -/
def ownerFilterOf (b : Byte) : Option (Option Port) :=
  match b.toNat with
  | 0 => some (some .A)
  | 1 => some (some .B)
  | 2 => some none
  | _ => none

/-- The state filter (Table A-4). -/
def stateFilterOf (b : Byte) : Option StateFilter :=
  match b.toNat with
  | 0 => some .waiting
  | 1 => some .held
  | 2 => some .spent
  | 3 => some .any
  | _ => none

/-- The group filter: a group, 0xFE none, 0xFF any (R184). -/
def groupFilterOf (b : Byte) : Option GroupFilter :=
  if b = 0xFF then some .any
  else if b = 0xFE then some .none
  else (finOf 8 b).map .group

/-- The arguments of LIST (R56; Table A-5). -/
def filtersOf (args : List Byte) : Option Filters :=
  match args with
  | [o, s, g] =>
    match ownerFilterOf o, stateFilterOf s, groupFilterOf g with
    | some o, some s, some g => some ⟨o, s, g⟩
    | _, _, _ => none
  | _ => none

/-- The source of an FNSH: an order slot with its generation, or 0x40 + g with the generation unread (R117, R184). -/
def sourceOf (source generation : Byte) : Option Source :=
  match finOf 64 source with
  | some i => if generation.toNat < 16 then some (.order i (BitVec.ofNat 4 generation.toNat)) else none
  | none => (finOf 8 (source - 0x40)).map .group

/-- The arguments of FNSH: the source and the hold-after option, which may be yes for an order alone (R117). -/
def fnshArgs (args : List Byte) : Option (Source × Bool) :=
  match args with
  | [s, g, h] =>
    match sourceOf s g, flagOf h with
    | some (.order i gen), some hold => some (.order i gen, hold)
    | some (.group gr), some hold => if hold then none else some (.group gr, hold)
    | _, _ => none
  | _ => none

/-- A source as the FNSH reply names it, the generation byte 0 for a group (R186). -/
def Source.bytes : Source → List Byte
  | .order i gen => handleBytes i gen
  | .group g => [byteOf (64 + g.val), 0]

/-- The adjustment of CKAD: two bytes, two's complement, −7200 to +7200 (R78, R184). -/
def adjustmentOf (args : List Byte) : Option Int :=
  match args with
  | [hi, lo] =>
    let n := (hi ++ lo : BitVec 16).toInt
    if -Config.maxAdjustment ≤ n && n ≤ Config.maxAdjustment then some n else none
  | _ => none

/-! ### Codes and frames -/

/-- The command codes (Table A-2). -/
def Code.byte : Code → Byte
  | .stat => 0x00
  | .rply => 0x01
  | .cncl => 0x02
  | .plac => 0x10
  | .amnd => 0x11
  | .hold => 0x12
  | .rsum => 0x13
  | .rtir => 0x14
  | .purg => 0x15
  | .look => 0x16
  | .list => 0x17
  | .quot => 0x18
  | .info => 0x19
  | .take => 0x20
  | .fnsh => 0x21
  | .ceil => 0x22
  | .nest => 0x23
  | .gset => 0x30
  | .gred => 0x31
  | .gclr => 0x32
  | .ckrd => 0x40
  | .ckst => 0x41
  | .ckad => 0x42
  | .ckhd => 0x43
  | .ckrl => 0x44
  | .ckse => 0x45
  | .alrd => 0x50
  | .alcl => 0x51

/-- Every command code (Table A-2). -/
def Code.all : List Code :=
  [.stat, .rply, .cncl, .plac, .amnd, .hold, .rsum, .rtir, .purg, .look, .list, .quot, .info,
    .take, .fnsh, .ceil, .nest, .gset, .gred, .gclr, .ckrd, .ckst, .ckad, .ckhd, .ckrl, .ckse, .alrd, .alcl]

/-- The command a code byte names, if any (R169). -/
def codeOf (b : Byte) : Option Code := Code.all.find? fun c => c.byte == b

/-- The reply codes (Table A-3). -/
def ReplyCode.byte : ReplyCode → Byte
  | .done => 0x00
  | .nothing => 0x01
  | .cancelled => 0x02
  | .noReply => 0x03
  | .notYet => 0x04
  | .noSuchOrder => 0x10
  | .notPermitted => 0x11
  | .badArgument => 0x12
  | .badTime => 0x13
  | .badRule => 0x14
  | .tableFull => 0x15
  | .quotaFull => 0x16
  | .quotaBelow => 0x17
  | .notWaiting => 0x18
  | .notHeld => 0x19
  | .callOutstanding => 0x20
  | .noSuchGroup => 0x21
  | .positionTaken => 0x22
  | .groupInUse => 0x23
  | .stackFull => 0x24
  | .stackEmpty => 0x25
  | .notTop => 0x26
  | .stackNotEmpty => 0x27
  | .clockUnset => 0x28
  | .clockLost => 0x29

/-- A DONE reply with its payload. -/
def Reply.done (payload : List Byte) : Reply := ⟨.done, payload⟩

/-- A reply of length 0: a refusal, NOTHING, CANCELLED, NO-REPLY or NOT-YET (spec/12, A-3). -/
def Reply.bare (c : ReplyCode) : Reply := ⟨c, []⟩

/-- The 8-bit sum of bytes (R166). -/
def byteSum (bytes : List Byte) : Byte := bytes.foldr (· + ·) 0

/-- Bytes with the check byte that makes their sum 0 (R166). -/
def withCheck (bytes : List Byte) : List Byte := bytes ++ [-(byteSum bytes)]

/-- The request frame of a command (R166). -/
def requestBytes (c : Code) (args : List Byte) : List Byte := withCheck (c.byte :: byteOf args.length :: args)

/-- The reply frame of a reply (R166). -/
def Reply.frame (r : Reply) : List Byte := withCheck (r.code.byte :: byteOf r.payload.length :: r.payload)

/-- The judgement of a frame by its bytes (R169): the command it holds, or none for a faulty frame. -/
def judgeFrame (p : Port) (bytes : List Byte) : Option Command :=
  match bytes with
  | code :: n :: rest =>
    if n.toNat ≤ Config.maxArgs && rest.length == n.toNat + 1 && byteSum bytes == 0 then
      match codeOf code with
      | some c => if p = .B ∧ c = .rply then none else some ⟨c, rest.take n.toNat⟩
      | none => none
    else none
  | _ => none

end Sys2Proof.Machine
end

