-- ==== Sys2Proof/Machine/PowerOn.lean ====
section
/-! DEFINITION. The power-on values of the blocks. -/

namespace Sys2Proof.Machine

/-- The clock at power-on (R82; Table 5-5): settling by choice 3 from a count of 0, the loss detector not yet
armed (R70, R71), 2000-01-01 00:00:00 (Sat), UNSET. -/
def Clock.powerOn : Clock :=
  { calendar := ⟨rangeStart, 6⟩, valid := false, elapsed := 0, state := .settling, divider := 0, choice := 3
    settleTarget := Config.settleCycles 3, settleCount := 0, armed := false, taking := ⟨[], []⟩ }

/-- The clock view of a clock, as the clock presents it (R72, R83). -/
def Clock.view (c : Clock) : ClockView :=
  { now := c.calendar.now, valid := c.valid, state := c.state, elapsed := c.elapsed }

/-- The scheduler at power-on (R83; Table 6-2). -/
def Scheduler.powerOn : Scheduler :=
  { head := none, deadline := none, view := Clock.powerOn.view, request := none, barred := false }

/-- A group that is not configured (R139, R153). -/
def Group.unconfigured : Group :=
  { config := none, enable := 0, factor := 0, positions := Vector.replicate 8 none, call := none }

/-- An answer context at power-on (R127). -/
def Context.powerOn : Context := { base := 7, nesting := false, stack := [] }

/-- The table at power-on (Table 3-2). -/
def Table.powerOn : Table :=
  { slots := Vector.replicate 64 ⟨0, none⟩, groups := Vector.replicate 8 Group.unconfigured
    quotas := ⟨64, 64⟩, contexts := ⟨Context.powerOn, Context.powerOn⟩
    inHand := none, waiting := ⟨none, none⟩, schedWaiting := none, lastServed := .scheduler
    work := [], inBackup := false }

/-- A command unit at power-on (R182). -/
def CmdUnit.powerOn : CmdUnit :=
  { phase := .idle, refused := false, frameFault := false, restarted := true
    discardTable := false, discardClock := false, offer := false, valid := false, alert := 0 }

/-- The blocks at power-on (R154). -/
def Blocks.powerOn : Blocks :=
  { clock := Clock.powerOn, sched := Scheduler.powerOn, table := Table.powerOn
    units := ⟨CmdUnit.powerOn, CmdUnit.powerOn⟩ }

end Sys2Proof.Machine
end

