-- ==== Sys2Proof/Machine/State.lean ====
section
/-! DEFINITION. The state of the OH264, the reasons a step can stop, and the state after reset. -/

namespace Sys2Proof.Machine

/-- The state of the block. The free pool, the due list, the held and spent sets, the owned counts, the current
ceilings, the offered calls, the status bytes and the call lines are computed from it (entry 4). -/
structure State where
  /-- The power state (R154). -/
  power : Power
  /-- The retention flag (R154). -/
  retention : Retention
  /-- The calendar clock (spec/04). -/
  clock : Clock
  /-- The scheduler (R83). -/
  sched : Scheduler
  /-- The order table with its arbiter (spec/02). -/
  table : Table
  /-- The command units (R165). -/
  units : PerPort CmdUnit
  /-- Port A's link (R167). -/
  linkA : LinkA
  /-- Port B's link (R168). -/
  linkB : LinkB
  /-- The RESET line is held asserted (R180). -/
  resetAsserted : Bool
  /-- The model's own: how many free values were drawn (entry 6). -/
  freeCount : Nat
  /-- The model's own: the commands waiting, first in, first out. -/
  pending : List Instr
  deriving DecidableEq, Repr

/-- The faults of the block. The manual names no condition that stops the part (spec/09 to spec/12: every refusal
is a reply code), so nothing raises a fault and the type is empty. Safe: no behaviour is lost. -/
inductive Fault where
  deriving DecidableEq, Repr

/-- The refusals of the model. -/
inductive Refusal where
  /-- Raised by an arm of the dispatch that has no meaning yet, with the mnemonic of the table. No arm raises it.
  Safe: the model stops. -/
  | notModelled (mnemonic : String)
  deriving DecidableEq, Repr

/-- The block right after power-on (R154, R182, R82, R83; Table 3-2), with the pins at rest and ADDR low
(DESIGN CHOICE, entry 5) and no command waiting. -/
def State.reset : State :=
  { power := .main, retention := .held
    clock := Clock.powerOn, sched := Scheduler.powerOn, table := Table.powerOn
    units := ⟨CmdUnit.powerOn, CmdUnit.powerOn⟩
    linkA := { line := .high, sdo := [] }
    linkB := { line := .none, acks := [], sda := [], addrHigh := false }
    resetAsserted := false, freeCount := 0, pending := [] }

end Sys2Proof.Machine
end

