-- ==== Sys2Proof/Machine/Ops.lean ====
section
/-! DEFINITION. The named operations over the machine's records: reading and writing slots, groups, contexts
and units; the collections; calls and offers; deadlines; the scheduler's judgement; the arbiter; completion. -/

namespace Sys2Proof.Machine

/-! ### One value for each port -/

/-- The value of a port. -/
def PerPort.get {α : Type} (x : PerPort α) : Port → α
  | .A => x.a
  | .B => x.b

/-- The values with one port's replaced. -/
def PerPort.set {α : Type} (x : PerPort α) (p : Port) (v : α) : PerPort α :=
  match p with
  | .A => { x with a := v }
  | .B => { x with b := v }

/-- A function applied to each port's value. -/
def PerPort.map {α β : Type} (x : PerPort α) (f : Port → α → β) : PerPort β := ⟨f .A x.a, f .B x.b⟩

/-! ### Slots and groups -/

/-- The record of a slot (R1). -/
def Table.slot (t : Table) (i : Fin 64) : Slot := t.slots[i.val]

/-- The order of a slot, absent when FREE (R1). -/
def Table.order (t : Table) (i : Fin 64) : Option Order := (t.slot i).order

/-- A slot written. -/
def Table.setSlot (t : Table) (i : Fin 64) (x : Slot) : Table :=
  { t with slots := t.slots.set i.val x i.isLt }

/-- The order of a slot written, at the generation the slot holds. -/
def Table.setOrder (t : Table) (i : Fin 64) (o : Order) : Table :=
  t.setSlot i { t.slot i with order := some o }

/-- Every order of the table changed, each slot at the generation it holds. -/
def Table.mapOrders (t : Table) (f : Order → Order) : Table :=
  { t with slots := ⟨(t.slots.toList.map fun x => { x with order := x.order.map f }).toArray, by simp⟩ }

/-- The record of a group (R139). -/
def Table.group (t : Table) (g : Fin 8) : Group := t.groups[g.val]

/-- A group written. -/
def Table.setGroup (t : Table) (g : Fin 8) (x : Group) : Table :=
  { t with groups := t.groups.set g.val x g.isLt }

/-- An answer context written (R106). -/
def Table.setContext (t : Table) (p : Port) (c : Context) : Table :=
  { t with contexts := t.contexts.set p c }

/-- Every slot number, ascending. -/
def allSlots : List (Fin 64) := List.finRange 64

/-- Every group number, ascending. -/
def allGroups : List (Fin 8) := List.finRange 8

/-- The order of a slot is in hand of a function, if the slot is not FREE. -/
def Table.ordersWhere (t : Table) (f : Order → Bool) : List (Fin 64) :=
  allSlots.filter fun i => match t.order i with
    | some o => f o
    | none => false

/-! ### The collections (R18, R19, R22, R23), computed from the records (entry 4) -/

/-- The free pool, ascending (R18). -/
def Table.freePool (t : Table) : List (Fin 64) := allSlots.filter fun i => (t.order i).isNone

/-- The order is WAITING. -/
def Order.isWaiting (o : Order) : Bool := match o.standing with
  | .waiting _ => true
  | .held _ | .spent => false

/-- The order is HELD. -/
def Order.isHeld (o : Order) : Bool := match o.standing with
  | .held _ => true
  | .waiting _ | .spent => false

/-- The order is SPENT. -/
def Order.isSpent (o : Order) : Bool := match o.standing with
  | .spent => true
  | .waiting _ | .held _ => false

/-- The held set, ascending (R22). -/
def Table.heldSet (t : Table) : List (Fin 64) := t.ordersWhere Order.isHeld

/-- The spent set, ascending (R22). -/
def Table.spentSet (t : Table) : List (Fin 64) := t.ordersWhere Order.isSpent

/-- The owned count of a port: its orders that are not FREE (R23). -/
def Table.owned (t : Table) (p : Port) : Nat := (t.ordersWhere fun o => o.owner == p).length

/-- A place of the due list: a slot and the due of its WAITING order. -/
structure DueEntry where
  slot : Fin 64
  due : DateTime
  deriving DecidableEq, Repr

/-- The ordering of the due list: earlier due first, equal dues by lower slot (R19). -/
def DueEntry.before (x y : DueEntry) : Bool :=
  secondNumber x.due < secondNumber y.due
    || (secondNumber x.due == secondNumber y.due && x.slot.val < y.slot.val)

/-- An order inserted at the one place that keeps the ordering (R20). -/
def insertDue (e : DueEntry) : List DueEntry → List DueEntry
  | [] => [e]
  | x :: xs => if e.before x then e :: x :: xs else x :: insertDue e xs

/-- The place a slot takes in the due list, if its order is WAITING. -/
def Table.dueEntry (t : Table) (i : Fin 64) : Option DueEntry :=
  match t.order i with
  | some o => match o.standing with
    | .waiting d => some ⟨i, d⟩
    | .held _ | .spent => none
  | none => none

/-- The due list: every WAITING order once, by due and slot (R19). -/
def Table.dueList (t : Table) : List DueEntry := (allSlots.filterMap t.dueEntry).foldr insertDue []

/-- The head of the due list (R19). -/
def Table.head (t : Table) : Option DueEntry := t.dueList.head?

/-! ### Handles and rights -/

/-- The order a handle names (R3): its slot is 0 to 63, its generation is the slot's, the slot is not FREE. -/
def Table.resolve (t : Table) (slot generation : Byte) : Option (Fin 64 × Order) :=
  match finOf 64 slot with
  | none => none
  | some i =>
    if (t.slot i).generation.toNat = generation.toNat then (t.order i).map fun o => (i, o) else none

/-- Port B may change only its own orders (R24; Table 3-1). -/
def denied (p owner : Port) : Bool := p == .B && owner == .A

/-- The handle of a slot as the table holds it. -/
def Table.handle (t : Table) (i : Fin 64) : List Byte := handleBytes i (t.slot i).generation

/-! ### Deadlines (R128) -/

/-- A deadline started at E plus the window, absent when the window is 0 (R128). -/
def startDeadline (e : Elapsed) (window : Byte) : Option Elapsed :=
  if window = 0 then none else some (e + window.setWidth 32)

/-- The deadline has lapsed against E: the difference is 0 or above 255 (R128). -/
def lapsed (deadline e : Elapsed) : Bool :=
  (deadline - e).toNat == 0 || Config.maxRunning < (deadline - e).toNat

/-- The seconds remaining, a lapsed deadline counting as 0 (R55, R83). -/
def secondsRemaining (deadline e : Elapsed) : Nat := if lapsed deadline e then 0 else (deadline - e).toNat

/-- The lapse amount of a lapsed deadline (R128). -/
def lapseAmount (deadline e : Elapsed) : Nat := (e - deadline).toNat

/-- Where a deadline is held: in the call of a slot's order, or in a stack entry, by its index from the top. -/
inductive DeadlineHolder where
  | call (i : Fin 64)
  | entry (p : Port) (index : Nat)
  deriving DecidableEq, Repr

/-- The deadline of an order's RAISED call. -/
def Order.raisedDeadline (o : Order) : Option Elapsed :=
  match o.call with
  | some c => if c.state = .raised then c.deadline else none
  | none => none

/-- The deadlines of raised order calls, by slot. -/
def Table.callDeadlines (t : Table) : List (DeadlineHolder × Elapsed) :=
  allSlots.filterMap fun i => ((t.order i).bind Order.raisedDeadline).map fun d => (.call i, d)

/-- The finish deadlines of a list of entries numbered from the top. -/
def entryDeadlines (p : Port) : Nat → List Entry → List (DeadlineHolder × Elapsed)
  | _, [] => []
  | n, e :: rest =>
    match e.deadline with
    | some d => (.entry p n, d) :: entryDeadlines p (n + 1) rest
    | none => entryDeadlines p (n + 1) rest

/-- Every deadline held, in the order that R130 prefers them among equal lapse amounts: raised order calls by
slot, then the entries of port A from the lowest up, then those of port B. -/
def Table.deadlines (t : Table) : List (DeadlineHolder × Elapsed) :=
  t.callDeadlines
    ++ (entryDeadlines .A 0 t.contexts.a.stack).reverse
    ++ (entryDeadlines .B 0 t.contexts.b.stack).reverse

/-- The first deadline of a list with the fewest seconds remaining (R83; among equals DESIGN CHOICE, entry 9). -/
def nearest (e : Elapsed) : List (DeadlineHolder × Elapsed) → Option Elapsed
  | [] => none
  | d :: rest =>
    match nearest e rest with
    | none => some d.2
    | some b => if secondsRemaining b e < secondsRemaining d.2 e then some b else some d.2

/-- The deadline view the table presents (R83, R130). -/
def Table.deadlineView (t : Table) (e : Elapsed) : Option Elapsed := nearest e t.deadlines

/-- The first deadline of a list, among those that have lapsed, of greatest lapse amount (R130). -/
def earliestLapsed (e : Elapsed) : List (DeadlineHolder × Elapsed) → Option (DeadlineHolder × Elapsed)
  | [] => none
  | d :: rest =>
    if lapsed d.2 e then
      match earliestLapsed e rest with
      | none => some d
      | some b => if lapseAmount d.2 e < lapseAmount b.2 e then some b else some d
    else earliestLapsed e rest

/-! ### Calls and offers (spec/06) -/

/-- The current ceiling of a port (R109). -/
def Context.ceiling (c : Context) : Nat :=
  match c.stack with
  | [] => c.base
  | top :: _ => if c.nesting then top.level else 0

/-- The originator of a call (R105). -/
inductive Origin where
  | order (i : Fin 64)
  | group (g : Fin 8)
  deriving DecidableEq, Repr

/-- The source number of a call's originator (R105). -/
def Origin.number : Origin → Nat
  | .order i => i.val
  | .group g => 64 + g.val

/-- A raised call as the offer weighs it (R110). -/
structure RaisedCall where
  level : Nat
  origin : Origin
  deriving DecidableEq, Repr

/-- The RAISED call of a slot's order, where it answers the port. -/
def Table.raisedOrderCall (t : Table) (p : Port) (i : Fin 64) : Option RaisedCall :=
  match t.order i with
  | some o =>
    match o.call with
    | some c => if c.state = .raised ∧ o.answering = p then some ⟨c.level, .order i⟩ else none
    | none => none
  | none => none

/-- The RAISED call of a group, where it answers the port. -/
def Table.raisedGroupCall (t : Table) (p : Port) (g : Fin 8) : Option RaisedCall :=
  match (t.group g).config with
  | some c => if (t.group g).call = some .raised ∧ c.answering = p then some ⟨c.level, .group g⟩ else none
  | none => none

/-- The raised calls answering a port, by source number (R105). -/
def Table.raisedCalls (t : Table) (p : Port) : List RaisedCall :=
  allSlots.filterMap (t.raisedOrderCall p) ++ allGroups.filterMap (t.raisedGroupCall p)

/-- The offered calls of a port: raised, answering it, and below its current ceiling (R110). -/
def Table.offered (t : Table) (p : Port) : List RaisedCall :=
  (t.raisedCalls p).filter fun c => c.level < (t.contexts.get p).ceiling

/-- The first call of lowest level of a list (R110: the list stands in source order). -/
def lowest : List RaisedCall → Option RaisedCall
  | [] => none
  | c :: rest =>
    match lowest rest with
    | none => some c
    | some b => if b.level < c.level then some b else some c

/-- The best offered call of a port (R110). -/
def Table.bestOffered (t : Table) (p : Port) : Option RaisedCall := lowest (t.offered p)

/-- Whether a call is offered on a port (R111). -/
def Table.offers (t : Table) (p : Port) : Bool := !(t.offered p).isEmpty

/-! ### Group sets and calls (R141, R142) -/

/-- The set that holds one position. -/
def positionBit (p : Fin 8) : Byte := 1#8 <<< p.val

/-- A group call that is NONE becomes RAISED when the intersection is nonempty (R142, Raise). -/
def Group.raise (g : Group) : Group :=
  if g.call = none ∧ g.factor &&& g.enable ≠ 0 then { g with call := some .raised } else g

/-- A group call that is RAISED becomes NONE when the intersection is empty (R142, Withdraw). -/
def Group.withdraw (g : Group) : Group :=
  if g.call = some .raised ∧ g.factor &&& g.enable = 0 then { g with call := none } else g

/-- A TAKEN group call that ends becomes NONE and is judged at once (R120, R126). -/
def Group.endTaken (g : Group) : Group := { g with call := none : Group }.raise

/-- A position emptied, its factor bit cleared, and the call judged (R45, R50). -/
def Group.leave (g : Group) (pos : Fin 8) : Group :=
  { g with positions := g.positions.set pos.val none pos.isLt
           factor := g.factor &&& ~~~positionBit pos : Group }.withdraw

/-- A position filled with a slot (R38, R45). -/
def Group.join (g : Group) (pos : Fin 8) (i : Fin 64) : Group :=
  { g with positions := g.positions.set pos.val (some i) pos.isLt }

/-- A member leaves its position (R45, R50). -/
def Table.leaveGroup (t : Table) (m : Member) : Table := t.setGroup m.group ((t.group m.group).leave m.position)

/-- A slot takes a position (R38, R45). -/
def Table.joinGroup (t : Table) (m : Member) (i : Fin 64) : Table :=
  t.setGroup m.group ((t.group m.group).join m.position i)

/-- The refusal of a membership a PLAC or AMND names (R37, R40): the group is not configured, or the position
holds an order other than `self`. -/
def Table.joinRefusal (t : Table) (self : Option (Fin 64)) : Option Member → Option ReplyCode
  | none => none
  | some m =>
    if (t.group m.group).config.isNone then some .noSuchGroup
    else
      match (t.group m.group).positions[m.position.val] with
      | none => none
      | some i => if self = some i then none else some .positionTaken

/-! ### The state's parts -/

/-- The blocks act: MAIN, or BACKUP with the retention flag HELD (R156, R157). -/
def State.reliable (s : State) : Bool := s.power = .main || (s.power = .backup && s.retention = .held)

/-- An effect of the blocks, which act only while their state can be relied upon (R157). -/
def whileReliable (f : State → State) (s : State) : State := if s.reliable then f s else s

/-- The links take transactions: MAIN, and RESET not asserted (R167, R168, R180, R181). -/
def State.serving (s : State) : Bool := s.power = .main && !s.resetAsserted

/-- A command unit changed. -/
def State.modUnit (s : State) (p : Port) (f : CmdUnit → CmdUnit) : State :=
  { s with units := s.units.set p (f (s.units.get p)) }

/-- The table replaced. -/
def State.setTable (s : State) (t : Table) : State := { s with table := t }

/-- The clock replaced. -/
def State.setClock (s : State) (c : Clock) : State := { s with clock := c }

/-- The scheduler replaced. -/
def State.setSched (s : State) (c : Scheduler) : State := { s with sched := c }

/-- A setting of an alert bit in the word of one port (R161). -/
def State.alert (s : State) (p : Port) (b : AlertBit) : State := s.modUnit p fun u => u.setAlert b

/-- The call line of a port is asserted (R179; without supply entry 23). -/
def State.callAsserted (s : State) (p : Port) : Bool := (s.units.get p).callLine s.power

/-! ### The scheduler's judgement (R84 to R86) -/

/-- Firing is needed (R84). -/
def Scheduler.firingNeeded (c : Scheduler) : Bool :=
  c.view.valid && (c.view.state = .running || c.view.state = .held)
    && match c.head with
      | some d => d.atOrBefore c.view.now
      | none => false

/-- Expiry is needed (R85). -/
def Scheduler.expiryNeeded (c : Scheduler) : Bool :=
  match c.deadline with
  | some d => lapsed d c.view.elapsed
  | none => false

/-- The request the scheduler puts, if any (R86): nothing while one is outstanding, a FIRE before an EXPIRE, and no
EXPIRE while it puts none (R155, R158). -/
def Scheduler.wants (c : Scheduler) : Option SchedRequest :=
  if c.request.isSome then none
  else if c.firingNeeded then some .fire
  else if c.expiryNeeded && !c.barred then some .expire
  else none

/-- The scheduler judges, and puts the request it needs before the arbiter (R86). -/
def State.judge (s : State) : State :=
  match s.sched.wants with
  | none => s
  | some r =>
    { s with sched := { s.sched with request := some r }, table := { s.table with schedWaiting := some r } }

/-! ### The arbiter (R28, R29) -/

/-- The arbiter's cycle, counting from the requester served last (R29). -/
def Requester.cycle : Requester → List Requester
  | .scheduler => [.unit .A, .unit .B, .scheduler]
  | .unit .A => [.unit .B, .scheduler, .unit .A]
  | .unit .B => [.scheduler, .unit .A, .unit .B]

/-- The request of the scheduler. -/
def SchedRequest.asRequest : SchedRequest → Request
  | .fire => .fire
  | .expire => .expire

/-- The request a requester has waiting (R29). -/
def Table.waitingOf (t : Table) : Requester → Option Request
  | .unit p => (t.waiting.get p).map (.command p)
  | .scheduler => t.schedWaiting.map SchedRequest.asRequest

/-- The table has nothing in hand and no work outstanding (R28, R29). -/
def Table.idle (t : Table) : Bool := t.inHand.isNone && t.work.isEmpty

/-- The first waiting requester of the cycle, with its request (R29). -/
def Table.nextWaiting (t : Table) : Option (Requester × Request) :=
  t.lastServed.cycle.findSome? fun r => (t.waitingOf r).map fun q => (r, q)

/-- The waiting request of a requester leaves the arbiter. -/
def Table.unwait (t : Table) : Requester → Table
  | .unit p => { t with waiting := t.waiting.set p none }
  | .scheduler => { t with schedWaiting := none }

/-- The grant of a command moves its unit from PENDING to WORKING (R28, R174). -/
def CmdUnit.granted (u : CmdUnit) : CmdUnit :=
  match u.phase with
  | .pending c => { u with phase := .working c }
  | .idle | .working _ | .reply _ => u

/-- The grant of a request (R28, R29): it passes from waiting to in hand, with the calendar, the validity and the
elapsed counter read at the grant (R87, R113, R128). -/
def State.grant (s : State) (r : Requester) (q : Request) : State :=
  let t := s.table.unwait r
  let s := { s with table := { t with
    lastServed := r
    inHand := some { request := q, now := s.clock.calendar.now, valid := s.clock.valid, elapsed := s.clock.elapsed } } }
  match r with
  | .unit p => s.modUnit p CmdUnit.granted
  | .scheduler => s

/-- The arbiter grants the next waiting request when the table is free (R28, R29). -/
def State.arbitrate (s : State) : State :=
  if s.table.idle then
    match s.table.nextWaiting with
    | some (r, q) => s.grant r q
    | none => s
  else s

/-! ### Presentations (R28, R72, R111) -/

/-- The table presents the head and the deadline view to the scheduler and the offers to the units (R28). -/
def State.presentTable (s : State) : State :=
  { s with
    sched := { s.sched with head := s.table.head.map DueEntry.due, deadline := s.table.deadlineView s.clock.elapsed }
    units := s.units.map fun p u => { u with offer := s.table.offers p } }

/-- The clock presents its state, validity, calendar and elapsed counter to the scheduler, and the validity to
the units (R72). -/
def State.presentClock (s : State) : State :=
  { s with
    sched := { s.sched with view := s.clock.view }
    units := s.units.map fun _ u => { u with valid := s.clock.valid } }

/-- What follows a change at the table: the presentations, then the scheduler's judgement on them, then the
arbiter (R28, R86; entry 7). -/
def State.afterTable (s : State) : State := s.presentTable.judge.arbitrate

/-- What follows a change at the clock (R72, R84; entry 7). -/
def State.afterClock (s : State) : State := s.presentClock.judge.arbitrate

/-! ### Completion (R28, R174) -/

/-- The request in hand is done. -/
def Table.release (t : Table) : Table := { t with inHand := none }

/-- A unit's request completes: its reply is handed over, then the table presents (R28, R174). -/
def State.completeCommand (s : State) (p : Port) (r : Reply) : State :=
  ((s.setTable s.table.release).modUnit p fun u => u.takeReply .table r).afterTable

/-- A scheduler request completes: it has no reply, and the request state returns to NONE (R28, R86). -/
def State.completeSched (s : State) : State :=
  ((s.setTable s.table.release).setSched { s.sched with request := none }).afterTable

/-- How the table serves a command: from the issuing port, the request in hand and its argument bytes, the state
the request leaves and its reply. -/
abbrev Service := Port → InHand → List Byte → State → State × Reply

/-- A service that changes the table alone. -/
def tableService (f : Port → InHand → List Byte → Table → Table × Reply) : Service := fun p h args s =>
  ((s.setTable (f p h args s.table).1), (f p h args s.table).2)

/-- The request in hand when it is this port's command with this code. -/
def Table.handOf (t : Table) (p : Port) (c : Code) : Option (InHand × List Byte) :=
  match t.inHand with
  | some h =>
    match h.request with
    | .command q cmd => if q = p ∧ cmd.code = c then some (h, cmd.args) else none
    | .fire | .expire => none
  | none => none

/-- The table carries out the command in hand and completes it (R28). Where the command in hand is another or
there is none, there is nothing to carry out (entry 3). -/
def serve (c : Code) (p : Port) (f : Service) (s : State) : State :=
  match s.table.handOf p c with
  | some (h, args) => (f p h args s).1.completeCommand p (f p h args s).2
  | none => s

/-! ### Replies placed by the unit itself (R173, R178) -/

/-- A reply placed in the unit's own buffer. -/
def CmdUnit.place (u : CmdUnit) (r : Reply) : CmdUnit := { u with phase := .reply r }

end Sys2Proof.Machine
end

