-- ==== Sys2Proof/Machine/Orders.lean ====
section
/-! DEFINITION. PLAC, AMND, HOLD, RSUM, RTIR, PURG, LOOK, LIST, QUOT and INFO (spec/02, spec/03). -/

namespace Sys2Proof.Machine

/-- A refusal, or another reply of length 0, that changes nothing (R35). -/
def Table.answer (t : Table) (c : ReplyCode) : Table × Reply := (t, .bare c)

/-! ### PLAC -/

/-- The record a PLAC fills (R38, step 2; R13). -/
def PlacArgs.order (a : PlacArgs) (owner : Port) : Order :=
  { owner := owner, standing := .waiting a.due, rule := a.rule, remaining := a.remaining
    anchoring := a.anchoring, policy := a.policy, level := a.level, floor := a.floor, window := a.window
    answering := a.answering, member := a.member, label := a.label
    missed := 0, tally := 0, skipped := false, call := none }

/-- The changes of a PLAC that passed every check, in the slot the table takes (R38). -/
def Table.place (t : Table) (i : Fin 64) (o : Order) : Table :=
  let t := t.setOrder i o
  match o.member with
  | some m => t.joinGroup m i
  | none => t

/-- PLAC at the table (R37, R38): the checks in their order, then the lowest free slot is filled. -/
def servePlac (p : Port) (_h : InHand) (args : List Byte) (t : Table) : Table × Reply :=
  match placDecode p args with
  | .error c => t.answer c
  | .ok a =>
    match t.joinRefusal none a.member with
    | some c => t.answer c
    | none =>
      if t.quotas.get p ≤ t.owned p then t.answer .quotaFull
      else
        match t.freePool with
        | [] => t.answer .tableFull
        | i :: _ => (t.place i (a.order p), .done (t.handle i))

/-- PLAC (R38). -/
def execPlac (p : Port) (s : State) : Host.Outcome State Fault Refusal :=
  .next (whileReliable (serve .plac p (tableService servePlac)) s)

/-! ### AMND -/

/-- The standing an AMND leaves (R42): a new due keeps WAITING and HELD, and makes a SPENT order WAITING. -/
def Amend.standing (a : Amend) (o : Order) : Standing :=
  match a.due with
  | none => o.standing
  | some d => match o.standing with
    | .held _ => .held d
    | .waiting _ | .spent => .waiting d

/-- A call restarted by a level or floor selected (R44): a RAISED call at the order's new level with a fresh
deadline, or withdrawn at level 7; a TAKEN call is left. -/
def restartCall (e : Elapsed) (level : Nat) (window : Byte) (c : Call) : Option Call :=
  match c.state with
  | .raised => if level = 7 then none else some ⟨.raised, level, startDeadline e window⟩
  | .taken => some c

/-- The call an AMND leaves (R44). -/
def Amend.call (a : Amend) (e : Elapsed) (o : Order) : Option Call :=
  if a.level.isSome || a.floor.isSome then
    o.call.bind (restartCall e (a.level.getD o.level) (a.window.getD o.window))
  else o.call

/-- The record an AMND leaves, but for the group membership (R42 to R45). -/
def Amend.order (a : Amend) (e : Elapsed) (o : Order) : Order :=
  { o with
    standing := a.standing o
    skipped := if a.due.isSome then false else o.skipped
    rule := a.rule.getD o.rule
    remaining := a.remaining.getD o.remaining
    anchoring := a.anchoring.getD o.anchoring
    policy := a.policy.getD o.policy
    label := a.label.getD o.label
    level := a.level.getD o.level
    floor := a.floor.getD o.floor
    window := a.window.getD o.window
    call := a.call e o
    answering := a.answering.getD o.answering }

/-- A slot leaves a membership, if it holds one (R45). -/
def Table.leaveIf (t : Table) : Option Member → Table
  | some m => t.leaveGroup m
  | none => t

/-- A slot takes a membership, if one is named (R45). -/
def Table.joinIf (t : Table) (i : Fin 64) : Option Member → Table
  | some m => t.joinGroup m i
  | none => t

/-- The change of membership of R45: joining, leaving, moving, or nothing where both are the same. -/
def Table.moveMember (t : Table) (i : Fin 64) (old new : Option Member) : Table :=
  if old = new then t else (t.leaveIf old).joinIf i new

/-- The changes of an AMND that passed every check (R46). -/
def Table.amend (t : Table) (i : Fin 64) (o : Order) (e : Elapsed) (a : Amend) : Table :=
  let member := a.member.getD o.member
  (t.setOrder i { a.order e o with member := member }).moveMember i o.member member

/-- The call check of R41. -/
def amndCallBars (o : Order) (a : Amend) : Bool :=
  o.call.isSome
    && (a.answering.getD o.answering != o.answering || (o.member.isNone && (a.member.getD none).isSome))

/-- AMND at the table once the order is resolved and the rights hold (R40, steps 4 to 7; R46). -/
def amendOrder (h : InHand) (i : Fin 64) (o : Order) (sel : BitVec 16) (rest : List Byte) (t : Table) :
    Table × Reply :=
  match amndDecode o sel rest with
  | .error c => t.answer c
  | .ok a =>
    match t.joinRefusal (some i) (a.member.getD none) with
    | some c => t.answer c
    | none =>
      if amndCallBars o a then t.answer .callOutstanding
      else (t.amend i o h.elapsed a, .done (t.handle i ++ [(a.standing o).byte]))

/-- AMND at the table (R40). The select set is two bytes, bits 11 to 15 clear (R185). -/
def serveAmnd (p : Port) (h : InHand) (args : List Byte) (t : Table) : Table × Reply :=
  match args with
  | slot :: generation :: hi :: lo :: rest =>
    if 8 ≤ hi.toNat then t.answer .badArgument
    else
      match t.resolve slot generation with
      | none => t.answer .noSuchOrder
      | some (i, o) =>
        if denied p o.owner then t.answer .notPermitted
        else amendOrder h i o (hi ++ lo : BitVec 16) rest t
  | _ => t.answer .badArgument

/-- AMND (R46). -/
def execAmnd (p : Port) (s : State) : Host.Outcome State Fault Refusal :=
  .next (whileReliable (serve .amnd p (tableService serveAmnd)) s)

/-! ### HOLD and RSUM -/

/-- The layout, handle and rights checks of HOLD, RSUM and RTIR (R24, R35; Table 4-1). -/
def withHandle (p : Port) (args : List Byte) (t : Table) (k : Fin 64 → Order → Table × Reply) : Table × Reply :=
  match args with
  | [slot, generation] =>
    match t.resolve slot generation with
    | none => t.answer .noSuchOrder
    | some (i, o) => if denied p o.owner then t.answer .notPermitted else k i o
  | _ => t.answer .badArgument

/-- HOLD at the table (R47). -/
def serveHold (p : Port) (_h : InHand) (args : List Byte) (t : Table) : Table × Reply :=
  withHandle p args t fun i o =>
    match o.standing with
    | .waiting d => (t.setOrder i { o with standing := .held d }, .done (t.handle i ++ dueBytes d))
    | .held _ | .spent => t.answer .notWaiting

/-- HOLD (R47). -/
def execHold (p : Port) (s : State) : Host.Outcome State Fault Refusal :=
  .next (whileReliable (serve .hold p (tableService serveHold)) s)

/-- RSUM at the table (R48). -/
def serveRsum (p : Port) (_h : InHand) (args : List Byte) (t : Table) : Table × Reply :=
  withHandle p args t fun i o =>
    match o.standing with
    | .held d => (t.setOrder i { o with standing := .waiting d }, .done (t.handle i ++ dueBytes d))
    | .waiting _ | .spent => t.answer .notHeld

/-- RSUM (R48). -/
def execRsum (p : Port) (s : State) : Host.Outcome State Fault Refusal :=
  .next (whileReliable (serve .rsum p (tableService serveRsum)) s)

/-! ### RTIR and PURG -/

/-- What became of the call of a retired order (R49). -/
inductive CallOutcome where
  | none
  | withdrawn
  | orphaned (p : Port)
  deriving DecidableEq, Repr

/-- The call outcome of retiring an order (R49). -/
def Order.retiredCall (o : Order) : CallOutcome :=
  match o.call with
  | .none => .none
  | .some c => match c.state with
    | .raised => .withdrawn
    | .taken => .orphaned o.answering

/-- The outcome and orphan's port bytes of RTIR (Table A-5). -/
def CallOutcome.bytes : CallOutcome → List Byte
  | .none => [0, 0xFF]
  | .withdrawn => [1, 0xFF]
  | .orphaned p => [2, portByte p]

/-- The entry that names a TAKEN order call is given its retired mark (R50, step 1; R107). -/
def Context.orphan (c : Context) (i : Fin 64) (generation : BitVec 4) : Context :=
  { c with stack := c.stack.map fun e =>
      if e.source = .order i generation ∧ e.retired = false then { e with retired := true } else e }

/-- Step 1 of the retirement work: a TAKEN call leaves an orphan (R50, R51). -/
def Table.orphanCall (t : Table) (i : Fin 64) (o : Order) : Table :=
  match o.retiredCall with
  | .orphaned p => t.setContext p ((t.contexts.get p).orphan i (t.slot i).generation)
  | .none | .withdrawn => t

/-- The slot FREE at the next generation (R50, step 4; R2). -/
def Table.free (t : Table) (i : Fin 64) : Table := t.setSlot i ⟨(t.slot i).generation + 1, none⟩

/-- The retirement work on one order (R50). Its place in the collections and its owner's owned count go with
the record (entry 4). -/
def Table.retire (t : Table) (i : Fin 64) (o : Order) : Table :=
  ((t.orphanCall i o).leaveIf o.member).free i

/-- RTIR at the table (R49). -/
def serveRtir (p : Port) (_h : InHand) (args : List Byte) (t : Table) : Table × Reply :=
  withHandle p args t fun i o => (t.retire i o, .done (t.handle i ++ o.retiredCall.bytes))

/-- RTIR (R49). -/
def execRtir (p : Port) (s : State) : Host.Outcome State Fault Refusal :=
  .next (whileReliable (serve .rtir p (tableService serveRtir)) s)

/-- A slot retired if its order is owned by the port (R53). -/
def Table.purgeSlot (owner : Port) (t : Table) (i : Fin 64) : Table :=
  match t.order i with
  | some o => if o.owner = owner then t.retire i o else t
  | none => t

/-- Every order of a port retired, in ascending slot order (R53). -/
def Table.purge (t : Table) (owner : Port) : Table := allSlots.foldl (Table.purgeSlot owner) t

/-- PURG at the table (R53). -/
def servePurg (p : Port) (_h : InHand) (args : List Byte) (t : Table) : Table × Reply :=
  match args with
  | [b] =>
    match portOf b with
    | none => t.answer .badArgument
    | some owner =>
      if denied p owner then t.answer .notPermitted
      else (t.purge owner, .done [byteOf (t.owned owner)])
  | _ => t.answer .badArgument

/-- PURG (R53). -/
def execPurg (p : Port) (s : State) : Host.Outcome State Fault Refusal :=
  .next (whileReliable (serve .purg p (tableService servePurg)) s)

/-! ### LOOK -/

/-- The entry of a port's stack that names an order's taken call (R107). -/
def Context.entryOf (c : Context) (i : Fin 64) (generation : BitVec 4) : Option Entry :=
  c.stack.find? fun e => e.source == .order i generation && !e.retired

/-- A deadline as LOOK reports it: present, then the seconds remaining (R55, R186). -/
def deadlineBytes (e : Elapsed) : Option Elapsed → List Byte
  | none => [0, 0]
  | some d => [1, byteOf (secondsRemaining d e)]

/-- The call fields of LOOK (R54, R55; Table A-6): state, level, deadline, overdue mark. -/
def Table.callBytes (t : Table) (e : Elapsed) (i : Fin 64) (o : Order) : List Byte :=
  match o.call with
  | none => [0, 0, 0, 0, 0]
  | some c =>
    match c.state with
    | .raised => [1, byteOf c.level] ++ deadlineBytes e c.deadline ++ [0]
    | .taken =>
      match (t.contexts.get o.answering).entryOf i (t.slot i).generation with
      | some en => [2, byteOf c.level] ++ deadlineBytes e en.deadline ++ [flagByte en.overdue]
      | none => [2, byteOf c.level, 0, 0, 0]

/-- Remaining in LOOK: present, then the count, 0 when absent (Table A-6; R186). -/
def remainingBytes : Option Nat → List Byte
  | none => [0, 0]
  | some n => [1, byteOf n]

/-- The due in LOOK, seven bytes 0xFF when absent (Table A-6). -/
def Standing.dueBytes (x : Standing) : List Byte :=
  match x.due with
  | some d => Machine.dueBytes d
  | none => List.replicate 7 0xFF

/-- The label in LOOK: its length and 12 bytes, those past the length 0 (Table A-6). -/
def labelBytes (label : List Byte) : List Byte :=
  byteOf label.length :: (List.range Config.maxLabel).map fun i => label.getD i 0

/-- The payload of LOOK (R54; Table A-6). -/
def Table.lookBytes (t : Table) (e : Elapsed) (i : Fin 64) (o : Order) : List Byte :=
  t.handle i ++ [portByte o.owner, o.standing.byte] ++ o.standing.dueBytes ++ ruleBytes o.rule
    ++ remainingBytes o.remaining
    ++ [anchoringByte o.anchoring, policyByte o.policy, byteOf o.level, byteOf o.floor, o.window,
        portByte o.answering]
    ++ memberBytes o.member ++ labelBytes o.label ++ [byteOf o.missed] ++ bytes2 o.tally ++ [flagByte o.skipped]
    ++ t.callBytes e i o

/-- LOOK (R54, R55): it changes nothing. The seconds remaining are those at the moment the table carries it out
(DESIGN CHOICE, entry 12). -/
def serveLook : Service := fun _p _h args s =>
  match args with
  | [slot, generation] =>
    match s.table.resolve slot generation with
    | none => (s, .bare .noSuchOrder)
    | some (i, o) => (s, .done (s.table.lookBytes s.clock.elapsed i o))
  | _ => (s, .bare .badArgument)

/-- LOOK (R54). -/
def execLook (p : Port) (s : State) : Host.Outcome State Fault Refusal :=
  .next (whileReliable (serve .look p serveLook) s)

/-! ### LIST -/

/-- An order matches the state filter (R56). -/
def StateFilter.admits (f : StateFilter) (o : Order) : Bool :=
  match f with
  | .any => true
  | .waiting => o.isWaiting
  | .held => o.isHeld
  | .spent => o.isSpent

/-- An order matches the group filter (R56). -/
def GroupFilter.admits (f : GroupFilter) (o : Order) : Bool :=
  match f with
  | .any => true
  | .none => o.member.isNone
  | .group g => match o.member with
    | some m => m.group == g
    | Option.none => false

/-- An order matches the owner filter (R56). -/
def ownerAdmits (f : Option Port) (o : Order) : Bool :=
  match f with
  | some p => o.owner == p
  | none => true

/-- An order matches all three filters (R56). -/
def Filters.admits (f : Filters) (o : Order) : Bool :=
  ownerAdmits f.owner o && f.state.admits o && f.group.admits o

/-- The slots LIST reports, in due-list order for the filter WAITING, ascending otherwise (R57). -/
def Table.listed (t : Table) (f : Filters) : List (Fin 64) :=
  let hits := t.ordersWhere f.admits
  if f.state = .waiting then (t.dueList.map DueEntry.slot).filter fun i => hits.contains i else hits

/-- LIST at the table (R56, R57): it changes nothing. -/
def serveList (_p : Port) (_h : InHand) (args : List Byte) (t : Table) : Table × Reply :=
  match filtersOf args with
  | none => t.answer .badArgument
  | some f => (t, .done (byteOf (t.listed f).length :: (t.listed f).flatMap t.handle))

/-- LIST (R57). -/
def execList (p : Port) (s : State) : Host.Outcome State Fault Refusal :=
  .next (whileReliable (serve .list p (tableService serveList)) s)

/-! ### QUOT and INFO -/

/-- QUOT at the table (R26). -/
def serveQuot (_p : Port) (_h : InHand) (args : List Byte) (t : Table) : Table × Reply :=
  match args with
  | [b, q] =>
    match portOf b with
    | none => t.answer .badArgument
    | some who =>
      if Config.maxQuota < q.toNat then t.answer .badArgument
      else if q.toNat < t.owned who then t.answer .quotaBelow
      else ({ t with quotas := t.quotas.set who q.toNat }, .done [b, q, byteOf (t.owned who)])
  | _ => t.answer .badArgument

/-- QUOT (R26), from port A. -/
def execQuot (s : State) : Host.Outcome State Fault Refusal :=
  .next (whileReliable (serve .quot .A (tableService serveQuot)) s)

/-- The part of INFO about one port (R27; Table A-5). -/
def Table.portInfo (t : Table) (p : Port) : List Byte :=
  let c := t.contexts.get p
  [byteOf (t.owned p), byteOf (t.quotas.get p), byteOf c.base, flagByte c.nesting, byteOf c.stack.length,
    byteOf c.ceiling]

/-- The payload of INFO (R27; Table A-5). -/
def Table.infoBytes (t : Table) : List Byte :=
  [byteOf t.freePool.length, byteOf (t.ordersWhere Order.isWaiting).length, byteOf t.heldSet.length,
    byteOf t.spentSet.length] ++ t.portInfo .A ++ t.portInfo .B

/-- INFO at the table (R27): it changes nothing. -/
def serveInfo (_p : Port) (_h : InHand) (args : List Byte) (t : Table) : Table × Reply :=
  match args with
  | [] => (t, .done t.infoBytes)
  | _ :: _ => t.answer .badArgument

/-- INFO (R27). -/
def execInfo (p : Port) (s : State) : Host.Outcome State Fault Refusal :=
  .next (whileReliable (serve .info p (tableService serveInfo)) s)

end Sys2Proof.Machine
end

