-- ==== Sys2Proof/Machine/Calls.lean ====
section
/-! DEFINITION. TAKE, FNSH, CEIL and NEST (spec/06). -/

namespace Sys2Proof.Machine

/-! ### TAKE -/

/-- An entry pushed on the top of a port's stack (R106). -/
def Table.push (t : Table) (p : Port) (e : Entry) : Table :=
  let c := t.contexts.get p
  t.setContext p { c with stack := e :: c.stack }

/-- The entry of an order call taken at a level (R113, step 2). -/
def orderEntry (i : Fin 64) (generation : BitVec 4) (level : Nat) (deadline : Option Elapsed) : Entry :=
  { source := .order i generation, level := level, deadline := deadline, overdue := false, retired := false }

/-- The entry of a group call taken at the group's level (R114). -/
def groupEntry (g : Fin 8) (level : Nat) : Entry :=
  { source := .group g, level := level, deadline := none, overdue := false, retired := false }

/-- An order whose call is taken at a level (R113, steps 1 and 3). -/
def Order.taken (o : Order) (level : Nat) : Order := { o with call := some ⟨.taken, level, none⟩, missed := 0 }

/-- An order call taken (R113). -/
def Table.takeOrder (t : Table) (p : Port) (e : Elapsed) (i : Fin 64) (o : Order) (level : Nat) : Table :=
  (t.setOrder i (o.taken level)).push p
    (orderEntry i (t.slot i).generation level (startDeadline e o.window))

/-- A group call taken (R114). -/
def Table.takeGroup (t : Table) (p : Port) (g : Fin 8) (level : Nat) : Table :=
  (t.setGroup g { t.group g with call := some .taken }).push p (groupEntry g level)

/-- The payload of the TAKE of an order call, missed as it stood before (R115). -/
def takeOrderBytes (t : Table) (i : Fin 64) (o : Order) (level : Nat) : List Byte :=
  t.handle i ++ [byteOf level, byteOf o.missed] ++ bytes2 o.tally ++ (byteOf o.label.length :: o.label)

/-- The payload of the TAKE of a group call (R115). -/
def takeGroupBytes (g : Fin 8) (x : Group) (level : Nat) : List Byte :=
  [byteOf (64 + g.val), byteOf level, x.factor, x.enable]

/-- The best offered call taken (R112, step 3). -/
def Table.takeCall (t : Table) (p : Port) (e : Elapsed) (c : RaisedCall) : Table × Reply :=
  match c.origin with
  | .order i =>
    match t.order i with
    | some o => (t.takeOrder p e i o c.level, .done (takeOrderBytes t i o c.level))
    | none => t.answer .nothing
  | .group g => (t.takeGroup p g c.level, .done (takeGroupBytes g (t.group g) c.level))

/-- TAKE at the table (R112). -/
def serveTake (p : Port) (h : InHand) (args : List Byte) (t : Table) : Table × Reply :=
  match args with
  | _ :: _ => t.answer .badArgument
  | [] =>
    if Config.stackDepth ≤ (t.contexts.get p).stack.length then t.answer .stackFull
    else
      match t.bestOffered p with
      | none => t.answer .nothing
      | some c => t.takeCall p h.elapsed c

/-- TAKE (R112). -/
def execTake (p : Port) (s : State) : Host.Outcome State Fault Refusal :=
  .next (whileReliable (serve .take p (tableService serveTake)) s)

/-! ### FNSH -/

/-- The hold outcome of an FNSH (R119). -/
inductive HoldOutcome where
  | none
  | held
  | left
  deriving DecidableEq, Repr

/-- The byte of a hold outcome (Table A-5). -/
def HoldOutcome.byte : HoldOutcome → Byte
  | .none => 0
  | .held => 1
  | .left => 2

/-- The hold outcome for an order that stands so (R119). -/
def holdOutcome (hold : Bool) (x : Standing) : HoldOutcome :=
  if hold then
    match x with
    | .waiting _ => .held
    | .held _ | .spent => .left
  else .none

/-- The hold outcome where no order is touched (R119, R120). -/
def holdUntouched (hold : Bool) : HoldOutcome := if hold then .left else .none

/-- An order finished, and held where the option asks it of a WAITING order (R119). -/
def Order.finished (o : Order) (hold : Bool) : Order :=
  { o with
    call := none
    standing := match o.standing with
      | .waiting d => if hold then .held d else .waiting d
      | .held d => .held d
      | .spent => .spent }

/-- The top entry popped (R118). -/
def Table.pop (t : Table) (p : Port) : Table :=
  let c := t.contexts.get p
  t.setContext p { c with stack := c.stack.tail }

/-- The order a popped entry names: its slot at the entry's generation, the entry not marked retired (R107, R119). -/
def Table.entryOrder (t : Table) (e : Entry) : Option (Fin 64 × Order) :=
  if e.retired then none
  else
    match e.source with
    | .order i generation => if (t.slot i).generation = generation then (t.order i).map fun o => (i, o) else none
    | .group _ => none

/-- The call a popped entry named is dealt with: the order's becomes absent (R119), the group's becomes NONE and
is judged at once (R120), a retired entry's is no call (R119). -/
def Table.finishCall (t : Table) (e : Entry) (hold : Bool) : Table × HoldOutcome :=
  match e.source with
  | .order _ _ =>
    match t.entryOrder e with
    | some (i, o) => (t.setOrder i (o.finished hold), holdOutcome hold o.standing)
    | none => (t, holdUntouched hold)
  | .group g => (t.setGroup g (t.group g).endTaken, holdUntouched hold)

/-- The LATE and RETIRED flags (R118; Table A-5). -/
def finishFlags (e : Entry) : Byte := bitAt 0 e.overdue ||| bitAt 1 e.retired

/-- FNSH at the table (R117 to R120). -/
def serveFnsh (p : Port) (_h : InHand) (args : List Byte) (t : Table) : Table × Reply :=
  match fnshArgs args with
  | none => t.answer .badArgument
  | some (source, hold) =>
    match (t.contexts.get p).stack with
    | [] => t.answer .stackEmpty
    | e :: _ =>
      if e.source = source then
        let r := (t.pop p).finishCall e hold
        (r.1, .done (source.bytes ++ [finishFlags e, r.2.byte, byteOf (r.1.contexts.get p).ceiling]))
      else t.answer .notTop

/-- FNSH (R118). -/
def execFnsh (p : Port) (s : State) : Host.Outcome State Fault Refusal :=
  .next (whileReliable (serve .fnsh p (tableService serveFnsh)) s)

/-! ### CEIL and NEST -/

/-- CEIL at the table (R122). -/
def serveCeil (p : Port) (_h : InHand) (args : List Byte) (t : Table) : Table × Reply :=
  match args with
  | [b] =>
    let c := t.contexts.get p
    match levelOf b with
    | none => t.answer .badArgument
    | some base =>
      if c.stack.isEmpty then
        let c' := { c with base := base }
        (t.setContext p c', .done [byteOf base, byteOf c'.ceiling])
      else t.answer .stackNotEmpty
  | _ => t.answer .badArgument

/-- CEIL (R122). -/
def execCeil (p : Port) (s : State) : Host.Outcome State Fault Refusal :=
  .next (whileReliable (serve .ceil p (tableService serveCeil)) s)

/-- NEST at the table (R123). -/
def serveNest (p : Port) (_h : InHand) (args : List Byte) (t : Table) : Table × Reply :=
  match args with
  | [b] =>
    let c := t.contexts.get p
    match flagOf b with
    | none => t.answer .badArgument
    | some on =>
      if c.stack.isEmpty then
        let c' := { c with nesting := on }
        (t.setContext p c', .done [flagByte on, byteOf c'.ceiling])
      else t.answer .stackNotEmpty
  | _ => t.answer .badArgument

/-- NEST (R123). -/
def execNest (p : Port) (s : State) : Host.Outcome State Fault Refusal :=
  .next (whileReliable (serve .nest p (tableService serveNest)) s)

end Sys2Proof.Machine
end

