-- ==== Sys2Proof/Machine/ClockCmds.lean ====
section
/-! DEFINITION. CKRD, CKST, CKAD, CKHD, CKRL and CKSE, the clock's events SECOND, END_OF_SETTLING,
OSCILLATOR_LOSS, RETURN_OF_OSCILLATION and FIRST_CYCLE_SEEN, and one crystal cycle (spec/04). -/

namespace Sys2Proof.Machine

/-! ### Commands the clock takes (R73) -/

/-- The clock takes the oldest command a unit handed to it, whole, and hands the reply back (R73, R174, R180);
`after` is what the clock then presents. Where that command is another there is nothing to take (entry 3). -/
def takeClock (c : Code) (p : Port) (f : List Byte → Clock → Clock × Reply) (after : State → State)
    (s : State) : State :=
  match s.clock.taking.get p with
  | cmd :: rest =>
    if cmd.code = c then
      let r := f cmd.args s.clock
      after ((s.setClock { r.1 with taking := s.clock.taking.set p rest }).modUnit p
        fun u => u.takeReply .clock r.2)
    else s
  | [] => s

/-- The payload of CKRD (R74; Table A-5). -/
def Clock.bytes (k : Clock) : List Byte :=
  k.calendar.bytes ++ [flagByte k.valid, k.state.byte] ++ bytes4 k.elapsed ++ [byteOf k.choice]

/-- CKRD at the clock (R74): it changes nothing. -/
def clockRead (args : List Byte) (k : Clock) : Clock × Reply :=
  match args with
  | [] => (k, .done k.bytes)
  | _ :: _ => (k, .bare .badArgument)

/-- CKRD (R74). -/
def execCkrd (p : Port) (s : State) : Host.Outcome State Fault Refusal :=
  .next (whileReliable (takeClock .ckrd p clockRead id) s)

/-- The calendar loaded by CKST (R75): VALID, the divider restarted when RUNNING. -/
def Clock.load (k : Clock) (d : DateTime) : Clock :=
  { k with calendar := Calendar.ofDateTime d, valid := true, divider := if k.state = .running then 0 else k.divider }

/-- CKST at the clock (R75): layout, LOST, then the class 1 checks. -/
def clockSet (args : List Byte) (k : Clock) : Clock × Reply :=
  if args.length = 6 then
    if k.state = .lost then (k, .bare .clockLost)
    else
      match timeOf args with
      | none => (k, .bare .badTime)
      | some d => (k.load d, .done (Calendar.ofDateTime d).bytes)
  else (k, .bare .badArgument)

/-- CKST (R75), from port A. -/
def execCkst (s : State) : Host.Outcome State Fault Refusal :=
  .next (whileReliable (takeClock .ckst .A clockSet State.afterClock) s)

/-- CKHD on a clock (R76): RUNNING becomes HELD, the divider counting on. -/
def Clock.halt (k : Clock) : Clock := if k.state = .running then { k with state := .held } else k

/-- CKHD at the clock (R76). -/
def clockHold (args : List Byte) (k : Clock) : Clock × Reply :=
  match args with
  | [] => (k.halt, .done [k.halt.state.byte])
  | _ :: _ => (k, .bare .badArgument)

/-- CKHD (R76), from port A. -/
def execCkhd (s : State) : Host.Outcome State Fault Refusal :=
  .next (whileReliable (takeClock .ckhd .A clockHold State.afterClock) s)

/-- CKRL on a clock (R76): HELD becomes RUNNING, the divider restarted. -/
def Clock.resume (k : Clock) : Clock := if k.state = .held then { k with state := .running, divider := 0 } else k

/-- CKRL at the clock (R76). -/
def clockRelease (args : List Byte) (k : Clock) : Clock × Reply :=
  match args with
  | [] => (k.resume, .done [k.resume.state.byte])
  | _ :: _ => (k, .bare .badArgument)

/-- CKRL (R76), from port A. -/
def execCkrl (s : State) : Host.Outcome State Fault Refusal :=
  .next (whileReliable (takeClock .ckrl .A clockRelease State.afterClock) s)

/-- CKSE at the clock (R77): the choice governs the next entry into SETTLING. -/
def clockSettle (args : List Byte) (k : Clock) : Clock × Reply :=
  match args with
  | [b] => if b.toNat ≤ Config.maxChoice then ({ k with choice := b.toNat }, .done [b]) else (k, .bare .badArgument)
  | _ => (k, .bare .badArgument)

/-- CKSE (R77), from port A. -/
def execCkse (s : State) : Host.Outcome State Fault Refusal :=
  .next (whileReliable (takeClock .ckse .A clockSettle id) s)

/-! ### CKAD, served at the table -/

/-- A due moved by an adjustment (R80): a sum below 0 is the range start, a sum beyond the range is none. -/
def shiftDue (n : Int) (d : DateTime) : Option DateTime :=
  let sum : Int := secondNumber d + n
  if sum < 0 then some rangeStart
  else if Config.maxSecond < sum then none
  else some (ofSecondNumber sum.toNat)

/-- The due of an ELAPSED-anchored order that is WAITING or HELD (R80). -/
def Order.elapsedDue (o : Order) : Option DateTime := if o.anchoring = .elapsed then o.standing.due else none

/-- An order's standing after an adjustment (R80). -/
def shiftStanding (n : Int) : Standing → Standing
  | .waiting d => match shiftDue n d with
    | some x => .waiting x
    | none => .spent
  | .held d => match shiftDue n d with
    | some x => .held x
    | none => .spent
  | .spent => .spent

/-- An order after an adjustment (R10, R80). -/
def Order.shift (n : Int) (o : Order) : Order :=
  if o.anchoring = .elapsed then { o with standing := shiftStanding n o.standing } else o

/-- The order's due is shifted by the adjustment, those set to the range start included (R80; entry 13). -/
def Order.shifts (n : Int) (o : Order) : Bool :=
  match o.elapsedDue with
  | some d => (shiftDue n d).isSome
  | none => false

/-- The order is made SPENT by the adjustment (R80). -/
def Order.outruns (n : Int) (o : Order) : Bool :=
  match o.elapsedDue with
  | some d => (shiftDue n d).isNone
  | none => false

/-- The dues of the table after an adjustment (R80). -/
def Table.shift (t : Table) (n : Int) : Table := t.mapOrders (Order.shift n)

/-- The adjustment at the clock (R79): the validity, state, elapsed counter and divider are not changed. -/
def Clock.adjust (k : Clock) (sum : Nat) : Clock :=
  { k with calendar := Calendar.ofDateTime (ofSecondNumber sum) }

/-- CKAD at the table (R78 to R80). Its checks against the clock, and the application, are one act at the clock as
the table carries the request out; the clock then presents (R72). -/
def serveCkad : Service := fun _p _h args s =>
  match adjustmentOf args with
  | none => (s, .bare .badArgument)
  | some n =>
    if s.clock.valid then
      let sum : Int := secondNumber s.clock.calendar.now + n
      if sum < 0 ∨ Config.maxSecond < sum then (s, .bare .badArgument)
      else
        let k := s.clock.adjust sum.toNat
        (((s.setClock k).setTable (s.table.shift n)).presentClock,
          .done (k.calendar.bytes ++ [byteOf (s.table.ordersWhere (Order.shifts n)).length,
            byteOf (s.table.ordersWhere (Order.outruns n)).length]))
    else (s, .bare .clockUnset)

/-- CKAD (R78), from port A. -/
def execCkad (s : State) : Host.Outcome State Fault Refusal :=
  .next (whileReliable (serve .ckad .A serveCkad) s)

/-! ### The clock's events -/

/-- Seconds come in RUNNING and HELD (R68; Table 5-3). -/
def Clock.counting (k : Clock) : Bool := k.state = .running || k.state = .held

/-- The calendar and validity after a calendar step (R64), the wrap included (R65). -/
def Clock.stepCalendar (k : Clock) : Clock :=
  match k.calendar.next with
  | some c => { k with calendar := c }
  | none => { k with calendar := ⟨rangeStart, 6⟩, valid := false }

/-- A second at the clock (R67, R68): in RUNNING a calendar step and an elapsed step, in HELD an elapsed step. -/
def Clock.second (k : Clock) : Clock :=
  let k' := { k with elapsed := k.elapsed + 1, divider := 0 }
  if k.state = .running then k'.stepCalendar else k'

/-- A second, where the clock counts; elsewhere none comes (R67; entry 3). -/
def State.second (s : State) : State :=
  if s.clock.counting then (s.setClock s.clock.second).afterClock else s

/-- SECOND (R68). -/
def execSecond (s : State) : Host.Outcome State Fault Refusal := .next (whileReliable State.second s)

/-- The settle count is complete (R68 to R70): RUNNING, the divider restarted. -/
def Clock.settled (k : Clock) : Clock := { k with state := .running, divider := 0, settleCount := 0, armed := false }

/-- The clock settles and has seen its first cycle (R70, R71). -/
def Clock.settlingArmed (k : Clock) : Bool := k.state = .settling && k.armed

/-- The end of a settling whose count has begun (R70; entry 3). -/
def State.settle (s : State) : State :=
  if s.clock.settlingArmed then (s.setClock s.clock.settled).afterClock else s

/-- END_OF_SETTLING (R70). -/
def execEndOfSettling (s : State) : Host.Outcome State Fault Refusal := .next (whileReliable State.settle s)

/-- Entry into LOST (R71): the calendar and the counter stand, the calendar is UNSET, the divider stands at 0. -/
def Clock.lose (k : Clock) : Clock :=
  { k with state := .lost, valid := false, divider := 0, settleCount := 0, armed := false }

/-- Oscillator loss (R71): CLOCK-LOST is set in both alert words. Before the first cycle of a settling, and in
LOST, no absence is judged (entry 3). -/
def State.loseOscillator (s : State) : State :=
  if s.clock.counting || s.clock.settlingArmed then
    (((s.setClock s.clock.lose).alert .A .clockLost).alert .B .clockLost).afterClock
  else s

/-- OSCILLATOR_LOSS (R71). -/
def execOscillatorLoss (s : State) : Host.Outcome State Fault Refusal :=
  .next (whileReliable State.loseOscillator s)

/-- The return of oscillation (R70, R71): SETTLING with the settle time of the choice held, counted from this cycle
(entry 20). -/
def Clock.restart (k : Clock) : Clock :=
  { k with state := .settling, settleTarget := Config.settleCycles k.choice, settleCount := 1, armed := true }

/-- RETURN_OF_OSCILLATION in LOST (R71); elsewhere there is no return (entry 3). -/
def State.returnOscillation (s : State) : State :=
  if s.clock.state = .lost then (s.setClock s.clock.restart).afterClock else s

/-- RETURN_OF_OSCILLATION (R71). -/
def execReturnOfOscillation (s : State) : Host.Outcome State Fault Refusal :=
  .next (whileReliable State.returnOscillation s)

/-- The first cycle seen after entry into SETTLING arms the loss detector and starts the settle count (R71;
entry 20). -/
def Clock.seeFirst (k : Clock) : Clock := { k with armed := true, settleCount := 1 }

/-- FIRST_CYCLE_SEEN where the clock settles and has seen no cycle (R71; entry 3). -/
def State.seeFirstCycle (s : State) : State :=
  if s.clock.state = .settling ∧ s.clock.armed = false then s.setClock s.clock.seeFirst else s

/-- FIRST_CYCLE_SEEN (R71). -/
def execFirstCycleSeen (s : State) : Host.Outcome State Fault Refusal :=
  .next (whileReliable State.seeFirstCycle s)

/-! ### One crystal cycle: what an empty queue does (entry 1) -/

/-- One cycle of the crystal (R68, R70): in RUNNING and HELD the divider counts and its 32768th cycle is a second;
in a settling that has seen its first cycle the settle count grows and its last cycle is the end of settling.
A crystal that is silent, before its first cycle and in LOST, gives none. -/
def State.crystalCycle (s : State) : State :=
  if s.clock.counting then
    if s.clock.divider + 1 < Config.dividerModulus then s.setClock { s.clock with divider := s.clock.divider + 1 }
    else s.second
  else if s.clock.settlingArmed then
    if s.clock.settleCount + 1 < s.clock.settleTarget then
      s.setClock { s.clock with settleCount := s.clock.settleCount + 1 }
    else s.settle
  else s

end Sys2Proof.Machine
end

