-- ==== Sys2Proof/Machine/Firing.lean ====
section
/-! DEFINITION. FIRE (spec/05) and EXPIRE (spec/07). -/

namespace Sys2Proof.Machine

/-! ### FIRE -/

/-- A count increased and stopping at its largest value (R13). -/
def saturate (limit n more : Nat) : Nat := min limit (n + more)

/-- The remaining count charged by 1 + k, stopping at 0; unlimited is not changed (R93). -/
def chargeRemaining (k : Nat) (r : Option Nat) : Option Nat := r.map fun n => n - (1 + k)

/-- Where a firing leaves the order (R97): SPENT when its remaining count is brought to 0 or there is no next due, as
for the rule SINGLE; WAITING at the next due otherwise. -/
def placeFired (remaining : Option Nat) (next : Option DateTime) : Standing :=
  if remaining = some 0 then .spent
  else
    match next with
    | some d => .waiting d
    | none => .spent

/-- The order charged and placed by a firing (R93, R97). -/
def Order.advanced (o : Order) (f : Passed) : Order :=
  { o with remaining := chargeRemaining f.k o.remaining
           standing := placeFired (chargeRemaining f.k o.remaining) f.next }

/-- What a counted firing does to the counts whatever the call (R95). -/
def Order.counted (o : Order) : Order :=
  { o with skipped := false, tally := saturate Config.maxTally o.tally 1 }

/-- A counted firing of an ungrouped order (R95, R96). At level 7 it is silent. `start` starts a deadline from a
window. -/
def Order.call1 (o : Order) (k : Nat) (start : Byte → Option Elapsed) : Order :=
  if o.level = 7 then o
  else
    match o.call with
    | none =>
      { o with call := some ⟨.raised, o.level, start o.window⟩, missed := saturate Config.maxMissed o.missed k }
    | some _ => { o with missed := saturate Config.maxMissed o.missed (1 + k) }

/-- A counted firing of a member sets its factor bit and judges the group's call (R95, R141, R142). -/
def Group.fired (g : Group) (pos : Fin 8) : Group := { g with factor := g.factor ||| positionBit pos : Group }.raise

/-- A deadline as a firing starts it: none between the backup-entry work and the return work (R96, R102). -/
def Table.fireDeadline (t : Table) (e : Elapsed) (window : Byte) : Option Elapsed :=
  if t.inBackup then none else startDeadline e window

/-- The firing of order `o` at slot `i`, due at `d`, by the calendar and elapsed counter read at the grant
(R88 to R97). -/
def Table.fireOrder (t : Table) (h : InHand) (i : Fin 64) (o : Order) (d : DateTime) : Table :=
  let f := passed o.rule d h.now
  let late := secondNumber d < secondNumber h.now
  let o' := o.advanced f
  if late ∧ o.policy = .drop then t.setOrder i { o' with skipped := true }
  else
    match o.member with
    | some m => (t.setOrder i o'.counted).setGroup m.group ((t.group m.group).fired m.position)
    | none => t.setOrder i (o'.counted.call1 f.k (t.fireDeadline h.elapsed))

/-- A FIRE at the table (R87): nothing while the calendar read is UNSET, the due list is empty, or the head is due
later; otherwise the head is fired. -/
def Table.fire (t : Table) (h : InHand) : Table :=
  if h.valid then
    match t.head with
    | none => t
    | some e =>
      if e.due.atOrBefore h.now then
        match t.order e.slot with
        | some o => t.fireOrder h e.slot o e.due
        | none => t
      else t
  else t

/-- The FIRE in hand is carried out and completed (R87, R98); where none is in hand there is nothing to do
(entry 3). -/
def State.fire (s : State) : State :=
  match s.table.inHand with
  | some h => match h.request with
    | .fire => (s.setTable (s.table.fire h)).completeSched
    | .expire | .command _ _ => s
  | none => s

/-- FIRE (R87). -/
def execFire (s : State) : Host.Outcome State Fault Refusal := .next (whileReliable State.fire s)

/-! ### EXPIRE -/

/-- The call of an order whose deadline lapsed: escalated above the floor (R132), its deadline made absent at the
floor (R133). -/
def Order.expired (o : Order) (e : Elapsed) (c : Call) : Order :=
  if o.floor < c.level then { o with call := some { c with level := c.level - 1, deadline := startDeadline e o.window } }
  else { o with call := some { c with deadline := none } }

/-- A lapsed deadline of a raised order call dealt with (R132, R133). -/
def State.expireCall (s : State) (e : Elapsed) (i : Fin 64) : State :=
  match s.table.order i with
  | some o =>
    match o.call with
    | some c =>
      let s' := s.setTable (s.table.setOrder i (o.expired e c))
      if o.floor < c.level then s' else s'.alert o.answering .unanswered
    | none => s
  | none => s

/-- An entry marked overdue, its finish deadline absent (R134). -/
def Entry.markOverdue (e : Entry) : Entry := { e with overdue := true, deadline := none }

/-- A lapsed finish deadline dealt with (R134). -/
def State.expireEntry (s : State) (p : Port) (index : Nat) : State :=
  let c := s.table.contexts.get p
  (s.setTable (s.table.setContext p { c with stack := c.stack.modify index Entry.markOverdue })).alert p .overdue

/-- An EXPIRE at the table (R130, R131): the earliest lapsed deadline is dealt with, if one has lapsed. -/
def State.expireAt (s : State) (e : Elapsed) : State :=
  match earliestLapsed e s.table.deadlines with
  | none => s
  | some (.call i, _) => s.expireCall e i
  | some (.entry p n, _) => s.expireEntry p n

/-- The EXPIRE in hand is carried out and completed (R130, R131); where none is in hand there is nothing to do
(entry 3). -/
def State.expire (s : State) : State :=
  match s.table.inHand with
  | some h => match h.request with
    | .expire => (s.expireAt h.elapsed).completeSched
    | .fire | .command _ _ => s
  | none => s

/-- EXPIRE (R130). -/
def execExpire (s : State) : Host.Outcome State Fault Refusal := .next (whileReliable State.expire s)

end Sys2Proof.Machine
end

