-- ==== Sys2Proof/Machine/Groups.lean ====
section
/-! DEFINITION. GSET_CONFIGURE, GSET_RELEASE, GRED and GCLR (spec/08). -/

namespace Sys2Proof.Machine

/-- The call state byte of a group. -/
def Group.callState (g : Group) : Byte := callByte g.call

/-! ### GSET -/

/-- What a GSET asks (R144). -/
inductive GsetForm where
  | configure (g : Fin 8) (level : Nat) (answering : Port) (enable : Byte)
  | release (g : Fin 8)
  deriving DecidableEq, Repr

/-- The arguments of a GSET that pass the checks of R144: the layout, the group number, the form, and for a
configure the level and the answering port. -/
def gsetArgs (args : List Byte) : Option GsetForm :=
  match args with
  | [g, form] => if form = 1 then (finOf 8 g).map .release else none
  | [g, form, level, port, enable] =>
    if form = 0 then
      match finOf 8 g, floorOf level, portOf port with
      | some g, some l, some p => some (.configure g l p enable)
      | _, _, _ => none
    else none
  | _ => none

/-- The form byte of a GSET (Table A-5). -/
def gsetFormByte (args : List Byte) : Option Byte := args[1]?

/-- A group configured from unconfigured (R145). -/
def Group.configured (g : Group) (c : GroupConfig) (enable : Byte) : Group :=
  { g with config := some c, enable := enable, factor := 0, positions := Vector.replicate 8 none, call := none }

/-- A configured group given new values (R146, R147), or none where its standing call bars the change. -/
def Group.reconfigure (g : Group) (old c : GroupConfig) (enable : Byte) : Option Group :=
  match g.call with
  | none => some { g with config := some c, enable := enable : Group }.raise
  | some .raised => if old = c then some { g with enable := enable : Group }.withdraw else none
  | some .taken => if old = c then some { g with enable := enable } else none

/-- A configure of a group, by whether it is configured (R145 to R147). -/
def Group.set (g : Group) (c : GroupConfig) (enable : Byte) : Option Group :=
  match g.config with
  | none => some (g.configured c enable)
  | some old => g.reconfigure old c enable

/-- The payload of GSET configure (R145; Table A-5). -/
def configureBytes (n : Fin 8) (c : GroupConfig) (g : Group) : List Byte :=
  [byteOf n.val, 1, byteOf c.level, portByte c.answering, g.enable, g.callState]

/-- GSET configure at the table (R144 to R147). -/
def serveConfigure (_p : Port) (_h : InHand) (args : List Byte) (t : Table) : Table × Reply :=
  match gsetArgs args with
  | some (.configure n level answering enable) =>
    match (t.group n).set ⟨level, answering⟩ enable with
    | some g => (t.setGroup n g, .done (configureBytes n ⟨level, answering⟩ g))
    | none => t.answer .callOutstanding
  | some (.release _) | none => t.answer .badArgument

/-- Every position of a group is empty (R148). -/
def Group.vacant (g : Group) : Bool := g.positions.toList.all Option.isNone

/-- A group released (R148). -/
def Group.released (g : Group) : Group := { g with config := none, enable := 0 }

/-- GSET release at the table (R144, R148). -/
def serveRelease (_p : Port) (_h : InHand) (args : List Byte) (t : Table) : Table × Reply :=
  match gsetArgs args with
  | some (.release n) =>
    if (t.group n).config.isNone then t.answer .noSuchGroup
    else if !(t.group n).vacant then t.answer .groupInUse
    else if (t.group n).call.isSome then t.answer .callOutstanding
    else (t.setGroup n (t.group n).released, .done [byteOf n.val, 0])
  | some (.configure _ _ _ _) | none => t.answer .badArgument

/-- The GSET in hand has the form byte; one with no form byte or an unknown one may be carried out, and refused,
by either row (entry 15). -/
def Table.gsetForm (t : Table) (form : Byte) : Bool :=
  match t.handOf .A .gset with
  | some (_, args) => match gsetFormByte args with
    | some b => b = form || 1 < b.toNat
    | none => true
  | none => false

/-- GSET_CONFIGURE (R146), from port A. -/
def execGsetConfigure (s : State) : Host.Outcome State Fault Refusal :=
  .next (whileReliable
    (fun s => if s.table.gsetForm 0 then serve .gset .A (tableService serveConfigure) s else s) s)

/-- GSET_RELEASE (R148), from port A. -/
def execGsetRelease (s : State) : Host.Outcome State Fault Refusal :=
  .next (whileReliable
    (fun s => if s.table.gsetForm 1 then serve .gset .A (tableService serveRelease) s else s) s)

/-! ### GRED and GCLR -/

/-- Port B may read and clear a group configured with port B as its answering port (R24, R149, R150). -/
def Group.permits (g : Group) (p : Port) : Bool :=
  match p with
  | .A => true
  | .B => match g.config with
    | some c => c.answering == .B
    | none => false

/-- A position in GRED: its member's handle, or 0xFF 0xFF (Table A-5). -/
def Table.positionBytes (t : Table) : Option (Fin 64) → List Byte
  | some i => t.handle i
  | none => [0xFF, 0xFF]

/-- The configured field, level and answering port in GRED (Table A-5; R186). -/
def configBytes : Option GroupConfig → List Byte
  | some c => [1, byteOf c.level, portByte c.answering]
  | none => [0, 0, 0xFF]

/-- The payload of GRED (R149; Table A-5). -/
def Table.groupBytes (t : Table) (n : Fin 8) : List Byte :=
  let g := t.group n
  byteOf n.val :: (configBytes g.config ++ g.positions.toList.flatMap t.positionBytes
    ++ [g.factor, g.enable, g.callState])

/-- GRED at the table (R149): it changes nothing. -/
def serveGred (p : Port) (_h : InHand) (args : List Byte) (t : Table) : Table × Reply :=
  match args with
  | [b] =>
    match finOf 8 b with
    | none => t.answer .badArgument
    | some n => if (t.group n).permits p then (t, .done (t.groupBytes n)) else t.answer .notPermitted
  | _ => t.answer .badArgument

/-- GRED (R149). -/
def execGred (p : Port) (s : State) : Host.Outcome State Fault Refusal :=
  .next (whileReliable (serve .gred p (tableService serveGred)) s)

/-- A clear set applied to a group's factor set, the call then judged (R150). -/
def Group.clear (g : Group) (set : Byte) : Group := { g with factor := g.factor &&& ~~~set : Group }.withdraw

/-- GCLR at the table (R150). -/
def serveGclr (p : Port) (_h : InHand) (args : List Byte) (t : Table) : Table × Reply :=
  match args with
  | [b, set] =>
    match finOf 8 b with
    | none => t.answer .badArgument
    | some n =>
      if !(t.group n).permits p then t.answer .notPermitted
      else if (t.group n).config.isNone then t.answer .noSuchGroup
      else
        let g := (t.group n).clear set
        (t.setGroup n g, .done [b, g.factor, g.callState])
  | _ => t.answer .badArgument

/-- GCLR (R150). -/
def execGclr (p : Port) (s : State) : Host.Outcome State Fault Refusal :=
  .next (whileReliable (serve .gclr p (tableService serveGclr)) s)

end Sys2Proof.Machine
end

