-- ==== Sys2Proof/Machine/Units.lean ====
section
/-! DEFINITION. How a command unit takes a valid frame: routing, local commands, cancellation (R172, R173, R178). -/

namespace Sys2Proof.Machine

/-- The routes of Table 11-2. -/
inductive Route where
  | unit
  | refusal
  | clock
  | table
  deriving DecidableEq, Repr

/-- The route of a command taken in IDLE on a port (R173; Table 11-2). STAT, RPLY and CNCL are not routed (R172). -/
def Code.route (c : Code) (p : Port) : Route :=
  match c with
  | .stat | .rply | .cncl | .alrd | .alcl => .unit
  | .ckrd => .clock
  | .ckst | .ckhd | .ckrl | .ckse => match p with
    | .A => .clock
    | .B => .refusal
  | .ckad | .quot | .gset => match p with
    | .A => .table
    | .B => .refusal
  | .plac | .amnd | .hold | .rsum | .rtir | .purg | .look | .list | .info
  | .take | .fnsh | .ceil | .nest | .gred | .gclr => .table

/-- The reply of ALRD (R162): the word as it stands; argument bytes are refused. -/
def CmdUnit.alrd (u : CmdUnit) (args : List Byte) : CmdUnit :=
  match args with
  | [] => u.place (.done [u.alert.setWidth 8])
  | _ :: _ => u.place (.bare .badArgument)

/-- ALCL (R163): the bits named become clear and the reply gives the word after; a set naming a bit other than
the four is refused. -/
def CmdUnit.alcl (u : CmdUnit) (args : List Byte) : CmdUnit :=
  match args with
  | [set] =>
    if set.toNat < 16 then
      let v := u.clearAlert (set.setWidth 4)
      v.place (.done [v.alert.setWidth 8])
    else u.place (.bare .badArgument)
  | _ => u.place (.bare .badArgument)

/-- A local command (R173): ALRD or ALCL. -/
def CmdUnit.runLocal (u : CmdUnit) (c : Command) : CmdUnit :=
  if c.code = .alrd then u.alrd c.args
  else if c.code = .alcl then u.alcl c.args
  else u

/-- A clock command is handed to the clock (R173): it waits there in turn (R180). -/
def Clock.hand (k : Clock) (p : Port) (c : Command) : Clock :=
  { k with taking := k.taking.set p (k.taking.get p ++ [c]) }

/-- A table command is put before the arbiter (R173). -/
def Table.wait (t : Table) (p : Port) (c : Command) : Table := { t with waiting := t.waiting.set p (some c) }

/-- A command taken in IDLE is routed by its code and port (R173). -/
def State.routeCommand (s : State) (p : Port) (c : Command) : State :=
  match c.code.route p with
  | .unit => s.modUnit p fun u => u.runLocal c
  | .refusal => s.modUnit p fun u => u.place (.bare .notPermitted)
  | .clock => (s.setClock (s.clock.hand p c)).modUnit p fun u => { u with phase := .working c }
  | .table => ((s.setTable (s.table.wait p c)).modUnit p fun u => { u with phase := .pending c }).arbitrate

/-- CNCL (R178): in PENDING the request is withdrawn (R30) and a reply of CANCELLED is placed; in the other states
it has no effect. -/
def State.cancel (s : State) (p : Port) : State :=
  match (s.units.get p).phase with
  | .pending _ => (s.setTable (s.table.unwait (.unit p))).modUnit p fun u => u.place (.bare .cancelled)
  | .idle | .working _ | .reply _ => s

/-- A unit takes a valid frame (R172). RPLY's fetch is the link's (R176). -/
def State.takeFrame (s : State) (p : Port) (c : Command) : State :=
  if c.code = .stat ∨ c.code = .rply then s
  else if c.code = .cncl then s.cancel p
  else if (s.units.get p).phase = .idle then s.routeCommand p c
  else s.modUnit p fun u => { u with refused := true }

/-- A faulty frame sets FRAME-FAULT and is not acted on (R169). -/
def State.faultFrame (s : State) (p : Port) : State := s.modUnit p fun u => { u with frameFault := true }

/-- A frame that ended is judged, and taken where it is valid (R169, R172). -/
def State.endFrame (s : State) (p : Port) (bytes : List Byte) : State :=
  match judgeFrame p bytes with
  | some c => s.takeFrame p c
  | none => s.faultFrame p

/-- The reply frame a fetch makes by the command state, and whether it is the reply in the buffer (R175). -/
def CmdUnit.fetch (u : CmdUnit) : List Byte × Bool :=
  match u.phase with
  | .idle => ((Reply.bare .noReply).frame, false)
  | .pending _ => ((Reply.bare .notYet).frame, false)
  | .working _ => ((Reply.bare .notYet).frame, false)
  | .reply r => (r.frame, true)

/-- A reply wholly transferred is given up: REPLY to IDLE, the buffer emptied (R175). -/
def CmdUnit.giveUp (u : CmdUnit) : CmdUnit :=
  match u.phase with
  | .reply _ => { u with phase := .idle }
  | .idle | .pending _ | .working _ => u

end Sys2Proof.Machine
end

