-- ==== Sys2Proof/Machine/Links.lean ====
section
/-! DEFINITION. The two links: port A's select periods (R167, R171, R176) and port B's I2C transfers (R168, R171,
R177), and the commands that are transfers: REQUEST_FRAME, READ_TRANSACTION, STAT, RPLY, CNCL, ALRD, ALCL. -/

namespace Sys2Proof.Machine

/-- Eight bits as a byte, most significant bit first (R167, R168). -/
def byteOfBits (bits : List Bool) : Byte :=
  bits.foldl (fun b bit => (b <<< 1) ||| (if bit then 1#8 else 0#8)) 0#8

/-! ### Port A -/

/-- Port A's link changed. -/
def State.setLineA (s : State) (l : SelectLine) : State := { s with linkA := { s.linkA with line := l } }

/-- SEL falls (R167): a select period begins with the status byte formed then (R170), or one the link ignores
while RESET is asserted or in BACKUP. SEL already low does not fall (entry 3). -/
def State.selectFalls (s : State) : State :=
  match s.linkA.line with
  | .high =>
    if s.serving then
      { s with linkA := { line := .period ⟨s.units.a.status, [], [], .undecided⟩, sdo := [] } }
    else { s with linkA := { line := .ignoring, sdo := [] } }
  | .ignoring | .period _ => s

/-- The byte SDO carries while the next byte of a period is taken (R167, R176): the status byte first, then 0x00, and
after the check byte of a valid RPLY the reply frame and 0x00. -/
def Period.nextOut (q : Period) : Byte :=
  if q.bytes.isEmpty then q.status
  else
    match q.rply with
    | .chosen start frame _ => frame.getD (q.bytes.length - start) 0
    | .undecided | .faulty => 0

/-- The bit SDO presents (R167). From the fall of SEL on it is the next bit of the byte that SDO carries, most
significant bit first. It is none where SDO is released to high impedance: while SEL is high, and in a select period
that is ignored or was abandoned. -/
def LinkA.sdoBit (l : LinkA) : Option Bool :=
  match l.line with
  | .period q => some (q.nextOut.getLsbD (7 - q.bits.length))
  | .high | .ignoring => none

/-- The bytes of a period end the check byte of a RPLY request (R169, R176). A length byte above 40 announces no
frame of R166 and so no check byte: such a request is judged, and found faulty, at the rise of SEL (DESIGN CHOICE,
entry 21). -/
def endsRply (bytes : List Byte) : Bool :=
  match bytes with
  | code :: n :: rest => code == Code.rply.byte && n.toNat ≤ Config.maxArgs && rest.length == n.toNat + 1
  | _ => false

/-- A whole byte taken in a period (R167). At the check byte of a RPLY the request is judged and the reply chosen
(R176); a faulty one sets FRAME-FAULT. -/
def State.byteA (s : State) (q : Period) (b : Byte) : State :=
  let bytes := q.bytes ++ [b]
  let s := { s with linkA := { s.linkA with sdo := s.linkA.sdo ++ [q.nextOut] } }
  if q.rply = .undecided ∧ endsRply bytes then
    match judgeFrame .A bytes with
    | some _ =>
      s.setLineA (.period ⟨q.status, bytes, [], .chosen bytes.length s.units.a.fetch.1 s.units.a.fetch.2⟩)
    | none => (s.setLineA (.period ⟨q.status, bytes, [], .faulty⟩)).faultFrame .A
  else s.setLineA (.period ⟨q.status, bytes, [], q.rply⟩)

/-- One bit clocked on port A: the eighth bit since the last whole byte makes a byte (R167). -/
def State.clockBitA (s : State) (bit : Bool) : State :=
  match s.linkA.line with
  | .period q =>
    if q.bits.length < 7 then s.setLineA (.period { q with bits := q.bits ++ [bit] })
    else s.byteA q (byteOfBits (q.bits ++ [bit]))
  | .high | .ignoring => s

/-- The bits of a byte, most significant first. -/
def bitsOfByte (b : Byte) : List Bool := (List.range 8).map fun i => b.getLsbD (7 - i)

/-- One whole byte clocked on port A. Where bits stand loose since the last whole byte, its bits follow them. -/
def State.clockByteA (s : State) (b : Byte) : State :=
  match s.linkA.line with
  | .period q => if q.bits.isEmpty then s.byteA q b else (bitsOfByte b).foldl State.clockBitA s
  | .high | .ignoring => s

/-- The whole reply frame of a valid RPLY was shifted out, and it came from the buffer (R176). -/
def Period.gaveUp (q : Period) : Bool :=
  match q.rply with
  | .chosen start frame buffered => buffered && start + frame.length ≤ q.bytes.length
  | .undecided | .faulty => false

/-- A select period that held a whole byte ends (R167, R171, R176): the sticky flags its status byte reported are
cleared, and then the frame is judged, so that a flag the frame itself causes is left for the next period
(entry 10). -/
def State.endPeriod (s : State) (q : Period) : State :=
  let s := s.modUnit .A fun u => u.clearReported q.status
  match q.rply with
  | .undecided => s.endFrame .A q.bytes
  | .faulty => s.faultFrame .A
  | .chosen _ _ _ => if q.gaveUp then s.modUnit .A CmdUnit.giveUp else s

/-- SEL rises (R167). Loose bits are discarded; a period holding no whole byte changes nothing. -/
def State.selectRises (s : State) : State :=
  match s.linkA.line with
  | .high => s
  | .ignoring => s.setLineA .high
  | .period q => if q.bytes.isEmpty then s.setLineA .high else (s.setLineA .high).endPeriod q

/-! ### Port B -/

/-- Port B's transfer changed. -/
def State.setLineB (s : State) (l : Transfer) : State := { s with linkB := { s.linkB with line := l } }

/-- The address port B answers to (R168). -/
def LinkB.address (l : LinkB) : BitVec 7 := if l.addrHigh then 0x3B#7 else 0x3A#7

/-- The bytes SDA has carried whole in a read: the status byte, the reply frame, then 0x00 (R177). -/
def readOut (status : Byte) (frame : List Byte) (clocked : Nat) : List Byte :=
  (List.range (clocked / 8)).map fun i => (status :: frame).getD i 0

/-- The data bit the part presents on SDA (R168, R177): in a read the next bit of the byte in transfer, most
significant bit first; none where it gives no data. -/
def LinkB.sdaBit (l : LinkB) : Option Bool :=
  match l.line with
  | .read status frame _ clocked => some (((status :: frame).getD (clocked / 8) 0).getLsbD (7 - clocked % 8))
  | .none | .write _ _ => none

/-- A whole data byte of a write is taken and acknowledged (R168). -/
def State.takeByteB (s : State) (bytes : List Byte) : State :=
  { s with linkB := { s.linkB with line := .write bytes [], acks := s.linkB.acks ++ [true] } }

/-- The transfer in progress ends, at a stop condition or a repeated start (R168, R171, R177). A write's frame is
judged; a read that transferred its first byte clears the flags it reported, and one that transferred the
whole reply frame gives a reply of the buffer up. -/
def State.endTransferB (s : State) : State :=
  match s.linkB.line with
  | .none => s
  | .write bytes _ =>
    if bytes.isEmpty then s.setLineB .none else (s.setLineB .none).endFrame .B bytes
  | .read status frame buffered clocked =>
    let s := s.setLineB .none
    let s := if 8 ≤ clocked then s.modUnit .B fun u => u.clearReported status else s
    if buffered && 8 * (1 + frame.length) ≤ clocked then s.modUnit .B CmdUnit.giveUp else s

/-- A start condition with an address and a direction (R168). It ends the transfer in progress. The link
acknowledges its own address, unless RESET is asserted or the part is in BACKUP. A read forms the status byte
and chooses the reply at this moment (R170, R177). -/
def State.startB (s : State) (address : BitVec 7) (reads : Bool) : State :=
  let s := s.endTransferB
  if s.serving && address == s.linkB.address then
    if reads then
      { s with linkB := { s.linkB with
          line := .read s.units.b.status s.units.b.fetch.1 s.units.b.fetch.2 0, acks := [true], sda := [] } }
    else { s with linkB := { s.linkB with line := .write [] [], acks := [true] } }
  else { s with linkB := { s.linkB with line := .none, acks := [false] } }

/-- One whole byte clocked on port B: taken and acknowledged in a write, given in a read. -/
def State.clockByteB (s : State) (b : Byte) : State :=
  match s.linkB.line with
  | .none => s
  | .write bytes _ => s.takeByteB (bytes ++ [b])
  | .read status frame buffered clocked =>
    { s with linkB := { s.linkB with
        line := .read status frame buffered (clocked + 8), sda := readOut status frame (clocked + 8) } }

/-- One bit clocked on port B (R168): the eighth bit of a write since its last whole byte makes a byte. -/
def State.clockBitB (s : State) (bit : Bool) : State :=
  match s.linkB.line with
  | .none => s
  | .write bytes bits =>
    if bits.length < 7 then s.setLineB (.write bytes (bits ++ [bit]))
    else s.takeByteB (bytes ++ [byteOfBits (bits ++ [bit])])
  | .read status frame buffered clocked =>
    { s with linkB := { s.linkB with
        line := .read status frame buffered (clocked + 1), sda := readOut status frame (clocked + 1) } }

/-! ### Transfers -/

/-- A transfer toward a request frame on port A. -/
def State.frameEventA (s : State) : FrameEvent → State
  | .whole bytes => (bytes.foldl State.clockByteA s.selectFalls).selectRises
  | .opens _ => s.selectFalls
  | .clocks bits => bits.foldl State.clockBitA s
  | .closes => s.selectRises

/-- A transfer toward a request frame on port B. -/
def State.frameEventB (s : State) : FrameEvent → State
  | .whole bytes => (bytes.foldl State.clockByteB (s.startB s.linkB.address false)).endTransferB
  | .opens address => s.startB address false
  | .clocks bits => bits.foldl State.clockBitB s
  | .closes => s.endTransferB

/-- A transfer toward a request frame (R167, R168). -/
def State.frameEvent (s : State) (p : Port) (ev : FrameEvent) : State :=
  match p with
  | .A => s.frameEventA ev
  | .B => s.frameEventB ev

/-- A transfer toward a read on port B (R168, R177). -/
def State.readEvent (s : State) : ReadEvent → State
  | .whole count => ((List.replicate count (0 : Byte)).foldl State.clockByteB (s.startB s.linkB.address true)).endTransferB
  | .opens address => s.startB address true
  | .clocks count => (List.replicate count false).foldl State.clockBitB s
  | .closes => s.endTransferB

/-- A whole transfer of a valid frame. -/
def State.sendFrame (s : State) (p : Port) (c : Code) (args : List Byte) : State :=
  s.frameEvent p (.whole (requestBytes c args))

/-- REQUEST_FRAME (R169). The link's lines are pins: a part in BACKUP or without supply ignores the transfer
(R167, R168), and the level of SEL is followed all the same. -/
def execRequestFrame (p : Port) (ev : FrameEvent) (s : State) : Host.Outcome State Fault Refusal :=
  .next (s.frameEvent p ev)

/-- READ_TRANSACTION (R177). -/
def execReadTransaction (ev : ReadEvent) (s : State) : Host.Outcome State Fault Refusal :=
  .next (s.readEvent ev)

/-- STAT (R172): a whole transfer of a STAT frame. It changes nothing but, on port A, the sticky flags its status
byte reported. -/
def execStat (p : Port) (args : List Byte) (s : State) : Host.Outcome State Fault Refusal :=
  .next (s.sendFrame p .stat args)

/-- RPLY (R176): a select period of a RPLY frame in which this many bytes are clocked after its check byte. -/
def execRply (args : List Byte) (clocked : Nat) (s : State) : Host.Outcome State Fault Refusal :=
  .next (s.frameEvent .A (.whole (requestBytes .rply args ++ List.replicate clocked 0)))

/-- CNCL (R178): a whole transfer of a CNCL frame. -/
def execCncl (p : Port) (args : List Byte) (s : State) : Host.Outcome State Fault Refusal :=
  .next (s.sendFrame p .cncl args)

/-- ALRD (R162): a whole transfer of an ALRD frame, carried out by the unit itself. -/
def execAlrd (p : Port) (args : List Byte) (s : State) : Host.Outcome State Fault Refusal :=
  .next (s.sendFrame p .alrd args)

/-- ALCL (R163): a whole transfer of an ALCL frame, carried out by the unit itself. -/
def execAlcl (p : Port) (args : List Byte) (s : State) : Host.Outcome State Fault Refusal :=
  .next (s.sendFrame p .alcl args)

end Sys2Proof.Machine
end

