-- ==== Sys2Proof/Machine/Supply.lean ====
section
/-! DEFINITION. The supply events, the RESET line, and the work of the indications at the table
(spec/02, R32 to R34; spec/06, R124 to R126; spec/09; spec/10, R180 to R182). -/

namespace Sys2Proof.Machine

/-! ### Emptying the stacks (R124 to R126) -/

/-- An order whose taken call returns to RAISED (R125): at the taken level brought within its floor and level, or
absent at level 7. -/
def Order.reRaise (o : Order) (level : Nat) (start : Byte → Option Elapsed) : Order :=
  if o.level = 7 then { o with call := none }
  else { o with call := some ⟨.raised, max o.floor (min level o.level), start o.window⟩ }

/-- An entry dealt with as its stack is emptied (R124): an orphan is discarded, an order's call returns by R125, a
group's by R126. -/
def Table.returnCall (start : Byte → Option Elapsed) (t : Table) (e : Entry) : Table :=
  match e.source with
  | .order _ _ =>
    match t.entryOrder e with
    | some (i, o) => t.setOrder i (o.reRaise e.level start)
    | none => t
  | .group g => t.setGroup g (t.group g).endTaken

/-- Both stacks emptied from the top, base ceilings 7, nesting off (R33, R124). -/
def Table.emptyStacks (t : Table) (start : Byte → Option Elapsed) : Table :=
  let t' := t.contexts.b.stack.foldl (Table.returnCall start) (t.contexts.a.stack.foldl (Table.returnCall start) t)
  { t' with contexts := ⟨Context.powerOn, Context.powerOn⟩ }

/-- The deadline of a RAISED call replaced. -/
def Order.withDeadline (o : Order) (d : Option Elapsed → Option Elapsed) : Order :=
  match o.call with
  | some c => if c.state = .raised then { o with call := some { c with deadline := d c.deadline } } else o
  | none => o

/-- The RESET work at the table (R33). -/
def Table.resetWork (t : Table) (e : Elapsed) : Table := t.emptyStacks (startDeadline e)

/-- The backup-entry work at the table (R34, R138): no re-raised call receives a deadline, and every deadline of a
raised order call becomes absent. -/
def Table.backupWork (t : Table) : Table :=
  { (t.emptyStacks fun _ => none).mapOrders (fun o => o.withDeadline fun _ => none) with inBackup := true }

/-- The return work at the table (R34, R138): a fresh deadline for every RAISED order call whose window is not 0. -/
def Table.returnWork (t : Table) (e : Elapsed) : Table :=
  { t.mapOrders (fun o => if o.window = 0 then o else o.withDeadline fun _ => startDeadline e o.window) with
    inBackup := false }

/-- The table performs the oldest indication's work when it has no request in hand (R32), then presents. Where
another indication is the oldest, or a request is in hand, the work does not come yet (entry 3). -/
def State.perform (s : State) (i : Indication) (f : State → State) : State :=
  match s.table.work with
  | j :: rest =>
    if j = i ∧ s.table.inHand = none then
      let s' := f s
      (s'.setTable { s'.table with work := rest }).afterTable
    else s
  | [] => s

/-- RESET_WORK (R33). -/
def execResetWork (s : State) : Host.Outcome State Fault Refusal :=
  .next (whileReliable
    (fun s => s.perform .reset fun s => s.setTable (s.table.resetWork s.clock.elapsed)) s)

/-- BACKUP_ENTRY_WORK (R34). -/
def execBackupEntryWork (s : State) : Host.Outcome State Fault Refusal :=
  .next (whileReliable (fun s => s.perform .backupEntry fun s => s.setTable s.table.backupWork) s)

/-- RETURN_WORK (R34, R138). From here the scheduler may put EXPIREs again, unless backup was entered anew
(R155, R158; entry 8). -/
def execReturnWork (s : State) : Host.Outcome State Fault Refusal :=
  .next (whileReliable
    (fun s => s.perform .returnHeld fun s =>
      (s.setTable (s.table.returnWork s.clock.elapsed)).setSched { s.sched with barred := s.power = .backup }) s)

/-! ### Resetting the units -/

/-- A select period or transfer in progress is abandoned (R167, R168). -/
def State.abandonLinks (s : State) : State :=
  { s with
    linkA := { s.linkA with line := match s.linkA.line with
      | .period _ => .ignoring
      | .high => .high
      | .ignoring => .ignoring }
    linkB := { s.linkB with line := .none } }

/-- Both units reset, their waiting requests withdrawn, and the indication brought to the table (R32, R33, R180,
R181). -/
def State.resetUnits (s : State) (i : Indication) : State :=
  { s with
    units := s.units.map fun _ u => u.reset
    table := { s.table with waiting := ⟨none, none⟩, work := s.table.work ++ [i] } }

/-- Port B samples the ADDR pin (R168). -/
def State.sampleAddr (s : State) (high : Bool) : State := { s with linkB := { s.linkB with addrHigh := high } }

/-- The RESET line falls (R180). It does not reach the supply monitor or the clock (R82, R154). Where it is asserted
already it does not fall again (entry 3). -/
def State.assertReset (s : State) : State :=
  if s.resetAsserted then s
  else
    let s := { s with resetAsserted := true }
    if s.reliable then (s.resetUnits .reset).abandonLinks else s

/-- RESET_ASSERTION (R180). -/
def execResetAssertion (s : State) : Host.Outcome State Fault Refusal := .next s.assertReset

/-- The RESET line rises (R180): the links take transactions again, and port B samples ADDR. -/
def State.releaseReset (s : State) (high : Bool) : State :=
  if s.resetAsserted then { s with resetAsserted := false }.sampleAddr high else s

/-- RESET_RELEASE (R180). -/
def execResetRelease (addrHigh : Bool) (s : State) : Host.Outcome State Fault Refusal :=
  .next (s.releaseReset addrHigh)

/-! ### Supply events -/

/-- The blocks replaced. -/
def State.setBlocks (s : State) (b : Blocks) : State :=
  { s with clock := b.clock, sched := b.sched, table := b.table, units := b.units }

/-- The state of the blocks can no longer be relied upon (R157): a free value (entry 6). -/
def State.loseBlocks (s : State) : State :=
  { s.setBlocks (Config.unreliableBlocks s.freeCount) with freeCount := s.freeCount + 1 }

/-- Power-on (R154, R182): every block takes its power-on values and port B samples ADDR. A part that has supply is
not powered on (entry 3). -/
def State.powerUp (s : State) (high : Bool) : State :=
  if s.power = .withoutSupply then
    ({ s with power := .main, retention := .held }.setBlocks Blocks.powerOn).sampleAddr high
  else s

/-- POWER_ON (R154). -/
def execPowerOn (addrHigh : Bool) (s : State) : Host.Outcome State Fault Refusal := .next (s.powerUp addrHigh)

/-- Backup entry with retention held (R155, R181): the announcement to units, table and scheduler. -/
def State.announceBackup (s : State) : State :=
  (({ s with power := .backup }.resetUnits .backupEntry).setSched { s.sched with barred := true }).abandonLinks

/-- VDD falls below the switchover level in MAIN (R155), with VBAT at so many millivolts: below the hold level the
retention flag becomes LOST at entry and no block is announced to. -/
def State.enterBackup (s : State) (vbat : Nat) : State :=
  if s.power = .main then
    if vbat < Config.holdLevel then { s with power := .backup, retention := .lost }.loseBlocks.abandonLinks
    else s.announceBackup
  else s

/-- BACKUP_ENTRY (R155). -/
def execBackupEntry (vbat : Nat) (s : State) : Host.Outcome State Fault Refusal := .next (s.enterBackup vbat)

/-- VBAT falls below the hold level (R156, R157); in MAIN that changes nothing (R155). -/
def State.loseRetention (s : State) : State :=
  if s.power = .backup ∧ s.retention = .held then { s with retention := .lost }.loseBlocks else s

/-- RETENTION_LOST (R157). -/
def execRetentionLost (s : State) : Host.Outcome State Fault Refusal := .next s.loseRetention

/-- VDD returns with retention held (R158, R181). -/
def State.returnHeld (s : State) (high : Bool) : State :=
  if s.power = .backup ∧ s.retention = .held then
    { s with
      power := .main
      units := s.units.map fun _ u => u.comeUp
      table := { s.table with work := s.table.work ++ [Indication.returnHeld] } }.sampleAddr high
  else s

/-- RETURN_RETENTION_HELD (R158). -/
def execReturnRetentionHeld (addrHigh : Bool) (s : State) : Host.Outcome State Fault Refusal :=
  .next (s.returnHeld addrHigh)

/-- VDD returns with retention lost (R159): power-on values, and RETENTION-LOST alone in both alert words. The last
words of R138 say that the alert words are kept in this case too; R159 and Tables 8-2 and 10-4, which clear every
other bit, are followed (DESIGN CHOICE, entry 22). -/
def State.returnLost (s : State) (high : Bool) : State :=
  if s.power = .backup ∧ s.retention = .lost then
    (((({ s with power := .main, retention := .held }.setBlocks Blocks.powerOn).alert .A .retentionLost).alert
      .B .retentionLost)).sampleAddr high
  else s

/-- RETURN_RETENTION_LOST (R159). -/
def execReturnRetentionLost (addrHigh : Bool) (s : State) : Host.Outcome State Fault Refusal :=
  .next (s.returnLost addrHigh)

/-- VBAT falls so far in BACKUP that the monitor stops (R154, R157; entry 19): the part holds no state. -/
def State.loseSupply (s : State) : State :=
  if s.power = .backup then { s with power := .withoutSupply }.loseBlocks else s

/-- WITHOUT_SUPPLY (R157). -/
def execWithoutSupply (s : State) : Host.Outcome State Fault Refusal := .next s.loseSupply

end Sys2Proof.Machine
end

