-- ==== Sys2Proof/Machine/Dispatch.lean ====
section
/-! DEFINITION. The dispatch: one arm for each command of spec/opcode_table.json. -/

namespace Sys2Proof.Machine

/-- The effect of a command on everything but the queue. -/
def exec (i : Instr) (s : State) : Host.Outcome State Fault Refusal :=
  match i with
  | .requestFrame p ev => Sys2Proof.Machine.execRequestFrame p ev s
  | .readTransaction ev => Sys2Proof.Machine.execReadTransaction ev s
  | .stat p args => Sys2Proof.Machine.execStat p args s
  | .rply args clocked => Sys2Proof.Machine.execRply args clocked s
  | .cncl p args => Sys2Proof.Machine.execCncl p args s
  | .plac p => Sys2Proof.Machine.execPlac p s
  | .amnd p => Sys2Proof.Machine.execAmnd p s
  | .hold p => Sys2Proof.Machine.execHold p s
  | .rsum p => Sys2Proof.Machine.execRsum p s
  | .rtir p => Sys2Proof.Machine.execRtir p s
  | .purg p => Sys2Proof.Machine.execPurg p s
  | .look p => Sys2Proof.Machine.execLook p s
  | .list p => Sys2Proof.Machine.execList p s
  | .quot => Sys2Proof.Machine.execQuot s
  | .info p => Sys2Proof.Machine.execInfo p s
  | .take p => Sys2Proof.Machine.execTake p s
  | .fnsh p => Sys2Proof.Machine.execFnsh p s
  | .ceil p => Sys2Proof.Machine.execCeil p s
  | .nest p => Sys2Proof.Machine.execNest p s
  | .gsetConfigure => Sys2Proof.Machine.execGsetConfigure s
  | .gsetRelease => Sys2Proof.Machine.execGsetRelease s
  | .gred p => Sys2Proof.Machine.execGred p s
  | .gclr p => Sys2Proof.Machine.execGclr p s
  | .ckrd p => Sys2Proof.Machine.execCkrd p s
  | .ckst => Sys2Proof.Machine.execCkst s
  | .ckad => Sys2Proof.Machine.execCkad s
  | .ckhd => Sys2Proof.Machine.execCkhd s
  | .ckrl => Sys2Proof.Machine.execCkrl s
  | .ckse => Sys2Proof.Machine.execCkse s
  | .alrd p args => Sys2Proof.Machine.execAlrd p args s
  | .alcl p args => Sys2Proof.Machine.execAlcl p args s
  | .fire => Sys2Proof.Machine.execFire s
  | .expire => Sys2Proof.Machine.execExpire s
  | .second => Sys2Proof.Machine.execSecond s
  | .endOfSettling => Sys2Proof.Machine.execEndOfSettling s
  | .oscillatorLoss => Sys2Proof.Machine.execOscillatorLoss s
  | .returnOfOscillation => Sys2Proof.Machine.execReturnOfOscillation s
  | .powerOn addrHigh => Sys2Proof.Machine.execPowerOn addrHigh s
  | .backupEntry vbat => Sys2Proof.Machine.execBackupEntry vbat s
  | .backupEntryWork => Sys2Proof.Machine.execBackupEntryWork s
  | .retentionLost => Sys2Proof.Machine.execRetentionLost s
  | .returnRetentionHeld addrHigh => Sys2Proof.Machine.execReturnRetentionHeld addrHigh s
  | .returnWork => Sys2Proof.Machine.execReturnWork s
  | .returnRetentionLost addrHigh => Sys2Proof.Machine.execReturnRetentionLost addrHigh s
  | .resetAssertion => Sys2Proof.Machine.execResetAssertion s
  | .resetWork => Sys2Proof.Machine.execResetWork s
  | .resetRelease addrHigh => Sys2Proof.Machine.execResetRelease addrHigh s
  | .withoutSupply => Sys2Proof.Machine.execWithoutSupply s
  | .firstCycleSeen => Sys2Proof.Machine.execFirstCycleSeen s

end Sys2Proof.Machine
end

