-- ==== Sys2Proof/Machine/Step.lean ====
section
/-! DEFINITION. The step of the block: the command at the front of the queue, or one crystal cycle. -/

namespace Sys2Proof.Machine

/-- One step. The command at the front of the queue is carried out on the queue's rest. On an empty queue one
cycle of the crystal passes (DESIGN CHOICE, entry 1), unless retention is lost or there is no supply (R157). -/
def step (s : State) : Host.Outcome State Fault Refusal :=
  match s.pending with
  | [] => .next (whileReliable State.crystalCycle s)
  | c :: rest => exec c { s with pending := rest }

/-- The command a table word spells, put at the front of the queue. No word spells one, so `s` is unchanged. -/
def State.withFetchWord (s : State) (nbits w : Nat) : State :=
  match Sys2Proof.decodeTableWord nbits w with
  | some c => { s with pending := c :: s.pending }
  | none => s

end Sys2Proof.Machine
end

