-- ==== Sys2Proof/Safety.lean ====
section
/-! DEFINITION. What the manual calls the laws of the part, as properties that every step keeps, and the frame and
completion shapes in which the obligations speak of a step. -/

namespace Sys2Proof.Machine

/-! ### Shapes -/

/-- Every step keeps a property. -/
def StepKeeps (P : State → Prop) : Prop := ∀ s s' : State, P s → step s = .next s' → P s'

/-- A property of the blocks, asked only while their state can be relied upon (R157). -/
def WhileReliable (P : State → Prop) (s : State) : Prop := s.reliable = true → P s

/-- What the table keeps, apart from its arbiter, the request in hand and the indications outstanding. -/
structure Stored where
  slots : Vector Slot 64
  groups : Vector Group 8
  quotas : PerPort Nat
  contexts : PerPort Context
  inBackup : Bool
  deriving DecidableEq, Repr

/-- The stored part of a table. -/
def Table.stored (t : Table) : Stored := ⟨t.slots, t.groups, t.quotas, t.contexts, t.inBackup⟩

/-- A step touched neither the supply, the RESET line, the links nor the queue. -/
structure Outside (s s' : State) : Prop where
  power : s'.power = s.power
  retention : s'.retention = s.retention
  linkA : s'.linkA = s.linkA
  linkB : s'.linkB = s.linkB
  resetAsserted : s'.resetAsserted = s.resetAsserted
  freeCount : s'.freeCount = s.freeCount
  pending : s'.pending = s.pending

/-- A unit kept its sticky flags, its discard marker and its validity indication. -/
structure FlagsKept (u v : CmdUnit) : Prop where
  refused : v.refused = u.refused
  frameFault : v.frameFault = u.frameFault
  restarted : v.restarted = u.restarted
  discardTable : v.discardTable = u.discardTable
  discardClock : v.discardClock = u.discardClock
  valid : v.valid = u.valid

/-- A unit kept its phase, or its waiting command was granted (R28). -/
def PhaseKept (u v : CmdUnit) : Prop := v.phase = u.phase ∨ v.phase = u.granted.phase

/-- A table that stores what `t` stores, with its own arbiter and indications and no request in hand. -/
def Table.vacated (u t : Table) : Table :=
  { u with
    slots := t.slots, groups := t.groups, quotas := t.quotas, contexts := t.contexts, inBackup := t.inBackup
    inHand := none }

/-- The state at a completion, before the scheduler judges and the arbiter grants (R28, R86): the request has left the
table, which stores what `t` stores; the head, the deadline view and the offers of `t` are presented; the alert words
read `alerts`, the phases of the units `phases`, and the scheduler's request state `request`. -/
def State.completed (s : State) (t : Table) (alerts : Port → BitVec 4) (request : Option SchedRequest)
    (phases : Port → Phase) : State :=
  { s with
    table := s.table.vacated t
    sched := { s.sched with
      head := t.head.map DueEntry.due, deadline := t.deadlineView s.clock.elapsed, request := request }
    units := s.units.map fun q u => { u with phase := phases q, offer := t.offers q, alert := alerts q } }

/-- The phases as a state holds them. -/
def State.phases (s : State) (q : Port) : Phase := (s.units.get q).phase

/-- A request completed at the table (R28): the table stores what `t` stores, the alert words read `alerts`, the
head, the deadline view and the offers of `t` are presented, and nothing else changed but what the scheduler's
judgement and the arbiter's grant change (`settles`). That the next grant falls in the completion's own step, after the
judgement, is the model's reading (entries 2 and 7). -/
structure Completion (s s' : State) (t : Table) (alerts : Port → BitVec 4) (request : Option SchedRequest)
    (phases : Port → Phase) : Prop where
  settles : s' = (s.completed t alerts request phases).judge.arbitrate
  stored : s'.table.stored = t.stored
  work : s'.table.work = s.table.work
  head : s'.sched.head = t.head.map DueEntry.due
  deadline : s'.sched.deadline = t.deadlineView s.clock.elapsed
  view : s'.sched.view = s.sched.view
  barred : s'.sched.barred = s.sched.barred
  offer : ∀ q, (s'.units.get q).offer = t.offers q
  alert : ∀ q, (s'.units.get q).alert = alerts q
  flags : ∀ q, FlagsKept (s.units.get q) (s'.units.get q)
  clock : s'.clock = s.clock
  outside : Outside s s'

/-- The alert words as a state holds them. -/
def State.alerts (s : State) (q : Port) : BitVec 4 := (s.units.get q).alert

/-- A command of a port is in hand at the table, granted with `h`, and its unit waits for the reply (R28, R174). -/
structure Carries (s : State) (p : Port) (c : Code) (args : List Byte) (h : InHand) : Prop where
  reliable : s.reliable = true
  inHand : s.table.inHand = some h
  request : h.request = .command p ⟨c, args⟩
  phase : (s.units.get p).phase = .working ⟨c, args⟩
  marker : (s.units.get p).discardTable = false

/-- The phases once a reply stands in a port's unit. -/
def State.replying (s : State) (p : Port) (r : Reply) (q : Port) : Phase := if q = p then .reply r else s.phases q

/-- A port's command completed with a reply: the reply stands in the unit's buffer, the scheduler's request state is
kept, and the other unit kept its phase or was granted (R28, R174). -/
structure Replied (s s' : State) (p : Port) (r : Reply) (t : Table) : Prop where
  completion : Completion s s' t s.alerts s.sched.request (s.replying p r)
  phase : (s'.units.get p).phase = .reply r
  others : ∀ q, q ≠ p → PhaseKept (s.units.get q) (s'.units.get q)

/-- A command in hand, carried out by its row, completes with a reply and leaves what `t` stores. -/
def Answers (i : Instr) (s : State) (p : Port) (r : Reply) (t : Table) : Prop :=
  ∃ s', exec i s = .next s' ∧ Replied s s' p r t

/-- A request of the scheduler is in hand at the table, granted with `h` (R31). -/
structure CarriesSched (s : State) (r : Request) (h : InHand) : Prop where
  reliable : s.reliable = true
  inHand : s.table.inHand = some h
  request : h.request = r

/-- A request of the scheduler, carried out, completes and leaves what `t` stores; the scheduler's request state returns
to NONE (R28, R86). -/
def Serves (i : Instr) (s : State) (t : Table) (alerts : Port → BitVec 4) : Prop :=
  ∃ s', exec i s = .next s' ∧ Completion s s' t alerts none s.phases ∧ ∀ q, PhaseKept (s.units.get q) (s'.units.get q)

/-- The table's first outstanding work is that of an indication, and no request is in hand (R32). -/
structure WorkDue (s : State) (i : Indication) (rest : List Indication) : Prop where
  reliable : s.reliable = true
  inHand : s.table.inHand = none
  work : s.table.work = i :: rest

/-- The clock's oldest command of a port, and its unit waits for the reply (R73, R174). -/
structure ClockTurn (s : State) (p : Port) (c : Code) (args : List Byte) (rest : List Command) : Prop where
  reliable : s.reliable = true
  taking : s.clock.taking.get p = ⟨c, args⟩ :: rest
  phase : (s.units.get p).phase = .working ⟨c, args⟩
  marker : (s.units.get p).discardClock = false

/-- The clock stands as `k`, the scheduler sees it, and both units show its validity (R72). -/
def State.seen (s : State) (k : Clock) : State :=
  { s with
    clock := k
    sched := { s.sched with view := ⟨k.calendar.now, k.valid, k.state, k.elapsed⟩ }
    units := s.units.map fun _ u => { u with valid := k.valid } }

/-- A unit whose command the clock answers holds the reply (R174). -/
def State.hold (s : State) (p : Port) (r : Reply) : State :=
  { s with units := s.units.set p { s.units.get p with phase := .reply r } }

/-- The scheduler judged and the arbiter granted what it could (R29, R86): the arbiter's state, the scheduler's
request and the phase of a unit whose command was granted may differ, and nothing else. -/
structure Settled (s s' : State) : Prop where
  outside : Outside s s'
  clock : s'.clock = s.clock
  head : s'.sched.head = s.sched.head
  deadline : s'.sched.deadline = s.sched.deadline
  view : s'.sched.view = s.sched.view
  barred : s'.sched.barred = s.sched.barred
  stored : s'.table.stored = s.table.stored
  work : s'.table.work = s.table.work
  units : ∀ q, s'.units.get q = s.units.get q ∨ s'.units.get q = (s.units.get q).granted

/-- What follows an event at the clock: the scheduler judges, the arbiter grants (R29, R72, R86), and nothing else
changes. That both fall in the event's own step, the judgement first, is the model's reading (entries 2 and 7). -/
def Settles (s s' : State) : Prop := s' = s.judge.arbitrate ∧ Settled s s'

/-- The row that carries out a port's command at the table (spec/95; a GSET by its form byte, entry 15). -/
def carriesOut : Instr → Port → Command → Prop
  | .plac q, p, c => q = p ∧ c.code = .plac
  | .amnd q, p, c => q = p ∧ c.code = .amnd
  | .hold q, p, c => q = p ∧ c.code = .hold
  | .rsum q, p, c => q = p ∧ c.code = .rsum
  | .rtir q, p, c => q = p ∧ c.code = .rtir
  | .purg q, p, c => q = p ∧ c.code = .purg
  | .look q, p, c => q = p ∧ c.code = .look
  | .list q, p, c => q = p ∧ c.code = .list
  | .quot, p, c => p = .A ∧ c.code = .quot
  | .info q, p, c => q = p ∧ c.code = .info
  | .take q, p, c => q = p ∧ c.code = .take
  | .fnsh q, p, c => q = p ∧ c.code = .fnsh
  | .ceil q, p, c => q = p ∧ c.code = .ceil
  | .nest q, p, c => q = p ∧ c.code = .nest
  | .gsetConfigure, p, c => p = .A ∧ c.code = .gset ∧ c.args[1]? ≠ some 1
  | .gsetRelease, p, c => p = .A ∧ c.code = .gset ∧ c.args[1]? ≠ some 0
  | .gred q, p, c => q = p ∧ c.code = .gred
  | .gclr q, p, c => q = p ∧ c.code = .gclr
  | .ckad, p, c => p = .A ∧ c.code = .ckad
  | _, _, _ => False

/-- The row by which the clock takes a port's command (spec/95). -/
def takesOut : Instr → Port → Command → Prop
  | .ckrd q, p, c => q = p ∧ c.code = .ckrd
  | .ckst, p, c => p = .A ∧ c.code = .ckst
  | .ckhd, p, c => p = .A ∧ c.code = .ckhd
  | .ckrl, p, c => p = .A ∧ c.code = .ckrl
  | .ckse, p, c => p = .A ∧ c.code = .ckse
  | _, _, _ => False

/-- The state in which a port's unit waits in WORKING for a command's reply, its discard marker without the block. -/
def State.awaiting (s : State) (p : Port) (c : Command) (b : Block) : State :=
  { s with units := s.units.set p ({ s.units.get p with phase := .working c : CmdUnit }.markDiscard b false) }

/-- The link of a port stands between two transfers (R167, R168). -/
def State.LineIdle (s : State) : Port → Prop
  | .A => s.linkA.line = .high
  | .B => s.linkB.line = .none

/-- What the sticky flags read after a transfer that ended on a port (R171): on port A the select period carried a
status byte and clears them; on port B a write reports nothing. -/
def CmdUnit.reported (u : CmdUnit) : Port → CmdUnit
  | .A => { u with refused := false, frameFault := false, restarted := false }
  | .B => u

/-- A transfer on a port's link touched neither the supply, the RESET line, the scheduler, the queue, nor the other
port's link and unit. -/
structure LinkFrame (p : Port) (s s' : State) : Prop where
  power : s'.power = s.power
  retention : s'.retention = s.retention
  sched : s'.sched = s.sched
  resetAsserted : s'.resetAsserted = s.resetAsserted
  freeCount : s'.freeCount = s.freeCount
  pending : s'.pending = s.pending
  unit : ∀ q, q ≠ p → s'.units.get q = s.units.get q
  linkA : p ≠ .A → s'.linkA = s.linkA
  linkB : p ≠ .B → s'.linkB = s.linkB
  idle : s'.LineIdle p

/-- A transfer on a port's link reached neither the clock nor the table, and left the unit as `u`. -/
structure UnitOnly (p : Port) (s s' : State) (u : CmdUnit) : Prop where
  frame : LinkFrame p s s'
  clock : s'.clock = s.clock
  table : s'.table = s.table
  unit : s'.units.get p = u

/-- A transfer reached nothing but the links. -/
structure LinksOnly (s s' : State) : Prop where
  power : s'.power = s.power
  retention : s'.retention = s.retention
  clock : s'.clock = s.clock
  sched : s'.sched = s.sched
  table : s'.table = s.table
  units : s'.units = s.units
  resetAsserted : s'.resetAsserted = s.resetAsserted
  freeCount : s'.freeCount = s.freeCount
  pending : s'.pending = s.pending

/-- Links that do not serve hold no transfer: a select period is ignored, and port B waits for a start (R167, R168). -/
def State.DeafLaw (s : State) : Prop :=
  s.serving = false → (∀ q, s.linkA.line ≠ .period q) ∧ s.linkB.line = .none

/-- The commands that a unit keeps for the table on a port (R173, Table 11-2). -/
def tableCommands (p : Port) : List Code :=
  [.plac, .amnd, .hold, .rsum, .rtir, .purg, .look, .list, .info, .take, .fnsh, .ceil, .nest, .gred, .gclr]
    ++ (if p = .A then [.ckad, .quot, .gset] else [])

/-- The reply frame a fetch chooses by the command state (R175, Table 11-3). -/
def fetchedFrame : Phase → List Byte
  | .idle => Reply.frame ⟨.noReply, []⟩
  | .pending _ => Reply.frame ⟨.notYet, []⟩
  | .working _ => Reply.frame ⟨.notYet, []⟩
  | .reply r => r.frame

/-- The phase a fetch of `clocked` reply bytes leaves (R175). -/
def fetchedPhase (x : Phase) (clocked : Nat) : Phase :=
  match x with
  | .reply r => if r.frame.length ≤ clocked then .idle else .reply r
  | .idle => .idle
  | .pending c => .pending c
  | .working c => .working c

/-! ### What the arguments and the rules mean -/

/-- A date and time in a request (Table A-4). -/
def requestTime (d : DateTime) : List Byte :=
  [bcdByte (d.year - 2000), bcdByte d.month, bcdByte d.day, bcdByte d.hour, bcdByte d.minute, bcdByte d.second]

/-- The argument bytes of a PLAC (R36, R185): due, rule, remaining, anchoring, policy, level, floor, window, answering
port, membership, label. -/
def PlacArgs.bytes (a : PlacArgs) : List Byte :=
  requestTime a.due ++ ruleBytes a.rule ++ [byteOf (a.remaining.getD 0), anchoringByte a.anchoring, policyByte a.policy,
    byteOf a.level, byteOf a.floor, a.window, portByte a.answering] ++ memberBytes a.member
    ++ (byteOf a.label.length :: a.label)

/-- A deadline started at an elapsed value (R128): none for a window of 0. -/
def deadlineAfter (e : Elapsed) (window : Byte) : Option Elapsed :=
  if window = 0 then none else some (e + window.setWidth 32)

/-- What an AMND leaves in the order's record, its call apart: each selected field takes its value, a due selected clears
skipped and keeps WAITING and HELD, and every other field stands (R42, R43, R46). -/
structure Amend.Applied (a : Amend) (o o' : Order) : Prop where
  owner : o'.owner = o.owner
  missed : o'.missed = o.missed
  tally : o'.tally = o.tally
  rule : o'.rule = a.rule.getD o.rule
  remaining : o'.remaining = a.remaining.getD o.remaining
  anchoring : o'.anchoring = a.anchoring.getD o.anchoring
  policy : o'.policy = a.policy.getD o.policy
  level : o'.level = a.level.getD o.level
  floor : o'.floor = a.floor.getD o.floor
  window : o'.window = a.window.getD o.window
  answering : o'.answering = a.answering.getD o.answering
  member : o'.member = a.member.getD o.member
  label : o'.label = a.label.getD o.label
  kept : a.due = none → o'.standing = o.standing ∧ o'.skipped = o.skipped
  moved : ∀ d, a.due = some d → o'.skipped = false ∧ o'.standing = match o.standing with
    | .held _ => .held d
    | .waiting _ => .waiting d
    | .spent => .waiting d

/-- One deadline stands before another among equal lapse amounts (R130, items 2 to 4): a raised order call before an
entry, calls by slot, entries of port A before port B's and, within a stack, the lower before the higher. An entry's
number counts from the top. -/
def DeadlineHolder.preferred : DeadlineHolder → DeadlineHolder → Prop
  | .call i, .call j => i < j
  | .call _, .entry _ _ => True
  | .entry _ _, .call _ => False
  | .entry p n, .entry q m => p = .A ∧ q = .B ∨ p = q ∧ m < n

/-- A membership can be taken (R37, R40): its group is configured, and its position is empty or holds `self`. -/
def Table.Open (t : Table) (self : Option (Fin 64)) (m : Option Member) : Prop :=
  ∀ x, m = some x → (t.group x.group).config ≠ none
    ∧ ((t.group x.group).positions[x.position.val] = none ∨
      self ≠ none ∧ (t.group x.group).positions[x.position.val] = self)

/-- The later occurrences that a rule produces from a due (R6 to R8, R63, R90 to R92), within the calendar range. -/
def Rule.Later (r : Rule) (due x : DateTime) : Prop :=
  x.real = true ∧ match r with
    | .single => False
    | .interval d h m s => ∃ j : Nat, 1 ≤ j ∧
        secondNumber x = secondNumber due + j * (86400 * d + 3600 * h + 60 * m + s)
    | .monthly step day => ∃ j : Nat, 1 ≤ j ∧ 12 * x.year + x.month = 12 * due.year + due.month + j * step
        ∧ x.day = min day (monthLength x.year x.month) ∧ secondOfDay x = secondOfDay due
    | .weekdays set => dayNumber due < dayNumber x ∧ set.getLsbD (weekdayOf x) = true
        ∧ secondOfDay x = secondOfDay due

/-- One raised call stands before another in the choice of R110: by level, then by source number. -/
def RaisedCall.before (x y : RaisedCall) : Prop :=
  x.level < y.level ∨ x.level = y.level ∧ x.origin.number < y.origin.number

/-- The call of a raised call's originator stands in the table, RAISED, at the level and answering the port. -/
def Table.raises (t : Table) (p : Port) (x : RaisedCall) : Prop :=
  match x.origin with
  | .order i => ∃ o c, t.order i = some o ∧ o.call = some c ∧ c.state = .raised ∧ c.level = x.level ∧ o.answering = p
  | .group g => (t.group g).call = some .raised
      ∧ ∃ c, (t.group g).config = some c ∧ c.level = x.level ∧ c.answering = p

/-- A PURG of a port marks this entry of a stack (R50, R53): it names the taken call of an order of that port. -/
def Table.purges (t : Table) (owner p : Port) (e : Entry) : Bool :=
  match e.source with
  | .order i generation => (t.slot i).generation == generation && match t.order i with
    | some o => o.owner == owner && o.answering == p && (o.call.map Call.state) == some .taken
    | none => false
  | .group _ => false

/-- The member that a position of a group holds by the order records, where a port owns that order. -/
def Table.ownsMember (t : Table) (owner : Port) (g p : Fin 8) : Prop :=
  ∃ i o, t.order i = some o ∧ o.owner = owner ∧ o.member = some ⟨g, p⟩

/-- What the reset of a unit leaves (R180, R181): IDLE with nothing held, REFUSED and FRAME-FAULT clear, RESTARTED
set, the block of a WORKING command in the discard marker, the rest as it was. -/
structure UnitReset (u v : CmdUnit) : Prop where
  phase : v.phase = .idle
  refused : v.refused = false
  frameFault : v.frameFault = false
  restarted : v.restarted = true
  discardTable : v.discardTable = true ↔ u.discardTable = true ∨ ∃ c, u.phase = .working c ∧ c.code.block = .table
  discardClock : v.discardClock = true ↔ u.discardClock = true ∨ ∃ c, u.phase = .working c ∧ c.code.block = .clock
  offer : v.offer = u.offer
  valid : v.valid = u.valid
  alert : v.alert = u.alert

/-- Transfers in progress are abandoned (R167, R168): a select period is ignored to its end, port B waits for a start. -/
structure LinksAbandoned (s s' : State) : Prop where
  high : s.linkA.line = .high → s'.linkA.line = .high
  low : s.linkA.line ≠ .high → s'.linkA.line = .ignoring
  sdo : s'.linkA.sdo = s.linkA.sdo
  lineB : s'.linkB.line = .none
  acks : s'.linkB.acks = s.linkB.acks
  sda : s'.linkB.sda = s.linkB.sda
  addr : s'.linkB.addrHigh = s.linkB.addrHigh

/-- The commands that are transfers on a link. -/
def isTransfer : Instr → Bool
  | .requestFrame _ _ | .readTransaction _ | .stat _ _ | .rply _ _ | .cncl _ _ | .alrd _ _ | .alcl _ _ => true
  | _ => false

/-- The commands that act at the table, the clock or the scheduler. -/
def actsAtBlocks : Instr → Bool
  | .plac _ | .amnd _ | .hold _ | .rsum _ | .rtir _ | .purg _ | .look _ | .list _ | .quot | .info _
  | .take _ | .fnsh _ | .ceil _ | .nest _ | .gsetConfigure | .gsetRelease | .gred _ | .gclr _
  | .ckrd _ | .ckst | .ckad | .ckhd | .ckrl | .ckse
  | .fire | .expire | .second | .endOfSettling | .oscillatorLoss | .returnOfOscillation | .firstCycleSeen
  | .resetWork | .backupEntryWork | .returnWork => true
  | .requestFrame _ _ | .readTransaction _ | .stat _ _ | .rply _ _ | .cncl _ _ | .alrd _ _ | .alcl _ _
  | .powerOn _ | .backupEntry _ | .retentionLost | .returnRetentionHeld _ | .returnRetentionLost _
  | .resetAssertion | .resetRelease _ | .withoutSupply => false

/-! ### The law of the calendar (R59) -/

/-- The calendar holds a real date and time with its own weekday (R59). -/
def CalendarLaw (s : State) : Prop := s.clock.calendar.lawful = true

/-! ### The laws of the order records -/

/-- Every order of the table has a property. -/
def Table.EveryOrder (P : Order → Prop) (t : Table) : Prop := ∀ i o, t.order i = some o → P o

/-- The parameters of a rule lie in their ranges (R6 to R8). -/
def Rule.lawful : Rule → Bool
  | .single => true
  | .interval d h m s => d ≤ 99 && h ≤ 23 && m ≤ 59 && s ≤ 59 && (d != 0 || h != 0 || m != 0 || s != 0)
  | .monthly step day => 1 ≤ step && step ≤ 12 && 1 ≤ day && day ≤ 31
  | .weekdays set => set != 0 && set.toNat % 2 == 0

/-- The values a PLAC may carry (R5 to R12). -/
structure PlacArgs.Lawful (a : PlacArgs) : Prop where
  due : a.due.real = true
  rule : a.rule.lawful = true
  remaining : ∀ n, a.remaining = some n → 1 ≤ n ∧ n ≤ 255
  level : a.level ≤ 7
  floor : a.floor ≤ 6
  ordered : a.floor ≤ a.level
  label : a.label.length ≤ 12

/-- The due is a real date and time, and the rule's parameters lie in their ranges (R5 to R8). -/
structure Order.DueLaw (o : Order) : Prop where
  due : ∀ d, o.standing.due = some d → d.real = true
  rule : o.rule.lawful = true

/-- Remaining, missed, tally and label stay within their bounds; a WAITING or HELD order holds no remaining of 0
(R9, R12, R13). -/
structure Order.CountLaw (o : Order) : Prop where
  remaining : ∀ n, o.remaining = some n → n ≤ 255
  alive : o.standing ≠ .spent → o.remaining ≠ some 0
  missed : o.missed ≤ Config.maxMissed
  tally : o.tally ≤ Config.maxTally
  label : o.label.length ≤ Config.maxLabel

/-- A call has a level of 0 to 6; a RAISED call stands within the floor and level of an order that is not silent; a
TAKEN call holds no deadline of its own (R16). -/
structure Call.Lawful (o : Order) (c : Call) : Prop where
  level : c.level ≤ 6
  raised : c.state = .raised → o.floor ≤ c.level ∧ c.level ≤ o.level ∧ o.level ≠ 7
  taken : c.state = .taken → c.deadline = none

/-- The level and floor lie in their ranges with the floor not above the level, and the call is lawful (R11, R16). -/
structure Order.LevelLaw (o : Order) : Prop where
  floor : o.floor ≤ 6
  ordered : o.floor ≤ o.level
  level : o.level ≤ 7
  call : ∀ c, o.call = some c → c.Lawful o

/-! ### The law of the quotas (R23) -/

/-- No port owns more orders than its quota (R23). -/
def Table.QuotaLaw (t : Table) : Prop := ∀ p, t.owned p ≤ t.quotas.get p

/-! ### The law of the acceptance stacks (R108) -/

/-- The taken levels rise strictly from the top of a stack to its bottom, all below a bound (R108). -/
def levelsClimb (bound : Nat) : List Entry → Prop
  | [] => True
  | [e] => e.level < bound
  | e :: f :: rest => e.level < f.level ∧ levelsClimb bound (f :: rest)

/-- The law of one acceptance stack (R108). -/
structure Context.StackLaw (c : Context) : Prop where
  depth : c.stack.length ≤ Config.stackDepth
  single : c.nesting = false → c.stack.length ≤ 1
  climb : levelsClimb c.base c.stack

/-- Both stacks obey the law (R108). -/
def Table.StackLaw (t : Table) : Prop := ∀ p, (t.contexts.get p).StackLaw

/-! ### The law of the groups (R139 to R142) -/

/-- The slot's order names the position of the group. -/
def Table.names (t : Table) (i : Fin 64) (g p : Fin 8) : Prop := ∃ o, t.order i = some o ∧ o.member = some ⟨g, p⟩

/-- The laws of the group records. -/
structure Table.GroupLaw (t : Table) : Prop where
  /-- A position holds a slot exactly when that slot's order names the position (R140). -/
  members : ∀ g p i, (t.group g).positions[p.val] = some i ↔ t.names i g p
  /-- A group that is not configured holds no member, no factor bit and no call (R139). -/
  vacant : ∀ g, (t.group g).config = none →
    (t.group g).factor = 0 ∧ (t.group g).enable = 0 ∧ (t.group g).call = none
      ∧ ∀ p : Fin 8, (t.group g).positions[p.val] = none
  /-- Every set factor bit belongs to a position that holds a member (R141). -/
  factor : ∀ g, ∀ p : Fin 8, (t.group g).factor.getLsbD p.val = true → (t.group g).positions[p.val] ≠ none
  /-- A group call is RAISED only while the intersection is not empty (R142). -/
  raised : ∀ g, (t.group g).call = some .raised → (t.group g).factor &&& (t.group g).enable ≠ 0

/-! ### The law of the taken calls (R107) -/

/-- An entry that is not marked retired names a TAKEN call that answers the port, at the entry's level (R107). -/
def Table.Backs (t : Table) (p : Port) (e : Entry) : Prop :=
  match e.source with
  | .order i generation => (t.slot i).generation = generation
      ∧ ∃ o c, t.order i = some o ∧ o.call = some c ∧ c.state = .taken ∧ c.level = e.level ∧ o.answering = p
  | .group g => (t.group g).call = some .taken
      ∧ ∃ c, (t.group g).config = some c ∧ c.level = e.level ∧ c.answering = p

/-- The sources of the entries of a stack that are not marked retired. -/
def Context.sources (c : Context) : List Source := (c.stack.filter fun e => !e.retired).map Entry.source

/-- The law of the taken calls (R107): every entry not marked retired names a TAKEN call, no two name one call, and
every TAKEN call is named. An entry that names a group is never marked retired (R106). -/
structure Table.TakenLaw (t : Table) : Prop where
  backed : ∀ p, ∀ e ∈ (t.contexts.get p).stack, e.retired = false → t.Backs p e
  distinct : ((t.contexts.get .A).sources ++ (t.contexts.get .B).sources).Nodup
  orders : ∀ i o c, t.order i = some o → o.call = some c → c.state = .taken →
    .order i (t.slot i).generation ∈ (t.contexts.get o.answering).sources
  groups : ∀ g, (t.group g).call = some .taken →
    ∃ c, (t.group g).config = some c ∧ .group g ∈ (t.contexts.get c.answering).sources
  unretired : ∀ p, ∀ e ∈ (t.contexts.get p).stack, e.retired = true → ∃ i generation, e.source = .order i generation
  /-- An order that holds a membership has no call of its own (R12, R16). -/
  grouped : ∀ i o, t.order i = some o → o.member ≠ none → o.call = none

end Sys2Proof.Machine
end

