-- ==== Sys2Proof/Certificates/Slice0/Obligations.lean ====
section
/-! DEFINITION. The statements for the provers. Each docstring names the rules it speaks of. -/

open Sys2Proof Sys2Proof.Machine

/-! ### The queue and the state after reset -/

/-- A step with a command at the front of the queue is that command's effect on the queue's rest (entry 1). -/
def Obligations.StepTakesTheFront : Prop :=
  ∀ (c : Instr) (rest : List Instr) (s : State),
    step { s with pending := c :: rest } = exec c { s with pending := rest }

/-- On an empty queue one step is one crystal cycle (the model's choice, entry 1). The divider and the settle count
grow by one, and the last cycle of each is the second or the end of settling (R68, R70). -/
def Obligations.EmptyQueueIsACrystalCycle : Prop :=
  ∀ s : State, s.pending = [] →
    (s.reliable = false → step s = .next s)
    ∧ (s.reliable = true → s.clock.state = .running ∨ s.clock.state = .held →
      (s.clock.divider < 32767 → step s = .next { s with clock := { s.clock with divider := s.clock.divider + 1 } })
      ∧ (s.clock.divider = 32767 → step s = exec .second s))
    ∧ (s.reliable = true → s.clock.state = .settling → s.clock.armed = true →
      (s.clock.settleCount + 1 < s.clock.settleTarget →
        step s = .next { s with clock := { s.clock with settleCount := s.clock.settleCount + 1 } })
      ∧ (s.clock.settleCount + 1 = s.clock.settleTarget → step s = exec .endOfSettling s))
    ∧ (s.reliable = true → s.clock.state = .lost ∨ (s.clock.state = .settling ∧ s.clock.armed = false) →
      step s = .next s)

/-- No command touches the queue behind it (the queue is the model's own, entry 1). -/
def Obligations.ExecLeavesTheQueue : Prop :=
  ∀ (c : Instr) (s s' : State), exec c s = .next s' → s'.pending = s.pending

/-- The values after power-on that the manual states (R2, R25, R29, R70, R71, R82, R83, R127, R153, R154, R161, R182).
That the clock holds no command, that EXPIRE is not barred and that no backup episode stands is the model's reading: the
units are IDLE, and no backup was entered (entry 8). -/
def Obligations.ResetHoldsThePowerOnValues : Prop :=
  let s := State.reset
  s.power = .main ∧ s.retention = .held
  ∧ s.clock.calendar = ⟨⟨2000, 1, 1, 0, 0, 0⟩, 6⟩ ∧ s.clock.valid = false ∧ s.clock.elapsed = 0
  ∧ s.clock.state = .settling ∧ s.clock.divider = 0 ∧ s.clock.choice = 3 ∧ s.clock.settleTarget = 65536
  ∧ s.clock.settleCount = 0 ∧ s.clock.armed = false ∧ (∀ p, s.clock.taking.get p = [])
  ∧ s.sched.head = none ∧ s.sched.deadline = none ∧ s.sched.request = none ∧ s.sched.view = s.clock.view
  ∧ s.sched.barred = false ∧ s.table.inBackup = false
  ∧ (∀ i, s.table.slot i = ⟨0, none⟩)
  ∧ (∀ g, s.table.group g = ⟨none, 0, 0, Vector.replicate 8 none, none⟩)
  ∧ (∀ p, s.table.quotas.get p = 64 ∧ s.table.contexts.get p = ⟨7, false, []⟩ ∧ s.table.waiting.get p = none
    ∧ (s.units.get p).phase = .idle ∧ (s.units.get p).refused = false ∧ (s.units.get p).frameFault = false
    ∧ (s.units.get p).restarted = true ∧ (s.units.get p).discardTable = false
    ∧ (s.units.get p).discardClock = false ∧ (s.units.get p).offer = false ∧ (s.units.get p).valid = false
    ∧ (s.units.get p).alert = 0)
  ∧ s.table.inHand = none ∧ s.table.schedWaiting = none ∧ s.table.lastServed = .scheduler ∧ s.table.work = []

/-! ### Frames and the links -/

/-- A unit judges a frame valid exactly when it is the request frame of a command with at most 40 argument bytes, and
not an RPLY on port B (R166, R169). A reply frame has its code, length, payload and check byte (R166). The codes are
those of Tables A-2 and A-3, and the bytes of ports, yes/no fields, anchoring, policy, schedule states, calls,
memberships and LIST filters those of Table A-4 (R184). -/
def Obligations.ValidFramesAreTheRequestFrames : Prop :=
  (∀ (p : Port) (bytes : List Byte) (c : Code) (args : List Byte),
    judgeFrame p bytes = some ⟨c, args⟩ ↔
      bytes = requestBytes c args ∧ args.length ≤ 40 ∧ ¬ (p = .B ∧ c = .rply))
  ∧ (∀ (c : Code) (args : List Byte), ∃ check, requestBytes c args = c.byte :: byteOf args.length :: (args ++ [check])
      ∧ byteSum (requestBytes c args) = 0)
  ∧ (∀ r : Reply, ∃ check, r.frame = r.code.byte :: byteOf r.payload.length :: (r.payload ++ [check])
      ∧ byteSum r.frame = 0)
  ∧ (∀ c : Code, (c, c.byte) ∈
      ([(.stat, 0x00), (.rply, 0x01), (.cncl, 0x02), (.plac, 0x10), (.amnd, 0x11), (.hold, 0x12), (.rsum, 0x13),
        (.rtir, 0x14), (.purg, 0x15), (.look, 0x16), (.list, 0x17), (.quot, 0x18), (.info, 0x19), (.take, 0x20),
        (.fnsh, 0x21), (.ceil, 0x22), (.nest, 0x23), (.gset, 0x30), (.gred, 0x31), (.gclr, 0x32), (.ckrd, 0x40),
        (.ckst, 0x41), (.ckad, 0x42), (.ckhd, 0x43), (.ckrl, 0x44), (.ckse, 0x45), (.alrd, 0x50), (.alcl, 0x51)]
        : List (Code × Byte)))
  ∧ (∀ c : ReplyCode, (c, c.byte) ∈
      ([(.done, 0x00), (.nothing, 0x01), (.cancelled, 0x02), (.noReply, 0x03), (.notYet, 0x04), (.noSuchOrder, 0x10),
        (.notPermitted, 0x11), (.badArgument, 0x12), (.badTime, 0x13), (.badRule, 0x14), (.tableFull, 0x15),
        (.quotaFull, 0x16), (.quotaBelow, 0x17), (.notWaiting, 0x18), (.notHeld, 0x19), (.callOutstanding, 0x20),
        (.noSuchGroup, 0x21), (.positionTaken, 0x22), (.groupInUse, 0x23), (.stackFull, 0x24), (.stackEmpty, 0x25),
        (.notTop, 0x26), (.stackNotEmpty, 0x27), (.clockUnset, 0x28), (.clockLost, 0x29)] : List (ReplyCode × Byte)))
  ∧ [portByte .A, portByte .B, flagByte false, flagByte true, anchoringByte .wall, anchoringByte .elapsed,
      policyByte .gather, policyByte .drop, callByte none, callByte (some .raised), callByte (some .taken)]
      = [0, 1, 0, 1, 0, 1, 0, 1, 0, 1, 2]
  ∧ (∀ d, [(Standing.waiting d).byte, (Standing.held d).byte, Standing.spent.byte] = [0, 1, 2])
  ∧ ∀ b : Byte,
    (portOf b = if b = 0 then some .A else if b = 1 then some .B else none)
    ∧ (flagOf b = if b = 0 then some false else if b = 1 then some true else none)
    ∧ (anchoringOf b = if b = 0 then some .wall else if b = 1 then some .elapsed else none)
    ∧ (policyOf b = if b = 0 then some .gather else if b = 1 then some .drop else none)
    ∧ (∀ owner, answeringOf owner b =
        if b = 0 then some .A else if b = 1 then some .B else if b = 2 then some owner else none)
    ∧ (ownerFilterOf b =
        if b = 0 then some (some .A) else if b = 1 then some (some .B) else if b = 2 then some none else none)
    ∧ (stateFilterOf b = if b = 0 then some .waiting else if b = 1 then some .held else if b = 2 then some .spent
        else if b = 3 then some .any else none)
    ∧ (groupFilterOf b = if b = 0xFF then some .any else if b = 0xFE then some .none
        else if h : b.toNat < 8 then some (.group ⟨b.toNat, h⟩) else none)
    ∧ (∀ q : Byte, memberOf b q = if b = 0xFF then some none
        else if h : b.toNat < 8 ∧ q.toNat < 8 then some (some ⟨⟨b.toNat, h.1⟩, ⟨q.toNat, h.2⟩⟩) else none)

/-- A table command taken in IDLE is granted at once, with the clock's values of that moment, by a free table for which no
other requester waits, and waits in PENDING while the table is busy, whoever else waits already (R28, R29, R87, R173,
R174). -/
def Obligations.TableCommandIsPutBeforeTheTable : Prop :=
  ∀ (p : Port) (c : Code) (args : List Byte) (s : State),
    s.serving = true → s.LineIdle p → (s.units.get p).phase = .idle → c ∈ tableCommands p → args.length ≤ 40 →
    (s.table.inHand = none → s.table.work = [] → s.table.waiting = ⟨none, none⟩ → s.table.schedWaiting = none →
      ∃ s', exec (.requestFrame p (.whole (requestBytes c args))) s = .next s' ∧ LinkFrame p s s'
        ∧ s'.clock = s.clock
        ∧ s'.units.get p = { (s.units.get p).reported p with phase := .working ⟨c, args⟩ }
        ∧ s'.table = { s.table with
            lastServed := .unit p
            inHand := some ⟨.command p ⟨c, args⟩, s.clock.calendar.now, s.clock.valid, s.clock.elapsed⟩ })
    ∧ (s.table.inHand ≠ none ∨ s.table.work ≠ [] →
      ∃ s', exec (.requestFrame p (.whole (requestBytes c args))) s = .next s' ∧ LinkFrame p s s'
        ∧ s'.clock = s.clock
        ∧ s'.units.get p = { (s.units.get p).reported p with phase := .pending ⟨c, args⟩ }
        ∧ s'.table = { s.table with waiting := s.table.waiting.set p (some ⟨c, args⟩) })

/-- Port B's unit refuses by itself the commands kept for port A (R173). Clock commands are handed to the clock and
wait there in turn (R73, R173, R180). -/
def Obligations.UnitRefusesOrHandsToTheClock : Prop :=
  ∀ (p : Port) (c : Code) (args : List Byte) (s : State),
    s.serving = true → s.LineIdle p → (s.units.get p).phase = .idle → args.length ≤ 40 →
    (p = .B → c ∈ [Code.ckst, .ckhd, .ckrl, .ckse, .ckad, .quot, .gset] →
      ∃ s', exec (.requestFrame p (.whole (requestBytes c args))) s = .next s'
        ∧ UnitOnly p s s' { s.units.get p with phase := .reply ⟨.notPermitted, []⟩ })
    ∧ (c = .ckrd ∨ p = .A ∧ c ∈ [Code.ckst, .ckhd, .ckrl, .ckse] →
      ∃ s', exec (.requestFrame p (.whole (requestBytes c args))) s = .next s' ∧ LinkFrame p s s'
        ∧ s'.table = s.table
        ∧ s'.clock = { s.clock with taking := s.clock.taking.set p (s.clock.taking.get p ++ [⟨c, args⟩]) }
        ∧ s'.units.get p = { (s.units.get p).reported p with phase := .working ⟨c, args⟩ })

/-- A faulty frame sets FRAME-FAULT and is not acted on; a faulty RPLY on port A, judged at its check byte, or at the
rise of SEL where it is cut short or its length byte is above 40, fetches nothing and carries 0x00 (R169, R176). That
a flag which the period itself reported still stands after it is the model's reading of R171 and R176 (entry 10), and
so is the moment at which a length byte above 40 is judged (entry 21). -/
def Obligations.FaultyFrameIsNotActedOn : Prop :=
  (∀ (p : Port) (bytes : List Byte) (s : State),
    s.serving = true → s.LineIdle p → bytes ≠ [] →
    (∀ c args, args.length ≤ 40 → bytes = requestBytes c args → p = .B ∧ c = .rply) →
    (p = .A → bytes.head? ≠ some 0x01) →
    ∃ s', exec (.requestFrame p (.whole bytes)) s = .next s'
      ∧ UnitOnly p s s' { (s.units.get p).reported p with frameFault := true })
  ∧ (∀ (args : List Byte) (check : Byte) (clocked : Nat) (s : State),
    s.serving = true → s.LineIdle .A → args.length ≤ 40 →
    byteSum (0x01 :: byteOf args.length :: args ++ [check]) ≠ 0 →
    ∃ s', exec (.requestFrame .A (.whole (0x01 :: byteOf args.length :: args ++ [check]
        ++ List.replicate clocked 0))) s = .next s'
      ∧ UnitOnly .A s s' { s.units.a.reported .A with frameFault := true }
      ∧ s'.linkA.sdo = s.units.a.status :: List.replicate (args.length + 2 + clocked) 0)
  ∧ (∀ (bytes : List Byte) (s : State),
    s.serving = true → s.LineIdle .A → bytes.head? = some 0x01 →
    40 < (byteAt bytes 1).toNat ∨ bytes.length < (byteAt bytes 1).toNat + 3 →
    ∃ s', exec (.requestFrame .A (.whole bytes)) s = .next s'
      ∧ UnitOnly .A s s' { s.units.a.reported .A with frameFault := true }
      ∧ s'.linkA.sdo = s.units.a.status :: List.replicate (bytes.length - 1) 0)

/-- A valid command other than STAT, RPLY and CNCL is refused outside IDLE (R172). -/
def Obligations.FrameOutsideIdleIsRefused : Prop :=
  ∀ (p : Port) (c : Code) (args : List Byte) (s : State),
    s.serving = true → s.LineIdle p → (s.units.get p).phase ≠ .idle → args.length ≤ 40 →
    c ≠ .stat → c ≠ .rply → c ≠ .cncl →
    ∃ s', exec (.requestFrame p (.whole (requestBytes c args))) s = .next s'
      ∧ UnitOnly p s s' { (s.units.get p).reported p with refused := true }

/-- STAT changes nothing but, on port A, the sticky flags its status byte reported (R171, R172). The status byte holds
each of its bits at its place (R170, Tables 11-1 and A-1), and a port's call line is asserted in MAIN while a call is
offered or the alert word is not 0, and released in BACKUP (R179) and, as the model chooses, without supply (entry 23). -/
def Obligations.StatClearsTheFlagsItReported : Prop :=
  (∀ (p : Port) (args : List Byte) (s : State), s.serving = true → s.LineIdle p → args.length ≤ 40 →
    ∃ s', exec (.stat p args) s = .next s' ∧ UnitOnly p s s' ((s.units.get p).reported p)
      ∧ (p = .A → s'.linkA.sdo = s.units.a.status :: List.replicate (args.length + 2) 0))
  ∧ (∀ u : CmdUnit,
    (u.status.getLsbD 7 = true ↔ ∃ r, u.phase = .reply r)
    ∧ (u.status.getLsbD 6 = true ↔ ∃ c, u.phase = .pending c ∨ u.phase = .working c)
    ∧ u.status.getLsbD 5 = u.refused ∧ u.status.getLsbD 4 = u.frameFault ∧ u.status.getLsbD 3 = u.offer
    ∧ (u.status.getLsbD 2 = true ↔ u.alert ≠ 0)
    ∧ u.status.getLsbD 1 = u.valid ∧ u.status.getLsbD 0 = u.restarted)
  ∧ ∀ (p : Port) (s : State),
    (s.power = .main → (s.callAsserted p = true ↔ (s.units.get p).offer = true ∨ (s.units.get p).alert ≠ 0))
    ∧ (s.power = .backup ∨ s.power = .withoutSupply → s.callAsserted p = false)

/-- CNCL withdraws a PENDING command and places CANCELLED, and has no effect in the other states (R30, R178). -/
def Obligations.CnclCancelsAPendingCommand : Prop :=
  ∀ (p : Port) (args : List Byte) (s : State), s.serving = true → s.LineIdle p → args.length ≤ 40 →
    (∀ c, (s.units.get p).phase = .pending c →
      ∃ s', exec (.cncl p args) s = .next s' ∧ LinkFrame p s s' ∧ s'.clock = s.clock
        ∧ s'.table = { s.table with waiting := s.table.waiting.set p none }
        ∧ s'.units.get p = { (s.units.get p).reported p with phase := .reply ⟨.cancelled, []⟩ })
    ∧ ((∀ c, (s.units.get p).phase ≠ .pending c) →
      ∃ s', exec (.cncl p args) s = .next s' ∧ UnitOnly p s s' ((s.units.get p).reported p))

/-- A valid RPLY shifts out the status byte, 0x00 up to its check byte, and then the reply frame followed by 0x00. A
buffered reply is given up when the whole frame was shifted out (R167, R175, R176). -/
def Obligations.RplyShiftsOutTheReply : Prop :=
  ∀ (args : List Byte) (clocked : Nat) (s : State), s.serving = true → s.LineIdle .A → args.length ≤ 40 →
    ∃ s', exec (.rply args clocked) s = .next s'
      ∧ UnitOnly .A s s' { s.units.a.reported .A with phase := fetchedPhase s.units.a.phase clocked }
      ∧ s'.linkA.sdo = s.units.a.status :: List.replicate (args.length + 2) 0
          ++ (List.range clocked).map fun i => (fetchedFrame s.units.a.phase).getD i 0

/-- A port B read carries the status byte, then the reply frame, then 0x00. It clears the flags it reported once its
first byte is out, and gives a buffered reply up when the whole frame is out (R171, R175, R177). -/
def Obligations.PortBReadIsAFetch : Prop :=
  ∀ (count : Nat) (s : State), s.serving = true → s.LineIdle .B →
    ∃ s', exec (.readTransaction (.whole count)) s = .next s'
      ∧ UnitOnly .B s s' { (if 1 ≤ count then s.units.b.reported .A else s.units.b) with
          phase := fetchedPhase s.units.b.phase (count - 1) }
      ∧ s'.linkB.acks = [true]
      ∧ s'.linkB.sda = (List.range count).map fun i => (s.units.b.status :: fetchedFrame s.units.b.phase).getD i 0

/-- ALRD reports the alert word and ALCL clears the bits it names, both by the unit itself (R162, R163). -/
def Obligations.AlertCommandsReadAndClearTheWord : Prop :=
  ∀ (p : Port) (s : State), s.serving = true → s.LineIdle p → (s.units.get p).phase = .idle →
    let u := (s.units.get p).reported p
    (∃ s', exec (.alrd p []) s = .next s'
      ∧ UnitOnly p s s' { u with phase := .reply ⟨.done, [u.alert.setWidth 8]⟩ })
    ∧ (∀ args, args ≠ [] → args.length ≤ 40 → ∃ s', exec (.alrd p args) s = .next s'
      ∧ UnitOnly p s s' { u with phase := .reply ⟨.badArgument, []⟩ })
    ∧ (∀ set : BitVec 4, ∃ s', exec (.alcl p [set.setWidth 8]) s = .next s'
      ∧ UnitOnly p s s' { u with
          alert := u.alert &&& ~~~set, phase := .reply ⟨.done, [(u.alert &&& ~~~set).setWidth 8]⟩ })
    ∧ (∀ args, args.length ≤ 40 → (∀ b, args = [b] → 16 ≤ b.toNat) → ∃ s', exec (.alcl p args) s = .next s'
      ∧ UnitOnly p s s' { u with phase := .reply ⟨.badArgument, []⟩ })

/-- A transfer cut into phases comes to the same state as the whole transfer, a request frame and a read alike; loose
bits at its end are discarded (R167, R168, R177; for port B the discarding is the model's reading, entry 17). A
repeated start ends the transfer before it. SDO presents the next bit of the byte it carries from the fall of SEL on,
and is at high impedance while SEL is high; SDA presents the bits of a read. The link acknowledges its own address and
every byte of a write addressed to it, and no other address. -/
def Obligations.PhasedTransferIsTheWhole : Prop :=
  (∀ (p : Port) (bytes : List Byte) (loose : List Bool) (s : State), s.LineIdle p → loose.length < 8 →
    ∃ s1 s2 s3, exec (.requestFrame p (.opens s.linkB.address)) s = .next s1
      ∧ exec (.requestFrame p (.clocks (bytes.flatMap bitsOfByte ++ loose))) s1 = .next s2
      ∧ exec (.requestFrame p .closes) s2 = .next s3
      ∧ exec (.requestFrame p (.whole bytes)) s = .next s3)
  ∧ (∀ (n : Nat) (s : State), s.LineIdle .B →
    ∃ s1 s2 s3, exec (.readTransaction (.opens s.linkB.address)) s = .next s1
      ∧ exec (.readTransaction (.clocks n)) s1 = .next s2
      ∧ exec (.readTransaction .closes) s2 = .next s3
      ∧ exec (.readTransaction (.whole (n / 8))) s = .next s3)
  ∧ (∀ (address : BitVec 7) (s : State), ∃ s1, exec (.requestFrame .B .closes) s = .next s1
    ∧ exec (.readTransaction .closes) s = .next s1
    ∧ exec (.requestFrame .B (.opens address)) s = exec (.requestFrame .B (.opens address)) s1
    ∧ exec (.readTransaction (.opens address)) s = exec (.readTransaction (.opens address)) s1)
  ∧ (∀ (bytes : List Byte) (loose : List Bool) (s : State), s.serving = true → s.LineIdle .A → loose.length < 8 →
    ∃ s1 s2 s3, exec (.requestFrame .A (.opens s.linkB.address)) s = .next s1
      ∧ exec (.requestFrame .A (.clocks (bytes.flatMap bitsOfByte ++ loose))) s1 = .next s2
      ∧ exec (.requestFrame .A .closes) s2 = .next s3
      ∧ s.linkA.sdoBit = none ∧ s3.linkA.sdoBit = none
      ∧ s1.linkA.sdoBit = some (s.units.a.status.getLsbD 7)
      ∧ (bytes = [] → s2.linkA.sdoBit = some (s.units.a.status.getLsbD (7 - loose.length)))
      ∧ (bytes ≠ [] → bytes.head? ≠ some 0x01 → s2.linkA.sdoBit = some false)
      ∧ ∀ args more, args.length ≤ 40 → bytes = requestBytes .rply args ++ more →
          s2.linkA.sdoBit = some (((fetchedFrame s.units.a.phase).getD more.length 0).getLsbD (7 - loose.length)))
  ∧ (∀ (n : Nat) (s : State), s.serving = true → s.LineIdle .B →
    ∃ s1 s2, exec (.readTransaction (.opens s.linkB.address)) s = .next s1
      ∧ exec (.readTransaction (.clocks n)) s1 = .next s2 ∧ s1.linkB.acks = [true] ∧ s2.linkB.acks = [true]
      ∧ s2.linkB.sdaBit = some
          (((s.units.b.status :: fetchedFrame s.units.b.phase).getD (n / 8) 0).getLsbD (7 - n % 8)))
  ∧ (∀ (bytes : List Byte) (loose : List Bool) (s : State), s.serving = true → s.LineIdle .B → loose.length < 8 →
    ∃ s1 s2, exec (.requestFrame .B (.opens s.linkB.address)) s = .next s1
      ∧ exec (.requestFrame .B (.clocks (bytes.flatMap bitsOfByte ++ loose))) s1 = .next s2
      ∧ s1.linkB.acks = [true] ∧ s2.linkB.acks = List.replicate (bytes.length + 1) true)
  ∧ ∀ s : State, s.LineIdle .B →
    (∀ address, address ≠ s.linkB.address → ∀ i ∈ [Instr.requestFrame .B (.opens address), .readTransaction (.opens address)],
      exec i s = .next { s with linkB := { s.linkB with acks := [false] } })
    ∧ (∀ bits, exec (.requestFrame .B (.clocks bits)) s = .next s)
    ∧ (∀ n, exec (.readTransaction (.clocks n)) s = .next s)
    ∧ exec (.requestFrame .B .closes) s = .next s ∧ exec (.readTransaction .closes) s = .next s

/-! ### The order table's collections and handles -/

/-- A handle names the order that stands in its slot at its generation, and nothing else (R3). -/
def Obligations.HandleNamesTheOrderOfItsGeneration : Prop :=
  ∀ (t : Table) (slot generation : Byte),
    (∀ i o, t.resolve slot generation = some (i, o) ↔
      slot.toNat = i.val ∧ generation.toNat = (t.slot i).generation.toNat ∧ t.order i = some o)
    ∧ (t.resolve slot generation = none ↔
      ∀ i : Fin 64, slot.toNat = i.val → generation.toNat = (t.slot i).generation.toNat → t.order i = none)

/-- The due list holds every WAITING order exactly once and no other order, by due and then by slot, and the head is
its first (R19). -/
def Obligations.DueListIsSortedByDueAndSlot : Prop :=
  ∀ t : Table,
    (∀ i d, ⟨i, d⟩ ∈ t.dueList ↔ ∃ o, t.order i = some o ∧ o.standing = .waiting d)
    ∧ (t.dueList.map DueEntry.slot).Nodup
    ∧ t.dueList.Pairwise (fun x y => secondNumber x.due < secondNumber y.due ∨
        secondNumber x.due = secondNumber y.due ∧ x.slot < y.slot)
    ∧ t.head = t.dueList.head?

/-- The free pool, the held set and the spent set hold the slots in those states, ascending. The owned count of a port
is the number of the orders it owns, and the owned counts and the free pool together account for the 64 slots (R18,
R22, R23). -/
def Obligations.CollectionsFollowTheRecords : Prop :=
  ∀ t : Table,
    (∀ i, i ∈ t.freePool ↔ t.order i = none)
    ∧ (∀ i, i ∈ t.heldSet ↔ ∃ o d, t.order i = some o ∧ o.standing = .held d)
    ∧ (∀ i, i ∈ t.spentSet ↔ ∃ o, t.order i = some o ∧ o.standing = .spent)
    ∧ t.freePool.Pairwise (· < ·) ∧ t.heldSet.Pairwise (· < ·) ∧ t.spentSet.Pairwise (· < ·)
    ∧ (∀ p, ∃ l : List (Fin 64), l.Nodup ∧ l.length = t.owned p ∧ ∀ i, i ∈ l ↔ ∃ o, t.order i = some o ∧ o.owner = p)
    ∧ t.owned .A + t.owned .B + t.freePool.length = 64

/-! ### Order commands at the table -/

/-- The argument bytes of a PLAC decode to the values they were written from; the default answering port 0x02 is the
owner; the parameter bytes a rule's kind does not use, and the position byte of an absent membership, are carried
unread. Arguments decode exactly where their count agrees and every field is read from its bytes. A time is the six BCD
bytes of a real date and time; a rule is a kind with its parameters in their ranges; levels, floors, remaining counts
and labels are read within theirs (R14, R36, R60, R184, R185; Tables 2-3, 5-1, A-4). -/
def Obligations.PlacArgumentsRoundTrip : Prop :=
  (∀ (p : Port) (a : PlacArgs), a.Lawful → placDecode p a.bytes = .ok a
    ∧ placDecode p (a.bytes.set 17 0x02) = .ok { a with answering := p }
    ∧ (a.member = none → ∀ x, placDecode p (a.bytes.set 19 x) = .ok a))
  ∧ (∀ w x y z : Byte, ruleOf [0, w, x, y, z] = some .single ∧ ruleOf [2, w, x, y, z] = ruleOf [2, w, x, 0, 0]
    ∧ ruleOf [3, w, x, y, z] = ruleOf [3, w, 0, 0, 0])
  ∧ (∀ (p : Port) (args : List Byte) (a : PlacArgs),
    let b := byteAt args
    placDecode p args = .ok a ↔ args.length = 21 + (b 20).toNat
      ∧ timeOf (args.take 6) = some a.due ∧ ruleOf ((args.drop 6).take 5) = some a.rule
      ∧ remainingOf (b 11) = a.remaining ∧ anchoringOf (b 12) = some a.anchoring ∧ policyOf (b 13) = some a.policy
      ∧ levelOf (b 14) = some a.level ∧ floorOf (b 15) = some a.floor ∧ a.floor ≤ a.level ∧ b 16 = a.window
      ∧ answeringOf p (b 17) = some a.answering ∧ memberOf (b 18) (b 19) = some a.member
      ∧ labelOf (args.drop 20) = some a.label)
  ∧ (∀ b : Byte, bcdOf b = if b.toNat / 16 ≤ 9 ∧ b.toNat % 16 ≤ 9 then some (10 * (b.toNat / 16) + b.toNat % 16)
      else none)
  ∧ (∀ n, n ≤ 99 → (bcdByte n).toNat = 16 * (n / 10) + n % 10)
  ∧ (∀ bytes d, timeOf bytes = some d ↔ bytes = requestTime d ∧ d.real = true)
  ∧ (∀ d : DateTime, d.real = true ↔ 2000 ≤ d.year ∧ d.year ≤ 2099 ∧ 1 ≤ d.month ∧ d.month ≤ 12 ∧ 1 ≤ d.day
      ∧ d.day ≤ (if d.month = 2 then (if d.year % 4 = 0 then 29 else 28)
        else if d.month ∈ [4, 6, 9, 11] then 30 else 31)
      ∧ d.hour ≤ 23 ∧ d.minute ≤ 59 ∧ d.second ≤ 59)
  ∧ (∀ kind w x y z : Byte, ruleOf [kind, w, x, y, z] =
      if kind = 0 then some .single
      else if kind = 1 then
        if w.toNat ≤ 99 ∧ x.toNat ≤ 23 ∧ y.toNat ≤ 59 ∧ z.toNat ≤ 59 ∧ ¬ (w = 0 ∧ x = 0 ∧ y = 0 ∧ z = 0) then
          some (.interval w.toNat x.toNat y.toNat z.toNat) else none
      else if kind = 2 then
        if 1 ≤ w.toNat ∧ w.toNat ≤ 12 ∧ 1 ≤ x.toNat ∧ x.toNat ≤ 31 then some (.monthly w.toNat x.toNat) else none
      else if kind = 3 then if w ≠ 0 ∧ w.getLsbD 0 = false then some (.weekdays w) else none
      else none)
  ∧ (∀ bytes, bytes.length ≠ 5 → ruleOf bytes = none)
  ∧ labelOf [] = none
  ∧ ∀ b : Byte, (levelOf b = if b.toNat ≤ 7 then some b.toNat else none)
    ∧ (floorOf b = if b.toNat ≤ 6 then some b.toNat else none)
    ∧ (remainingOf b = if b = 0 then none else some b.toNat)
    ∧ ∀ rest : List Byte, labelOf (b :: rest) = if b.toNat ≤ 12 ∧ rest.length = b.toNat then some rest else none

/-- A PLAC that passes its checks fills the lowest FREE slot at the generation it holds, joins the group it names, and
answers with the handle (R2, R13, R18, R38). -/
def Obligations.PlacFillsTheLowestFreeSlot : Prop :=
  ∀ (p : Port) (args : List Byte) (h : InHand) (s : State) (a : PlacArgs) (i : Fin 64),
    Carries s p .plac args h → placDecode p args = .ok a → s.table.Open none a.member →
    s.table.owned p < s.table.quotas.get p →
    s.table.order i = none → (∀ j, j < i → s.table.order j ≠ none) →
    let o : Order :=
      { owner := p, standing := .waiting a.due, rule := a.rule, remaining := a.remaining, anchoring := a.anchoring
        policy := a.policy, level := a.level, floor := a.floor, window := a.window, answering := a.answering
        member := a.member, label := a.label, missed := 0, tally := 0, skipped := false, call := none }
    Answers (.plac p) s p ⟨.done, [byteOf i.val, byteOf (s.table.slot i).generation.toNat]⟩
      (match a.member with
        | none => s.table.setOrder i o
        | some m => (s.table.setOrder i o).setGroup m.group { s.table.group m.group with
            positions := (s.table.group m.group).positions.set m.position.val (some i) })

/-- A PLAC refused by a check changes no record, and the first failing check decides the reply (R14, R35, R37). -/
def Obligations.PlacRefusesByItsFirstFailure : Prop :=
  ∀ (p : Port) (args : List Byte) (h : InHand) (s : State), Carries s p .plac args h →
    let b := byteAt args
    let refused c := Answers (.plac p) s p ⟨c, []⟩ s.table
    let counted := 21 ≤ args.length ∧ args.length = 21 + (b 20).toNat
    (¬ counted → refused .badArgument)
    ∧ (counted → timeOf (args.take 6) = none → refused .badTime)
    ∧ (counted → timeOf (args.take 6) ≠ none → ruleOf ((args.drop 6).take 5) = none → refused .badRule)
    ∧ (counted → timeOf (args.take 6) ≠ none → ruleOf ((args.drop 6).take 5) ≠ none →
        1 < (b 12).toNat ∨ 1 < (b 13).toNat ∨ 7 < (b 14).toNat ∨ 6 < (b 15).toNat ∨ (b 14).toNat < (b 15).toNat
          ∨ 2 < (b 17).toNat ∨ (b 18 ≠ 0xFF ∧ (7 < (b 18).toNat ∨ 7 < (b 19).toNat)) ∨ 12 < (b 20).toNat →
        refused .badArgument)
    ∧ (∀ a m, placDecode p args = .ok a → a.member = some m → (s.table.group m.group).config = none →
        refused .noSuchGroup)
    ∧ (∀ a m, placDecode p args = .ok a → a.member = some m → (s.table.group m.group).config ≠ none →
        (s.table.group m.group).positions[m.position.val] ≠ none → refused .positionTaken)
    ∧ (∀ a, placDecode p args = .ok a → s.table.Open none a.member → s.table.quotas.get p ≤ s.table.owned p →
        refused .quotaFull)
    ∧ (∀ a, placDecode p args = .ok a → s.table.Open none a.member → s.table.owned p < s.table.quotas.get p →
        (∀ i, s.table.order i ≠ none) → refused .tableFull)

/-- An AMND that passes its checks and leaves the membership as it is changes the selected fields of the order and
nothing else; a level or floor selected restarts a RAISED call at the new level, or withdraws it at level 7, and a
TAKEN call stands (R42, R43, R44, R46). -/
def Obligations.AmndChangesTheSelectedFields : Prop :=
  ∀ (p : Port) (slot generation hi lo : Byte) (rest : List Byte) (h : InHand) (s : State) (i : Fin 64) (o : Order)
    (a : Amend),
    Carries s p .amnd (slot :: generation :: hi :: lo :: rest) h → hi.toNat < 8 →
    s.table.resolve slot generation = some (i, o) → ¬ (p = .B ∧ o.owner = .A) →
    amndDecode o (hi ++ lo : BitVec 16) rest = .ok a → s.table.Open (some i) (a.member.getD none) →
    a.member.getD o.member = o.member → (o.call ≠ none → a.answering.getD o.answering = o.answering) →
    ∃ o' : Order,
      Answers (.amnd p) s p ⟨.done, [slot, generation, o'.standing.byte]⟩ (s.table.setOrder i o')
      ∧ a.Applied o o'
      ∧ (a.level = none → a.floor = none → o'.call = o.call)
      ∧ (a.level ≠ none ∨ a.floor ≠ none → ∀ c, o.call = some c → c.state = .raised →
          o'.call = if o'.level = 7 then none else some ⟨.raised, o'.level, deadlineAfter h.elapsed o'.window⟩)
      ∧ (∀ c, o.call = some c → c.state = .taken → o'.call = some c)
      ∧ (o.call = none → o'.call = none)

/-- An AMND that moves an order without a call from one membership to another applies every field it selects, empties the
old position, clears its factor bit and judges that group's call, and fills the new position (R42, R43, R45, R46, R140
to R142). -/
def Obligations.AmndMovesTheMembership : Prop :=
  ∀ (p : Port) (slot generation hi lo : Byte) (rest : List Byte) (h : InHand) (s : State) (i : Fin 64) (o : Order)
    (a : Amend),
    Carries s p .amnd (slot :: generation :: hi :: lo :: rest) h → hi.toNat < 8 →
    s.table.resolve slot generation = some (i, o) → ¬ (p = .B ∧ o.owner = .A) →
    amndDecode o (hi ++ lo : BitVec 16) rest = .ok a → s.table.Open (some i) (a.member.getD none) →
    a.member.getD o.member ≠ o.member → o.call = none →
    ∃ t o', Answers (.amnd p) s p ⟨.done, [slot, generation, o'.standing.byte]⟩ t
      ∧ t.order i = some o' ∧ a.Applied o o' ∧ o'.call = none
      ∧ (t.slot i).generation = (s.table.slot i).generation ∧ (∀ j, j ≠ i → t.slot j = s.table.slot j)
      ∧ t.contexts = s.table.contexts ∧ t.quotas = s.table.quotas ∧ t.inBackup = s.table.inBackup
      ∧ ∀ g, (t.group g).config = (s.table.group g).config ∧ (t.group g).enable = (s.table.group g).enable
        ∧ (∀ q : Fin 8, (t.group g).positions[q.val] =
            if a.member.getD o.member = some ⟨g, q⟩ then some i
            else if o.member = some ⟨g, q⟩ then none else (s.table.group g).positions[q.val])
        ∧ (∀ q : Fin 8, (t.group g).factor.getLsbD q.val =
            ((s.table.group g).factor.getLsbD q.val && !decide (o.member = some ⟨g, q⟩)))
        ∧ (t.group g).call =
            if o.member.map Member.group = some g ∧ (s.table.group g).call = some .raised
              ∧ (t.group g).factor &&& (t.group g).enable = 0
            then none else (s.table.group g).call

/-- An AMND refused by a check changes no record, and the first failing check decides the reply (R35, R40, R41). -/
def Obligations.AmndRefusesByItsFirstFailure : Prop :=
  ∀ (p : Port) (args : List Byte) (h : InHand) (s : State), Carries s p .amnd args h →
    let refused c := Answers (.amnd p) s p ⟨c, []⟩ s.table
    (args.length < 4 → refused .badArgument)
    ∧ ∀ slot generation hi lo rest, args = slot :: generation :: hi :: lo :: rest →
      let sel := (hi ++ lo : BitVec 16)
      (8 ≤ hi.toNat → refused .badArgument)
      ∧ (hi.toNat < 8 → s.table.resolve slot generation = none → refused .noSuchOrder)
      ∧ ∀ i o, hi.toNat < 8 → s.table.resolve slot generation = some (i, o) →
        (p = .B ∧ o.owner = .A → refused .notPermitted)
        ∧ (¬ (p = .B ∧ o.owner = .A) →
          (∀ c, amndDecode o sel rest = .error c → refused c)
          ∧ ∀ a, amndDecode o sel rest = .ok a →
            (∀ m, a.member.getD none = some m → (s.table.group m.group).config = none → refused .noSuchGroup)
            ∧ (∀ m, a.member.getD none = some m → (s.table.group m.group).config ≠ none →
                (s.table.group m.group).positions[m.position.val] ≠ none →
                (s.table.group m.group).positions[m.position.val] ≠ some i → refused .positionTaken)
            ∧ (s.table.Open (some i) (a.member.getD none) → o.call ≠ none →
                a.answering.getD o.answering ≠ o.answering ∨ o.member = none ∧ a.member.getD none ≠ none →
                refused .callOutstanding))

/-- The field checks of an AMND that carries all the bytes it announces fail class by class: BAD-TIME, then BAD-RULE,
then BAD-ARGUMENT; where no class fails they pass, and each selected field is read from its bytes, in the order of the
select bits. A field begins after the selected fields of lower bits, of 6 bytes for bit 0, 5 for bit 1, 2 for bit 9 and 1
for the others below bit 10 (R14, R40, R185). -/
def Obligations.AmndFieldsAreCheckedAndRead : Prop :=
  ∀ (o : Order) (sel : BitVec 16) (rest : List Byte),
    let whole := if sel.getLsbD 10 then
        fieldOffset sel 10 < rest.length
          ∧ rest.length = fieldOffset sel 10 + 1 + (byteAt rest (fieldOffset sel 10)).toNat
      else rest.length = fieldOffset sel 10
    let at_ bit := byteAt rest (fieldOffset sel bit)
    let badTime := sel.getLsbD 0 = true ∧ timeOf (rest.take 6) = none
    let badRule := sel.getLsbD 1 = true ∧ ruleOf ((rest.drop (fieldOffset sel 1)).take 5) = none
    let badArgument :=
      (sel.getLsbD 3 = true ∧ 1 < (at_ 3).toNat) ∨ (sel.getLsbD 4 = true ∧ 1 < (at_ 4).toNat)
        ∨ (sel.getLsbD 5 = true ∧ 7 < (at_ 5).toNat) ∨ (sel.getLsbD 6 = true ∧ 6 < (at_ 6).toNat)
        ∨ (sel.getLsbD 8 = true ∧ 2 < (at_ 8).toNat)
        ∨ (sel.getLsbD 9 = true ∧ at_ 9 ≠ 0xFF ∧ (7 < (at_ 9).toNat ∨ 7 < (byteAt rest (fieldOffset sel 9 + 1)).toNat))
        ∨ (sel.getLsbD 10 = true ∧ 12 < (at_ 10).toNat)
        ∨ (if sel.getLsbD 5 then (at_ 5).toNat else o.level) < (if sel.getLsbD 6 then (at_ 6).toNat else o.floor)
        ∨ (o.standing ≠ .spent ∨ sel.getLsbD 0 = true) ∧ sel.getLsbD 2 = false ∧ o.remaining = some 0
    (∀ bit, bit ≤ 10 → fieldOffset sel bit = ((List.range bit).map fun k =>
        if sel.getLsbD k then (if k = 0 then 6 else if k = 1 then 5 else if k = 9 then 2 else 1) else 0).sum)
    ∧ (whole → badTime → amndDecode o sel rest = .error .badTime)
    ∧ (whole → ¬ badTime → badRule → amndDecode o sel rest = .error .badRule)
    ∧ (whole → ¬ badTime → ¬ badRule → badArgument → amndDecode o sel rest = .error .badArgument)
    ∧ (whole → ¬ badTime → ¬ badRule → ¬ badArgument → ∃ a, amndDecode o sel rest = .ok a)
    ∧ (¬ whole → ∃ c, amndDecode o sel rest = .error c)
    ∧ ∀ a, amndDecode o sel rest = .ok a →
      (a.due = if sel.getLsbD 0 then timeOf (rest.take 6) else none) ∧ (a.due.isSome = sel.getLsbD 0)
      ∧ (a.rule = if sel.getLsbD 1 then ruleOf ((rest.drop (fieldOffset sel 1)).take 5) else none)
      ∧ (a.rule.isSome = sel.getLsbD 1)
      ∧ (a.remaining = if sel.getLsbD 2 then some (remainingOf (at_ 2)) else none)
      ∧ (a.anchoring = if sel.getLsbD 3 then anchoringOf (at_ 3) else none) ∧ (a.anchoring.isSome = sel.getLsbD 3)
      ∧ (a.policy = if sel.getLsbD 4 then policyOf (at_ 4) else none) ∧ (a.policy.isSome = sel.getLsbD 4)
      ∧ (a.level = if sel.getLsbD 5 then levelOf (at_ 5) else none) ∧ (a.level.isSome = sel.getLsbD 5)
      ∧ (a.floor = if sel.getLsbD 6 then floorOf (at_ 6) else none) ∧ (a.floor.isSome = sel.getLsbD 6)
      ∧ (a.window = if sel.getLsbD 7 then some (at_ 7) else none)
      ∧ (a.answering = if sel.getLsbD 8 then answeringOf o.owner (at_ 8) else none)
      ∧ (a.answering.isSome = sel.getLsbD 8)
      ∧ (a.member = if sel.getLsbD 9 then memberOf (at_ 9) (byteAt rest (fieldOffset sel 9 + 1)) else none)
      ∧ (a.member.isSome = sel.getLsbD 9)
      ∧ (a.label = if sel.getLsbD 10 then labelOf (rest.drop (fieldOffset sel 10)) else none)
      ∧ (a.label.isSome = sel.getLsbD 10)
      ∧ a.floor.getD o.floor ≤ a.level.getD o.level
      ∧ (o.standing ≠ .spent ∨ a.due ≠ none → a.remaining.getD o.remaining ≠ some 0)

/-- HOLD takes a WAITING order to HELD and RSUM takes a HELD one to WAITING, each at the due it keeps and touching
nothing else (R47, R48). -/
def Obligations.HoldAndRsumMoveTheOrder : Prop :=
  ∀ (p : Port) (slot generation : Byte) (h : InHand) (s : State) (i : Fin 64) (o : Order) (d : DateTime),
    s.table.resolve slot generation = some (i, o) → ¬ (p = .B ∧ o.owner = .A) →
    let reply : Reply := ⟨.done, [slot, generation, bcdByte (d.year - 2000), bcdByte d.month, bcdByte d.day,
      bcdByte d.hour, bcdByte d.minute, bcdByte d.second, byteOf (weekdayOf d)]⟩
    (Carries s p .hold [slot, generation] h →
      (o.standing = .waiting d →
        Answers (.hold p) s p reply (s.table.setOrder i { o with standing := .held d }))
      ∧ (o.standing = .held d ∨ o.standing = .spent → Answers (.hold p) s p ⟨.notWaiting, []⟩ s.table))
    ∧ (Carries s p .rsum [slot, generation] h →
      (o.standing = .held d →
        Answers (.rsum p) s p reply (s.table.setOrder i { o with standing := .waiting d }))
      ∧ (o.standing = .waiting d ∨ o.standing = .spent → Answers (.rsum p) s p ⟨.notHeld, []⟩ s.table))

/-- HOLD, RSUM and RTIR check the layout, then the handle, then the rights, and a failure changes nothing (R3, R24,
R35). -/
def Obligations.HandleCommandsCheckLayoutHandleRights : Prop :=
  ∀ (p : Port) (args : List Byte) (h : InHand) (s : State),
    ∀ x ∈ [(Code.hold, Instr.hold p), (.rsum, .rsum p), (.rtir, .rtir p)], Carries s p x.1 args h →
      (args.length ≠ 2 → Answers x.2 s p ⟨.badArgument, []⟩ s.table)
      ∧ ∀ slot generation, args = [slot, generation] →
        (s.table.resolve slot generation = none → Answers x.2 s p ⟨.noSuchOrder, []⟩ s.table)
        ∧ (∀ i o, s.table.resolve slot generation = some (i, o) → p = .B → o.owner = .A →
            Answers x.2 s p ⟨.notPermitted, []⟩ s.table)

/-- RTIR frees the slot at the next generation, empties its group position, leaves the entry of a TAKEN call marked
retired, and reports what became of the call (R2, R49, R50). -/
def Obligations.RtirRetiresTheOrder : Prop :=
  ∀ (p : Port) (slot generation : Byte) (h : InHand) (s : State) (i : Fin 64) (o : Order),
    Carries s p .rtir [slot, generation] h → s.table.resolve slot generation = some (i, o) →
    ¬ (p = .B ∧ o.owner = .A) →
    ∃ t, Answers (.rtir p) s p
        ⟨.done, [slot, generation] ++ (match o.call with
          | none => [0, 0xFF]
          | some c => match c.state with
            | .raised => [1, 0xFF]
            | .taken => [2, portByte o.answering])⟩ t
      ∧ t.slot i = ⟨(s.table.slot i).generation + 1, none⟩ ∧ (∀ j, j ≠ i → t.slot j = s.table.slot j)
      ∧ t.quotas = s.table.quotas ∧ t.inBackup = s.table.inBackup
      ∧ (∀ q, t.contexts.get q = { s.table.contexts.get q with
          stack := (s.table.contexts.get q).stack.map fun e =>
            if q = o.answering ∧ (o.call.map Call.state) = some .taken
              ∧ e.source = .order i (s.table.slot i).generation then { e with retired := true } else e })
      ∧ ∀ g, match o.member with
        | none => t.group g = s.table.group g
        | some m =>
          if m.group = g then
            (t.group g).config = (s.table.group g).config ∧ (t.group g).enable = (s.table.group g).enable
            ∧ (t.group g).positions = (s.table.group g).positions.set m.position.val none
            ∧ (∀ q : Fin 8, (t.group g).factor.getLsbD q.val =
                ((s.table.group g).factor.getLsbD q.val && !decide (q = m.position)))
            ∧ (t.group g).call = if (s.table.group g).call = some .raised ∧ (t.group g).factor &&& (t.group g).enable = 0
                then none else (s.table.group g).call
          else t.group g = s.table.group g

/-- PURG retires every order the named port owns and no other, and reports how many (R50, R53). -/
def Obligations.PurgRetiresThePortsOrders : Prop :=
  ∀ (p owner : Port) (args : List Byte) (h : InHand) (s : State), Carries s p .purg args h →
    (args.length ≠ 1 → Answers (.purg p) s p ⟨.badArgument, []⟩ s.table)
    ∧ (∀ b, args = [b] → 1 < b.toNat → Answers (.purg p) s p ⟨.badArgument, []⟩ s.table)
    ∧ (args = [portByte owner] → p = .B → owner = .A → Answers (.purg p) s p ⟨.notPermitted, []⟩ s.table)
    ∧ (args = [portByte owner] → ¬ (p = .B ∧ owner = .A) →
      ∃ t, Answers (.purg p) s p ⟨.done, [byteOf (s.table.owned owner)]⟩ t
        ∧ t.owned owner = 0 ∧ t.quotas = s.table.quotas ∧ t.inBackup = s.table.inBackup
        ∧ (∀ i o, s.table.order i = some o → o.owner = owner →
            t.slot i = ⟨(s.table.slot i).generation + 1, none⟩)
        ∧ (∀ i, (∀ o, s.table.order i = some o → o.owner ≠ owner) → t.slot i = s.table.slot i)
        ∧ (∀ q, t.contexts.get q = { s.table.contexts.get q with
            stack := (s.table.contexts.get q).stack.map fun e =>
              if s.table.purges owner q e then { e with retired := true } else e })
        ∧ ∀ g, (t.group g).config = (s.table.group g).config ∧ (t.group g).enable = (s.table.group g).enable
          ∧ ((∀ q, ¬ s.table.ownsMember owner g q) → t.group g = s.table.group g)
          ∧ (∀ q : Fin 8, (s.table.ownsMember owner g q → (t.group g).positions[q.val] = none
                ∧ (t.group g).factor.getLsbD q.val = false)
              ∧ (¬ s.table.ownsMember owner g q → (t.group g).positions[q.val] = (s.table.group g).positions[q.val]
                ∧ (t.group g).factor.getLsbD q.val = (s.table.group g).factor.getLsbD q.val))
          ∧ ((∃ q, s.table.ownsMember owner g q) → (t.group g).call =
              if (s.table.group g).call = some .raised ∧ (t.group g).factor &&& (t.group g).enable = 0
              then none else (s.table.group g).call))

/-- LOOK reports every field of the order as the record stands, with the seconds its deadline has left, and changes
nothing (R54, R55; the elapsed counter is that of the carrying out, entry 12). -/
def Obligations.LookReportsTheRecord : Prop :=
  ∀ (p : Port) (args : List Byte) (h : InHand) (s : State), Carries s p .look args h →
    (args.length ≠ 2 → Answers (.look p) s p ⟨.badArgument, []⟩ s.table)
    ∧ ∀ slot generation, args = [slot, generation] →
      (s.table.resolve slot generation = none → Answers (.look p) s p ⟨.noSuchOrder, []⟩ s.table)
      ∧ ∀ i o, s.table.resolve slot generation = some (i, o) →
        let left (d : Option Elapsed) : List Byte := match d with
          | none => [0, 0]
          | some d => [1, if (d - s.clock.elapsed).toNat ≤ 255 then byteOf (d - s.clock.elapsed).toNat else 0]
        Answers (.look p) s p ⟨.done, [slot, generation, portByte o.owner, o.standing.byte]
          ++ (match o.standing.due with
            | none => [0xFF, 0xFF, 0xFF, 0xFF, 0xFF, 0xFF, 0xFF]
            | some d => requestTime d ++ [byteOf (weekdayOf d)])
          ++ ruleBytes o.rule
          ++ [if o.remaining = none then 0 else 1, byteOf (o.remaining.getD 0), anchoringByte o.anchoring,
              policyByte o.policy, byteOf o.level, byteOf o.floor, o.window, portByte o.answering]
          ++ (match o.member with
            | none => [0xFF, 0xFF]
            | some m => [byteOf m.group.val, byteOf m.position.val])
          ++ [byteOf o.label.length] ++ (List.range 12).map (fun k => o.label.getD k 0)
          ++ [byteOf o.missed, byteOf (o.tally / 256), byteOf o.tally, if o.skipped then 1 else 0]
          ++ (match o.call with
            | none => [0, 0, 0, 0, 0]
            | some c => match c.state with
              | .raised => [1, byteOf c.level] ++ left c.deadline ++ [0]
              | .taken =>
                match (s.table.contexts.get o.answering).stack.find? fun e =>
                    e.source = .order i (s.table.slot i).generation ∧ e.retired = false with
                | some e => [2, byteOf c.level] ++ left e.deadline ++ [if e.overdue then 1 else 0]
                | none => [2, byteOf c.level, 0, 0, 0])⟩ s.table

/-- LIST reports the orders that match its three filters, in due order for WAITING and by slot otherwise, and changes
nothing; its three argument bytes are the owner, the state and the group filter (R56, R57, R184). -/
def Obligations.ListReportsTheMatchingOrders : Prop :=
  ∀ (p : Port) (args : List Byte) (h : InHand) (s : State), Carries s p .list args h →
    (∀ f, filtersOf args = some f → ∃ l : List (Fin 64),
      Answers (.list p) s p ⟨.done, byteOf l.length :: l.flatMap fun i =>
        [byteOf i.val, byteOf (s.table.slot i).generation.toNat]⟩ s.table
      ∧ l.Nodup
      ∧ (∀ i, i ∈ l ↔ ∃ o, s.table.order i = some o
          ∧ (∀ q, f.owner = some q → o.owner = q)
          ∧ (f.state = .waiting → ∃ d, o.standing = .waiting d) ∧ (f.state = .held → ∃ d, o.standing = .held d)
          ∧ (f.state = .spent → o.standing = .spent)
          ∧ (f.group = .none → o.member = none)
          ∧ (∀ g, f.group = .group g → o.member.map Member.group = some g))
      ∧ (f.state ≠ .waiting → l.Pairwise (· < ·))
      ∧ (f.state = .waiting → l.Sublist (s.table.dueList.map DueEntry.slot)))
    ∧ (filtersOf args = none → Answers (.list p) s p ⟨.badArgument, []⟩ s.table)
    ∧ (filtersOf args = none ↔ ¬ ∃ o st g, args = [o, st, g] ∧ o.toNat ≤ 2 ∧ st.toNat ≤ 3
        ∧ (g.toNat ≤ 7 ∨ g = 0xFE ∨ g = 0xFF))
    ∧ ∀ o st g f, args = [o, st, g] → (filtersOf args = some f ↔
        ownerFilterOf o = some f.owner ∧ stateFilterOf st = some f.state ∧ groupFilterOf g = some f.group)

/-- QUOT sets a quota of 0 to 64 that is not below the owned count, and refuses others. INFO reports the counts of the
collections, and for each port its owned count, quota, base ceiling, nesting flag, stack depth and current ceiling
(R26, R27). -/
def Obligations.QuotSetsAndInfoReports : Prop :=
  (∀ (args : List Byte) (h : InHand) (s : State), Carries s .A .quot args h →
    (args.length ≠ 2 → Answers .quot s .A ⟨.badArgument, []⟩ s.table)
    ∧ ∀ b q, args = [b, q] →
      (1 < b.toNat ∨ 64 < q.toNat → Answers .quot s .A ⟨.badArgument, []⟩ s.table)
      ∧ ∀ who, b = portByte who → q.toNat ≤ 64 →
        (q.toNat < s.table.owned who → Answers .quot s .A ⟨.quotaBelow, []⟩ s.table)
        ∧ (s.table.owned who ≤ q.toNat →
          Answers .quot s .A ⟨.done, [b, q, byteOf (s.table.owned who)]⟩
            { s.table with quotas := s.table.quotas.set who q.toNat }))
  ∧ (∀ (p : Port) (args : List Byte) (h : InHand) (s : State), Carries s p .info args h →
    (args = [] → Answers (.info p) s p ⟨.done,
      [byteOf s.table.freePool.length, byteOf s.table.dueList.length, byteOf s.table.heldSet.length,
        byteOf s.table.spentSet.length]
      ++ [Port.A, Port.B].flatMap fun q =>
        [byteOf (s.table.owned q), byteOf (s.table.quotas.get q), byteOf (s.table.contexts.get q).base,
          if (s.table.contexts.get q).nesting then 1 else 0, byteOf (s.table.contexts.get q).stack.length,
          byteOf (s.table.contexts.get q).ceiling]⟩ s.table)
    ∧ (args ≠ [] → Answers (.info p) s p ⟨.badArgument, []⟩ s.table))

/-! ### Calls and the answer contexts -/

/-- The best offered call of a port is the raised call answering it, below its current ceiling, of lowest level and then
of lowest source number (R109, R110). -/
def Obligations.BestOfferedCallIsTheLowest : Prop :=
  ∀ (t : Table) (p : Port),
    let c := t.contexts.get p
    let ceiling := match c.stack with
      | [] => c.base
      | top :: _ => if c.nesting then top.level else 0
    c.ceiling = ceiling
    ∧ (∀ x, t.bestOffered p = some x ↔ t.raises p x ∧ x.level < ceiling
        ∧ ∀ y, t.raises p y → y.level < ceiling → y = x ∨ x.before y)
    ∧ (t.bestOffered p = none ↔ ∀ y, t.raises p y → ceiling ≤ y.level)
    ∧ (t.offers p = true ↔ ∃ y, t.raises p y ∧ y.level < ceiling)

/-- TAKE takes the best offered call: an order's with its finish deadline and missed cleared, a group's at the group's
level; it refuses argument bytes and a full stack, and answers NOTHING when no call is offered (R112 to R115). -/
def Obligations.TakeTakesTheBestOfferedCall : Prop :=
  ∀ (p : Port) (args : List Byte) (h : InHand) (s : State), Carries s p .take args h →
    let t := s.table
    let c := t.contexts.get p
    (args ≠ [] → Answers (.take p) s p ⟨.badArgument, []⟩ t)
    ∧ (args = [] → 4 ≤ c.stack.length → Answers (.take p) s p ⟨.stackFull, []⟩ t)
    ∧ (args = [] → c.stack.length < 4 → t.bestOffered p = none → Answers (.take p) s p ⟨.nothing, []⟩ t)
    ∧ (args = [] → c.stack.length < 4 →
      (∀ level i o, t.bestOffered p = some ⟨level, .order i⟩ → t.order i = some o →
        Answers (.take p) s p
          ⟨.done, [byteOf i.val, byteOf (t.slot i).generation.toNat, byteOf level, byteOf o.missed,
            byteOf (o.tally / 256), byteOf o.tally, byteOf o.label.length] ++ o.label⟩
          ((t.setOrder i { o with call := some ⟨.taken, level, none⟩, missed := 0 }).setContext p { c with
            stack := ⟨.order i (t.slot i).generation, level, deadlineAfter h.elapsed o.window, false, false⟩ :: c.stack }))
      ∧ (∀ level g, t.bestOffered p = some ⟨level, .group g⟩ →
        Answers (.take p) s p
          ⟨.done, [byteOf (64 + g.val), byteOf level, (t.group g).factor, (t.group g).enable]⟩
          ((t.setGroup g { t.group g with call := some .taken }).setContext p { c with
            stack := ⟨.group g, level, none, false, false⟩ :: c.stack })))

/-- FNSH names the top entry, pops it and ends the call it names: an order's, holding the order where asked; a group's,
which is raised again while its sets meet; an orphan's, which is none (R117 to R120). -/
def Obligations.FnshFinishesTheTopEntry : Prop :=
  ∀ (p : Port) (x : Source) (b : Byte) (hold : Bool) (args : List Byte) (h : InHand) (s : State),
    Carries s p .fnsh args h →
    let t := s.table
    let c := t.contexts.get p
    let popped (rest : List Entry) := t.setContext p { c with stack := rest }
    let reply (e : Entry) (outcome : Byte) (rest : List Entry) : Reply :=
      ⟨.done, (match x with
          | .order i generation => [byteOf i.val, byteOf generation.toNat]
          | .group g => [byteOf (64 + g.val), 0])
        ++ [(if e.overdue then 1 else 0) + (if e.retired then 2 else 0), outcome, byteOf (match rest with
          | [] => c.base
          | top :: _ => if c.nesting then top.level else 0)]⟩
    (∀ x0 x1 x2 : Byte, args = [x0, x1, x2] →
        72 ≤ x0.toNat ∨ (x0.toNat < 64 ∧ 16 ≤ x1.toNat) ∨ 1 < x2.toNat ∨ (64 ≤ x0.toNat ∧ x2 ≠ 0) →
        Answers (.fnsh p) s p ⟨.badArgument, []⟩ t)
    ∧ (args.length ≠ 3 → Answers (.fnsh p) s p ⟨.badArgument, []⟩ t)
    ∧ ((match x with
        | .order i generation => args = [byteOf i.val, byteOf generation.toNat, flagByte hold]
        | .group g => args = [byteOf (64 + g.val), b, 0] ∧ hold = false) →
      (c.stack = [] → Answers (.fnsh p) s p ⟨.stackEmpty, []⟩ t)
      ∧ ∀ e rest, c.stack = e :: rest →
        (e.source ≠ x → Answers (.fnsh p) s p ⟨.notTop, []⟩ t)
        ∧ (e.source = x →
          (∀ i o, x = .order i (t.slot i).generation → e.retired = false → t.order i = some o →
            Answers (.fnsh p) s p
              (reply e (if hold then (match o.standing with
                | .waiting _ => 1
                | .held _ => 2
                | .spent => 2) else 0) rest)
              ((popped rest).setOrder i { o with
                call := none
                standing := match o.standing with
                  | .waiting d => if hold then .held d else .waiting d
                  | .held d => .held d
                  | .spent => .spent }))
          ∧ (∀ i generation, x = .order i generation → e.retired = true →
            Answers (.fnsh p) s p (reply e (if hold then 2 else 0) rest) (popped rest))
          ∧ (∀ g, x = .group g →
            Answers (.fnsh p) s p (reply e 0 rest)
              ((popped rest).setGroup g { t.group g with
                call := if (t.group g).factor &&& (t.group g).enable ≠ 0 then some .raised else none }))))

/-- CEIL and NEST set the base ceiling and the nesting flag of an empty stack, and refuse other arguments and a stack
that is not empty (R122, R123). -/
def Obligations.CeilAndNestSetTheContext : Prop :=
  ∀ (p : Port) (args : List Byte) (h : InHand) (s : State),
    let t := s.table
    let c := t.contexts.get p
    (Carries s p .ceil args h →
      (args.length ≠ 1 → Answers (.ceil p) s p ⟨.badArgument, []⟩ t)
      ∧ ∀ b, args = [b] →
        (7 < b.toNat → Answers (.ceil p) s p ⟨.badArgument, []⟩ t)
        ∧ (b.toNat ≤ 7 → c.stack ≠ [] → Answers (.ceil p) s p ⟨.stackNotEmpty, []⟩ t)
        ∧ (b.toNat ≤ 7 → c.stack = [] →
          Answers (.ceil p) s p ⟨.done, [b, b]⟩ (t.setContext p { c with base := b.toNat })))
    ∧ (Carries s p .nest args h →
      (args.length ≠ 1 → Answers (.nest p) s p ⟨.badArgument, []⟩ t)
      ∧ ∀ b, args = [b] →
        (1 < b.toNat → Answers (.nest p) s p ⟨.badArgument, []⟩ t)
        ∧ (b.toNat ≤ 1 → c.stack ≠ [] → Answers (.nest p) s p ⟨.stackNotEmpty, []⟩ t)
        ∧ (b.toNat ≤ 1 → c.stack = [] →
          Answers (.nest p) s p ⟨.done, [b, byteOf c.base]⟩ (t.setContext p { c with nesting := b = 1 })))

/-! ### Groups -/

/-- GSET configure makes a group configured, or replaces the values of a configured one and judges its call; a standing
call bars another level or port (R144 to R147). -/
def Obligations.GsetConfigureSetsTheGroup : Prop :=
  ∀ (g : Fin 8) (level : Nat) (port : Port) (enable : Byte) (h : InHand) (s : State), level ≤ 6 →
    Carries s .A .gset [byteOf g.val, 0, byteOf level, portByte port, enable] h →
    let t := s.table
    let x := t.group g
    let done (x' : Group) := Answers .gsetConfigure s .A
      ⟨.done, [byteOf g.val, 1, byteOf level, portByte port, enable, callByte x'.call]⟩ (t.setGroup g x')
    (x.config = none → done ⟨some ⟨level, port⟩, enable, 0, Vector.replicate 8 none, none⟩)
    ∧ (∀ c, x.config = some c →
      (x.call = none → done { x with
        config := some ⟨level, port⟩, enable := enable
        call := if x.factor &&& enable ≠ 0 then some .raised else none })
      ∧ (x.call ≠ none → c ≠ ⟨level, port⟩ → Answers .gsetConfigure s .A ⟨.callOutstanding, []⟩ t)
      ∧ (x.call = some .raised → c = ⟨level, port⟩ → done { x with
        enable := enable, call := if x.factor &&& enable = 0 then none else some .raised })
      ∧ (x.call = some .taken → c = ⟨level, port⟩ → done { x with enable := enable }))

/-- GSET release makes an empty, idle group unconfigured, and refuses others. A GSET of either form whose arguments fail
their checks is refused and changes nothing (R144, R148); that one of no known form is refused under either row is the
model's choice (entry 15). -/
def Obligations.GsetReleaseAndItsRefusals : Prop :=
  ∀ (args : List Byte) (h : InHand) (s : State), Carries s .A .gset args h →
    let t := s.table
    (∀ g : Fin 8, args = [byteOf g.val, 1] →
      let x := t.group g
      let empty := ∀ q : Fin 8, x.positions[q.val] = none
      (x.config = none → Answers .gsetRelease s .A ⟨.noSuchGroup, []⟩ t)
      ∧ (x.config ≠ none → ¬ empty → Answers .gsetRelease s .A ⟨.groupInUse, []⟩ t)
      ∧ (x.config ≠ none → empty → x.call ≠ none → Answers .gsetRelease s .A ⟨.callOutstanding, []⟩ t)
      ∧ (x.config ≠ none → empty → x.call = none →
        Answers .gsetRelease s .A ⟨.done, [byteOf g.val, 0]⟩ (t.setGroup g { x with config := none, enable := 0 })))
    ∧ (∀ g rest, args = g :: 1 :: rest → 8 ≤ g.toNat ∨ rest ≠ [] →
        Answers .gsetRelease s .A ⟨.badArgument, []⟩ t)
    ∧ (∀ g rest, args = g :: 0 :: rest →
        8 ≤ g.toNat ∨ rest.length ≠ 3 ∨ 6 < (byteAt rest 0).toNat ∨ 1 < (byteAt rest 1).toNat →
        Answers .gsetConfigure s .A ⟨.badArgument, []⟩ t)
    ∧ (args.length < 2 ∨ 1 < (byteAt args 1).toNat →
        Answers .gsetConfigure s .A ⟨.badArgument, []⟩ t ∧ Answers .gsetRelease s .A ⟨.badArgument, []⟩ t)

/-- GRED reports a group's record and GCLR clears factor bits and judges the call; port B may do so for a group that
answers it (R24, R149, R150). -/
def Obligations.GredReportsAndGclrClears : Prop :=
  ∀ (p : Port) (args : List Byte) (h : InHand) (s : State),
    let t := s.table
    let barred (g : Fin 8) := p = .B ∧ (t.group g).config.map GroupConfig.answering ≠ some .B
    (Carries s p .gred args h →
      (args.length ≠ 1 ∨ 8 ≤ (byteAt args 0).toNat → Answers (.gred p) s p ⟨.badArgument, []⟩ t)
      ∧ ∀ g : Fin 8, args = [byteOf g.val] →
        (barred g → Answers (.gred p) s p ⟨.notPermitted, []⟩ t)
        ∧ (¬ barred g → Answers (.gred p) s p
          ⟨.done, byteOf g.val :: (match (t.group g).config with
              | some c => [1, byteOf c.level, portByte c.answering]
              | none => [0, 0, 0xFF])
            ++ (List.finRange 8).flatMap (fun q => match (t.group g).positions[q.val] with
              | some i => [byteOf i.val, byteOf (t.slot i).generation.toNat]
              | none => [0xFF, 0xFF])
            ++ [(t.group g).factor, (t.group g).enable, callByte (t.group g).call]⟩ t))
    ∧ (Carries s p .gclr args h →
      (args.length ≠ 2 ∨ 8 ≤ (byteAt args 0).toNat → Answers (.gclr p) s p ⟨.badArgument, []⟩ t)
      ∧ ∀ (g : Fin 8) (set : Byte), args = [byteOf g.val, set] →
        let factor := (t.group g).factor &&& ~~~set
        let call := if (t.group g).call = some .raised ∧ factor &&& (t.group g).enable = 0 then none
          else (t.group g).call
        (barred g → Answers (.gclr p) s p ⟨.notPermitted, []⟩ t)
        ∧ (¬ barred g → (t.group g).config = none → Answers (.gclr p) s p ⟨.noSuchGroup, []⟩ t)
        ∧ (¬ barred g → (t.group g).config ≠ none → Answers (.gclr p) s p
          ⟨.done, [byteOf g.val, factor, callByte call]⟩
          (t.setGroup g { t.group g with factor := factor, call := call })))

/-! ### The clock -/

/-- CKRD reports the clock and changes nothing, and CKSE sets the choice of the next settling (R74, R77). -/
def Obligations.CkrdReportsAndCkseSetsTheChoice : Prop :=
  ∀ (p : Port) (args : List Byte) (rest : List Command) (s : State),
    let k := s.clock
    let took := { k with taking := k.taking.set p rest }
    (ClockTurn s p .ckrd args rest →
      (args = [] → exec (.ckrd p) s = .next ({ s with clock := took }.hold p
        ⟨.done, requestTime k.calendar.now ++ [byteOf k.calendar.weekday, if k.valid then 1 else 0,
          (match k.state with
            | .settling => 0
            | .running => 1
            | .held => 2
            | .lost => 3),
          byteOf (k.elapsed.toNat / 16777216), byteOf (k.elapsed.toNat / 65536), byteOf (k.elapsed.toNat / 256),
          byteOf k.elapsed.toNat, byteOf k.choice]⟩))
      ∧ (args ≠ [] → exec (.ckrd p) s = .next ({ s with clock := took }.hold p ⟨.badArgument, []⟩)))
    ∧ (p = .A → ClockTurn s .A .ckse args rest →
      (∀ b, args = [b] → b.toNat ≤ 4 →
        exec .ckse s = .next ({ s with clock := { took with choice := b.toNat } }.hold .A ⟨.done, [b]⟩))
      ∧ ((∀ b, args = [b] → 4 < b.toNat) →
        exec .ckse s = .next ({ s with clock := took }.hold .A ⟨.badArgument, []⟩)))

/-- CKHD takes a RUNNING clock to HELD and CKRL a HELD one to RUNNING with the divider restarted; in another state they
change nothing, and both answer with the state (R76). -/
def Obligations.CkhdAndCkrlHoldAndRelease : Prop :=
  ∀ (args : List Byte) (rest : List Command) (s : State),
    let took := { s.clock with taking := s.clock.taking.set .A rest }
    let seen (i : Instr) (k : Clock) (r : Reply) := ∃ s', exec i s = .next s' ∧ Settles ((s.hold .A r).seen k) s'
    (ClockTurn s .A .ckhd args rest →
      (args ≠ [] → seen .ckhd took ⟨.badArgument, []⟩)
      ∧ (args = [] → s.clock.state = .running → seen .ckhd { took with state := .held } ⟨.done, [2]⟩)
      ∧ (args = [] → s.clock.state ≠ .running → seen .ckhd took ⟨.done, [s.clock.state.byte]⟩))
    ∧ (ClockTurn s .A .ckrl args rest →
      (args ≠ [] → seen .ckrl took ⟨.badArgument, []⟩)
      ∧ (args = [] → s.clock.state = .held →
        seen .ckrl { took with state := .running, divider := 0 } ⟨.done, [1]⟩)
      ∧ (args = [] → s.clock.state ≠ .held → seen .ckrl took ⟨.done, [s.clock.state.byte]⟩))

/-- CKST loads a real date and time with its weekday and makes the calendar VALID, the divider restarted when RUNNING;
it is refused in LOST and for a time that is not real (R66, R68, R75). -/
def Obligations.CkstLoadsTheCalendar : Prop :=
  ∀ (args : List Byte) (rest : List Command) (s : State), ClockTurn s .A .ckst args rest →
    let took := { s.clock with taking := s.clock.taking.set .A rest }
    let seen (k : Clock) (r : Reply) := ∃ s', exec .ckst s = .next s' ∧ Settles ((s.hold .A r).seen k) s'
    (args.length ≠ 6 → seen took ⟨.badArgument, []⟩)
    ∧ (args.length = 6 → s.clock.state = .lost → seen took ⟨.clockLost, []⟩)
    ∧ (args.length = 6 → s.clock.state ≠ .lost → timeOf args = none → seen took ⟨.badTime, []⟩)
    ∧ (∀ d : DateTime, d.real = true → args = requestTime d → s.clock.state ≠ .lost →
        seen { took with
            calendar := ⟨d, weekdayOf d⟩, valid := true
            divider := if s.clock.state = .running then 0 else s.clock.divider }
          ⟨.done, requestTime d ++ [byteOf (weekdayOf d)]⟩)

/-- CKAD adds its seconds to a VALID calendar and to the due of every WAITING or HELD order anchored ELAPSED, counting
those shifted and those carried beyond the range (R78, R79, R80; an adjustment of 0 counts, entry 13). -/
def Obligations.CkadShiftsTheCalendarAndTheDues : Prop :=
  ∀ (args : List Byte) (h : InHand) (s : State), Carries s .A .ckad args h →
    let refused c := Answers .ckad s .A ⟨c, []⟩ s.table
    (args.length ≠ 2 → refused .badArgument)
    ∧ ∀ hi lo, args = [hi, lo] →
      let n := (hi ++ lo : BitVec 16).toInt
      let sum := (secondNumber s.clock.calendar.now : Int) + n
      (n < -7200 ∨ 7200 < n → refused .badArgument)
      ∧ (-7200 ≤ n → n ≤ 7200 → s.clock.valid = false → refused .clockUnset)
      ∧ (-7200 ≤ n → n ≤ 7200 → s.clock.valid = true → sum < 0 ∨ 3155759999 < sum → refused .badArgument)
      ∧ (-7200 ≤ n → n ≤ 7200 → s.clock.valid = true → 0 ≤ sum → sum ≤ 3155759999 →
        let now := ofSecondNumber sum.toNat
        let k := { s.clock with calendar := ⟨now, weekdayOf now⟩ }
        let moved (o : Order) (f : Int → Prop) : Prop :=
          o.anchoring = .elapsed ∧ ∃ d, o.standing.due = some d ∧ f ((secondNumber d : Int) + n)
        ∃ s' t shifted spent, exec .ckad s = .next s'
          ∧ Replied (s.seen k) s' .A ⟨.done, requestTime now ++ [byteOf (weekdayOf now),
              byteOf (List.length shifted), byteOf (List.length spent)]⟩ t
          ∧ shifted.Nodup ∧ (∀ i, i ∈ shifted ↔ ∃ o, s.table.order i = some o ∧ moved o (· ≤ 3155759999))
          ∧ spent.Nodup ∧ (∀ i, i ∈ spent ↔ ∃ o, s.table.order i = some o ∧ moved o (3155759999 < ·))
          ∧ t.groups = s.table.groups ∧ t.contexts = s.table.contexts ∧ t.quotas = s.table.quotas
          ∧ t.inBackup = s.table.inBackup
          ∧ (∀ i, (t.slot i).generation = (s.table.slot i).generation)
          ∧ (∀ i, s.table.order i = none → t.order i = none)
          ∧ ∀ i o, s.table.order i = some o →
            (¬ moved o (fun _ => True) → t.order i = some o)
            ∧ (moved o (3155759999 < ·) → t.order i = some { o with standing := .spent })
            ∧ (moved o (· ≤ 3155759999) → ∃ d, o.standing.due = some d ∧
              let x := if (secondNumber d : Int) + n < 0 then rangeStart
                else ofSecondNumber ((secondNumber d : Int) + n).toNat
              t.order i = some { o with standing := match o.standing with
                | .waiting _ => .waiting x
                | .held _ => .held x
                | .spent => .spent }))

/-- A calendar step is one second, except the last second of the range, which has no next; and counting in second
numbers loses no date. The day number counts the days from 2000-01-01 by the month lengths of Table 5-1, and the weekday
and the second number are derived from it (R60, R61, R62, R64, R65). -/
def Obligations.CalendarCountsSeconds : Prop :=
  (∀ c : Calendar, c.lawful = true →
    (∀ c', c.next = some c' → c'.lawful = true ∧ secondNumber c'.now = secondNumber c.now + 1)
    ∧ (c.next = none ↔ c.now = ⟨2099, 12, 31, 23, 59, 59⟩))
  ∧ (∀ d : DateTime, d.real = true → secondNumber d ≤ 3155759999 ∧ ofSecondNumber (secondNumber d) = d)
  ∧ (∀ n : Nat, n ≤ 3155759999 → (ofSecondNumber n).real = true ∧ secondNumber (ofSecondNumber n) = n)
  ∧ weekdayOf ⟨2000, 1, 1, 0, 0, 0⟩ = 6 ∧ weekdayOf ⟨2099, 12, 31, 0, 0, 0⟩ = 4
  ∧ (∀ y m : Nat, monthLength y m = if m = 2 then (if y % 4 = 0 then 29 else 28)
      else if m ∈ [4, 6, 9, 11] then 30 else 31)
  ∧ ∀ d : DateTime, d.real = true →
    dayNumber d = 365 * (d.year - 2000) + ((List.range (d.year - 2000)).filter fun k => k % 4 = 0).length
        + ((List.range (d.month - 1)).map fun m => monthLength d.year (m + 1)).sum + (d.day - 1)
    ∧ weekdayOf d = (dayNumber d + 5) % 7 + 1
    ∧ secondNumber d = 86400 * dayNumber d + 3600 * d.hour + 60 * d.minute + d.second

/-- The clock's events: a second in RUNNING and HELD, with the wrap at the end of the range; the end of a settling;
oscillator loss and return; the first cycle seen (R65 to R72). That the first cycle seen and the return count as cycle
1, and that END_OF_SETTLING ends a settling whatever its count, are the model's reading of R70 and R71 (entry 20). -/
def Obligations.ClockEventsChangeTheClock : Prop :=
  ∀ s : State, s.reliable = true →
    let k := s.clock
    let seen (i : Instr) (s0 : State) (k' : Clock) := ∃ s', exec i s = .next s' ∧ Settles (s0.seen k') s'
    (k.state = .running → ∀ c, k.calendar.next = some c →
      seen .second s { k with elapsed := k.elapsed + 1, divider := 0, calendar := c })
    ∧ (k.state = .running → k.calendar.next = none →
      seen .second s { k with
        elapsed := k.elapsed + 1, divider := 0, calendar := ⟨⟨2000, 1, 1, 0, 0, 0⟩, 6⟩, valid := false })
    ∧ (k.state = .held → seen .second s { k with elapsed := k.elapsed + 1, divider := 0 })
    ∧ (k.state = .settling → k.armed = true →
      seen .endOfSettling s { k with state := .running, divider := 0, settleCount := 0, armed := false })
    ∧ (k.state = .running ∨ k.state = .held ∨ k.state = .settling ∧ k.armed = true →
      seen .oscillatorLoss
        { s with units := s.units.map fun _ u => { u with alert := u.alert ||| 1#4 } }
        { k with state := .lost, valid := false, divider := 0, settleCount := 0, armed := false })
    ∧ (k.state = .lost →
      seen .returnOfOscillation s { k with
        state := .settling, settleTarget := 8192 * 2 ^ k.choice, settleCount := 1, armed := true })
    ∧ (k.state = .settling → k.armed = false →
      exec .firstCycleSeen s = .next { s with clock := { k with armed := true, settleCount := 1 } })

/-! ### Falling due -/

/-- A firing counts the later occurrences at or before the calendar, and its next due is the first after it (R89 to
R92). -/
def Obligations.FiringCountsTheOccurrencesPassed : Prop :=
  ∀ (r : Rule) (due now : DateTime), r.lawful = true → due.real = true → now.real = true →
    secondNumber due ≤ secondNumber now →
    let f := passed r due now
    (∃ l : List DateTime, l.length = f.k ∧ l.Pairwise (fun x y => secondNumber x < secondNumber y)
      ∧ ∀ x, x ∈ l ↔ r.Later due x ∧ secondNumber x ≤ secondNumber now)
    ∧ (∀ x, f.next = some x ↔ r.Later due x ∧ secondNumber now < secondNumber x
        ∧ ∀ y, r.Later due y → secondNumber now < secondNumber y → secondNumber x ≤ secondNumber y)
    ∧ (f.next = none ↔ ∀ y, r.Later due y → secondNumber y ≤ secondNumber now)

/-- FIRE fires the head of the due list when the calendar read at its grant is VALID and has reached its due, and else
does nothing. A late firing under DROP only sets skipped; another counts in tally and reaches the order's call, or the
factor bit and call of its group; each charges remaining and places the order (R87, R88, R93 to R97, R102). -/
def Obligations.FireFiresTheHead : Prop :=
  ∀ (h : InHand) (s : State), CarriesSched s .fire h →
    let t := s.table
    (h.valid = false ∨ t.head = none ∨ (∃ x, t.head = some x ∧ secondNumber h.now < secondNumber x.due) →
      Serves .fire s t s.alerts)
    ∧ ∀ x o, h.valid = true → t.head = some x → secondNumber x.due ≤ secondNumber h.now → t.order x.slot = some o →
      let f := passed o.rule x.due h.now
      let remaining := o.remaining.map fun n => n - (1 + f.k)
      let standing : Standing := if remaining = some 0 then .spent else match f.next with
        | some d => .waiting d
        | none => .spent
      let placed := { o with remaining := remaining, standing := standing }
      let counted := { placed with skipped := false, tally := min 65535 (o.tally + 1) }
      let late := secondNumber x.due < secondNumber h.now
      (late → o.policy = .drop → Serves .fire s (t.setOrder x.slot { placed with skipped := true }) s.alerts)
      ∧ (¬ (late ∧ o.policy = .drop) →
        (∀ m, o.member = some m →
          let g := t.group m.group
          let factor := g.factor ||| (1#8 <<< m.position.val)
          Serves .fire s ((t.setOrder x.slot counted).setGroup m.group { g with
            factor := factor
            call := if g.call = none ∧ factor &&& g.enable ≠ 0 then some .raised else g.call }) s.alerts)
        ∧ (o.member = none → o.level = 7 → Serves .fire s (t.setOrder x.slot counted) s.alerts)
        ∧ (o.member = none → o.level ≠ 7 → o.call = none →
          Serves .fire s (t.setOrder x.slot { counted with
            call := some ⟨.raised, o.level, if t.inBackup then none else deadlineAfter h.elapsed o.window⟩
            missed := min 15 (o.missed + f.k) }) s.alerts)
        ∧ (o.member = none → o.level ≠ 7 → o.call ≠ none →
          Serves .fire s (t.setOrder x.slot { counted with missed := min 15 (o.missed + (1 + f.k)) }) s.alerts))

/-! ### Answer windows -/

/-- The deadlines held are those of raised order calls and of stack entries, in the order of R130, items 2 to 4. The
earliest lapsed deadline is the first of greatest lapse amount among those that have lapsed; the deadline presented
has the fewest seconds remaining (R83, R128, R130). -/
def Obligations.EarliestLapsedDeadlineIsChosen : Prop :=
  ∀ (t : Table) (e : Elapsed),
    let reached (d : Elapsed) := (d - e).toNat = 0 ∨ 255 < (d - e).toNat
    let remaining (d : Elapsed) := if (d - e).toNat ≤ 255 then (d - e).toNat else 0
    t.deadlines.Pairwise (fun x y => x.1.preferred y.1)
    ∧ (∀ x, earliestLapsed e t.deadlines = some x ↔ ∃ pre post, t.deadlines = pre ++ x :: post ∧ reached x.2
      ∧ (∀ y ∈ pre, reached y.2 → (e - y.2).toNat < (e - x.2).toNat)
      ∧ (∀ y ∈ post, reached y.2 → (e - y.2).toNat ≤ (e - x.2).toNat))
    ∧ (earliestLapsed e t.deadlines = none ↔ ∀ y ∈ t.deadlines, ¬ reached y.2)
    ∧ (t.deadlineView e = none ↔ t.deadlines = [])
    ∧ (∀ d, t.deadlineView e = some d → (∃ x, (x, d) ∈ t.deadlines) ∧ ∀ y ∈ t.deadlines, remaining d ≤ remaining y.2)
    ∧ (∀ i d, (DeadlineHolder.call i, d) ∈ t.deadlines ↔ ∃ o c, t.order i = some o ∧ o.call = some c ∧ c.state = .raised
        ∧ c.deadline = some d)
    ∧ (∀ p n d, (.entry p n, d) ∈ t.deadlines ↔ ∃ x : Entry, (t.contexts.get p).stack[n]? = some x
        ∧ x.deadline = some d)

/-- EXPIRE deals with the earliest lapsed deadline: it escalates a raised call above its floor, sends UNANSWERED for one
at its floor, marks an entry overdue and sends OVERDUE, and does nothing where none has lapsed (R131 to R134). -/
def Obligations.ExpireDealsWithTheEarliestLapse : Prop :=
  ∀ (h : InHand) (s : State), CarriesSched s .expire h →
    let t := s.table
    (earliestLapsed h.elapsed t.deadlines = none → Serves .expire s t s.alerts)
    ∧ (∀ i d o c, earliestLapsed h.elapsed t.deadlines = some (.call i, d) → t.order i = some o → o.call = some c →
      (o.floor < c.level → Serves .expire s (t.setOrder i { o with
        call := some ⟨c.state, c.level - 1, deadlineAfter h.elapsed o.window⟩ }) s.alerts)
      ∧ (c.level ≤ o.floor → Serves .expire s (t.setOrder i { o with call := some ⟨c.state, c.level, none⟩ })
        (fun q => if q = o.answering then s.alerts q ||| 4#4 else s.alerts q)))
    ∧ (∀ p n d, earliestLapsed h.elapsed t.deadlines = some (.entry p n, d) →
      Serves .expire s (t.setContext p { t.contexts.get p with
          stack := (t.contexts.get p).stack.modify n fun e => { e with overdue := true, deadline := none } })
        (fun q => if q = p then s.alerts q ||| 8#4 else s.alerts q))

/-! ### The scheduler and the arbiter -/

/-- The scheduler puts one request when it has none outstanding, a FIRE before an EXPIRE; the free table grants the
first waiting requester of the cycle A, B, scheduler, counting from the one served last, and a grant leaves the clock,
the scheduler with its request outstanding, the supply, the links and the queue as they were (R29, R84 to R86). No EXPIRE
is put while the scheduler is barred, from a backup entry to the return work: R155 and R158 as entry 8 reads them. In
the other statements one step judges first and then makes the next grant, which is the model's reading (entries 2, 7). -/
def Obligations.JudgementAndGrantFollowTheirRules : Prop :=
  (∀ s : State,
    let v := s.sched.view
    let firing := v.valid = true ∧ (v.state = .running ∨ v.state = .held)
      ∧ ∃ d, s.sched.head = some d ∧ secondNumber d ≤ secondNumber v.now
    let expiring := ∃ d, s.sched.deadline = some d ∧ ((d - v.elapsed).toNat = 0 ∨ 255 < (d - v.elapsed).toNat)
    let put r : State := { s with
      sched := { s.sched with request := some r }, table := { s.table with schedWaiting := some r } }
    (s.sched.request ≠ none → s.judge = s)
    ∧ (s.sched.request = none → firing → s.judge = put .fire)
    ∧ (s.sched.request = none → ¬ firing → expiring → s.sched.barred = false → s.judge = put .expire)
    ∧ (s.sched.request = none → ¬ firing → ¬ expiring ∨ s.sched.barred = true → s.judge = s))
  ∧ (∀ s : State,
    let t := s.table
    let a := (t.waiting.get .A).map fun c => (Requester.unit .A, Request.command .A c)
    let b := (t.waiting.get .B).map fun c => (Requester.unit .B, Request.command .B c)
    let c := t.schedWaiting.map fun r => (Requester.scheduler, match r with
      | .fire => Request.fire
      | .expire => Request.expire)
    let first := match t.lastServed with
      | .scheduler => a <|> b <|> c
      | .unit .A => b <|> c <|> a
      | .unit .B => c <|> a <|> b
    (t.inHand ≠ none ∨ t.work ≠ [] ∨ first = none → s.arbitrate = s)
    ∧ (t.inHand = none → t.work = [] → ∀ r q, first = some (r, q) →
      s.arbitrate.table = { t with
        inHand := some ⟨q, s.clock.calendar.now, s.clock.valid, s.clock.elapsed⟩, lastServed := r
        waiting := match r with
          | .unit p => t.waiting.set p none
          | .scheduler => t.waiting
        schedWaiting := match r with
          | .unit _ => t.schedWaiting
          | .scheduler => none }
      ∧ (∀ p, s.arbitrate.units.get p = if r = .unit p then (s.units.get p).granted else s.units.get p)
      ∧ s.arbitrate.clock = s.clock ∧ s.arbitrate.sched = s.sched ∧ Outside s s.arbitrate))

/-! ### Supply and RESET -/

/-- Power-on, and a return with retention lost, give every block its power-on values; RETENTION-LOST alone stands in both
alert words after the return (R159 against the last words of R138, entry 22), and port B samples ADDR (R154, R159,
R168, R182). -/
def Obligations.PowerOnValuesAreTaken : Prop :=
  ∀ (high : Bool) (s : State),
    let fresh (alert : BitVec 4) : State := { s with
      power := .main, retention := .held
      clock := State.reset.clock, sched := State.reset.sched, table := State.reset.table
      units := State.reset.units.map fun _ u => { u with alert := alert }
      linkB := { s.linkB with addrHigh := high } }
    (s.power = .withoutSupply → exec (.powerOn high) s = .next (fresh 0#4))
    ∧ (s.power = .backup → s.retention = .lost → exec (.returnRetentionLost high) s = .next (fresh 2#4))

/-- RESET and backup entry with retention held reset both units, withdraw their waiting requests, abandon the transfers
in progress and bring the table an indication; backup entry also bars EXPIRE. A RESET released samples ADDR. A command
caught in WORKING is carried out as if its unit waited, but its reply is thrown away and its block leaves the discard
marker, the unit's phase standing (R30, R32, R58, R155, R167, R168, R174, R180, R181). -/
def Obligations.ResetAndBackupEntryResetTheUnits : Prop :=
  (∀ s : State,
    let table (i : Indication) : Table := { s.table with waiting := ⟨none, none⟩, work := s.table.work ++ [i] }
    (s.resetAsserted = false → s.reliable = true →
      ∃ s', exec .resetAssertion s = .next s' ∧ s'.resetAsserted = true ∧ s'.power = s.power
        ∧ s'.retention = s.retention ∧ s'.clock = s.clock ∧ s'.sched = s.sched ∧ s'.table = table .reset
        ∧ (∀ p, UnitReset (s.units.get p) (s'.units.get p)) ∧ LinksAbandoned s s'
        ∧ s'.freeCount = s.freeCount ∧ s'.pending = s.pending)
    ∧ (s.power = .main → ∀ vbat, 1800 ≤ vbat →
      ∃ s', exec (.backupEntry vbat) s = .next s' ∧ s'.resetAsserted = s.resetAsserted ∧ s'.power = .backup
        ∧ s'.retention = s.retention ∧ s'.clock = s.clock ∧ s'.sched = { s.sched with barred := true }
        ∧ s'.table = table .backupEntry
        ∧ (∀ p, UnitReset (s.units.get p) (s'.units.get p)) ∧ LinksAbandoned s s'
        ∧ s'.freeCount = s.freeCount ∧ s'.pending = s.pending)
    ∧ (s.resetAsserted = true → ∀ high, exec (.resetRelease high) s =
        .next { s with resetAsserted := false, linkB := { s.linkB with addrHigh := high } }))
  ∧ (∀ (i : Instr) (p : Port) (c : Command) (h : InHand) (s : State),
    s.reliable = true → s.table.inHand = some h → h.request = .command p c → carriesOut i p c →
    (s.units.get p).discardTable = true →
    ∃ (m : State) (r : Reply), exec i (s.awaiting p c .table) = .next (m.hold p r).judge.arbitrate ∧ exec i s = .next m.judge.arbitrate
      ∧ (m.units.get p).phase = (s.units.get p).phase ∧ (m.units.get p).discardTable = false
      ∧ m.table.inHand = none)
  ∧ ∀ (i : Instr) (p : Port) (c : Command) (rest : List Command) (s : State),
    s.reliable = true → s.clock.taking.get p = c :: rest → takesOut i p c → (s.units.get p).discardClock = true →
    ∃ (m : State) (r : Reply), (m.units.get p).phase = (s.units.get p).phase ∧ (m.units.get p).discardClock = false
      ∧ m.clock.taking.get p = rest
      ∧ (c.code = .ckrd ∨ c.code = .ckse →
        exec i (s.awaiting p c .clock) = .next (m.hold p r) ∧ exec i s = .next m)
      ∧ (c.code ≠ .ckrd → c.code ≠ .ckse →
        exec i (s.awaiting p c .clock) = .next (m.hold p r).judge.arbitrate ∧ exec i s = .next m.judge.arbitrate)

/-- Retention is lost at an entry with VBAT below the hold level or when VBAT falls so low in backup, and the part is
without supply when it falls further, be the retention flag LOST or HELD (the latter the model's reading, entry 19).
No command of the table, the clock or the scheduler then changes anything until the return (R155 to R157). While the
links do not serve (RESET asserted, BACKUP, or without supply) a transfer reaches the links alone: SDO stays at high
impedance and port B acknowledges no address (R167, R168). That no transfer is then in progress is kept by every step. -/
def Obligations.LostBlocksDoNotAct : Prop :=
  (∀ s : State,
    (s.power = .main → ∀ vbat, vbat < 1800 →
      ∃ s', exec (.backupEntry vbat) s = .next s' ∧ s'.power = .backup ∧ s'.retention = .lost
        ∧ s'.resetAsserted = s.resetAsserted ∧ s'.pending = s.pending ∧ LinksAbandoned s s')
    ∧ (s.power = .backup → s.retention = .held →
      ∃ s', exec .retentionLost s = .next s' ∧ s'.power = .backup ∧ s'.retention = .lost
        ∧ s'.resetAsserted = s.resetAsserted ∧ s'.pending = s.pending ∧ s'.linkA = s.linkA ∧ s'.linkB = s.linkB)
    ∧ (s.power = .backup →
      ∃ s', exec .withoutSupply s = .next s' ∧ s'.power = .withoutSupply
        ∧ s'.resetAsserted = s.resetAsserted ∧ s'.pending = s.pending ∧ s'.linkA = s.linkA ∧ s'.linkB = s.linkB)
    ∧ (s.power = .backup ∧ s.retention = .lost ∨ s.power = .withoutSupply →
      s.serving = false ∧ ∀ i : Instr, actsAtBlocks i = true → exec i s = .next s))
  ∧ (∀ (s : State), s.serving = false → s.DeafLaw →
    (∀ i, isTransfer i = true → ∃ s', exec i s = .next s' ∧ LinksOnly s s' ∧ s'.linkA.sdoBit = none ∧ s'.DeafLaw)
    ∧ ∀ address bytes count, ∀ i ∈ [Instr.requestFrame .B (.opens address), .requestFrame .B (.whole bytes),
        .readTransaction (.opens address), .readTransaction (.whole count)],
      ∃ s', exec i s = .next s' ∧ s'.linkB.acks = [false])
  ∧ StepKeeps State.DeafLaw

/-- A return with retention held brings the units up idle with their alert words, indications and markers kept, and its
work gives every raised order call with a window a fresh deadline and lets EXPIRE be put again (R34, R138, R158, R181;
the bar on EXPIRE stays where backup was entered anew, entry 8). -/
def Obligations.ReturnWithRetentionHeldRestartsDeadlines : Prop :=
  (∀ (high : Bool) (s : State), s.power = .backup → s.retention = .held →
    exec (.returnRetentionHeld high) s = .next { s with
      power := .main
      units := s.units.map fun _ u =>
        { u with phase := .idle, refused := false, frameFault := false, restarted := true }
      table := { s.table with work := s.table.work ++ [.returnHeld] }
      linkB := { s.linkB with addrHigh := high } })
  ∧ (∀ (rest : List Indication) (s : State), WorkDue s .returnHeld rest →
    let s0 : State := { s with
      sched := { s.sched with barred := decide (s.power = .backup) }, table := { s.table with work := rest } }
    ∃ s' t, exec .returnWork s = .next s' ∧ Completion s0 s' t s.alerts s.sched.request s.phases
      ∧ t.groups = s.table.groups ∧ t.contexts = s.table.contexts ∧ t.quotas = s.table.quotas ∧ t.inBackup = false
      ∧ (∀ i, (t.slot i).generation = (s.table.slot i).generation)
      ∧ (∀ i, s.table.order i = none → t.order i = none)
      ∧ ∀ i o, s.table.order i = some o →
        (∀ c, o.call = some c → c.state = .raised → o.window ≠ 0 →
          t.order i = some { o with call := some { c with deadline := deadlineAfter s.clock.elapsed o.window } })
        ∧ ((∀ c, o.call = some c → c.state = .taken) ∨ o.window = 0 → t.order i = some o))

/-- The RESET work and the backup-entry work empty both stacks and set both contexts back: a taken order call is raised
again within its floor and level, a taken group call by its sets; after the RESET work with a fresh deadline, after
the backup-entry work with none for any raised order call (R33, R34, R124 to R126). Read where the law of the taken
calls holds. -/
def Obligations.ResetAndBackupWorkEmptyTheStacks : Prop :=
  ∀ (rest : List Indication) (s : State), s.table.TakenLaw →
    let emptied (t : Table) (start : Byte → Option Elapsed) (kept : Call → Call) : Prop :=
      t.quotas = s.table.quotas
      ∧ (∀ p, t.contexts.get p = ⟨7, false, []⟩)
      ∧ (∀ i, (t.slot i).generation = (s.table.slot i).generation)
      ∧ (∀ i, s.table.order i = none → t.order i = none)
      ∧ (∀ i o, s.table.order i = some o →
        (o.call = none → t.order i = some o)
        ∧ (∀ c, o.call = some c → c.state = .raised → t.order i = some { o with call := some (kept c) })
        ∧ (∀ c, o.call = some c → c.state = .taken → t.order i = some { o with
            call := if o.level = 7 then none
              else some ⟨.raised, max o.floor (min c.level o.level), start o.window⟩ }))
      ∧ ∀ g, t.group g = { s.table.group g with
          call := if (s.table.group g).call = some .taken then
              (if (s.table.group g).factor &&& (s.table.group g).enable ≠ 0 then some .raised else none)
            else (s.table.group g).call }
    (WorkDue s .reset rest →
      ∃ s' t, exec .resetWork s = .next s'
        ∧ Completion { s with table := { s.table with work := rest } } s' t s.alerts s.sched.request s.phases
        ∧ t.inBackup = s.table.inBackup ∧ emptied t (deadlineAfter s.clock.elapsed) id)
    ∧ (WorkDue s .backupEntry rest →
      ∃ s' t, exec .backupEntryWork s = .next s'
        ∧ Completion { s with table := { s.table with work := rest } } s' t s.alerts s.sched.request s.phases
        ∧ t.inBackup = true ∧ emptied t (fun _ => none) fun c => { c with deadline := none })

/-! ### The laws of the part -/

/-- Every step keeps a real date and time with its own weekday in the calendar (R59), and keeps each order's due real
and its rule's parameters in their ranges, its counts and label within their bounds, no count of 0 while WAITING or
HELD, its floor at or below its level, and its call within them (R5 to R13, R16). -/
def Obligations.EveryStepKeepsTheCalendarAndOrderLaws : Prop :=
  StepKeeps (WhileReliable CalendarLaw)
  ∧ StepKeeps (WhileReliable fun s => s.table.EveryOrder fun o => o.DueLaw ∧ o.CountLaw ∧ o.LevelLaw)

/-- Every step keeps each port's owned count within its quota (R23), and each acceptance stack within its depth with
the taken levels strictly decreasing from bottom to top, below the base ceiling (R108). -/
def Obligations.EveryStepKeepsTheQuotaAndStackLaws : Prop :=
  StepKeeps (WhileReliable fun s => s.table.QuotaLaw) ∧ StepKeeps (WhileReliable fun s => s.table.StackLaw)

/-- Every step keeps positions and memberships naming each other, unconfigured groups empty, factor bits on members
alone, and a group call RAISED only while the sets meet (R139 to R142). -/
def Obligations.EveryStepKeepsTheGroupLaw : Prop := StepKeeps (WhileReliable fun s => s.table.GroupLaw)

/-- Every step keeps each TAKEN call named by exactly one entry of its answering port's stack, and each entry not marked
retired naming a TAKEN call (R107). -/
def Obligations.EveryStepKeepsTheTakenLaw : Prop := StepKeeps (WhileReliable fun s => s.table.TakenLaw)

/-- The laws hold after reset. -/
def Obligations.TheLawsHoldAfterReset : Prop :=
  let t := State.reset.table
  CalendarLaw State.reset ∧ (t.EveryOrder fun o => o.DueLaw ∧ o.CountLaw ∧ o.LevelLaw) ∧ t.QuotaLaw ∧ t.StackLaw
    ∧ t.GroupLaw ∧ t.TakenLaw ∧ State.reset.DeafLaw
end

