-- ==== Sys2Proof/Laws/State.lean ====
section
/-! SUPPORT. One lemma for each field of each update of State, and the laws of PerPort. -/

namespace Sys2Proof.Machine

/-! ### PerPort -/

@[simp] theorem PerPort.get_A {α : Type} (x : PerPort α) : x.get .A = x.a := rfl

@[simp] theorem PerPort.get_B {α : Type} (x : PerPort α) : x.get .B = x.b := rfl

@[simp] theorem PerPort.get_set_same {α : Type} (x : PerPort α) (p : Port) (v : α) : (x.set p v).get p = v := by
  cases p <;> rfl

theorem PerPort.get_set_other {α : Type} (x : PerPort α) {p q : Port} (v : α) (h : q ≠ p) :
    (x.set p v).get q = x.get q := by
  cases p <;> cases q <;> first | rfl | exact absurd rfl h

theorem PerPort.get_set {α : Type} (x : PerPort α) (p q : Port) (v : α) :
    (x.set p v).get q = if q = p then v else x.get q := by
  cases p <;> cases q <;> rfl

@[simp] theorem PerPort.get_map {α β : Type} (x : PerPort α) (f : Port → α → β) (q : Port) :
    (x.map f).get q = f q (x.get q) := by
  cases q <;> rfl

@[simp] theorem PerPort.set_get {α : Type} (x : PerPort α) (p : Port) : x.set p (x.get p) = x := by
  cases p <;> rfl

@[simp] theorem PerPort.set_set {α : Type} (x : PerPort α) (p : Port) (v w : α) : (x.set p v).set p w = x.set p w := by
  cases p <;> rfl

theorem PerPort.ext_get {α : Type} {x y : PerPort α} (h : ∀ p, x.get p = y.get p) : x = y := by
  cases x; cases y; simpa using And.intro (h .A) (h .B)

/-! ### modUnit -/

@[simp] theorem State.modUnit_power (s : State) (p : Port) (f : CmdUnit → CmdUnit) :
    (s.modUnit p f).power = s.power := rfl

@[simp] theorem State.modUnit_retention (s : State) (p : Port) (f : CmdUnit → CmdUnit) :
    (s.modUnit p f).retention = s.retention := rfl

@[simp] theorem State.modUnit_clock (s : State) (p : Port) (f : CmdUnit → CmdUnit) :
    (s.modUnit p f).clock = s.clock := rfl

@[simp] theorem State.modUnit_sched (s : State) (p : Port) (f : CmdUnit → CmdUnit) :
    (s.modUnit p f).sched = s.sched := rfl

@[simp] theorem State.modUnit_table (s : State) (p : Port) (f : CmdUnit → CmdUnit) :
    (s.modUnit p f).table = s.table := rfl

@[simp] theorem State.modUnit_units (s : State) (p : Port) (f : CmdUnit → CmdUnit) :
    (s.modUnit p f).units = s.units.set p (f (s.units.get p)) := rfl

@[simp] theorem State.modUnit_linkA (s : State) (p : Port) (f : CmdUnit → CmdUnit) :
    (s.modUnit p f).linkA = s.linkA := rfl

@[simp] theorem State.modUnit_linkB (s : State) (p : Port) (f : CmdUnit → CmdUnit) :
    (s.modUnit p f).linkB = s.linkB := rfl

@[simp] theorem State.modUnit_resetAsserted (s : State) (p : Port) (f : CmdUnit → CmdUnit) :
    (s.modUnit p f).resetAsserted = s.resetAsserted := rfl

@[simp] theorem State.modUnit_freeCount (s : State) (p : Port) (f : CmdUnit → CmdUnit) :
    (s.modUnit p f).freeCount = s.freeCount := rfl

@[simp] theorem State.modUnit_pending (s : State) (p : Port) (f : CmdUnit → CmdUnit) :
    (s.modUnit p f).pending = s.pending := rfl

/-! ### setTable -/

@[simp] theorem State.setTable_power (s : State) (t : Table) : (s.setTable t).power = s.power := rfl

@[simp] theorem State.setTable_retention (s : State) (t : Table) : (s.setTable t).retention = s.retention := rfl

@[simp] theorem State.setTable_clock (s : State) (t : Table) : (s.setTable t).clock = s.clock := rfl

@[simp] theorem State.setTable_sched (s : State) (t : Table) : (s.setTable t).sched = s.sched := rfl

@[simp] theorem State.setTable_table (s : State) (t : Table) : (s.setTable t).table = t := rfl

@[simp] theorem State.setTable_units (s : State) (t : Table) : (s.setTable t).units = s.units := rfl

@[simp] theorem State.setTable_linkA (s : State) (t : Table) : (s.setTable t).linkA = s.linkA := rfl

@[simp] theorem State.setTable_linkB (s : State) (t : Table) : (s.setTable t).linkB = s.linkB := rfl

@[simp] theorem State.setTable_resetAsserted (s : State) (t : Table) :
    (s.setTable t).resetAsserted = s.resetAsserted := rfl

@[simp] theorem State.setTable_freeCount (s : State) (t : Table) : (s.setTable t).freeCount = s.freeCount := rfl

@[simp] theorem State.setTable_pending (s : State) (t : Table) : (s.setTable t).pending = s.pending := rfl

/-! ### setClock -/

@[simp] theorem State.setClock_power (s : State) (k : Clock) : (s.setClock k).power = s.power := rfl

@[simp] theorem State.setClock_retention (s : State) (k : Clock) : (s.setClock k).retention = s.retention := rfl

@[simp] theorem State.setClock_clock (s : State) (k : Clock) : (s.setClock k).clock = k := rfl

@[simp] theorem State.setClock_sched (s : State) (k : Clock) : (s.setClock k).sched = s.sched := rfl

@[simp] theorem State.setClock_table (s : State) (k : Clock) : (s.setClock k).table = s.table := rfl

@[simp] theorem State.setClock_units (s : State) (k : Clock) : (s.setClock k).units = s.units := rfl

@[simp] theorem State.setClock_linkA (s : State) (k : Clock) : (s.setClock k).linkA = s.linkA := rfl

@[simp] theorem State.setClock_linkB (s : State) (k : Clock) : (s.setClock k).linkB = s.linkB := rfl

@[simp] theorem State.setClock_resetAsserted (s : State) (k : Clock) :
    (s.setClock k).resetAsserted = s.resetAsserted := rfl

@[simp] theorem State.setClock_freeCount (s : State) (k : Clock) : (s.setClock k).freeCount = s.freeCount := rfl

@[simp] theorem State.setClock_pending (s : State) (k : Clock) : (s.setClock k).pending = s.pending := rfl

/-! ### setSched -/

@[simp] theorem State.setSched_power (s : State) (c : Scheduler) : (s.setSched c).power = s.power := rfl

@[simp] theorem State.setSched_retention (s : State) (c : Scheduler) : (s.setSched c).retention = s.retention := rfl

@[simp] theorem State.setSched_clock (s : State) (c : Scheduler) : (s.setSched c).clock = s.clock := rfl

@[simp] theorem State.setSched_sched (s : State) (c : Scheduler) : (s.setSched c).sched = c := rfl

@[simp] theorem State.setSched_table (s : State) (c : Scheduler) : (s.setSched c).table = s.table := rfl

@[simp] theorem State.setSched_units (s : State) (c : Scheduler) : (s.setSched c).units = s.units := rfl

@[simp] theorem State.setSched_linkA (s : State) (c : Scheduler) : (s.setSched c).linkA = s.linkA := rfl

@[simp] theorem State.setSched_linkB (s : State) (c : Scheduler) : (s.setSched c).linkB = s.linkB := rfl

@[simp] theorem State.setSched_resetAsserted (s : State) (c : Scheduler) :
    (s.setSched c).resetAsserted = s.resetAsserted := rfl

@[simp] theorem State.setSched_freeCount (s : State) (c : Scheduler) : (s.setSched c).freeCount = s.freeCount := rfl

@[simp] theorem State.setSched_pending (s : State) (c : Scheduler) : (s.setSched c).pending = s.pending := rfl

/-! ### setLineA -/

@[simp] theorem State.setLineA_power (s : State) (l : SelectLine) : (s.setLineA l).power = s.power := rfl

@[simp] theorem State.setLineA_retention (s : State) (l : SelectLine) : (s.setLineA l).retention = s.retention := rfl

@[simp] theorem State.setLineA_clock (s : State) (l : SelectLine) : (s.setLineA l).clock = s.clock := rfl

@[simp] theorem State.setLineA_sched (s : State) (l : SelectLine) : (s.setLineA l).sched = s.sched := rfl

@[simp] theorem State.setLineA_table (s : State) (l : SelectLine) : (s.setLineA l).table = s.table := rfl

@[simp] theorem State.setLineA_units (s : State) (l : SelectLine) : (s.setLineA l).units = s.units := rfl

@[simp] theorem State.setLineA_linkA (s : State) (l : SelectLine) :
    (s.setLineA l).linkA = { s.linkA with line := l } := rfl

@[simp] theorem State.setLineA_linkB (s : State) (l : SelectLine) : (s.setLineA l).linkB = s.linkB := rfl

@[simp] theorem State.setLineA_resetAsserted (s : State) (l : SelectLine) :
    (s.setLineA l).resetAsserted = s.resetAsserted := rfl

@[simp] theorem State.setLineA_freeCount (s : State) (l : SelectLine) : (s.setLineA l).freeCount = s.freeCount := rfl

@[simp] theorem State.setLineA_pending (s : State) (l : SelectLine) : (s.setLineA l).pending = s.pending := rfl

/-! ### setLineB -/

@[simp] theorem State.setLineB_power (s : State) (l : Transfer) : (s.setLineB l).power = s.power := rfl

@[simp] theorem State.setLineB_retention (s : State) (l : Transfer) : (s.setLineB l).retention = s.retention := rfl

@[simp] theorem State.setLineB_clock (s : State) (l : Transfer) : (s.setLineB l).clock = s.clock := rfl

@[simp] theorem State.setLineB_sched (s : State) (l : Transfer) : (s.setLineB l).sched = s.sched := rfl

@[simp] theorem State.setLineB_table (s : State) (l : Transfer) : (s.setLineB l).table = s.table := rfl

@[simp] theorem State.setLineB_units (s : State) (l : Transfer) : (s.setLineB l).units = s.units := rfl

@[simp] theorem State.setLineB_linkA (s : State) (l : Transfer) : (s.setLineB l).linkA = s.linkA := rfl

@[simp] theorem State.setLineB_linkB (s : State) (l : Transfer) :
    (s.setLineB l).linkB = { s.linkB with line := l } := rfl

@[simp] theorem State.setLineB_resetAsserted (s : State) (l : Transfer) :
    (s.setLineB l).resetAsserted = s.resetAsserted := rfl

@[simp] theorem State.setLineB_freeCount (s : State) (l : Transfer) : (s.setLineB l).freeCount = s.freeCount := rfl

@[simp] theorem State.setLineB_pending (s : State) (l : Transfer) : (s.setLineB l).pending = s.pending := rfl

/-! ### takeByteB -/

@[simp] theorem State.takeByteB_power (s : State) (bytes : List Byte) :
    (s.takeByteB bytes).power = s.power := rfl

@[simp] theorem State.takeByteB_retention (s : State) (bytes : List Byte) :
    (s.takeByteB bytes).retention = s.retention := rfl

@[simp] theorem State.takeByteB_clock (s : State) (bytes : List Byte) :
    (s.takeByteB bytes).clock = s.clock := rfl

@[simp] theorem State.takeByteB_sched (s : State) (bytes : List Byte) :
    (s.takeByteB bytes).sched = s.sched := rfl

@[simp] theorem State.takeByteB_table (s : State) (bytes : List Byte) :
    (s.takeByteB bytes).table = s.table := rfl

@[simp] theorem State.takeByteB_units (s : State) (bytes : List Byte) :
    (s.takeByteB bytes).units = s.units := rfl

@[simp] theorem State.takeByteB_linkA (s : State) (bytes : List Byte) :
    (s.takeByteB bytes).linkA = s.linkA := rfl

@[simp] theorem State.takeByteB_linkB (s : State) (bytes : List Byte) :
    (s.takeByteB bytes).linkB = { s.linkB with line := .write bytes [], acks := s.linkB.acks ++ [true] } := rfl

@[simp] theorem State.takeByteB_resetAsserted (s : State) (bytes : List Byte) :
    (s.takeByteB bytes).resetAsserted = s.resetAsserted := rfl

@[simp] theorem State.takeByteB_freeCount (s : State) (bytes : List Byte) :
    (s.takeByteB bytes).freeCount = s.freeCount := rfl

@[simp] theorem State.takeByteB_pending (s : State) (bytes : List Byte) :
    (s.takeByteB bytes).pending = s.pending := rfl

/-! ### sampleAddr -/

@[simp] theorem State.sampleAddr_power (s : State) (high : Bool) : (s.sampleAddr high).power = s.power := rfl

@[simp] theorem State.sampleAddr_retention (s : State) (high : Bool) :
    (s.sampleAddr high).retention = s.retention := rfl

@[simp] theorem State.sampleAddr_clock (s : State) (high : Bool) : (s.sampleAddr high).clock = s.clock := rfl

@[simp] theorem State.sampleAddr_sched (s : State) (high : Bool) : (s.sampleAddr high).sched = s.sched := rfl

@[simp] theorem State.sampleAddr_table (s : State) (high : Bool) : (s.sampleAddr high).table = s.table := rfl

@[simp] theorem State.sampleAddr_units (s : State) (high : Bool) : (s.sampleAddr high).units = s.units := rfl

@[simp] theorem State.sampleAddr_linkA (s : State) (high : Bool) : (s.sampleAddr high).linkA = s.linkA := rfl

@[simp] theorem State.sampleAddr_linkB (s : State) (high : Bool) :
    (s.sampleAddr high).linkB = { s.linkB with addrHigh := high } := rfl

@[simp] theorem State.sampleAddr_resetAsserted (s : State) (high : Bool) :
    (s.sampleAddr high).resetAsserted = s.resetAsserted := rfl

@[simp] theorem State.sampleAddr_freeCount (s : State) (high : Bool) :
    (s.sampleAddr high).freeCount = s.freeCount := rfl

@[simp] theorem State.sampleAddr_pending (s : State) (high : Bool) : (s.sampleAddr high).pending = s.pending := rfl

/-! ### setBlocks -/

@[simp] theorem State.setBlocks_power (s : State) (b : Blocks) : (s.setBlocks b).power = s.power := rfl

@[simp] theorem State.setBlocks_retention (s : State) (b : Blocks) : (s.setBlocks b).retention = s.retention := rfl

@[simp] theorem State.setBlocks_clock (s : State) (b : Blocks) : (s.setBlocks b).clock = b.clock := rfl

@[simp] theorem State.setBlocks_sched (s : State) (b : Blocks) : (s.setBlocks b).sched = b.sched := rfl

@[simp] theorem State.setBlocks_table (s : State) (b : Blocks) : (s.setBlocks b).table = b.table := rfl

@[simp] theorem State.setBlocks_units (s : State) (b : Blocks) : (s.setBlocks b).units = b.units := rfl

@[simp] theorem State.setBlocks_linkA (s : State) (b : Blocks) : (s.setBlocks b).linkA = s.linkA := rfl

@[simp] theorem State.setBlocks_linkB (s : State) (b : Blocks) : (s.setBlocks b).linkB = s.linkB := rfl

@[simp] theorem State.setBlocks_resetAsserted (s : State) (b : Blocks) :
    (s.setBlocks b).resetAsserted = s.resetAsserted := rfl

@[simp] theorem State.setBlocks_freeCount (s : State) (b : Blocks) : (s.setBlocks b).freeCount = s.freeCount := rfl

@[simp] theorem State.setBlocks_pending (s : State) (b : Blocks) : (s.setBlocks b).pending = s.pending := rfl

/-! ### presentTable -/

@[simp] theorem State.presentTable_power (s : State) : (s.presentTable).power = s.power := rfl

@[simp] theorem State.presentTable_retention (s : State) : (s.presentTable).retention = s.retention := rfl

@[simp] theorem State.presentTable_clock (s : State) : (s.presentTable).clock = s.clock := rfl

@[simp] theorem State.presentTable_sched (s : State) :
    (s.presentTable).sched = { s.sched with head := s.table.head.map DueEntry.due, deadline := s.table.deadlineView s.clock.elapsed } := rfl

@[simp] theorem State.presentTable_table (s : State) : (s.presentTable).table = s.table := rfl

@[simp] theorem State.presentTable_units (s : State) :
    (s.presentTable).units = s.units.map fun p u => { u with offer := s.table.offers p } := rfl

@[simp] theorem State.presentTable_linkA (s : State) : (s.presentTable).linkA = s.linkA := rfl

@[simp] theorem State.presentTable_linkB (s : State) : (s.presentTable).linkB = s.linkB := rfl

@[simp] theorem State.presentTable_resetAsserted (s : State) : (s.presentTable).resetAsserted = s.resetAsserted := rfl

@[simp] theorem State.presentTable_freeCount (s : State) : (s.presentTable).freeCount = s.freeCount := rfl

@[simp] theorem State.presentTable_pending (s : State) : (s.presentTable).pending = s.pending := rfl

/-! ### presentClock -/

@[simp] theorem State.presentClock_power (s : State) : (s.presentClock).power = s.power := rfl

@[simp] theorem State.presentClock_retention (s : State) : (s.presentClock).retention = s.retention := rfl

@[simp] theorem State.presentClock_clock (s : State) : (s.presentClock).clock = s.clock := rfl

@[simp] theorem State.presentClock_sched (s : State) :
    (s.presentClock).sched = { s.sched with view := s.clock.view } := rfl

@[simp] theorem State.presentClock_table (s : State) : (s.presentClock).table = s.table := rfl

@[simp] theorem State.presentClock_units (s : State) :
    (s.presentClock).units = s.units.map fun _ u => { u with valid := s.clock.valid } := rfl

@[simp] theorem State.presentClock_linkA (s : State) : (s.presentClock).linkA = s.linkA := rfl

@[simp] theorem State.presentClock_linkB (s : State) : (s.presentClock).linkB = s.linkB := rfl

@[simp] theorem State.presentClock_resetAsserted (s : State) : (s.presentClock).resetAsserted = s.resetAsserted := rfl

@[simp] theorem State.presentClock_freeCount (s : State) : (s.presentClock).freeCount = s.freeCount := rfl

@[simp] theorem State.presentClock_pending (s : State) : (s.presentClock).pending = s.pending := rfl

/-! ### alert -/

@[simp] theorem State.alert_power (s : State) (p : Port) (b : AlertBit) : (s.alert p b).power = s.power := rfl

@[simp] theorem State.alert_retention (s : State) (p : Port) (b : AlertBit) :
    (s.alert p b).retention = s.retention := rfl

@[simp] theorem State.alert_clock (s : State) (p : Port) (b : AlertBit) : (s.alert p b).clock = s.clock := rfl

@[simp] theorem State.alert_sched (s : State) (p : Port) (b : AlertBit) : (s.alert p b).sched = s.sched := rfl

@[simp] theorem State.alert_table (s : State) (p : Port) (b : AlertBit) : (s.alert p b).table = s.table := rfl

@[simp] theorem State.alert_units (s : State) (p : Port) (b : AlertBit) :
    (s.alert p b).units = s.units.set p ((s.units.get p).setAlert b) := rfl

@[simp] theorem State.alert_linkA (s : State) (p : Port) (b : AlertBit) : (s.alert p b).linkA = s.linkA := rfl

@[simp] theorem State.alert_linkB (s : State) (p : Port) (b : AlertBit) : (s.alert p b).linkB = s.linkB := rfl

@[simp] theorem State.alert_resetAsserted (s : State) (p : Port) (b : AlertBit) :
    (s.alert p b).resetAsserted = s.resetAsserted := rfl

@[simp] theorem State.alert_freeCount (s : State) (p : Port) (b : AlertBit) :
    (s.alert p b).freeCount = s.freeCount := rfl

@[simp] theorem State.alert_pending (s : State) (p : Port) (b : AlertBit) : (s.alert p b).pending = s.pending := rfl

/-! ### resetUnits -/

@[simp] theorem State.resetUnits_power (s : State) (i : Indication) : (s.resetUnits i).power = s.power := rfl

@[simp] theorem State.resetUnits_retention (s : State) (i : Indication) :
    (s.resetUnits i).retention = s.retention := rfl

@[simp] theorem State.resetUnits_clock (s : State) (i : Indication) : (s.resetUnits i).clock = s.clock := rfl

@[simp] theorem State.resetUnits_sched (s : State) (i : Indication) : (s.resetUnits i).sched = s.sched := rfl

@[simp] theorem State.resetUnits_table (s : State) (i : Indication) :
    (s.resetUnits i).table = { s.table with waiting := ⟨none, none⟩, work := s.table.work ++ [i] } := rfl

@[simp] theorem State.resetUnits_units (s : State) (i : Indication) :
    (s.resetUnits i).units = s.units.map fun _ u => u.reset := rfl

@[simp] theorem State.resetUnits_linkA (s : State) (i : Indication) : (s.resetUnits i).linkA = s.linkA := rfl

@[simp] theorem State.resetUnits_linkB (s : State) (i : Indication) : (s.resetUnits i).linkB = s.linkB := rfl

@[simp] theorem State.resetUnits_resetAsserted (s : State) (i : Indication) :
    (s.resetUnits i).resetAsserted = s.resetAsserted := rfl

@[simp] theorem State.resetUnits_freeCount (s : State) (i : Indication) :
    (s.resetUnits i).freeCount = s.freeCount := rfl

@[simp] theorem State.resetUnits_pending (s : State) (i : Indication) : (s.resetUnits i).pending = s.pending := rfl

/-! ### Table.setSlot -/

@[simp] theorem Table.setSlot_slots (t : Table) (i : Fin 64) (x : Slot) :
    (t.setSlot i x).slots = t.slots.set i.val x i.isLt := rfl

@[simp] theorem Table.setSlot_groups (t : Table) (i : Fin 64) (x : Slot) : (t.setSlot i x).groups = t.groups := rfl

@[simp] theorem Table.setSlot_quotas (t : Table) (i : Fin 64) (x : Slot) : (t.setSlot i x).quotas = t.quotas := rfl

@[simp] theorem Table.setSlot_contexts (t : Table) (i : Fin 64) (x : Slot) :
    (t.setSlot i x).contexts = t.contexts := rfl

@[simp] theorem Table.setSlot_inHand (t : Table) (i : Fin 64) (x : Slot) : (t.setSlot i x).inHand = t.inHand := rfl

@[simp] theorem Table.setSlot_waiting (t : Table) (i : Fin 64) (x : Slot) : (t.setSlot i x).waiting = t.waiting := rfl

@[simp] theorem Table.setSlot_schedWaiting (t : Table) (i : Fin 64) (x : Slot) :
    (t.setSlot i x).schedWaiting = t.schedWaiting := rfl

@[simp] theorem Table.setSlot_lastServed (t : Table) (i : Fin 64) (x : Slot) :
    (t.setSlot i x).lastServed = t.lastServed := rfl

@[simp] theorem Table.setSlot_work (t : Table) (i : Fin 64) (x : Slot) : (t.setSlot i x).work = t.work := rfl

@[simp] theorem Table.setSlot_inBackup (t : Table) (i : Fin 64) (x : Slot) :
    (t.setSlot i x).inBackup = t.inBackup := rfl

/-! ### Table.setOrder -/

@[simp] theorem Table.setOrder_slots (t : Table) (i : Fin 64) (o : Order) :
    (t.setOrder i o).slots = t.slots.set i.val { t.slot i with order := some o } i.isLt := rfl

@[simp] theorem Table.setOrder_groups (t : Table) (i : Fin 64) (o : Order) : (t.setOrder i o).groups = t.groups := rfl

@[simp] theorem Table.setOrder_quotas (t : Table) (i : Fin 64) (o : Order) : (t.setOrder i o).quotas = t.quotas := rfl

@[simp] theorem Table.setOrder_contexts (t : Table) (i : Fin 64) (o : Order) :
    (t.setOrder i o).contexts = t.contexts := rfl

@[simp] theorem Table.setOrder_inHand (t : Table) (i : Fin 64) (o : Order) : (t.setOrder i o).inHand = t.inHand := rfl

@[simp] theorem Table.setOrder_waiting (t : Table) (i : Fin 64) (o : Order) :
    (t.setOrder i o).waiting = t.waiting := rfl

@[simp] theorem Table.setOrder_schedWaiting (t : Table) (i : Fin 64) (o : Order) :
    (t.setOrder i o).schedWaiting = t.schedWaiting := rfl

@[simp] theorem Table.setOrder_lastServed (t : Table) (i : Fin 64) (o : Order) :
    (t.setOrder i o).lastServed = t.lastServed := rfl

@[simp] theorem Table.setOrder_work (t : Table) (i : Fin 64) (o : Order) : (t.setOrder i o).work = t.work := rfl

@[simp] theorem Table.setOrder_inBackup (t : Table) (i : Fin 64) (o : Order) :
    (t.setOrder i o).inBackup = t.inBackup := rfl

/-! ### Table.setGroup -/

@[simp] theorem Table.setGroup_slots (t : Table) (g : Fin 8) (x : Group) : (t.setGroup g x).slots = t.slots := rfl

@[simp] theorem Table.setGroup_groups (t : Table) (g : Fin 8) (x : Group) :
    (t.setGroup g x).groups = t.groups.set g.val x g.isLt := rfl

@[simp] theorem Table.setGroup_quotas (t : Table) (g : Fin 8) (x : Group) : (t.setGroup g x).quotas = t.quotas := rfl

@[simp] theorem Table.setGroup_contexts (t : Table) (g : Fin 8) (x : Group) :
    (t.setGroup g x).contexts = t.contexts := rfl

@[simp] theorem Table.setGroup_inHand (t : Table) (g : Fin 8) (x : Group) : (t.setGroup g x).inHand = t.inHand := rfl

@[simp] theorem Table.setGroup_waiting (t : Table) (g : Fin 8) (x : Group) :
    (t.setGroup g x).waiting = t.waiting := rfl

@[simp] theorem Table.setGroup_schedWaiting (t : Table) (g : Fin 8) (x : Group) :
    (t.setGroup g x).schedWaiting = t.schedWaiting := rfl

@[simp] theorem Table.setGroup_lastServed (t : Table) (g : Fin 8) (x : Group) :
    (t.setGroup g x).lastServed = t.lastServed := rfl

@[simp] theorem Table.setGroup_work (t : Table) (g : Fin 8) (x : Group) : (t.setGroup g x).work = t.work := rfl

@[simp] theorem Table.setGroup_inBackup (t : Table) (g : Fin 8) (x : Group) :
    (t.setGroup g x).inBackup = t.inBackup := rfl

/-! ### Table.setContext -/

@[simp] theorem Table.setContext_slots (t : Table) (p : Port) (c : Context) :
    (t.setContext p c).slots = t.slots := rfl

@[simp] theorem Table.setContext_groups (t : Table) (p : Port) (c : Context) :
    (t.setContext p c).groups = t.groups := rfl

@[simp] theorem Table.setContext_quotas (t : Table) (p : Port) (c : Context) :
    (t.setContext p c).quotas = t.quotas := rfl

@[simp] theorem Table.setContext_contexts (t : Table) (p : Port) (c : Context) :
    (t.setContext p c).contexts = t.contexts.set p c := rfl

@[simp] theorem Table.setContext_inHand (t : Table) (p : Port) (c : Context) :
    (t.setContext p c).inHand = t.inHand := rfl

@[simp] theorem Table.setContext_waiting (t : Table) (p : Port) (c : Context) :
    (t.setContext p c).waiting = t.waiting := rfl

@[simp] theorem Table.setContext_schedWaiting (t : Table) (p : Port) (c : Context) :
    (t.setContext p c).schedWaiting = t.schedWaiting := rfl

@[simp] theorem Table.setContext_lastServed (t : Table) (p : Port) (c : Context) :
    (t.setContext p c).lastServed = t.lastServed := rfl

@[simp] theorem Table.setContext_work (t : Table) (p : Port) (c : Context) : (t.setContext p c).work = t.work := rfl

@[simp] theorem Table.setContext_inBackup (t : Table) (p : Port) (c : Context) :
    (t.setContext p c).inBackup = t.inBackup := rfl

/-! ### Table.release -/

@[simp] theorem Table.release_slots (t : Table) : (t.release).slots = t.slots := rfl

@[simp] theorem Table.release_groups (t : Table) : (t.release).groups = t.groups := rfl

@[simp] theorem Table.release_quotas (t : Table) : (t.release).quotas = t.quotas := rfl

@[simp] theorem Table.release_contexts (t : Table) : (t.release).contexts = t.contexts := rfl

@[simp] theorem Table.release_inHand (t : Table) : (t.release).inHand = none := rfl

@[simp] theorem Table.release_waiting (t : Table) : (t.release).waiting = t.waiting := rfl

@[simp] theorem Table.release_schedWaiting (t : Table) : (t.release).schedWaiting = t.schedWaiting := rfl

@[simp] theorem Table.release_lastServed (t : Table) : (t.release).lastServed = t.lastServed := rfl

@[simp] theorem Table.release_work (t : Table) : (t.release).work = t.work := rfl

@[simp] theorem Table.release_inBackup (t : Table) : (t.release).inBackup = t.inBackup := rfl

end Sys2Proof.Machine
end

