-- ==== Sys2Proof/Laws/Ops.lean ====
section
/-! SUPPORT. What the shared operations can do: reads after writes, the judgement, the arbiter, the completion. -/

namespace Sys2Proof.Machine

/-! ### Reads after writes -/

@[simp] theorem Table.slot_setSlot (t : Table) (i j : Fin 64) (x : Slot) :
    (t.setSlot i x).slot j = if j = i then x else t.slot j := by
  simp only [Table.slot, Table.setSlot, Vector.getElem_set, Fin.ext_iff, eq_comm]

@[simp] theorem Table.slot_setOrder (t : Table) (i j : Fin 64) (o : Order) :
    (t.setOrder i o).slot j = if j = i then { t.slot i with order := some o } else t.slot j :=
  t.slot_setSlot i j _

@[simp] theorem Table.slot_setGroup (t : Table) (g : Fin 8) (x : Group) (j : Fin 64) :
    (t.setGroup g x).slot j = t.slot j := rfl

@[simp] theorem Table.slot_setContext (t : Table) (p : Port) (c : Context) (j : Fin 64) :
    (t.setContext p c).slot j = t.slot j := rfl

@[simp] theorem Table.order_setSlot (t : Table) (i j : Fin 64) (x : Slot) :
    (t.setSlot i x).order j = if j = i then x.order else t.order j := by
  simp only [Table.order, slot_setSlot]; split <;> rfl

@[simp] theorem Table.order_setOrder (t : Table) (i j : Fin 64) (o : Order) :
    (t.setOrder i o).order j = if j = i then some o else t.order j := by
  simp only [Table.order, slot_setOrder]; split <;> rfl

@[simp] theorem Table.order_setGroup (t : Table) (g : Fin 8) (x : Group) (j : Fin 64) :
    (t.setGroup g x).order j = t.order j := rfl

@[simp] theorem Table.order_setContext (t : Table) (p : Port) (c : Context) (j : Fin 64) :
    (t.setContext p c).order j = t.order j := rfl

@[simp] theorem Table.slot_mapOrders (t : Table) (f : Order → Order) (i : Fin 64) :
    (t.mapOrders f).slot i = { t.slot i with order := (t.slot i).order.map f } := by
  simp [Table.slot, Table.mapOrders]

@[simp] theorem Table.order_mapOrders (t : Table) (f : Order → Order) (i : Fin 64) :
    (t.mapOrders f).order i = (t.order i).map f := by
  simp [Table.order]

@[simp] theorem Table.group_setGroup (t : Table) (g h : Fin 8) (x : Group) :
    (t.setGroup g x).group h = if h = g then x else t.group h := by
  simp only [Table.group, Table.setGroup, Vector.getElem_set, Fin.ext_iff, eq_comm]

@[simp] theorem Table.group_setSlot (t : Table) (i : Fin 64) (x : Slot) (h : Fin 8) :
    (t.setSlot i x).group h = t.group h := rfl

@[simp] theorem Table.group_setOrder (t : Table) (i : Fin 64) (o : Order) (h : Fin 8) :
    (t.setOrder i o).group h = t.group h := rfl

@[simp] theorem Table.group_setContext (t : Table) (p : Port) (c : Context) (h : Fin 8) :
    (t.setContext p c).group h = t.group h := rfl

/-! ### What depends on the stored part alone -/

/-- Two tables that store the same read the same in every slot, group, quota and context. -/
theorem Table.stored_eq {t t' : Table} (h : t'.stored = t.stored) :
    t'.slots = t.slots ∧ t'.groups = t.groups ∧ t'.quotas = t.quotas ∧ t'.contexts = t.contexts
      ∧ t'.inBackup = t.inBackup := by
  simpa [Table.stored] using h

theorem Table.slot_stored {t t' : Table} (h : t'.stored = t.stored) (i : Fin 64) : t'.slot i = t.slot i := by
  simp only [Table.slot, (stored_eq h).1]

theorem Table.order_stored {t t' : Table} (h : t'.stored = t.stored) (i : Fin 64) : t'.order i = t.order i := by
  simp only [Table.order, slot_stored h]

theorem Table.group_stored {t t' : Table} (h : t'.stored = t.stored) (g : Fin 8) : t'.group g = t.group g := by
  simp only [Table.group, (stored_eq h).2.1]

@[simp] theorem Table.stored_vacated (u t : Table) : (u.vacated t).stored = t.stored := rfl

/-- What the arbiter holds and the indications outstanding: the part of a table that no service touches. -/
def Table.arbiter (t : Table) : PerPort (Option Command) × Option SchedRequest × Requester × List Indication :=
  (t.waiting, t.schedWaiting, t.lastServed, t.work)

/-- A table left by a service, its request gone, is the table before with the service's stored part. -/
theorem Table.release_eq {t u : Table} (rest : t.arbiter = u.arbiter) : t.release = u.vacated t := by
  obtain ⟨_, _, _, _, _, _, _, _, _, _⟩ := t
  obtain ⟨_, _, _, _, _, _, _, _, _, _⟩ := u
  simp_all [Table.release, Table.vacated, Table.arbiter]

/-- The views a completion presents depend on what the table stores (R28). -/
theorem Table.views_stored {t t' : Table} (h : t'.stored = t.stored) :
    t'.head = t.head ∧ t'.deadlineView = t.deadlineView ∧ t'.offers = t.offers := by
  obtain ⟨slots, groups, quotas, contexts, _, _, _, _, _, b⟩ := t
  obtain ⟨slots', groups', quotas', contexts', _, _, _, _, _, b'⟩ := t'
  obtain ⟨rfl, rfl, rfl, rfl, rfl⟩ : slots' = slots ∧ groups' = groups ∧ quotas' = quotas ∧ contexts' = contexts
      ∧ b' = b := by simpa [Table.stored] using h
  exact ⟨rfl, rfl, rfl⟩

/-! ### The judgement and the arbiter -/

/-- The scheduler puts one request or nothing (R86). -/
theorem State.judge_cases (s : State) : s.judge = s ∨ ∃ r, s.judge =
    { s with sched := { s.sched with request := some r }, table := { s.table with schedWaiting := some r } } := by
  unfold State.judge
  split
  · exact .inl rfl
  · exact .inr ⟨_, rfl⟩

/-- The arbiter grants one waiting request or nothing (R28, R29). -/
theorem State.arbitrate_cases (s : State) : s.arbitrate = s ∨ ∃ r q, s.arbitrate = s.grant r q := by
  unfold State.arbitrate
  split
  · split
    · exact .inr ⟨_, _, rfl⟩
    · exact .inl rfl
  · exact .inl rfl

theorem Outside.refl (s : State) : Outside s s := ⟨rfl, rfl, rfl, rfl, rfl, rfl, rfl⟩

theorem Outside.trans {s t u : State} (a : Outside s t) (b : Outside t u) : Outside s u :=
  ⟨b.power.trans a.power, b.retention.trans a.retention, b.linkA.trans a.linkA, b.linkB.trans a.linkB,
    b.resetAsserted.trans a.resetAsserted, b.freeCount.trans a.freeCount, b.pending.trans a.pending⟩

theorem FlagsKept.refl (u : CmdUnit) : FlagsKept u u := ⟨rfl, rfl, rfl, rfl, rfl, rfl⟩

theorem FlagsKept.trans {u v w : CmdUnit} (a : FlagsKept u v) (b : FlagsKept v w) : FlagsKept u w :=
  ⟨b.refused.trans a.refused, b.frameFault.trans a.frameFault, b.restarted.trans a.restarted,
    b.discardTable.trans a.discardTable, b.discardClock.trans a.discardClock, b.valid.trans a.valid⟩

theorem Settled.refl (s : State) : Settled s s :=
  ⟨⟨rfl, rfl, rfl, rfl, rfl, rfl, rfl⟩, rfl, rfl, rfl, rfl, rfl, rfl, rfl, fun _ => .inl rfl⟩

theorem State.judge_settled (s : State) : Settled s s.judge := by
  obtain h | ⟨r, h⟩ := s.judge_cases
  · rw [h]; exact .refl s
  · rw [h]; exact ⟨⟨rfl, rfl, rfl, rfl, rfl, rfl, rfl⟩, rfl, rfl, rfl, rfl, rfl, rfl, rfl, fun _ => .inl rfl⟩

theorem State.judge_units (s : State) : s.judge.units = s.units := by
  obtain h | ⟨r, h⟩ := s.judge_cases <;> rw [h]

theorem State.grant_settled (s : State) (r : Requester) (q : Request) : Settled s (s.grant r q) := by
  cases r with
  | scheduler =>
    exact ⟨⟨rfl, rfl, rfl, rfl, rfl, rfl, rfl⟩, rfl, rfl, rfl, rfl, rfl, rfl, rfl, fun _ => .inl rfl⟩
  | unit p =>
    refine ⟨⟨rfl, rfl, rfl, rfl, rfl, rfl, rfl⟩, rfl, rfl, rfl, rfl, rfl, rfl, rfl, fun q => ?_⟩
    simp only [State.grant, State.modUnit_units, PerPort.get_set]
    split
    · next h => subst h; exact .inr rfl
    · exact .inl rfl

theorem State.arbitrate_settled (s : State) : Settled s s.arbitrate := by
  obtain h | ⟨r, q, h⟩ := s.arbitrate_cases
  · rw [h]; exact .refl s
  · rw [h]; exact s.grant_settled r q

theorem State.judge_arbitrate_settled (s : State) : Settled s s.judge.arbitrate := by
  have a := s.judge_settled
  have b := s.judge.arbitrate_settled
  exact ⟨a.outside.trans b.outside, b.clock.trans a.clock, b.head.trans a.head, b.deadline.trans a.deadline,
    b.view.trans a.view, b.barred.trans a.barred, b.stored.trans a.stored, b.work.trans a.work,
    fun q => by simpa [s.judge_units] using b.units q⟩

/-! ### A grant changes a unit's phase alone -/

@[simp] theorem CmdUnit.granted_refused (u : CmdUnit) : u.granted.refused = u.refused := by
  unfold CmdUnit.granted; split <;> rfl

@[simp] theorem CmdUnit.granted_frameFault (u : CmdUnit) : u.granted.frameFault = u.frameFault := by
  unfold CmdUnit.granted; split <;> rfl

@[simp] theorem CmdUnit.granted_restarted (u : CmdUnit) : u.granted.restarted = u.restarted := by
  unfold CmdUnit.granted; split <;> rfl

@[simp] theorem CmdUnit.granted_discardTable (u : CmdUnit) : u.granted.discardTable = u.discardTable := by
  unfold CmdUnit.granted; split <;> rfl

@[simp] theorem CmdUnit.granted_discardClock (u : CmdUnit) : u.granted.discardClock = u.discardClock := by
  unfold CmdUnit.granted; split <;> rfl

@[simp] theorem CmdUnit.granted_offer (u : CmdUnit) : u.granted.offer = u.offer := by
  unfold CmdUnit.granted; split <;> rfl

@[simp] theorem CmdUnit.granted_valid (u : CmdUnit) : u.granted.valid = u.valid := by
  unfold CmdUnit.granted; split <;> rfl

@[simp] theorem CmdUnit.granted_alert (u : CmdUnit) : u.granted.alert = u.alert := by
  unfold CmdUnit.granted; split <;> rfl

/-- The phase a grant leaves depends on the phase alone. -/
theorem CmdUnit.granted_phase {u v : CmdUnit} (h : u.phase = v.phase) : u.granted.phase = v.granted.phase := by
  cases e : v.phase <;> simp [CmdUnit.granted, h, e]

/-- A grant leaves a unit in REPLY as it is. -/
theorem CmdUnit.granted_reply {u : CmdUnit} {r : Reply} (h : u.phase = .reply r) : u.granted = u := by
  simp [CmdUnit.granted, h]

/-- Either way a unit keeps everything but its phase. -/
theorem unit_kept {u v : CmdUnit} (h : v = u ∨ v = u.granted) :
    FlagsKept u v ∧ v.alert = u.alert ∧ v.offer = u.offer ∧ PhaseKept u v := by
  obtain rfl | rfl := h
  · exact ⟨⟨rfl, rfl, rfl, rfl, rfl, rfl⟩, rfl, rfl, .inl rfl⟩
  · exact ⟨⟨by simp, by simp, by simp, by simp, by simp, by simp⟩, by simp, by simp, .inr rfl⟩

/-! ### The completion at the table -/

/-- A state whose presentation is the completed state completes (R28): the equation says everything, and what it leaves
alone follows. -/
theorem completion_of_eq {s s' : State} {t : Table} {alerts : Port → BitVec 4} {request : Option SchedRequest}
    {phases : Port → Phase} (e : s' = (s.completed t alerts request phases).judge.arbitrate) :
    Completion s s' t alerts request phases := by
  have h := (s.completed t alerts request phases).judge_arbitrate_settled
  have k : ∀ q, _ := fun q => unit_kept (h.units q)
  have unit : ∀ q, (s.completed t alerts request phases).units.get q
      = { s.units.get q with phase := phases q, offer := t.offers q, alert := alerts q } := fun q => by
    simp [State.completed]
  subst e
  refine ⟨rfl, h.stored, h.work, h.head, h.deadline, h.view, h.barred, fun q => ?_, fun q => ?_, fun q => ?_, h.clock,
    Outside.trans (t := s.completed t alerts request phases) ⟨rfl, rfl, rfl, rfl, rfl, rfl, rfl⟩ h.outside⟩
  · rw [(k q).2.2.1, unit]
  · rw [(k q).2.1, unit]
  · refine FlagsKept.trans (v := (s.completed t alerts request phases).units.get q) ?_ (k q).1
    rw [unit]
    exact ⟨rfl, rfl, rfl, rfl, rfl, rfl⟩

/-- A completion leaves each unit the phase it gives, or grants its waiting command. -/
theorem Completion.phase {s s' : State} {t : Table} {alerts : Port → BitVec 4} {request : Option SchedRequest}
    {phases : Port → Phase} (h : Completion s s' t alerts request phases) (q : Port) :
    PhaseKept { s.units.get q with phase := phases q } (s'.units.get q) := by
  have k := (unit_kept ((s.completed t alerts request phases).judge_arbitrate_settled.units q)).2.2.2
  have e : ((s.completed t alerts request phases).units.get q).phase = phases q := by simp [State.completed]
  rw [h.settles]
  exact k.imp (fun k => k.trans e) (fun k => k.trans (CmdUnit.granted_phase e))

/-- What follows a change at the table is the completion of the state that presents it. -/
theorem State.afterTable_completion {s m : State} {t : Table} {alerts : Port → BitVec 4}
    {request : Option SchedRequest} {phases : Port → Phase} (table : m.table = s.table.vacated t)
    (sched : m.sched = { s.sched with request := request }) (clock : m.clock = s.clock) (outside : Outside s m)
    (units : ∀ q, m.units.get q = { s.units.get q with phase := phases q, alert := alerts q }) :
    Completion s m.afterTable t alerts request phases := by
  refine completion_of_eq ?_
  have views := Table.views_stored (Table.stored_vacated s.table t)
  have a : m.units.a = _ := units .A
  have b : m.units.b = _ := units .B
  have e : m.presentTable = s.completed t alerts request phases := by
    obtain ⟨_, _, _, _, _, ⟨_, _⟩, _, _, _, _, _⟩ := m
    obtain ⟨_, _, _, _, _, _, _⟩ := outside
    clear units
    simp_all [State.presentTable, State.completed, PerPort.map]
  rw [State.afterTable, e]

/-- A reply handed to a unit that waits for it goes into its buffer and changes nothing else (R174). -/
theorem CmdUnit.takeReply_waiting {u : CmdUnit} {b : Block} {c : Command} (r : Reply) (phase : u.phase = .working c)
    (block : c.code.block = b) (marker : u.discards b = false) : u.takeReply b r = { u with phase := .reply r } := by
  simp [CmdUnit.takeReply, phase, block, marker]

/-- A reply met by the discard marker is thrown away and the block leaves the marker (R174). -/
theorem CmdUnit.takeReply_discarded {u : CmdUnit} {b : Block} (r : Reply) (marker : u.discards b = true) :
    u.takeReply b r = u.markDiscard b false := by
  simp [CmdUnit.takeReply, marker]

theorem CmdUnit.takeReply_alert (u : CmdUnit) (b : Block) (r : Reply) : (u.takeReply b r).alert = u.alert := by
  unfold CmdUnit.takeReply CmdUnit.markDiscard
  repeat' split
  all_goals rfl

/-- A command of a unit that waits for it completes, leaving a table that kept its arbiter (R28, R174). -/
theorem State.completeCommand_replied {s : State} {t : Table} {p : Port} {c : Command} (r : Reply)
    (phase : (s.units.get p).phase = .working c) (block : c.code.block = .table)
    (marker : (s.units.get p).discardTable = false) (rest : t.arbiter = s.table.arbiter) :
    Replied s ((s.setTable t).completeCommand p r) p r t := by
  have done : Completion s ((s.setTable t).completeCommand p r) t s.alerts s.sched.request (s.replying p r) := by
    refine State.afterTable_completion (Table.release_eq rest) rfl rfl ⟨rfl, rfl, rfl, rfl, rfl, rfl, rfl⟩ fun q => ?_
    simp only [State.modUnit_units, State.setTable_units, State.replying, State.alerts, PerPort.get_set]
    by_cases hq : q = p
    · subst hq
      rw [if_pos rfl, if_pos rfl, CmdUnit.takeReply_waiting r phase block marker]
    · rw [if_neg hq, if_neg hq]; rfl
  refine ⟨done, ?_, fun q hq => ?_⟩
  · have h := done.phase p
    simp only [PhaseKept, State.replying, if_true] at h
    exact h.elim id fun h => h
  · have h := done.phase q
    rw [State.replying, if_neg hq] at h
    exact h.imp id id

/-- A request of the scheduler completes, leaving a table that kept its arbiter and alert words set (R28, R86). -/
theorem State.completeSched_completion {s m : State} {t : Table} {alerts : Port → BitVec 4} (table : m.table = t)
    (rest : t.arbiter = s.table.arbiter) (sched : m.sched = s.sched) (clock : m.clock = s.clock) (outside : Outside s m)
    (units : ∀ q, m.units.get q = { s.units.get q with alert := alerts q }) :
    Completion s m.completeSched t alerts none s.phases ∧ ∀ q, PhaseKept (s.units.get q) (m.completeSched.units.get q) := by
  have done : Completion s m.completeSched t alerts none s.phases :=
    State.afterTable_completion (by rw [← Table.release_eq rest, ← table]; rfl) (by simp [sched]) clock
      ⟨outside.1, outside.2, outside.3, outside.4, outside.5, outside.6, outside.7⟩ fun q => by
        simpa [State.phases] using units q
  exact ⟨done, fun q => done.phase q⟩

/-! ### Serving a command in hand -/

/-- The table finds the command in hand. -/
theorem Table.handOf_eq {t : Table} {p : Port} {c : Code} {args : List Byte} {h : InHand} (inHand : t.inHand = some h)
    (request : h.request = .command p ⟨c, args⟩) : t.handOf p c = some (h, args) := by
  simp [Table.handOf, inHand, request]

/-- A table command in hand, served by a change of the table that leaves the arbiter alone, completes with the reply of
its service. -/
theorem serve_replied {s : State} {p : Port} {c : Code} {args : List Byte} {h : InHand} (hs : Carries s p c args h)
    (block : c.block = .table) (f : Port → InHand → List Byte → Table → Table × Reply)
    (rest : (f p h args s.table).1.arbiter = s.table.arbiter) :
    Replied s (whileReliable (serve c p (tableService f)) s) p (f p h args s.table).2 (f p h args s.table).1 := by
  have e : whileReliable (serve c p (tableService f)) s
      = (s.setTable (f p h args s.table).1).completeCommand p (f p h args s.table).2 := by
    simp [whileReliable, hs.reliable, serve, Table.handOf_eq hs.inHand hs.request, tableService]
  rw [e]
  exact State.completeCommand_replied _ hs.phase block hs.marker rest

/-- The form in which the obligations use `serve_replied`: what the service answers is known. -/
theorem serve_answers {s : State} {p : Port} {c : Code} {args : List Byte} {h : InHand} {t : Table} {r : Reply}
    (hs : Carries s p c args h) (block : c.block = .table) {f : Port → InHand → List Byte → Table → Table × Reply}
    (served : f p h args s.table = (t, r)) (rest : t.arbiter = s.table.arbiter) :
    Replied s (whileReliable (serve c p (tableService f)) s) p r t := by
  have h := serve_replied hs block f (by rw [served]; exact rest)
  rwa [served] at h

end Sys2Proof.Machine
end

