-- ==== Sys2Proof/Laws/Groups.lean ====
section
/-! SUPPORT. What joining and leaving a group do to each field of each group record, and to the slots. -/

namespace Sys2Proof.Machine

/-! ### One group -/

/-- Only the bit of the position itself is set in its set. -/
theorem positionBit_get (p q : Fin 8) : (positionBit p).getLsbD q.val = decide (q = p) := by
  revert p q; decide

/-- A position left: its factor bit and the call of a group it leaves empty of bits (R45, R50, R142). -/
theorem Group.leave_fields (g : Group) (p : Fin 8) :
    (g.leave p).config = g.config ∧ (g.leave p).enable = g.enable
    ∧ (g.leave p).positions = g.positions.set p.val none
    ∧ (g.leave p).factor = g.factor &&& ~~~positionBit p
    ∧ (g.leave p).call =
      if g.call = some .raised ∧ (g.leave p).factor &&& (g.leave p).enable = 0 then none else g.call := by
  unfold Group.leave Group.withdraw
  dsimp only
  split <;> simp_all

theorem Group.leave_factor_get (g : Group) (p q : Fin 8) :
    (g.leave p).factor.getLsbD q.val = (g.factor.getLsbD q.val && !decide (q = p)) := by
  have lt : q.val < 8 := q.isLt
  rw [(g.leave_fields p).2.2.2.1, BitVec.getLsbD_and, BitVec.getLsbD_not, positionBit_get, decide_eq_true lt, Bool.true_and]

/-! ### The groups of a table -/

theorem Member.eq_iff {m : Member} {g p : Fin 8} : some m = some ⟨g, p⟩ ↔ m.group = g ∧ m.position = p := by
  cases m; simp

/-- The record a group is left with when a slot gives up its membership. -/
structure Group.LeftBy (old : Option Member) (g : Fin 8) (x y : Group) : Prop where
  config : y.config = x.config
  enable : y.enable = x.enable
  positions : ∀ q : Fin 8, y.positions[q.val] = if old = some ⟨g, q⟩ then none else x.positions[q.val]
  factor : ∀ q : Fin 8, y.factor.getLsbD q.val = (x.factor.getLsbD q.val && !decide (old = some ⟨g, q⟩))
  call : y.call = if old.map Member.group = some g ∧ x.call = some .raised ∧ y.factor &&& y.enable = 0 then none
    else x.call

theorem Group.LeftBy.other {old : Option Member} {g : Fin 8} (x : Group) (h : old.map Member.group ≠ some g) :
    Group.LeftBy old g x x := by
  have none' : ∀ q, old ≠ some ⟨g, q⟩ := by rintro q rfl; exact h rfl
  exact ⟨rfl, rfl, fun q => by rw [if_neg (none' q)], fun q => by simp [none' q], by rw [if_neg (fun e => h e.1)]⟩

theorem Group.LeftBy.leave (m : Member) (x : Group) : Group.LeftBy (some m) m.group x (x.leave m.position) := by
  obtain ⟨config, enable, positions, _, call⟩ := x.leave_fields m.position
  refine ⟨config, enable, fun q => ?_, fun q => ?_, ?_⟩
  · simp only [Member.eq_iff, positions, Vector.getElem_set, true_and, Fin.ext_iff]
  · simp only [Member.eq_iff, Group.leave_factor_get, true_and, eq_comm]
  · rw [call]
    simp

/-- A slot's membership given up (R45, R50). -/
theorem Table.group_leaveIf (t : Table) (old : Option Member) (g : Fin 8) :
    Group.LeftBy old g (t.group g) ((t.leaveIf old).group g) := by
  cases old with
  | none => exact .other _ (by simp)
  | some m =>
    simp only [Table.leaveIf, Table.leaveGroup, Table.group_setGroup]
    split
    · next h => subst h; exact .leave m _
    · next h => exact .other _ (by simpa using fun e => h e.symm)

/-- The record a group is left with when a slot takes a membership. -/
structure Group.JoinedBy (i : Fin 64) (new : Option Member) (g : Fin 8) (x y : Group) : Prop where
  config : y.config = x.config
  enable : y.enable = x.enable
  factor : y.factor = x.factor
  call : y.call = x.call
  positions : ∀ q : Fin 8, y.positions[q.val] = if new = some ⟨g, q⟩ then some i else x.positions[q.val]

theorem Group.JoinedBy.other {i : Fin 64} {new : Option Member} {g : Fin 8} (x : Group)
    (h : new.map Member.group ≠ some g) : Group.JoinedBy i new g x x := by
  have none' : ∀ q, new ≠ some ⟨g, q⟩ := by rintro q rfl; exact h rfl
  exact ⟨rfl, rfl, rfl, rfl, fun q => by rw [if_neg (none' q)]⟩

theorem Group.JoinedBy.join (i : Fin 64) (m : Member) (x : Group) :
    Group.JoinedBy i (some m) m.group x (x.join m.position i) := by
  refine ⟨rfl, rfl, rfl, rfl, fun q => ?_⟩
  simp only [Member.eq_iff, Group.join, Vector.getElem_set, true_and, Fin.ext_iff]

/-- A membership taken (R38, R45). -/
theorem Table.group_joinIf (t : Table) (i : Fin 64) (new : Option Member) (g : Fin 8) :
    Group.JoinedBy i new g (t.group g) ((t.joinIf i new).group g) := by
  cases new with
  | none => exact .other _ (by simp)
  | some m =>
    simp only [Table.joinIf, Table.joinGroup, Table.group_setGroup]
    split
    · next h => subst h; exact .join i m _
    · next h => exact .other _ (by simpa using fun e => h e.symm)

@[simp] theorem Table.slot_leaveIf (t : Table) (m : Option Member) (j : Fin 64) : (t.leaveIf m).slot j = t.slot j := by
  cases m <;> rfl

@[simp] theorem Table.slot_joinIf (t : Table) (i : Fin 64) (m : Option Member) (j : Fin 64) :
    (t.joinIf i m).slot j = t.slot j := by
  cases m <;> rfl

@[simp] theorem Table.order_leaveIf (t : Table) (m : Option Member) (j : Fin 64) :
    (t.leaveIf m).order j = t.order j := by
  cases m <;> rfl

@[simp] theorem Table.order_joinIf (t : Table) (i : Fin 64) (m : Option Member) (j : Fin 64) :
    (t.joinIf i m).order j = t.order j := by
  cases m <;> rfl

/-- Joining and leaving touch the groups alone. -/
theorem Table.leaveIf_rest (t : Table) (m : Option Member) : (t.leaveIf m).slots = t.slots
    ∧ (t.leaveIf m).quotas = t.quotas ∧ (t.leaveIf m).contexts = t.contexts ∧ (t.leaveIf m).arbiter = t.arbiter
    ∧ (t.leaveIf m).inBackup = t.inBackup := by
  cases m <;> exact ⟨rfl, rfl, rfl, rfl, rfl⟩

theorem Table.joinIf_rest (t : Table) (i : Fin 64) (m : Option Member) : (t.joinIf i m).slots = t.slots
    ∧ (t.joinIf i m).quotas = t.quotas ∧ (t.joinIf i m).contexts = t.contexts ∧ (t.joinIf i m).arbiter = t.arbiter
    ∧ (t.joinIf i m).inBackup = t.inBackup := by
  cases m <;> exact ⟨rfl, rfl, rfl, rfl, rfl⟩

/-- A PLAC fills its slot and joins what its record names. -/
theorem Table.place_eq (t : Table) (i : Fin 64) (o : Order) : t.place i o = (t.setOrder i o).joinIf i o.member := by
  unfold Table.place Table.joinIf
  cases o.member <;> rfl

/-- An AMND writes the record and, where the membership differs, leaves the old and joins the new. -/
theorem Table.amend_move (t : Table) (i : Fin 64) (o : Order) (e : Elapsed) (a : Amend)
    (h : a.member.getD o.member ≠ o.member) :
    t.amend i o e a = ((t.setOrder i { a.order e o with member := a.member.getD o.member }).leaveIf o.member).joinIf i
      (a.member.getD o.member) := by
  simp only [Table.amend, Table.moveMember, if_neg (Ne.symm h)]

theorem Table.amend_stay (t : Table) (i : Fin 64) (o : Order) (e : Elapsed) (a : Amend)
    (h : a.member.getD o.member = o.member) :
    t.amend i o e a = t.setOrder i { a.order e o with member := o.member } := by
  simp only [Table.amend, Table.moveMember, h, if_true]

end Sys2Proof.Machine
end

