-- ==== Sys2Proof/Laws/Operands.lean ====
section
/-! SUPPORT. What the readings of request bytes accept, and that they read what the replies write. -/

namespace Sys2Proof.Machine

/-! ### Bytes, flags and ports -/

/-- A number below 256 survives the byte. -/
theorem byteOf_toNat_lt {n : Nat} (h : n < 256) : (byteOf n).toNat = n := by
  simp [byteOf]; omega

/-- A byte names the thing of its number. -/
theorem finOf_eq_some {k : Nat} {b : Byte} {i : Fin k} : finOf k b = some i ↔ b.toNat = i.val := by
  unfold finOf; split
  · next h => simp [Fin.ext_iff]
  · next h => simp; intro e; omega

/-- A byte at or beyond the count names nothing (Table A-4). -/
theorem finOf_eq_none {k : Nat} {b : Byte} : finOf k b = none ↔ k ≤ b.toNat := by
  unfold finOf; split <;> simp <;> omega

/-- The byte of a group names it. -/
theorem finOf_groupByte (g : Fin 8) : finOf 8 (byteOf g.val) = some g := finOf_eq_some.mpr
    (byteOf_toNat_lt (by omega))

theorem portOf_portByte (p : Port) : portOf (portByte p) = some p := by cases p <;> rfl

/-- A port byte above 1 names no port (Table A-4). -/
theorem portOf_eq_none {b : Byte} : portOf b = none ↔ 1 < b.toNat := by
  unfold portOf; split <;> simp_all; omega

theorem flagOf_flagByte (b : Bool) : flagOf (flagByte b) = some b := by cases b <;> rfl

/-- A flag byte above 1 is no flag (Table A-4). -/
theorem flagOf_eq_none {b : Byte} : flagOf b = none ↔ 1 < b.toNat := by
  unfold flagOf; split <;> simp_all; omega

/-- A level byte above 7 is no level (R11). -/
theorem levelOf_eq_none {b : Byte} : levelOf b = none ↔ 7 < b.toNat := by unfold levelOf; split <;> simp <;> omega

/-- A floor byte above 6 is no floor (R11). -/
theorem floorOf_eq_none {b : Byte} : floorOf b = none ↔ 6 < b.toNat := by unfold floorOf; split <;> simp <;> omega

/-- An order named in an FNSH (R117). -/
theorem sourceOf_order (i : Fin 64) (g : BitVec 4) : sourceOf (byteOf i.val) (byteOf g.toNat) = some
    (.order i g) := by
  have h : (byteOf i.val).toNat = i.val := byteOf_toNat_lt (by omega)
  have h2 : (byteOf g.toNat).toNat = g.toNat := byteOf_toNat_lt (by omega)
  unfold sourceOf
  rw [finOf_eq_some.mpr h]
  simp [h2]
  omega

/-- A group named in an FNSH; its generation byte is not read (R117, R184). -/
theorem sourceOf_group (g : Fin 8) (b : Byte) : sourceOf (byteOf (64 + g.val)) b = some (.group g) := by
  have h : (byteOf (64 + g.val)).toNat = 64 + g.val := byteOf_toNat_lt (by omega)
  unfold sourceOf
  rw [finOf_eq_none.mpr (by omega)]
  have : (byteOf (64 + g.val) - 0x40).toNat = g.val := by
    rw [BitVec.toNat_sub, h]; simp; omega
  rw [finOf_eq_some.mpr this]; rfl

theorem ownerFilterOf_eq_none {b : Byte} : ownerFilterOf b = none ↔ 2 < b.toNat := by
  unfold ownerFilterOf; split <;> simp_all; omega

theorem stateFilterOf_eq_none {b : Byte} : stateFilterOf b = none ↔ 3 < b.toNat := by
  unfold stateFilterOf; split <;> simp_all; omega

theorem groupFilterOf_eq_none {b : Byte} : groupFilterOf b = none ↔ ¬ (b.toNat ≤ 7 ∨ b = 0xFE ∨ b = 0xFF) := by
  unfold groupFilterOf; split
  · simp_all
  · split
    · simp_all
    · simp only [Option.map_eq_none_iff, finOf_eq_none]; simp_all; omega

/-! ### Times and rules -/

/-- Two BCD digits read back (R184). -/
theorem bcdOf_bcdByte : ∀ n : Fin 100, bcdOf (bcdByte n.val) = some n.val := by decide

theorem monthLength_le (y m : Nat) : monthLength y m ≤ 31 := by
  unfold monthLength; split <;> (try split) <;> omega

/-- What a real date and time is (R59; Table 2-3). -/
theorem DateTime.real_iff (d : DateTime) : d.real = true ↔ 2000 ≤ d.year ∧ d.year ≤ 2099 ∧ 1 ≤ d.month ∧
    d.month ≤ 12 ∧ 1 ≤ d.day ∧ d.day ≤ monthLength d.year d.month
   ∧ d.hour ≤ 23 ∧ d.minute ≤ 59 ∧ d.second ≤ 59 := by
  simp [DateTime.real, and_assoc]

/-- A real date and time reads back from its request bytes (Table A-4). -/
theorem timeOf_requestTime {d : DateTime} (h : d.real = true) : timeOf (requestTime d) = some d := by
  have r := (DateTime.real_iff d).mp h
  have m := monthLength_le d.year d.month
  have b : ∀ n, n < 100 → bcdOf (bcdByte n) = some n := fun n h => bcdOf_bcdByte ⟨n, h⟩
  unfold timeOf requestTime
  simp only [List.map_cons, List.map_nil]
  rw [b _ (by omega), b _ (by omega), b _ (by omega), b _ (by omega), b _ (by omega), b _ (by omega)]
  have e : (⟨2000 + (d.year - 2000), d.month, d.day, d.hour, d.minute, d.second⟩ : DateTime) = d := by
    cases d; simp at *; omega
  simp only [e, h, if_true]

/-- A time that request bytes carry is real (Table 2-3, class 1). -/
theorem timeOf_real {bytes : List Byte} {d : DateTime} (h : timeOf bytes = some d) : d.real = true := by
  unfold timeOf at h
  split at h
  · simp only [Option.ite_none_right_eq_some, Option.some.injEq] at h
    exact h.2 ▸ h.1
  · simp at h

/-- A rule with its parameters in range reads back from its bytes (Table A-6). -/
theorem ruleOf_ruleBytes {r : Rule} (h : r.lawful = true) : ruleOf (ruleBytes r) = some r := by
  cases r with
  | single => rfl
  | interval d hh m s =>
    simp only [Rule.lawful, Bool.and_eq_true, decide_eq_true_eq] at h
    unfold ruleOf ruleBytes
    simp only [List.map_cons, List.map_nil, byteOf_toNat_lt (show d < 256 by omega),
        byteOf_toNat_lt (show hh < 256 by omega), byteOf_toNat_lt (show m < 256 by omega),
        byteOf_toNat_lt (show s < 256 by omega)]
    simp only [show BitVec.toNat (1 : Byte) = 1 from rfl]
    simp [h]
  | monthly step day =>
    simp only [Rule.lawful, Bool.and_eq_true, decide_eq_true_eq] at h
    unfold ruleOf ruleBytes
    simp only [List.map_cons, List.map_nil, byteOf_toNat_lt (show step < 256 by omega),
        byteOf_toNat_lt (show day < 256 by omega)]
    simp only [show BitVec.toNat (2 : Byte) = 2 from rfl]
    simp [h]
  | weekdays set =>
    simp only [Rule.lawful, Bool.and_eq_true] at h
    unfold ruleOf ruleBytes
    simp only [List.map_cons, List.map_nil, show BitVec.toNat (3 : Byte) = 3 from rfl]
    have : set.toNat ≠ 0 := by
      intro e; have : set = 0 := by apply BitVec.eq_of_toNat_eq; simpa using e
      simp [this] at h
    have h2 := h.2
    simp at h2
    simp [this, h2, byteOf]

/-- The rule that request bytes carry has its parameters in their ranges (R6 to R8; Table 2-3, class 2). -/
theorem ruleOf_lawful {bytes : List Byte} {r : Rule} (h : ruleOf bytes = some r) : r.lawful = true := by
  unfold ruleOf at h
  split at h
  · simp at h; subst h; rfl
  · split at h
    · next c => simp at h; subst h; exact c
    · simp at h
  · split at h
    · next c => simp at h; subst h; exact c
    · simp at h
  · next _ set _ _ _ e =>
    split at h
    · next c =>
      simp at h; subst h
      have lt : set < 256 := by
        have : set ∈ bytes.map BitVec.toNat := by rw [e]; simp
        obtain ⟨b, _, rfl⟩ := List.mem_map.mp this
        exact b.isLt
      simp only [Bool.and_eq_true, bne_iff_ne, ne_eq, beq_iff_eq] at c
      have n : (byteOf set).toNat = set := byteOf_toNat_lt lt
      simp only [Rule.lawful, n, Bool.and_eq_true, bne_iff_ne, ne_eq, beq_iff_eq]
      exact ⟨fun z => c.1 (by rw [← n, z]; rfl), c.2⟩
    · simp at h
  · simp at h

theorem labelOf_length {bytes label : List Byte} (h : labelOf bytes = some label) : label.length ≤ 12 := by
  unfold labelOf Config.maxLabel at h
  split at h
  · simp at h
  · split at h
    · next c => simp at h c; subst h; omega
    · simp at h

theorem levelOf_le {b : Byte} {n : Nat} (h : levelOf b = some n) : n ≤ 7 := by
  unfold levelOf at h; split at h <;> simp_all

theorem floorOf_le {b : Byte} {n : Nat} (h : floorOf b = some n) : n ≤ 6 := by
  unfold floorOf at h; split at h <;> simp_all

theorem remainingOf_bounds {b : Byte} {n : Nat} (h : remainingOf b = some n) : 1 ≤ n ∧ n ≤ 255 := by
  unfold remainingOf at h
  split at h
  · simp at h
  · next c =>
    simp at h; subst h
    have : b.toNat ≠ 0 := fun e => c (BitVec.eq_of_toNat_eq (by simpa using e))
    omega

/-! ### PLAC -/

/-- The values of a PLAC that passes its field checks are lawful (R36, R37). -/
theorem placDecode_lawful {p : Port} {args : List Byte} {a : PlacArgs} (h : placDecode p args = .ok a) :
    a.Lawful := by
  unfold placDecode at h
  split at h
  · split at h
    · simp at h
    · next due hd =>
      split at h
      · simp at h
      · next rule hr =>
        split at h
        · simp at h
        · next b hb =>
          simp at h; subst h
          unfold placFields at hb
          split at hb
          · next an po lv fl port mem label h1 h2 h3 h4 h5 h6 h7 =>
            split at hb
            · next le =>
              simp at hb; subst hb
              exact ⟨timeOf_real hd, ruleOf_lawful hr, fun n hn => remainingOf_bounds hn, levelOf_le h3,
                  floorOf_le h4,
                le, labelOf_length h7⟩
            · simp at hb
          · simp at hb
  · simp at h

/-! ### AMND -/

theorem fieldOffset_mono (sel : BitVec 16) {m n : Nat} (h : m ≤ n) : fieldOffset sel m ≤ fieldOffset sel n := by
  induction h with
  | refl => exact Nat.le_refl _
  | step h ih => exact ih.trans (by simp [fieldOffset])

theorem fieldOffset_succ (sel : BitVec 16) {m n : Nat} (h : m < n) (b : sel.getLsbD m = true) :
    fieldOffset sel m + fieldLength m ≤ fieldOffset sel n := by
  refine le_trans ?_ (fieldOffset_mono sel (show m + 1 ≤ n from h))
  simp [fieldOffset, b]

theorem amndAgrees_le {sel rest} (h : amndAgrees sel rest = true) : fieldOffset sel 10 ≤ rest.length := by
  unfold amndAgrees at h; split at h
  · simp at h; omega
  · simp at h; omega

/-- Where the bytes agree with the select set, a selected field is all there (R185). -/
theorem fieldWhole_eq {sel rest} (h : fieldOffset sel 10 ≤ rest.length) {bit : Nat} (hb : bit < 10) :
    fieldWhole sel rest bit = sel.getLsbD bit := by
  unfold fieldWhole
  cases e : sel.getLsbD bit with
  | false => rfl
  | true => have := fieldOffset_succ sel hb e; simp; omega

/-- A field of an AMND is present exactly when it is selected, and is what its bytes read as. -/
theorem selected_eq_some {α} {sel : BitVec 16} {bit : Nat} {read : Option α} {x : Option α}
    (h : selected sel bit read = some x) :
    x = (if sel.getLsbD bit then read else none) ∧ x.isSome = sel.getLsbD bit := by
  unfold selected at h
  cases hb : sel.getLsbD bit with
  | true =>
    rw [hb] at h
    cases read with
    | none => simp at h
    | some v => simp only [if_true, Option.map_some, Option.some.injEq] at h; subst h; exact ⟨rfl, rfl⟩
  | false => rw [hb] at h; simp at h; subst h; simp

/-- What an AMND that passes class 3 was read from (R14, R185). -/
theorem amndFields_eq_some {o sel rest due rule} {a : Amend} (e : amndFields o sel rest due rule = some a) :
   amndAgrees sel rest = true ∧ a.due = due ∧ a.rule = rule
   ∧ selected sel 3 (anchoringOf (fieldByte sel rest 3)) = some a.anchoring
   ∧ selected sel 4 (policyOf (fieldByte sel rest 4)) = some a.policy
   ∧ selected sel 5 (levelOf (fieldByte sel rest 5)) = some a.level
   ∧ selected sel 6 (floorOf (fieldByte sel rest 6)) = some a.floor
   ∧ selected sel 8 (answeringOf o.owner (fieldByte sel rest 8)) = some a.answering
   ∧ selected sel 9 (memberOf (fieldByte sel rest 9) (byteAt rest (fieldOffset sel 9 + 1))) = some a.member
   ∧ selected sel 10 (labelOf (List.drop (fieldOffset sel 10) rest)) = some a.label
   ∧ a.remaining = (if sel.getLsbD 2 then some (remainingOf (fieldByte sel rest 2)) else none)
   ∧ a.window = (if sel.getLsbD 7 then some (fieldByte sel rest 7) else none)
   ∧ a.floor.getD o.floor ≤ a.level.getD o.level ∧ amndStarved o a = false := by
  unfold amndFields at e
  generalize hr : (if sel.getLsbD 2 = true then some (remainingOf (fieldByte sel rest 2)) else none) = rem at e
  generalize hw : (if sel.getLsbD 7 = true then some (fieldByte sel rest 7) else none) = win at e
  by_cases ag : amndAgrees sel rest = true
  · rw [if_pos ag] at e
    cases h3 : selected sel 3 (anchoringOf (fieldByte sel rest 3)) with
    | none => simp [h3] at e
    | some an =>
    cases h4 : selected sel 4 (policyOf (fieldByte sel rest 4)) with
    | none => simp [h3, h4] at e
    | some po =>
    cases h5 : selected sel 5 (levelOf (fieldByte sel rest 5)) with
    | none => simp [h3, h4, h5] at e
    | some lv =>
    cases h6 : selected sel 6 (floorOf (fieldByte sel rest 6)) with
    | none => simp [h3, h4, h5, h6] at e
    | some fl =>
    cases h8 : selected sel 8 (answeringOf o.owner (fieldByte sel rest 8)) with
    | none => simp [h3, h4, h5, h6, h8] at e
    | some port =>
    cases h9 : selected sel 9 (memberOf (fieldByte sel rest 9) (byteAt rest (fieldOffset sel 9 + 1))) with
    | none => simp [h3, h4, h5, h6, h8, h9] at e
    | some mem =>
    cases h10 : selected sel 10 (labelOf (List.drop (fieldOffset sel 10) rest)) with
    | none => simp [h3, h4, h5, h6, h8, h9, h10] at e
    | some label =>
      rw [h3, h4, h5, h6, h8, h9, h10] at e
      dsimp only at e
      by_cases c : (decide (fl.getD o.floor ≤ lv.getD o.level) && !amndStarved o ⟨due, rule, rem, an, po, lv, fl,
          win, port, mem, label⟩) = true
      · rw [if_pos c] at e
        simp only [Option.some.injEq] at e
        subst e
        simp only [Bool.and_eq_true, decide_eq_true_eq, Bool.not_eq_true'] at c
        exact ⟨ag, rfl, rfl, rfl, rfl, rfl, rfl, rfl, rfl, rfl, rfl, rfl, c.1, c.2⟩
      · rw [if_neg c] at e; simp at e
  · rw [if_neg ag] at e; simp at e

/-- What an AMND that passes its field checks was read from (R14, R40). -/
theorem amndDecode_eq_ok {o sel rest} {a : Amend} (e : amndDecode o sel rest = .ok a) :
   let due := if fieldWhole sel rest 0 then timeOf (fieldBytes sel rest 0) else none
   let rule := if fieldWhole sel rest 1 then ruleOf (fieldBytes sel rest 1) else none
   (fieldWhole sel rest 0 && due.isNone) = false ∧ (fieldWhole sel rest 1 && rule.isNone) = false ∧
       amndFields o sel rest due rule = some a := by
  unfold amndDecode at e
  dsimp only at e ⊢
  generalize (if fieldWhole sel rest 0 = true then timeOf (fieldBytes sel rest 0) else none) = due at e ⊢
  generalize (if fieldWhole sel rest 1 = true then ruleOf (fieldBytes sel rest 1) else none) = rule at e ⊢
  by_cases c0 : (fieldWhole sel rest 0 && due.isNone) = true
  · rw [if_pos c0] at e; simp at e
  · rw [if_neg c0] at e
    by_cases c1 : (fieldWhole sel rest 1 && rule.isNone) = true
    · rw [if_pos c1] at e; simp at e
    · rw [if_neg c1] at e
      cases h : amndFields o sel rest due rule with
      | none => simp [h] at e
      | some a' => simp [h] at e; subst e; exact ⟨Bool.eq_false_iff.mpr c0, Bool.eq_false_iff.mpr c1, rfl⟩

/-- The values an AMND may leave in a record (R14, R40). -/
structure Amend.LawfulFor (a : Amend) (o : Order) : Prop where
  due : ∀ d, a.due = some d → d.real = true
  rule : ∀ r, a.rule = some r → r.lawful = true
  remaining : ∀ n, a.remaining = some (some n) → 1 ≤ n ∧ n ≤ 255
  level : ∀ n, a.level = some n → n ≤ 7
  floor : ∀ n, a.floor = some n → n ≤ 6
  ordered : a.floor.getD o.floor ≤ a.level.getD o.level
  label : ∀ l, a.label = some l → l.length ≤ 12
  alive : o.standing ≠ .spent ∨ a.due ≠ none → a.remaining.getD o.remaining ≠ some 0

theorem selected_read {α : Type} {sel : BitVec 16} {bit : Nat} {read : Option α} {v : α}
    (h : selected sel bit read = some (some v)) : read = some v := by
  have := (selected_eq_some h).1
  split at this
  · exact this.symm
  · simp at this

/-- The values of an AMND that passes its field checks are lawful (R14, R40). -/
theorem amndDecode_lawful {o : Order} {sel : BitVec 16} {rest : List Byte} {a : Amend}
    (h : amndDecode o sel rest = .ok a) : a.LawfulFor o := by
  obtain ⟨_, _, e⟩ := amndDecode_eq_ok h
  obtain ⟨_, hdue, hrule, _, _, h5, h6, _, _, h10, hrem, _, ordered, starved⟩ := amndFields_eq_some e
  refine ⟨fun d hd => ?_, fun r hr => ?_, fun n hn => ?_, fun n hn => ?_, fun n hn => ?_, ordered, fun l hl => ?_,
    fun hs => ?_⟩
  · rw [hdue] at hd
    split at hd
    · exact timeOf_real hd
    · simp at hd
  · rw [hrule] at hr
    split at hr
    · exact ruleOf_lawful hr
    · simp at hr
  · rw [hrem] at hn
    split at hn
    · simp at hn; exact remainingOf_bounds hn
    · simp at hn
  · rw [hn] at h5; exact levelOf_le (selected_read h5)
  · rw [hn] at h6; exact floorOf_le (selected_read h6)
  · rw [hl] at h10; exact labelOf_length (selected_read h10)
  · intro z
    have c : (o.standing != .spent || a.due.isSome) = true := by
      rcases hs with hs | hs
      · simp [hs]
      · simp [Option.isSome_iff_ne_none, hs]
    simp [amndStarved, c, z] at starved

end Sys2Proof.Machine
end

