-- ==== Sys2Proof/Laws/Orders.lean ====
section
/-! SUPPORT. What the collections hold, what a handle names, and what retiring an order does. -/

namespace Sys2Proof.Machine

/-! ### Collections -/

theorem mem_allSlots (i : Fin 64) : i ∈ allSlots := List.mem_finRange i

theorem allSlots_sorted : allSlots.Pairwise (· < ·) := List.pairwise_lt_finRange 64

/-- The slots of the orders with a property. -/
theorem Table.mem_ordersWhere {t : Table} {f : Order → Bool} {i : Fin 64} : i ∈ t.ordersWhere f ↔ ∃ o, t.order i =
    some o ∧ f o = true := by
  simp only [Table.ordersWhere, List.mem_filter, mem_allSlots, true_and]
  cases t.order i <;> simp

theorem mem_insertDue {e x : DueEntry} {l} : x ∈ insertDue e l ↔ x = e ∨ x ∈ l := by
  induction l with
  | nil => simp [insertDue]
  | cons y l ih => unfold insertDue; split <;> simp_all; tauto

/-- The strict ordering of the due list (R19). -/
def DueEntry.Sooner (x y : DueEntry) : Prop := secondNumber x.due < secondNumber y.due ∨
        secondNumber x.due = secondNumber y.due ∧ x.slot < y.slot

theorem DueEntry.before_iff {x y : DueEntry} : x.before y = true ↔ DueEntry.Sooner x y := by
  simp [DueEntry.before, DueEntry.Sooner]

/-- An insertion adds one place and loses none (R20). -/
theorem insertDue_perm {e : DueEntry} {l} : (insertDue e l).Perm (e :: l) := by
  induction l with
  | nil => exact List.Perm.refl _
  | cons y l ih =>
    unfold insertDue; split
    · exact List.Perm.refl _
    · exact (ih.cons y).trans (List.Perm.swap _ _ _)

theorem foldr_insertDue_perm (l : List DueEntry) : (l.foldr insertDue []).Perm l := by
  induction l with
  | nil => exact List.Perm.refl _
  | cons y l ih => exact insertDue_perm.trans (ih.cons y)

/-- An insertion of another slot keeps the ordering (R20). -/
theorem insertDue_sorted {e : DueEntry} {l} (h : l.Pairwise DueEntry.Sooner) (ne : ∀ x ∈ l, x.slot ≠ e.slot) :
    (insertDue e l).Pairwise DueEntry.Sooner := by
  induction l with
  | nil => simp [insertDue]
  | cons y l ih =>
    unfold insertDue
    rw [List.pairwise_cons] at h
    split
    · next b =>
      rw [DueEntry.before_iff] at b
      rw [List.pairwise_cons]
      refine ⟨fun z hz => ?_, List.pairwise_cons.mpr h⟩
      rcases List.mem_cons.mp hz with rfl | hz
      · exact b
      · have := h.1 z hz
        unfold DueEntry.Sooner at *; omega
    · next b =>
      have b : ¬ DueEntry.Sooner e y := fun h => b (DueEntry.before_iff.mpr h)
      rw [List.pairwise_cons]
      refine ⟨fun z hz => ?_, ih h.2 fun x hx => ne x (List.mem_cons_of_mem _ hx)⟩
      rcases mem_insertDue.mp hz with rfl | hz
      · have n := ne y (List.mem_cons_self)
        have n' : ¬ y.slot.val = z.slot.val := fun h => n (Fin.ext h)
        unfold DueEntry.Sooner at *
        simp only [Fin.lt_def] at *
        omega
      · exact h.1 z hz

theorem foldr_insertDue_sorted (l : List DueEntry) (nd : (l.map DueEntry.slot).Nodup) :
    (l.foldr insertDue []).Pairwise DueEntry.Sooner := by
  induction l with
  | nil => simp
  | cons y l ih =>
    simp only [List.map_cons, List.nodup_cons] at nd
    refine insertDue_sorted (ih nd.2) fun x hx h => nd.1 ?_
    rw [← h]; exact List.mem_map_of_mem ((foldr_insertDue_perm l).mem_iff.mp hx)

theorem Table.dueEntries_nodup (t : Table) (l : List (Fin 64)) (nd : l.Nodup) :
    ((l.filterMap t.dueEntry).map DueEntry.slot).Nodup := by
  have sub : ∀ l : List (Fin 64), ((l.filterMap t.dueEntry).map DueEntry.slot).Sublist l := by
    intro l
    induction l with
    | nil => simp
    | cons i l ih =>
      rw [List.filterMap_cons]
      split
      · exact ih.trans (List.sublist_cons_self _ _)
      · next e h =>
        have : e.slot = i := by
          unfold Table.dueEntry at h; split at h <;> try split at h
          all_goals simp at h
          rw [← h]
        simp only [List.map_cons, this]; exact ih.cons_cons i
  exact nd.sublist (sub l)

/-! ### Handles, rights and memberships -/

/-- What a handle that names an order says of the table (R3). -/
theorem Table.resolve_eq_some (t : Table) (slot generation : Byte) (i : Fin 64) (o : Order) :
   t.resolve slot generation = some (i, o) ↔
      slot.toNat = i.val ∧ generation.toNat = (t.slot i).generation.toNat ∧ t.order i = some o := by
  unfold Table.resolve
  split
  · next h => simp; rw [finOf_eq_none] at h; intro e; omega
  · next j h =>
    rw [finOf_eq_some] at h
    split
    · next g =>
      simp
      constructor
      · rintro ⟨ho, rfl⟩; exact ⟨h, g.symm, ho⟩
      · rintro ⟨h1, h2, h3⟩
        have : j = i := Fin.ext (by omega)
        subst this; exact ⟨h3, rfl⟩
    · next g =>
      simp; intro h1 h2
      have : j = i := Fin.ext (by omega)
      subst this; exact absurd h2.symm g

/-- A handle that names an order is that order's handle (R3). -/
theorem Table.handle_of_resolve {t : Table} {slot generation : Byte} {i : Fin 64} {o : Order}
    (h : t.resolve slot generation = some (i, o)) :
   t.handle i = [slot, generation] := by
  obtain ⟨h1, h2, _⟩ := (Table.resolve_eq_some _ _ _ _ _).mp h
  simp [Table.handle, handleBytes, ← h1, ← h2, byteOf]

/-- Port B is denied the orders of port A, and nothing else is (R24). -/
theorem denied_iff {p q : Port} : denied p q = true ↔ p = .B ∧ q = .A := by cases p <;> cases q <;> decide

/-- A membership that can be taken is not refused (R37). -/
theorem Table.joinRefusal_of_open {t : Table} {self : Option (Fin 64)} {m : Option Member} (h : t.Open self m) :
    t.joinRefusal self m = none := by
  unfold Table.joinRefusal
  split
  · rfl
  · next m =>
    obtain ⟨h1, h2⟩ := h m rfl
    have : (t.group m.group).config.isNone = false := by cases e : (t.group m.group).config <;> simp_all
    simp only [this, Bool.false_eq_true, if_false]
    rcases h2 with h2 | ⟨h2, h3⟩
    · simp [h2]
    · rw [h3]; cases self <;> simp_all

/-- A service that answers so is what the command completes with. -/
theorem Carries.answers {i : Instr} {s : State} {p : Port} {c : Code} {args h} (hs : Carries s p c args h)
    (block : c.block = .table)
    {f : Port → InHand → List Byte → Table →
        Table × Reply} (e : exec i s = .next (whileReliable (serve c p (tableService f)) s))
    {t : Table} {r : Reply}
    (served : f p h args s.table = (t, r)) (rest : t.arbiter = s.table.arbiter) : Answers i s p r t :=
  ⟨_, e, serve_answers hs block served rest⟩

/-! ### Retirement (R50) -/

/-- Marking the entries of an order's taken call (R50). -/
theorem Context.orphan_eq (c : Context) (i g) : (c.orphan i g) =
    { c with stack := c.stack.map fun e => if e.source = .order i g then { e with retired := true } else e } := by
  unfold Context.orphan
  congr 1
  apply List.map_congr_left
  intro e _
  by_cases h : e.source = .order i g
  · cases hr : e.retired
    · simp [h]
    · simp [h]; cases e; simp_all
  · simp [h]

theorem Table.orphanCall_context (t : Table) (i : Fin 64) (o : Order) (q : Port) :
   (t.orphanCall i o).contexts.get q = { t.contexts.get q with
    stack := (t.contexts.get q).stack.map fun e =>
      if q = o.answering ∧ (o.call.map Call.state) = some CallState.taken
          ∧ e.source = .order i (t.slot i).generation
        then { e with retired := true } else e } := by
  unfold Table.orphanCall Order.retiredCall
  cases hc : o.call with
  | none => simp
  | some c =>
    cases hs : c.state with
    | raised => simp [hs]
    | taken =>
      simp only [hs, Table.setContext, PerPort.get_set]
      by_cases hq : q = o.answering
      · subst hq; simp [Context.orphan_eq, hs]
      · simp [hq]

theorem Table.orphanCall_rest (t : Table) (i : Fin 64) (o : Order) :
    (t.orphanCall i o).slots = t.slots ∧ (t.orphanCall i o).groups = t.groups
      ∧ (t.orphanCall i o).quotas = t.quotas ∧ (t.orphanCall i o).arbiter = t.arbiter
      ∧ (t.orphanCall i o).inBackup = t.inBackup := by
  unfold Table.orphanCall; split <;> exact ⟨rfl, rfl, rfl, rfl, rfl⟩

/-- Everything retiring an order does (R50): its slot is FREE at the next generation, the entries naming its taken call
are marked, it leaves its group, and the rest stands. -/
structure Table.RetiredTo (t t' : Table) (i : Fin 64) (o : Order) : Prop where
  slot : t'.slot i = ⟨(t.slot i).generation + 1, none⟩
  other : ∀ j, j ≠ i → t'.slot j = t.slot j
  quotas : t'.quotas = t.quotas
  arbiter : t'.arbiter = t.arbiter
  inBackup : t'.inBackup = t.inBackup
  ctx : ∀ q, t'.contexts.get q = { t.contexts.get q with
    stack := (t.contexts.get q).stack.map fun e =>
      if q = o.answering ∧ (o.call.map Call.state) = some CallState.taken
          ∧ e.source = .order i (t.slot i).generation
        then { e with retired := true } else e }
  group : ∀ g, Group.LeftBy o.member g (t.group g) (t'.group g)

/-- What retiring an order does (R50). -/
theorem Table.retire_spec (t : Table) (i : Fin 64) (o : Order) : Table.RetiredTo t (t.retire i o) i o := by
  have r := Table.orphanCall_rest t i o
  have l := (t.orphanCall i o).leaveIf_rest o.member
  have sl : ∀ j, ((t.orphanCall i o).leaveIf o.member).slot j =
      t.slot j := fun j => by simp only [Table.slot, l.1, r.1]
  refine ⟨?_, ?_, ?_, ?_, ?_, ?_, ?_⟩
  · simp only [Table.retire, Table.free, Table.slot_setSlot, if_true, sl]
  · intro j hj; simp only [Table.retire, Table.free, Table.slot_setSlot, hj, if_false, sl]
  · exact l.2.1.trans r.2.2.1
  · exact l.2.2.2.1.trans r.2.2.2.1
  · exact l.2.2.2.2.trans r.2.2.2.2
  · intro q
    have : (t.retire i o).contexts = (t.orphanCall i o).contexts := l.2.2.1
    rw [this]; exact Table.orphanCall_context t i o q
  · intro g
    have h := (t.orphanCall i o).group_leaveIf o.member g
    have : (t.orphanCall i o).group g = t.group g := by simp only [Table.group, r.2.1]
    rw [this] at h; exact h

end Sys2Proof.Machine
end

