-- ==== Sys2Proof/Laws/Calls.lean ====
section
/-! SUPPORT. What the calls, the deadlines and the requests of the scheduler can do. -/

namespace Sys2Proof.Machine

/-! ### Raised calls (R105, R110) -/

theorem Table.raisedOrderCall_iff {t : Table} {p : Port} {i : Fin 64} {x : RaisedCall} : t.raisedOrderCall p i =
    some x ↔ x.origin = .order i ∧ t.raises p x := by
  obtain ⟨l, org⟩ := x
  unfold Table.raisedOrderCall Table.raises
  dsimp only
  constructor
  · intro h
    split at h
    · next o ho =>
      split at h
      · next c hc =>
        split at h
        · next hh => simp at h; obtain ⟨h1, h2⟩ := h; subst h2; exact ⟨rfl, o, c, ho, hc, hh.1, h1, hh.2⟩
        · simp at h
      · simp at h
    · simp at h
  · rintro ⟨rfl, o, c, ho, hc, h1, h2, h3⟩
    simp [ho, hc, h1, h2, h3]

theorem Table.raisedGroupCall_iff {t : Table} {p : Port} {g : Fin 8} {x : RaisedCall} : t.raisedGroupCall p g =
    some x ↔ x.origin = .group g ∧ t.raises p x := by
  obtain ⟨l, org⟩ := x
  unfold Table.raisedGroupCall Table.raises
  dsimp only
  constructor
  · intro h
    split at h
    · next c hc =>
      split at h
      · next hh => simp at h; obtain ⟨h1, h2⟩ := h; subst h2; exact ⟨rfl, hh.1, c, hc, h1, hh.2⟩
      · simp at h
    · simp at h
  · rintro ⟨rfl, h1, c, hc, h2, h3⟩
    simp [hc, h1, h2, h3]

/-- The raised calls of a port are those the table raises for it. -/
theorem Table.mem_raisedCalls {t : Table} {p : Port} {x : RaisedCall} : x ∈ t.raisedCalls p ↔ t.raises p x := by
  unfold Table.raisedCalls
  simp only [List.mem_append, List.mem_filterMap, Table.raisedOrderCall_iff, Table.raisedGroupCall_iff,
      mem_allSlots, true_and]
  constructor
  · rintro (⟨i, _, h⟩ | ⟨g, _, _, h⟩) <;> exact h
  · intro h
    cases e : x.origin with
    | order i => exact .inl ⟨i, rfl, h⟩
    | group g => exact .inr ⟨g, List.mem_finRange g, rfl, h⟩

/-- They stand in source order (R105). -/
theorem Table.raisedCalls_sorted (t : Table) (p : Port) : (t.raisedCalls p).Pairwise
    (fun x y => x.origin.number < y.origin.number) := by
  unfold Table.raisedCalls
  rw [List.pairwise_append]
  refine ⟨?_, ?_, ?_⟩
  · rw [List.pairwise_filterMap]
    refine allSlots_sorted.imp ?_
    intro i j hij x hx y hy
    rw [(Table.raisedOrderCall_iff.mp hx).1, (Table.raisedOrderCall_iff.mp hy).1]; exact hij
  · rw [List.pairwise_filterMap]
    refine (List.pairwise_lt_finRange 8).imp ?_
    intro i j hij x hx y hy
    rw [(Table.raisedGroupCall_iff.mp hx).1, (Table.raisedGroupCall_iff.mp hy).1]; simp [Origin.number]; exact hij
  · intro x hx y hy
    obtain ⟨i, _, hx⟩ := List.mem_filterMap.mp hx
    obtain ⟨g, _, hy⟩ := List.mem_filterMap.mp hy
    rw [(Table.raisedOrderCall_iff.mp hx).1, (Table.raisedGroupCall_iff.mp hy).1]; simp [Origin.number]; omega

theorem lowest_eq_none {l} : lowest l = none ↔ l = [] := by
  cases l with
  | nil => simp [lowest]
  | cons c l => simp [lowest]; split <;> (try split) <;> simp

/-- The choice of R110 over calls in source order. -/
theorem lowest_some {l : List RaisedCall} (s : l.Pairwise (fun x y => x.origin.number < y.origin.number))
    (x : RaisedCall) :
   lowest l = some x ↔ x ∈ l ∧ ∀ y ∈ l, y = x ∨ x.before y := by
  induction l generalizing x with
  | nil => simp [lowest]
  | cons c l ih =>
    rw [List.pairwise_cons] at s
    have ih := ih s.2
    have uniq : ∀ a b : RaisedCall, (∀ y ∈ c :: l, y = a ∨ a.before y) → (∀ y ∈ c :: l, y = b ∨ b.before y) →
        a ∈ c :: l → b ∈ c :: l → a = b := by
      intro a b h1 h2 ha hb
      rcases h1 b hb with h | h
      · exact h.symm
      · rcases h2 a ha with h' | h'
        · exact h'
        · unfold RaisedCall.before at h h'; omega
    have key : ∃ z, lowest (c :: l) = some z ∧ z ∈ c :: l ∧ ∀ y ∈ c :: l, y = z ∨ z.before y := by
      unfold lowest
      cases e : lowest l with
      | none => rw [lowest_eq_none] at e; subst e; exact ⟨c, rfl, by simp, by simp⟩
      | some b =>
        obtain ⟨hb, hb2⟩ := (ih b).mp e
        by_cases h : b.level < c.level
        · simp only [h, if_true]
          refine ⟨b, rfl, List.mem_cons_of_mem _ hb, ?_⟩
          intro y hy
          rcases List.mem_cons.mp hy with rfl | hy
          · exact .inr (.inl h)
          · exact hb2 y hy
        · simp only [h, if_false]
          refine ⟨c, rfl, by simp, ?_⟩
          intro y hy
          rcases List.mem_cons.mp hy with rfl | hy
          · exact .inl rfl
          · right
            have := s.1 y hy
            rcases hb2 y hy with rfl | h'
            · unfold RaisedCall.before; omega
            · unfold RaisedCall.before at *; omega
    obtain ⟨z, hz, hz1, hz2⟩ := key
    constructor
    · intro h; rw [hz] at h; cases h; exact ⟨hz1, hz2⟩
    · rintro ⟨h1, h2⟩; rw [hz]; congr 1; exact uniq z x hz2 h2 hz1 h1

/-! ### Group calls (R142) -/

/-- A raise changes the call alone (R142). -/
theorem Group.raise_eq (g : Group) : g.raise =
    { g with call := if g.call = none ∧ g.factor &&& g.enable ≠ 0 then some .raised else g.call } := by
  unfold Group.raise; split <;> rfl

/-- A withdrawal changes the call alone (R142). -/
theorem Group.withdraw_eq (g : Group) : g.withdraw = { g with
    call := if g.call = some .raised ∧ g.factor &&& g.enable = 0 then none else g.call } := by
  unfold Group.withdraw; split <;> rfl

/-- The end of a taken group call changes the call alone (R120, R126). -/
theorem Group.endTaken_eq (g : Group) : g.endTaken = { g with
    call := if g.factor &&& g.enable ≠ 0 then some .raised else none } := by
  simp only [Group.endTaken, Group.raise_eq, true_and]

/-- A group is vacant when every position is empty (R148). -/
theorem Group.vacant_iff (x : Group) : x.vacant = true ↔ ∀ q : Fin 8, x.positions[q.val] = none := by
  unfold Group.vacant
  rw [List.all_eq_true]
  constructor
  · intro h q
    have := h (x.positions[q.val]) (by simp)
    simpa using this
  · intro h y hy
    obtain ⟨k, hk, rfl⟩ := List.getElem_of_mem hy
    have := h ⟨k, by simpa using hk⟩
    simpa using this

/-! ### Deadlines (R128, R130) -/

/-- When a deadline has lapsed (R128). -/
theorem lapsed_iff {d e : Elapsed} : lapsed d e = true ↔ (d - e).toNat = 0 ∨ 255 < (d - e).toNat := by
  unfold lapsed Config.maxRunning; simp

/-- The seconds remaining (R55, R83). -/
theorem secondsRemaining_eq (d e : Elapsed) : secondsRemaining d e = if (d - e).toNat ≤ 255 then
    (d - e).toNat else 0 := by
  unfold secondsRemaining
  split
  · next h => have := lapsed_iff.mp h; split <;> omega
  · next h => rw [lapsed_iff] at h; push Not at h; rw [if_pos h.2]

theorem earliestLapsed_eq_none {e : Elapsed} {l : List (DeadlineHolder × Elapsed)} : earliestLapsed e l = none ↔
    ∀ y ∈ l, ¬ lapsed y.2 e = true := by
  induction l with
  | nil => simp [earliestLapsed]
  | cons d rest ih =>
    rw [earliestLapsed]
    split
    · next h => split
                · simp [h]
                · split <;> simp [h]
    · next h => rw [ih]; simp [h]

theorem nearest_eq_none {e : Elapsed} {l} : nearest e l = none ↔ l = [] := by
  cases l with
  | nil => simp [nearest]
  | cons d r => simp only [nearest]; split <;> (try split) <;> simp

/-- The deadline view has the fewest seconds remaining (R83). -/
theorem nearest_least {e : Elapsed} {l} {d} (h : nearest e l = some d) : (∃ x, (x, d) ∈ l) ∧
    ∀ y ∈ l, secondsRemaining d e ≤ secondsRemaining y.2 e := by
  induction l generalizing d with
  | nil => simp [nearest] at h
  | cons x rest ih =>
    rw [nearest] at h
    split at h
    · next hn =>
      have := nearest_eq_none.mp hn
      subst this
      simp at h; subst h; exact ⟨⟨x.1, by simp⟩, by simp⟩
    · next b hb =>
      obtain ⟨⟨z, hz⟩, hm⟩ := ih hb
      split at h
      · simp at h; subst h
        refine ⟨⟨z, by simp [hz]⟩, ?_⟩
        intro y hy; simp at hy; rcases hy with rfl | hy
        · omega
        · exact hm y hy
      · simp at h; subst h
        refine ⟨⟨x.1, by simp⟩, ?_⟩
        intro y hy; simp at hy; rcases hy with rfl | hy
        · omega
        · have := hm y hy; omega

/-- The finish deadlines of a stack, by index from the top. -/
theorem mem_entryDeadlines {p q : Port} {k n : Nat} {l : List Entry} {d} :
    (DeadlineHolder.entry q k, d) ∈ entryDeadlines p n l ↔ q = p ∧ n ≤ k ∧ ∃ x : Entry, l[k - n]? = some x ∧
    x.deadline = some d := by
  induction l generalizing n with
  | nil => simp [entryDeadlines]
  | cons e rest ih =>
    have step : (DeadlineHolder.entry q k, d) ∈ entryDeadlines p n (e :: rest) ↔
        (q = p ∧ k = n ∧ e.deadline = some d) ∨ (DeadlineHolder.entry q k, d) ∈ entryDeadlines p (n+1) rest := by
      rw [entryDeadlines]; split
      · next d' hd => simp [hd]; aesop
      · next hd => simp [hd]
    rw [step, ih]
    constructor
    · rintro (⟨rfl, rfl, h⟩ | ⟨rfl, h, x, hx, hd⟩)
      · exact ⟨rfl, le_refl _, e, by simp, h⟩
      · refine ⟨rfl, by omega, x, ?_, hd⟩
        rw [show k - n = (k - (n+1)) + 1 by omega]; simpa using hx
    · rintro ⟨rfl, h, x, hx, hd⟩
      by_cases he : k = n
      · subst he; simp at hx; subst hx; exact .inl ⟨rfl, rfl, hd⟩
      · right; refine ⟨rfl, by omega, x, ?_, hd⟩
        rw [show k - n = (k - (n+1)) + 1 by omega] at hx; simpa using hx

/-! ### Alert words -/

/-- A setting of an alert bit (R161). -/
theorem State.units_alert (s : State) (p q : Port) (b : AlertBit) : (s.alert p b).units.get q =
    { s.units.get q with alert := if q = p then (s.units.get q).alert ||| b.mask else (s.units.get q).alert } := by
  simp only [State.alert, State.modUnit_units, PerPort.get_set]
  split
  · next h => subst h; rfl
  · rfl

end Sys2Proof.Machine
end

