-- ==== Sys2Proof/Laws/Clock.lean ====
section
/-! SUPPORT. What a command at the clock, an event of the clock and the work of an indication can do. -/

namespace Sys2Proof.Machine

/-! ### The clock -/

/-- What follows a change at the clock (R72, R84): the clock is seen, and the judgement and the arbiter act. -/
theorem State.afterClock_settled (s : State) (k : Clock) : Settled (s.seen k) (s.setClock k).afterClock :=
  (s.seen k).judge_arbitrate_settled

/-- The same as an equation: the state seen, judged and arbitrated. -/
theorem State.afterClock_settles (s : State) (k : Clock) : Settles (s.seen k) (s.setClock k).afterClock :=
  ⟨rfl, s.afterClock_settled k⟩

/-- The clock takes the command of a unit that waits for its reply (R73, R174). -/
theorem takeClock_eq {s : State} {p : Port} {c : Code} {args : List Byte} {rest : List Command}
    (turn : ClockTurn s p c args rest) (block : c.block = .clock) (f : List Byte → Clock → Clock × Reply)
    (after : State → State) :
    whileReliable (takeClock c p f after) s = after ((s.setClock { (f args s.clock).1 with
      taking := s.clock.taking.set p rest }).hold p (f args s.clock).2) := by
  simp only [whileReliable, turn.reliable, if_true, takeClock, turn.taking]
  congr 1
  simp only [State.modUnit, State.hold, State.setClock_units]
  rw [CmdUnit.takeReply_waiting _ turn.phase block (by exact turn.marker)]

/-! ### The work of an indication -/

/-- The oldest indication's work, done while no request is in hand, completes (R32). -/
theorem State.perform_completion {s : State} {i : Indication} {rest : List Indication} (due : WorkDue s i rest)
    (f : State → State) :
    whileReliable (fun s => s.perform i f) s = ((f s).setTable { (f s).table with work := rest }).afterTable := by
  simp [whileReliable, due.reliable, State.perform, due.work, due.inHand]

/-- A work that changes the table alone, but for its arbiter, completes (R32). -/
theorem WorkDue.completion {s : State} {i : Indication} {rest : List Indication} (due : WorkDue s i rest) (t : Table)
    (kept : t.arbiter = s.table.arbiter) (free : t.inHand = none) (barred : Bool) :
    Completion { s with table := { s.table with work := rest }, sched := { s.sched with barred := barred } }
      (whileReliable (fun s => s.perform i fun s =>
        (s.setTable t).setSched { s.sched with barred := barred }) s)
      t s.alerts s.sched.request s.phases := by
  rw [State.perform_completion due]
  refine State.afterTable_completion ?_ rfl rfl ⟨rfl, rfl, rfl, rfl, rfl, rfl, rfl⟩ fun q => rfl
  obtain ⟨_, _, _, _, _, _, _, _, _, _⟩ := t
  simp_all [State.setSched, State.setTable, Table.vacated, Table.arbiter]

/-- The work of another indication does not come yet (R32). -/
theorem State.perform_other {s : State} {i : Indication} (f : State → State)
    (h : s.table.work.head? ≠ some i ∨ s.table.inHand ≠ none) : s.perform i f = s := by
  unfold State.perform
  split
  · next j rest e =>
    rw [if_neg]
    rintro ⟨rfl, hin⟩
    simp [e, hin] at h
  · rfl

end Sys2Proof.Machine
end

