-- ==== Sys2Proof/Laws/Links.lean ====
section
/-! SUPPORT. Frames and transfers: which bytes are judged valid, and what a whole transfer leaves. -/

namespace Sys2Proof.Machine

/-! ### Codes and check sums -/

theorem codeOf_byte (c : Code) : codeOf c.byte = some c := by cases c <;> decide

theorem byte_of_codeOf {b : Byte} {c : Code} (h : codeOf b = some c) : c.byte = b := by
  simpa using List.find?_some h

theorem byteSum_append (xs ys : List Byte) : byteSum (xs ++ ys) = byteSum xs + byteSum ys := by
  induction xs with
  | nil => simp [byteSum]
  | cons x xs ih => simp only [byteSum, List.cons_append, List.foldr_cons] at *; rw [ih, BitVec.add_assoc]

theorem byteSum_single (b : Byte) : byteSum [b] = b := by simp [byteSum]

theorem byteSum_withCheck (xs : List Byte) : byteSum (withCheck xs) = 0 := by
  rw [withCheck, byteSum_append, byteSum_single, BitVec.add_right_neg]; rfl

/-- A last byte that brings a sum to 0 is the check byte. -/
theorem eq_withCheck {xs : List Byte} {b : Byte} (h : byteSum (xs ++ [b]) = 0) : xs ++ [b] = withCheck xs := by
  rw [byteSum_append, byteSum_single] at h
  rw [withCheck, eq_neg_of_add_eq_zero_right h]

@[simp] theorem byteOf_toNat_small {n : Nat} (h : n ≤ 40) : (byteOf n).toNat = n := by
  simp [byteOf, BitVec.toNat_ofNat]; omega

theorem byteOf_toNat (b : Byte) : byteOf b.toNat = b := by simp [byteOf]

/-! ### Valid frames -/

theorem requestBytes_eq (c : Code) (args : List Byte) : requestBytes c args
    = c.byte :: byteOf args.length :: (args ++ [-(byteSum (c.byte :: byteOf args.length :: args))]) := rfl

theorem requestBytes_length (c : Code) (args : List Byte) : (requestBytes c args).length = args.length + 3 := by
  simp [requestBytes_eq]

theorem judgeFrame_request {p : Port} {c : Code} {args : List Byte} (fits : args.length ≤ 40)
    (port : ¬ (p = .B ∧ c = .rply)) : judgeFrame p (requestBytes c args) = some ⟨c, args⟩ := by
  have sum : byteSum (requestBytes c args) = 0 := byteSum_withCheck _
  rw [requestBytes_eq] at sum ⊢
  simp only [judgeFrame, byteOf_toNat_small fits, codeOf_byte, sum]
  simp [Config.maxArgs, fits, port]

/-! ### Whole transfers -/

/-- The end of a transaction that reported a status byte formed from a unit clears all three sticky flags (R171). -/
theorem CmdUnit.clearReported_status (u : CmdUnit) : u.clearReported u.status = u.reported .A := by
  have places : ∀ a b c d e f g h : Bool,
      let x := bitAt 7 a ||| bitAt 6 b ||| bitAt 5 c ||| bitAt 4 d ||| bitAt 3 e ||| bitAt 2 f ||| bitAt 1 g
        ||| bitAt 0 h
      x.getLsbD 5 = c ∧ x.getLsbD 4 = d ∧ x.getLsbD 0 = h := by decide
  obtain ⟨h5, h4, h0⟩ := places u.phase.ready u.phase.busy u.refused u.frameFault u.offer u.alerting u.valid u.restarted
  rw [CmdUnit.clearReported, CmdUnit.status, h5, h4, h0]
  simp [CmdUnit.reported]

/-- The state a whole transfer leaves on a link before its frame is judged. -/
def State.transferred (s : State) (p : Port) (count : Nat) : State :=
  match p with
  | .A => { s with
      linkA := { line := .high, sdo := s.units.a.status :: List.replicate (count - 1) 0 }
      units := s.units.set .A (s.units.a.reported .A) }
  | .B => { s with linkB := { s.linkB with line := .none, acks := List.replicate (count + 1) true } }

/-- Bytes taken in a select period that has its status byte out and whose request is no RPLY yet. -/
theorem foldl_clockByteA (s : State) (q : Period) (bytes : List Byte) (line : s.linkA.line = .period q)
    (loose : q.bits = []) (und : q.rply = .undecided) (begun : q.bytes ≠ [])
    (plain : ∀ k ≤ bytes.length, endsRply (q.bytes ++ bytes.take k) = false) :
    bytes.foldl State.clockByteA s = { s with linkA :=
      { line := .period { q with bytes := q.bytes ++ bytes }, sdo := s.linkA.sdo ++ List.replicate bytes.length 0 } } := by
  induction bytes generalizing s q with
  | nil => simp [← line]
  | cons b bytes ih =>
    have e : s.clockByteA b = { s with linkA :=
        { line := .period { q with bytes := q.bytes ++ [b] }, sdo := s.linkA.sdo ++ [0] } } := by
      have h := plain 1 (by simp)
      simp only [List.take_succ_cons, List.take_zero] at h
      simp [State.clockByteA, line, loose, State.byteA, und, h, Period.nextOut, begun, State.setLineA]
    rw [List.foldl_cons, e, ih _ { q with bytes := q.bytes ++ [b] } rfl loose und (by simp)]
    · simp [List.replicate_succ]
    · intro k hk
      have h := plain (k + 1) (by simpa using hk)
      simpa using h

/-- A whole select period whose bytes never end an RPLY request. -/
theorem frameEvent_A {s : State} {bytes : List Byte} (serving : s.serving = true) (idle : s.LineIdle .A)
    (nonempty : bytes ≠ []) (plain : ∀ k ≤ bytes.length, endsRply (bytes.take k) = false) :
    s.frameEvent .A (.whole bytes) = (s.transferred .A bytes.length).endFrame .A bytes := by
  obtain ⟨b, bytes, rfl⟩ := List.exists_cons_of_ne_nil nonempty
  have line : s.linkA.line = .high := idle
  have falls : s.selectFalls = { s with linkA := { line := .period ⟨s.units.a.status, [], [], .undecided⟩, sdo := [] } } := by
    simp [State.selectFalls, line, serving]
  have one := plain 1 (by simp)
  simp only [List.take_succ_cons, List.take_zero] at one
  have first : s.selectFalls.clockByteA b = { s with linkA :=
      { line := .period ⟨s.units.a.status, [b], [], .undecided⟩, sdo := [s.units.a.status] } } := by
    simp [falls, State.clockByteA, State.byteA, one, Period.nextOut, State.setLineA]
  rw [State.frameEvent, State.frameEventA, List.foldl_cons, first,
    foldl_clockByteA _ ⟨s.units.a.status, [b], [], .undecided⟩ bytes rfl rfl rfl (by simp)]
  · simp [State.selectRises, State.endPeriod, State.modUnit, State.setLineA, State.transferred,
      CmdUnit.clearReported_status]
  · intro k hk
    simpa using plain (k + 1) (by simpa using hk)

theorem foldl_clockByteB (s : State) (bytes got : List Byte) (line : s.linkB.line = .write got []) :
    bytes.foldl State.clockByteB s = { s with linkB := { s.linkB with
      line := .write (got ++ bytes) [], acks := s.linkB.acks ++ List.replicate bytes.length true } } := by
  induction bytes generalizing s got with
  | nil => simp [← line]
  | cons b bytes ih =>
    have e : s.clockByteB b = s.takeByteB (got ++ [b]) := by simp [State.clockByteB, line]
    rw [List.foldl_cons, e, ih _ (got ++ [b]) rfl]
    simp [State.takeByteB, List.replicate_succ]

/-- A whole write to the address the part holds. -/
theorem frameEvent_B {s : State} {bytes : List Byte} (serving : s.serving = true) (idle : s.LineIdle .B)
    (nonempty : bytes ≠ []) :
    s.frameEvent .B (.whole bytes) = (s.transferred .B bytes.length).endFrame .B bytes := by
  have line : s.linkB.line = .none := idle
  have begins : s.startB s.linkB.address false = { s with linkB := { s.linkB with line := .write [] [], acks := [true] } } := by
    simp [State.startB, State.endTransferB, line, serving]
  rw [State.frameEvent, State.frameEventB, begins, foldl_clockByteB _ bytes [] rfl]
  simp [State.endTransferB, State.setLineB, nonempty, State.transferred, List.replicate_succ]

/-- The bytes of a frame that does not begin with the code of RPLY never end an RPLY request. -/
theorem endsRply_take {b : Byte} {bytes : List Byte} (other : b ≠ 0x01) (k : Nat) :
    endsRply ((b :: bytes).take k) = false := by
  cases k with
  | zero => rfl
  | succ k =>
    rw [List.take_succ_cons]
    rcases bytes.take k with _ | ⟨n, rest⟩
    · rfl
    · have : (b == (Code.rply.byte)) = false := by simpa [Code.byte] using other
      simp [endsRply, this]

theorem Code.byte_ne_rply {c : Code} (h : c ≠ .rply) : c.byte ≠ 0x01 := by
  cases c <;> first | decide | exact absurd rfl h

/-- A whole transfer that does not begin with the code of RPLY on port A leaves the link idle and its frame judged. -/
theorem frameEvent_whole {p : Port} {s : State} {bytes : List Byte} (serving : s.serving = true) (idle : s.LineIdle p)
    (nonempty : bytes ≠ []) (other : p = .A → bytes.head? ≠ some 0x01) :
    s.frameEvent p (.whole bytes) = (s.transferred p bytes.length).endFrame p bytes := by
  cases p with
  | A =>
    refine frameEvent_A serving idle nonempty fun k _ => ?_
    obtain ⟨b, bytes, rfl⟩ := List.exists_cons_of_ne_nil nonempty
    exact endsRply_take (by simpa using other rfl) k
  | B => exact frameEvent_B serving idle nonempty

/-- A whole transfer of a valid frame other than RPLY: the unit takes the command (R172). -/
theorem frameEvent_command {p : Port} {c : Code} {args : List Byte} {s : State} (serving : s.serving = true)
    (idle : s.LineIdle p) (fits : args.length ≤ 40) (other : c ≠ .rply) :
    s.frameEvent p (.whole (requestBytes c args)) = (s.transferred p (args.length + 3)).takeFrame p ⟨c, args⟩ := by
  rw [frameEvent_whole serving idle (by simp [requestBytes_eq]), State.endFrame,
    judgeFrame_request fits (fun h => other h.2), requestBytes_length]
  intro _ h
  exact Code.byte_ne_rply other (by simpa [requestBytes_eq] using h)

/-! ### What a transfer leaves alone -/

theorem State.transferred_frame (s : State) (p : Port) (n : Nat) :
    UnitOnly p s (s.transferred p n) ((s.units.get p).reported p) := by
  cases p
  · exact ⟨⟨rfl, rfl, rfl, rfl, rfl, rfl, fun q hq => by cases q <;> first | rfl | exact absurd rfl hq,
      fun h => absurd rfl h, fun _ => rfl, rfl⟩, rfl, rfl, rfl⟩
  · exact ⟨⟨rfl, rfl, rfl, rfl, rfl, rfl, fun q hq => rfl, fun _ => rfl, fun h => absurd rfl h, rfl⟩, rfl, rfl, rfl⟩

/-- A change of the port's own unit after a transfer. -/
theorem UnitOnly.modUnit {p : Port} {s s' : State} {u : CmdUnit} (h : UnitOnly p s s' u) (f : CmdUnit → CmdUnit) :
    UnitOnly p s (s'.modUnit p f) (f u) := by
  refine ⟨⟨h.frame.power, h.frame.retention, h.frame.sched, h.frame.resetAsserted, h.frame.freeCount,
    h.frame.pending, fun q hq => ?_, h.frame.linkA, h.frame.linkB, ?_⟩, h.clock, h.table, ?_⟩
  · rw [State.modUnit_units, PerPort.get_set_other _ _ hq]; exact h.frame.unit q hq
  · cases p <;> exact h.frame.idle
  · rw [State.modUnit_units, PerPort.get_set_same, h.unit]

theorem LinkFrame.modUnit {p : Port} {s s' : State} (h : LinkFrame p s s') (f : CmdUnit → CmdUnit) :
    LinkFrame p s (s'.modUnit p f) := by
  refine ⟨h.power, h.retention, h.sched, h.resetAsserted, h.freeCount, h.pending, fun q hq => ?_, h.linkA, h.linkB, ?_⟩
  · rw [State.modUnit_units, PerPort.get_set_other _ _ hq]; exact h.unit q hq
  · cases p <;> exact h.idle

theorem LinkFrame.setTable {p : Port} {s s' : State} (h : LinkFrame p s s') (t : Table) :
    LinkFrame p s (s'.setTable t) :=
  ⟨h.power, h.retention, h.sched, h.resetAsserted, h.freeCount, h.pending, h.unit, h.linkA, h.linkB,
    by cases p <;> exact h.idle⟩

theorem LinkFrame.setClock {p : Port} {s s' : State} (h : LinkFrame p s s') (k : Clock) :
    LinkFrame p s (s'.setClock k) :=
  ⟨h.power, h.retention, h.sched, h.resetAsserted, h.freeCount, h.pending, h.unit, h.linkA, h.linkB,
    by cases p <;> exact h.idle⟩

@[simp] theorem CmdUnit.reported_phase (u : CmdUnit) (p : Port) : (u.reported p).phase = u.phase := by cases p <;> rfl

/-! ### RPLY on port A -/

/-- Bytes clocked after the check byte of an RPLY carry the reply frame and then 0x00, or 0x00 throughout (R176). -/
theorem foldl_clockByteA_judged (s : State) (q : Period) (bytes : List Byte) (line : s.linkA.line = .period q)
    (loose : q.bits = []) (judged : q.rply ≠ .undecided) (begun : q.bytes ≠ []) :
    bytes.foldl State.clockByteA s = { s with linkA :=
      { line := .period { q with bytes := q.bytes ++ bytes }
        sdo := s.linkA.sdo ++ (List.range bytes.length).map fun i => match q.rply with
          | .chosen start frame _ => frame.getD (q.bytes.length + i - start) 0
          | .undecided => 0
          | .faulty => 0 } } := by
  induction bytes generalizing s q with
  | nil => simp [← line]
  | cons b bytes ih =>
    have e : s.clockByteA b = { s with linkA :=
        { line := .period { q with bytes := q.bytes ++ [b] }
          sdo := s.linkA.sdo ++ [match q.rply with
            | .chosen start frame _ => frame.getD (q.bytes.length - start) 0
            | .undecided => 0
            | .faulty => 0] } } := by
      simp [State.clockByteA, line, loose, State.byteA, judged, Period.nextOut, begun, State.setLineA]
      all_goals cases q.rply <;> rfl
    rw [List.foldl_cons, e, ih _ { q with bytes := q.bytes ++ [b] } rfl loose judged (by simp)]
    simp only [List.append_assoc, List.length_cons, List.range_succ_eq_map, List.map_cons, List.map_map,
      List.length_append, List.length_nil, List.singleton_append, Nat.add_zero]
    congr 5
    funext i
    simp only [Function.comp, Nat.succ_eq_add_one]
    rw [show q.bytes.length + (0 + 1) + i = q.bytes.length + (i + 1) by omega]

/-- The bytes of an RPLY request up to its check byte do not end it. -/
theorem endsRply_short {n : Byte} {args : List Byte} (count : args.length ≤ n.toNat) :
    ∀ k ≤ (Code.rply.byte :: n :: args).length, endsRply ((Code.rply.byte :: n :: args).take k) = false := by
  intro k _
  rcases k with _ | _ | k
  · rfl
  · rfl
  · simp only [List.take_succ_cons, endsRply, List.length_take]
    have : ¬ min k args.length = n.toNat + 1 := by omega
    simp [this]

/-- A select period of an RPLY request with any check byte, and further bytes clocked. -/
theorem frameEvent_rply {s : State} {args : List Byte} (check : Byte) (clocked : Nat) (serving : s.serving = true)
    (idle : s.LineIdle .A) (fits : args.length ≤ 40) :
    let head := Code.rply.byte :: byteOf args.length :: args
    let r : RplyJudged := match judgeFrame .A (head ++ [check]) with
      | some _ => .chosen (args.length + 3) s.units.a.fetch.1 s.units.a.fetch.2
      | none => .faulty
    let u := match judgeFrame .A (head ++ [check]) with
      | some _ => s.units.a
      | none => { s.units.a with frameFault := true }
    s.frameEvent .A (.whole (head ++ [check] ++ List.replicate clocked 0))
      = ({ s with
          linkA := { line := .high, sdo := s.units.a.status :: List.replicate (args.length + 2) 0
            ++ (List.range clocked).map fun i => match r with
              | .chosen start frame _ => frame.getD (args.length + 3 + i - start) 0
              | .undecided => 0
              | .faulty => 0 }
          units := s.units.set .A u }).endPeriod
            ⟨s.units.a.status, head ++ [check] ++ List.replicate clocked 0, [], r⟩ := by
  intro head r u
  have line : s.linkA.line = .high := idle
  have falls : s.selectFalls = { s with linkA := { line := .period ⟨s.units.a.status, [], [], .undecided⟩, sdo := [] } } := by
    simp [State.selectFalls, line, serving]
  have first : s.selectFalls.clockByteA Code.rply.byte = { s with linkA :=
      { line := .period ⟨s.units.a.status, [Code.rply.byte], [], .undecided⟩, sdo := [s.units.a.status] } } := by
    simp [falls, State.clockByteA, State.byteA, endsRply, Period.nextOut, State.setLineA]
  have count : (byteOf args.length).toNat = args.length := byteOf_toNat_small fits
  have upto : head.foldl State.clockByteA s.selectFalls = { s with linkA :=
      { line := .period ⟨s.units.a.status, head, [], .undecided⟩
        sdo := s.units.a.status :: List.replicate (args.length + 1) 0 } } := by
    rw [List.foldl_cons, first, foldl_clockByteA _ ⟨s.units.a.status, [Code.rply.byte], [], .undecided⟩ _ rfl rfl rfl
      (by simp)]
    · simp [head]
    · intro k hk
      simpa using endsRply_short (n := byteOf args.length) (args := args) (by omega) (k + 1) (by simpa using hk)
  have ends : endsRply (head ++ [check]) = true := by
    simp [endsRply, head, count, Config.maxArgs, fits]
  have checked : (head ++ [check]).foldl State.clockByteA s.selectFalls = { s with
      linkA := { line := .period ⟨s.units.a.status, head ++ [check], [], r⟩
                 sdo := s.units.a.status :: List.replicate (args.length + 2) 0 }
      units := s.units.set .A u } := by
    rw [List.foldl_append, upto, List.foldl_cons, List.foldl_nil]
    simp only [State.clockByteA, List.isEmpty_nil, if_true, State.byteA, ends, and_self]
    have len : (head ++ [check]).length = args.length + 3 := by simp [head]
    cases e : judgeFrame .A (head ++ [check]) with
    | some c =>
      have er : r = .chosen (args.length + 3) s.units.a.fetch.1 s.units.a.fetch.2 := by simp only [r, e]
      have eu : u = s.units.get .A := by simp only [u, e, PerPort.get_A]
      rw [er, eu, PerPort.set_get]
      simp [State.setLineA, Period.nextOut, head, List.replicate_succ']
    | none =>
      have er : r = .faulty := by simp only [r, e]
      have eu : u = { s.units.a with frameFault := true } := by simp only [u, e]
      rw [er, eu]
      simp [State.setLineA, State.faultFrame, State.modUnit, Period.nextOut, head, List.replicate_succ']
  have judged : r ≠ .undecided := by
    simp only [r]; split <;> simp
  have len : (head ++ [check]).length = args.length + 3 := by simp [head]
  rw [State.frameEvent, State.frameEventA, List.foldl_append, checked,
    foldl_clockByteA_judged _ ⟨s.units.a.status, head ++ [check], [], r⟩ _ rfl rfl judged (by simp)]
  clear_value r u
  cases r <;> simp [State.selectRises, State.setLineA, head]

end Sys2Proof.Machine
end

