-- ==== Sys2Proof/Laws/Step.lean ====
section
/-! SUPPORT. Everything a command can do to what the table stores and to the calendar, said once: `exec_change`. A law
of the table is kept by every step when it is kept by the changes of `Table.Keeps`. -/

namespace Sys2Proof.Machine

/-! ### Nothing stored changed -/

/-- What the table stores, the calendar and the queue stand, and the blocks did not become reliable. -/
structure Still (s s' : State) : Prop where
  stored : s'.table.stored = s.table.stored
  calendar : s'.clock.calendar = s.clock.calendar
  reliable : s'.reliable = true → s.reliable = true
  pending : s'.pending = s.pending

theorem Still.refl (s : State) : Still s s := ⟨rfl, rfl, id, rfl⟩

theorem Still.trans {s t u : State} (a : Still s t) (b : Still t u) : Still s u :=
  ⟨b.stored.trans a.stored, b.calendar.trans a.calendar, a.reliable ∘ b.reliable, b.pending.trans a.pending⟩

/-- The same, read backwards from the last change. -/
theorem Still.after {s t u : State} (b : Still t u) (a : Still s t) : Still s u := a.trans b

theorem Still.foldl {α : Type} (f : State → α → State) (h : ∀ s a, Still s (f s a)) (l : List α) (s : State) :
    Still s (l.foldl f s) := by
  induction l generalizing s with
  | nil => exact .refl s
  | cons a l ih => exact (h s a).trans (ih _)

theorem Settled.still {s s' : State} (h : Settled s s') : Still s s' :=
  ⟨h.stored, by rw [h.clock], by simp [State.reliable, h.outside.power, h.outside.retention], h.outside.pending⟩

theorem State.arbitrate_still (s : State) : Still s s.arbitrate := s.arbitrate_settled.still

theorem State.afterTable_still (s : State) : Still s s.afterTable :=
  Still.trans (t := s.presentTable) ⟨rfl, rfl, id, rfl⟩ s.presentTable.judge_arbitrate_settled.still

theorem State.afterClock_still (s : State) : Still s s.afterClock :=
  Still.trans (t := s.presentClock) ⟨rfl, rfl, id, rfl⟩ s.presentClock.judge_arbitrate_settled.still

theorem State.completeCommand_still (s : State) (p : Port) (r : Reply) : Still s (s.completeCommand p r) :=
  Still.trans (t := (s.setTable s.table.release).modUnit p fun u => u.takeReply .table r) ⟨rfl, rfl, id, rfl⟩
    (State.afterTable_still _)

theorem State.completeSched_still (s : State) : Still s s.completeSched :=
  Still.trans (t := (s.setTable s.table.release).setSched { s.sched with request := none }) ⟨rfl, rfl, id, rfl⟩
    (State.afterTable_still _)

/-! ### Transfers -/

theorem State.routeCommand_still (s : State) (p : Port) (c : Command) : Still s (s.routeCommand p c) := by
  unfold State.routeCommand
  split
  · exact ⟨rfl, rfl, id, rfl⟩
  · exact ⟨rfl, rfl, id, rfl⟩
  · exact ⟨rfl, rfl, id, rfl⟩
  · exact Still.trans (t := (s.setTable (s.table.wait p c)).modUnit p fun u => { u with phase := .pending c })
      ⟨rfl, rfl, id, rfl⟩ (State.arbitrate_still _)

theorem State.cancel_still (s : State) (p : Port) : Still s (s.cancel p) := by
  unfold State.cancel
  split <;> exact ⟨rfl, rfl, id, rfl⟩

theorem State.endFrame_still (s : State) (p : Port) (bytes : List Byte) : Still s (s.endFrame p bytes) := by
  unfold State.endFrame
  split
  · unfold State.takeFrame
    split
    · exact .refl s
    split
    · exact s.cancel_still p
    split
    · exact s.routeCommand_still p _
    · exact ⟨rfl, rfl, id, rfl⟩
  · exact ⟨rfl, rfl, id, rfl⟩

theorem State.byteA_still (s : State) (q : Period) (b : Byte) : Still s (s.byteA q b) := by
  unfold State.byteA
  dsimp only
  repeat' split
  all_goals exact ⟨rfl, rfl, id, rfl⟩

theorem State.clockBitA_still (s : State) (b : Bool) : Still s (s.clockBitA b) := by
  unfold State.clockBitA
  split
  · split
    · exact ⟨rfl, rfl, id, rfl⟩
    · exact s.byteA_still _ _
  · exact .refl s
  · exact .refl s

theorem State.clockByteA_still (s : State) (b : Byte) : Still s (s.clockByteA b) := by
  unfold State.clockByteA
  split
  · split
    · exact s.byteA_still _ _
    · exact Still.foldl _ State.clockBitA_still _ s
  · exact .refl s
  · exact .refl s

theorem State.selectFalls_still (s : State) : Still s s.selectFalls := by
  unfold State.selectFalls
  repeat' split
  all_goals exact ⟨rfl, rfl, id, rfl⟩

theorem State.selectRises_still (s : State) : Still s s.selectRises := by
  unfold State.selectRises
  split
  · exact .refl s
  · exact ⟨rfl, rfl, id, rfl⟩
  · split
    · exact ⟨rfl, rfl, id, rfl⟩
    · unfold State.endPeriod
      dsimp only
      split
      · exact Still.after (State.endFrame_still _ _ _) ⟨rfl, rfl, id, rfl⟩
      · exact ⟨rfl, rfl, id, rfl⟩
      · split <;> exact ⟨rfl, rfl, id, rfl⟩

theorem State.endTransferB_still (s : State) : Still s s.endTransferB := by
  unfold State.endTransferB
  split
  · exact .refl s
  · split
    · exact ⟨rfl, rfl, id, rfl⟩
    · exact Still.trans (t := s.setLineB .none) ⟨rfl, rfl, id, rfl⟩ (State.endFrame_still _ _ _)
  · dsimp only
    repeat' split
    all_goals exact ⟨rfl, rfl, id, rfl⟩

theorem State.startB_still (s : State) (a : BitVec 7) (reads : Bool) : Still s (s.startB a reads) := by
  refine s.endTransferB_still.trans ?_
  unfold State.startB
  dsimp only
  repeat' split
  all_goals exact ⟨rfl, rfl, id, rfl⟩

theorem State.clockByteB_still (s : State) (b : Byte) : Still s (s.clockByteB b) := by
  unfold State.clockByteB
  split <;> exact ⟨rfl, rfl, id, rfl⟩

theorem State.clockBitB_still (s : State) (b : Bool) : Still s (s.clockBitB b) := by
  unfold State.clockBitB
  split
  · exact .refl s
  · split <;> exact ⟨rfl, rfl, id, rfl⟩
  · exact ⟨rfl, rfl, id, rfl⟩

/-- A transfer on a link leaves what the table stores, the calendar and the queue as they are. -/
theorem State.frameEvent_still (s : State) (p : Port) (ev : FrameEvent) : Still s (s.frameEvent p ev) := by
  cases p <;> cases ev
  · exact (s.selectFalls_still.trans (Still.foldl _ State.clockByteA_still _ _)).trans (State.selectRises_still _)
  · exact s.selectFalls_still
  · exact Still.foldl _ State.clockBitA_still _ s
  · exact s.selectRises_still
  · exact ((s.startB_still _ _).trans (Still.foldl _ State.clockByteB_still _ _)).trans (State.endTransferB_still _)
  · exact s.startB_still _ _
  · exact Still.foldl _ State.clockBitB_still _ s
  · exact s.endTransferB_still

theorem State.readEvent_still (s : State) (ev : ReadEvent) : Still s (s.readEvent ev) := by
  cases ev
  · exact ((s.startB_still _ _).trans (Still.foldl _ State.clockByteB_still _ _)).trans (State.endTransferB_still _)
  · exact s.startB_still _ _
  · exact Still.foldl _ State.clockBitB_still _ s
  · exact s.endTransferB_still

/-! ### Everything a command can do -/

/-- The services that change the table alone. -/
def tableServices : List (Port → InHand → List Byte → Table → Table × Reply) :=
  [servePlac, serveAmnd, serveHold, serveRsum, serveRtir, servePurg, serveList, serveQuot, serveInfo, serveTake,
    serveFnsh, serveCeil, serveNest, serveConfigure, serveRelease, serveGred, serveGclr]

/-- What a command did to what the table stores and to the calendar. -/
inductive Change (s s' : State) : Prop where
  /-- Nothing. -/
  | nothing (h : Still s s')
  /-- A service of the table. -/
  | service (f : Port → InHand → List Byte → Table → Table × Reply) (known : f ∈ tableServices) (p : Port)
      (g : InHand) (args : List Byte) (h : Still (s.setTable (f p g args s.table).1) s')
  /-- CKAD. -/
  | adjusted (n : Int) (sum : Nat) (range : sum ≤ Config.maxSecond)
      (h : Still ((s.setClock (s.clock.adjust sum)).setTable (s.table.shift n)) s')
  /-- CKST. -/
  | loaded (d : DateTime) (real : d.real = true) (h : Still (s.setClock (s.clock.load d)) s')
  /-- A calendar step. -/
  | stepped (h : Still (s.setClock s.clock.stepCalendar) s')
  /-- FIRE. -/
  | fired (g : InHand) (h : Still (s.setTable (s.table.fire g)) s')
  /-- EXPIRE of a raised order call. -/
  | expiredCall (e : Elapsed) (i : Fin 64) (o : Order) (c : Call) (order : s.table.order i = some o)
      (call : o.call = some c) (raised : c.state = .raised)
      (h : Still (s.setTable (s.table.setOrder i (o.expired e c))) s')
  /-- EXPIRE of a finish deadline. -/
  | expiredEntry (p : Port) (n : Nat)
      (h : Still (s.setTable (s.table.setContext p { s.table.contexts.get p with
        stack := (s.table.contexts.get p).stack.modify n Entry.markOverdue })) s')
  /-- RESET_WORK. -/
  | resetWork (e : Elapsed) (h : Still (s.setTable (s.table.resetWork e)) s')
  /-- BACKUP_ENTRY_WORK. -/
  | backupWork (h : Still (s.setTable s.table.backupWork) s')
  /-- RETURN_WORK. -/
  | returnWork (e : Elapsed) (h : Still (s.setTable (s.table.returnWork e)) s')
  /-- Power-on values. -/
  | poweredOn (table : s'.table = Table.powerOn) (clock : s'.clock = Clock.powerOn) (pending : s'.pending = s.pending)
  /-- The blocks are not reliable. -/
  | lost (reliable : s'.reliable = false) (pending : s'.pending = s.pending)

/-- An effect of the blocks: nothing while they are not reliable. -/
theorem Change.ofReliable {s : State} {f : State → State} (h : Change s (f s)) : Change s (whileReliable f s) := by
  unfold whileReliable
  split
  · exact h
  · exact .nothing (.refl s)

/-- A command served at the table. -/
theorem serve_change (c : Code) (p : Port) {f : Port → InHand → List Byte → Table → Table × Reply}
    (known : f ∈ tableServices) (s : State) : Change s (serve c p (tableService f) s) := by
  unfold serve
  split
  · exact .service f known p _ _ (State.completeCommand_still _ _ _)
  · exact .nothing (.refl s)

theorem serveLook_change (p : Port) (s : State) : Change s (serve .look p serveLook s) := by
  unfold serve
  split
  · refine .nothing ?_
    unfold serveLook
    repeat' split
    all_goals exact State.completeCommand_still _ _ _
  · exact .nothing (.refl s)

theorem serveCkad_change (s : State) : Change s (serve .ckad .A serveCkad s) := by
  unfold serve
  split
  · next g args _ =>
    have same : ∀ r, Change s (s.completeCommand .A r) := fun r => .nothing (State.completeCommand_still _ _ _)
    unfold serveCkad
    split
    · exact same _
    · split
      · dsimp only
        split
        · exact same _
        · next n _ _ range =>
          refine .adjusted n (secondNumber s.clock.calendar.now + n).toNat ?_
            (Still.after (State.completeCommand_still _ _ _) ?_)
          · have := not_or.mp range; omega
          · exact ⟨rfl, rfl, id, rfl⟩
      · exact same _
  · exact .nothing (.refl s)

/-- A command the clock takes. -/
theorem takeClock_change {c : Code} {p : Port} {f : List Byte → Clock → Clock × Reply} {after : State → State}
    (still : ∀ s, Still s (after s)) (s : State) (calendar : ∀ args, (f args s.clock).1.calendar = s.clock.calendar) :
    Change s (takeClock c p f after s) := by
  unfold takeClock
  split
  · next cmd _ _ =>
    split
    · exact .nothing (Still.after (still _) ⟨rfl, calendar cmd.args, id, rfl⟩)
    · exact .nothing (.refl s)
  · exact .nothing (.refl s)

theorem execCkst_change (s : State) : Change s (takeClock .ckst .A clockSet State.afterClock s) := by
  unfold takeClock
  split
  · next cmd rest taking =>
    split
    · dsimp only
      have same : ∀ r, Change s (State.afterClock ((s.setClock { s.clock with taking := s.clock.taking.set .A rest }).modUnit .A
          fun u => u.takeReply .clock r)) := fun r =>
        .nothing (Still.after (State.afterClock_still _) ⟨rfl, rfl, id, rfl⟩)
      unfold clockSet
      split
      · split
        · exact same _
        · split
          · exact same _
          · next d time =>
            exact .loaded d (timeOf_real time) (Still.after (State.afterClock_still _) ⟨rfl, rfl, id, rfl⟩)
      · exact same _
    · exact .nothing (.refl s)
  · exact .nothing (.refl s)

theorem State.second_change (s : State) : Change s s.second := by
  unfold State.second
  split
  · unfold Clock.second
    dsimp only
    split
    · refine .stepped (Still.after (State.afterClock_still _) ⟨rfl, ?_, id, rfl⟩)
      simp only [Clock.stepCalendar, State.setClock_clock]
      cases s.clock.calendar.next <;> rfl
    · exact .nothing (Still.after (State.afterClock_still _) ⟨rfl, rfl, id, rfl⟩)
  · exact .nothing (.refl s)

theorem State.settle_change (s : State) : Change s s.settle := by
  unfold State.settle
  split
  · exact .nothing (Still.after (State.afterClock_still _) ⟨rfl, rfl, id, rfl⟩)
  · exact .nothing (.refl s)

theorem State.crystalCycle_change (s : State) : Change s s.crystalCycle := by
  unfold State.crystalCycle
  split
  · split
    · exact .nothing ⟨rfl, rfl, id, rfl⟩
    · exact s.second_change
  · split
    · split
      · exact .nothing ⟨rfl, rfl, id, rfl⟩
      · exact s.settle_change
    · exact .nothing (.refl s)

theorem State.loseOscillator_change (s : State) : Change s s.loseOscillator := by
  unfold State.loseOscillator
  split
  · exact .nothing (Still.after (State.afterClock_still _) ⟨rfl, rfl, id, rfl⟩)
  · exact .nothing (.refl s)

theorem State.returnOscillation_change (s : State) : Change s s.returnOscillation := by
  unfold State.returnOscillation
  split
  · exact .nothing (Still.after (State.afterClock_still _) ⟨rfl, rfl, id, rfl⟩)
  · exact .nothing (.refl s)

theorem State.seeFirstCycle_change (s : State) : Change s s.seeFirstCycle := by
  unfold State.seeFirstCycle
  split
  · exact .nothing ⟨rfl, rfl, id, rfl⟩
  · exact .nothing (.refl s)

/-! ### EXPIRE -/

/-- The earliest lapsed deadline is one of the list, and it has lapsed (R130). -/
theorem earliestLapsed_mem {e : Elapsed} {l : List (DeadlineHolder × Elapsed)} {x : DeadlineHolder × Elapsed}
    (h : earliestLapsed e l = some x) : x ∈ l ∧ lapsed x.2 e = true := by
  induction l with
  | nil => simp [earliestLapsed] at h
  | cons d l ih =>
    unfold earliestLapsed at h
    split at h
    · next lap =>
      split at h
      · exact ⟨by simp_all, by simp_all⟩
      · next b e' =>
        split at h
        · exact ⟨List.mem_cons_of_mem _ (ih (by rw [e', Option.some.inj h])).1, (ih (by rw [e', Option.some.inj h])).2⟩
        · exact ⟨by simp_all, by simp_all⟩
    · exact ⟨List.mem_cons_of_mem _ (ih h).1, (ih h).2⟩

theorem entryDeadlines_holder {p : Port} {l : List Entry} {n : Nat} {x : DeadlineHolder × Elapsed}
    (h : x ∈ entryDeadlines p n l) : ∃ k, x.1 = .entry p k := by
  induction l generalizing n with
  | nil => simp [entryDeadlines] at h
  | cons e l ih =>
    unfold entryDeadlines at h
    split at h
    · rcases List.mem_cons.mp h with rfl | h
      · exact ⟨_, rfl⟩
      · exact ih h
    · exact ih h

/-- A deadline held by a call stands in the RAISED call of that slot's order. -/
theorem Table.deadlines_call {t : Table} {i : Fin 64} {d : Elapsed} (h : (DeadlineHolder.call i, d) ∈ t.deadlines) :
    ∃ o c, t.order i = some o ∧ o.call = some c ∧ c.state = .raised ∧ c.deadline = some d := by
  simp only [Table.deadlines, List.mem_append, List.mem_reverse] at h
  rcases h with (h | h) | h
  · simp only [Table.callDeadlines, List.mem_filterMap, Option.map_eq_some_iff, Prod.mk.injEq,
      DeadlineHolder.call.injEq] at h
    obtain ⟨j, _, e, h, rfl, rfl⟩ := h
    obtain ⟨o, ho, h⟩ := Option.bind_eq_some_iff.mp h
    unfold Order.raisedDeadline at h
    split at h
    · next c hc =>
      split at h
      · next hr => exact ⟨o, c, ho, hc, hr, h⟩
      · simp at h
    · simp at h
  · obtain ⟨k, h⟩ := entryDeadlines_holder h; simp at h
  · obtain ⟨k, h⟩ := entryDeadlines_holder h; simp at h

theorem State.expire_change (s : State) : Change s s.expire := by
  unfold State.expire
  split
  · next g _ =>
    split
    · unfold State.expireAt
      split
      · exact .nothing (State.completeSched_still _)
      · next i d h =>
        obtain ⟨o, c, order, call, raised, _⟩ := Table.deadlines_call (earliestLapsed_mem h).1
        unfold State.expireCall
        simp only [order, call]
        refine .expiredCall g.elapsed i o c order call raised (Still.after (State.completeSched_still _) ?_)
        split <;> exact ⟨rfl, rfl, id, rfl⟩
      · next p n _ h =>
        exact .expiredEntry p n (Still.after (State.completeSched_still _) ⟨rfl, rfl, id, rfl⟩)
    · exact .nothing (.refl s)
    · exact .nothing (.refl s)
  · exact .nothing (.refl s)

theorem State.fire_change (s : State) : Change s s.fire := by
  unfold State.fire
  split
  · split
    · exact .fired _ (State.completeSched_still _)
    · exact .nothing (.refl s)
    · exact .nothing (.refl s)
  · exact .nothing (.refl s)

/-! ### Work, supply and RESET -/

theorem State.perform_still {s : State} {i : Indication} {f : State → State} :
    s.perform i f = s ∨ Still (f s) (s.perform i f) := by
  unfold State.perform
  split
  · split
    · exact .inr (Still.after (State.afterTable_still _) ⟨rfl, rfl, id, rfl⟩)
    · exact .inl rfl
  · exact .inl rfl

theorem State.assertReset_change (s : State) : Change s s.assertReset := by
  unfold State.assertReset
  dsimp only
  repeat' split
  all_goals exact .nothing ⟨rfl, rfl, id, rfl⟩

theorem State.powerUp_change (s : State) (high : Bool) : Change s (s.powerUp high) := by
  unfold State.powerUp
  split
  · exact .poweredOn rfl rfl rfl
  · exact .nothing (.refl s)

theorem State.enterBackup_change (s : State) (vbat : Nat) : Change s (s.enterBackup vbat) := by
  unfold State.enterBackup
  split
  · next main =>
    split
    · exact .lost rfl rfl
    · exact .nothing ⟨rfl, rfl, fun _ => by simp [State.reliable, main], rfl⟩
  · exact .nothing (.refl s)

theorem State.loseRetention_change (s : State) : Change s s.loseRetention := by
  unfold State.loseRetention
  split
  · next h => exact .lost (by simp [State.reliable, State.loseBlocks, State.setBlocks, h.1]) rfl
  · exact .nothing (.refl s)

theorem State.loseSupply_change (s : State) : Change s s.loseSupply := by
  unfold State.loseSupply
  split
  · exact .lost rfl rfl
  · exact .nothing (.refl s)

theorem State.returnHeld_change (s : State) (high : Bool) : Change s (s.returnHeld high) := by
  unfold State.returnHeld
  split
  · next h => exact .nothing ⟨rfl, rfl, fun _ => by simp [State.reliable, h.1, h.2], rfl⟩
  · exact .nothing (.refl s)

theorem State.returnLost_change (s : State) (high : Bool) : Change s (s.returnLost high) := by
  unfold State.returnLost
  split
  · exact .poweredOn rfl rfl rfl
  · exact .nothing (.refl s)

theorem State.releaseReset_change (s : State) (high : Bool) : Change s (s.releaseReset high) := by
  unfold State.releaseReset
  split
  · exact .nothing ⟨rfl, rfl, id, rfl⟩
  · exact .nothing (.refl s)

theorem clockHold_calendar (args : List Byte) (k : Clock) : (clockHold args k).1.calendar = k.calendar := by
  unfold clockHold Clock.halt; repeat' split
  all_goals rfl

theorem clockRelease_calendar (args : List Byte) (k : Clock) : (clockRelease args k).1.calendar = k.calendar := by
  unfold clockRelease Clock.resume; repeat' split
  all_goals rfl

theorem clockSettle_calendar (args : List Byte) (k : Clock) : (clockSettle args k).1.calendar = k.calendar := by
  unfold clockSettle; repeat' split
  all_goals rfl

theorem clockRead_calendar (args : List Byte) (k : Clock) : (clockRead args k).1.calendar = k.calendar := by
  unfold clockRead; split <;> rfl

/-- Everything a command can do to what the table stores and to the calendar. -/
theorem exec_change {i : Instr} {s s' : State} (h : exec i s = .next s') : Change s s' := by
  have known : ∀ f ∈ tableServices, f ∈ tableServices := fun _ h => h
  cases i <;> simp only [exec, execRequestFrame, execReadTransaction, execStat, execRply, execCncl, execPlac, execAmnd,
    execHold, execRsum, execRtir, execPurg, execLook, execList, execQuot, execInfo, execTake, execFnsh, execCeil,
    execNest, execGsetConfigure, execGsetRelease, execGred, execGclr, execCkrd, execCkst, execCkad, execCkhd, execCkrl,
    execCkse, execAlrd, execAlcl, execFire, execExpire, execSecond, execEndOfSettling, execOscillatorLoss,
    execReturnOfOscillation, execPowerOn, execBackupEntry, execBackupEntryWork, execRetentionLost,
    execReturnRetentionHeld, execReturnWork, execReturnRetentionLost, execResetAssertion, execResetWork,
    execResetRelease, execWithoutSupply, execFirstCycleSeen, Host.Outcome.next.injEq] at h <;> subst h
  case requestFrame p ev => exact .nothing (s.frameEvent_still p ev)
  case readTransaction ev => exact .nothing (s.readEvent_still ev)
  case stat p args => exact .nothing (s.frameEvent_still p _)
  case rply args clocked => exact .nothing (s.frameEvent_still .A _)
  case cncl p args => exact .nothing (s.frameEvent_still p _)
  case alrd p args => exact .nothing (s.frameEvent_still p _)
  case alcl p args => exact .nothing (s.frameEvent_still p _)
  case plac p => exact .ofReliable (serve_change .plac p (by simp [tableServices]) s)
  case amnd p => exact .ofReliable (serve_change .amnd p (by simp [tableServices]) s)
  case hold p => exact .ofReliable (serve_change .hold p (by simp [tableServices]) s)
  case rsum p => exact .ofReliable (serve_change .rsum p (by simp [tableServices]) s)
  case rtir p => exact .ofReliable (serve_change .rtir p (by simp [tableServices]) s)
  case purg p => exact .ofReliable (serve_change .purg p (by simp [tableServices]) s)
  case list p => exact .ofReliable (serve_change .list p (by simp [tableServices]) s)
  case quot => exact .ofReliable (serve_change .quot .A (by simp [tableServices]) s)
  case info p => exact .ofReliable (serve_change .info p (by simp [tableServices]) s)
  case take p => exact .ofReliable (serve_change .take p (by simp [tableServices]) s)
  case fnsh p => exact .ofReliable (serve_change .fnsh p (by simp [tableServices]) s)
  case ceil p => exact .ofReliable (serve_change .ceil p (by simp [tableServices]) s)
  case nest p => exact .ofReliable (serve_change .nest p (by simp [tableServices]) s)
  case gred p => exact .ofReliable (serve_change .gred p (by simp [tableServices]) s)
  case gclr p => exact .ofReliable (serve_change .gclr p (by simp [tableServices]) s)
  case look p => exact .ofReliable (serveLook_change p s)
  case ckad => exact .ofReliable (serveCkad_change s)
  case gsetConfigure =>
    refine .ofReliable ?_
    split
    · exact serve_change .gset .A (by simp [tableServices]) s
    · exact .nothing (.refl s)
  case gsetRelease =>
    refine .ofReliable ?_
    split
    · exact serve_change .gset .A (by simp [tableServices]) s
    · exact .nothing (.refl s)
  case ckrd p => exact .ofReliable (takeClock_change Still.refl s fun args => clockRead_calendar args _)
  case ckse => exact .ofReliable (takeClock_change Still.refl s fun args => clockSettle_calendar args _)
  case ckhd => exact .ofReliable (takeClock_change State.afterClock_still s fun args => clockHold_calendar args _)
  case ckrl => exact .ofReliable (takeClock_change State.afterClock_still s fun args => clockRelease_calendar args _)
  case ckst => exact .ofReliable (execCkst_change s)
  case fire => exact .ofReliable s.fire_change
  case expire => exact .ofReliable s.expire_change
  case second => exact .ofReliable s.second_change
  case endOfSettling => exact .ofReliable s.settle_change
  case oscillatorLoss => exact .ofReliable s.loseOscillator_change
  case returnOfOscillation => exact .ofReliable s.returnOscillation_change
  case firstCycleSeen => exact .ofReliable s.seeFirstCycle_change
  case powerOn high => exact s.powerUp_change high
  case backupEntry vbat => exact s.enterBackup_change vbat
  case retentionLost => exact s.loseRetention_change
  case returnRetentionHeld high => exact s.returnHeld_change high
  case returnRetentionLost high => exact s.returnLost_change high
  case resetAssertion => exact s.assertReset_change
  case resetRelease high => exact s.releaseReset_change high
  case withoutSupply => exact s.loseSupply_change
  case resetWork =>
    refine .ofReliable ?_
    obtain h | h := State.perform_still (s := s) (i := .reset) (f := fun s => s.setTable (s.table.resetWork s.clock.elapsed))
    · rw [h]; exact .nothing (.refl s)
    · exact .resetWork _ h
  case backupEntryWork =>
    refine .ofReliable ?_
    obtain h | h := State.perform_still (s := s) (i := .backupEntry) (f := fun s => s.setTable s.table.backupWork)
    · rw [h]; exact .nothing (.refl s)
    · exact .backupWork h
  case returnWork =>
    refine .ofReliable ?_
    obtain h | h := State.perform_still (s := s) (i := .returnHeld) (f := fun s =>
      (s.setTable (s.table.returnWork s.clock.elapsed)).setSched { s.sched with barred := s.power = .backup })
    · rw [h]; exact .nothing (.refl s)
    · exact .returnWork s.clock.elapsed (Still.after h ⟨rfl, rfl, id, rfl⟩)

/-- No command touches the queue. -/
theorem Change.pending {s s' : State} (h : Change s s') : s'.pending = s.pending := by
  rcases h with h | ⟨_, _, _, _, _, h⟩ | ⟨_, _, _, h⟩ | ⟨_, _, h⟩ | h | ⟨_, h⟩ | ⟨_, _, _, _, _, _, _, h⟩ | ⟨_, _, h⟩
    | ⟨_, h⟩ | h | ⟨_, h⟩ | ⟨_, _, h⟩ | ⟨_, h⟩
  all_goals first | exact h.pending | exact h

/-- Everything a step can do: what a command does, on the queue's rest. -/
theorem step_change {s s' : State} (h : step s = .next s') : Change { s with pending := s.pending.tail } s' := by
  unfold step at h
  cases e : s.pending with
  | nil =>
    simp only [e, Host.Outcome.next.injEq] at h
    have k : { s with pending := ([] : List Instr).tail } = s := by cases s; simp_all
    rw [k, ← h]
    exact .ofReliable s.crystalCycle_change
  | cons c rest =>
    simp only [e] at h
    exact exec_change h

/-! ### Laws of the table -/

/-- The changes that a law of the table must survive. -/
structure Table.Keeps (P : Table → Prop) : Prop where
  stored : ∀ t t' : Table, t'.stored = t.stored → P t → P t'
  powerOn : P Table.powerOn
  service : ∀ f ∈ tableServices, ∀ p h args t, P t → P (f p h args t).1
  shift : ∀ t n, P t → P (t.shift n)
  fire : ∀ t h, P t → P (t.fire h)
  expiredCall : ∀ t e i o c, t.order i = some o → o.call = some c → c.state = .raised → P t →
    P (t.setOrder i (o.expired e c))
  expiredEntry : ∀ t p n, P t → P (t.setContext p { t.contexts.get p with
    stack := (t.contexts.get p).stack.modify n Entry.markOverdue })
  resetWork : ∀ t e, P t → P (t.resetWork e)
  backupWork : ∀ t, P t → P t.backupWork
  returnWork : ∀ t e, P t → P (t.returnWork e)

/-- A law of the table that survives those changes is kept by every step. -/
theorem Table.Keeps.step {P : Table → Prop} (k : Table.Keeps P) : StepKeeps (WhileReliable fun s => P s.table) := by
  intro s s' h e r
  have still : ∀ {u : State}, Still u s' → (u.reliable = true → P u.table) → P s'.table := fun hs hu =>
    k.stored _ _ hs.stored (hu (hs.reliable r))
  have at0 : s.reliable = true → P s.table := h
  rcases step_change e with h | ⟨f, known, p, g, args, h⟩ | ⟨n, sum, _, h⟩ | ⟨d, _, h⟩ | h | ⟨g, h⟩
    | ⟨e', i, o, c, order, call, raised, h⟩ | ⟨p, n, h⟩ | ⟨e', h⟩ | h | ⟨e', h⟩ | ⟨ht, _, _⟩ | ⟨h, _⟩
  · exact still h at0
  · exact still h (fun hr => k.service f known p g args _ (at0 hr))
  · exact still h (fun hr => k.shift _ n (at0 hr))
  · exact still h at0
  · exact still h at0
  · exact still h (fun hr => k.fire _ g (at0 hr))
  · exact still h (fun hr => k.expiredCall _ e' i o c order call raised (at0 hr))
  · exact still h (fun hr => k.expiredEntry _ p n (at0 hr))
  · exact still h (fun hr => k.resetWork _ e' (at0 hr))
  · exact still h (fun hr => k.backupWork _ (at0 hr))
  · exact still h (fun hr => k.returnWork _ e' (at0 hr))
  · rw [ht]; exact k.powerOn
  · rw [h] at r; cases r

end Sys2Proof.Machine
end

