-- ==== Sys2Proof/Laws/Supply.lean ====
section
/-! SUPPORT. What the work of the indications, the reset of a unit and an adjustment can do. -/

namespace Sys2Proof.Machine

/-! ### An adjustment (R80) -/

theorem Table.slot_shift (t : Table) (n : Int) (i : Fin 64) :
    (t.shift n).slot i = { t.slot i with order := (t.slot i).order.map (Order.shift n) } := t.slot_mapOrders _ i

theorem Table.order_shift (t : Table) (n : Int) (i : Fin 64) :
    (t.shift n).order i = (t.order i).map (Order.shift n) := t.order_mapOrders _ i

theorem shiftDue_isSome {n : Int} {d : DateTime} : (shiftDue n d).isSome = true ↔
    (secondNumber d : Int) + n ≤ 3155759999 := by
  unfold shiftDue Config.maxSecond; dsimp only; split
  · simp; omega
  · split <;> simp <;> omega

theorem shiftDue_isNone {n : Int} {d : DateTime} : (shiftDue n d).isNone = true ↔ 3155759999 <
    (secondNumber d : Int) + n := by
  have := shiftDue_isSome (n := n) (d := d)
  cases e : shiftDue n d <;> simp [e] at this ⊢ <;> omega

/-- A due moved within the range, or set to its start (R80). -/
theorem shiftDue_eq_some {n : Int} {d : DateTime} (h : (secondNumber d : Int) + n ≤ 3155759999) : shiftDue n d =
    some (if (secondNumber d : Int) + n < 0 then rangeStart
                else ofSecondNumber ((secondNumber d : Int) + n).toNat) := by
  unfold shiftDue Config.maxSecond; dsimp only; split
  · simp [*]
  · split
    · omega
    · simp [*]

/-! ### Resets (R167, R168, R180, R181) -/

/-- The reset of a unit. -/
theorem CmdUnit.reset_spec (u : CmdUnit) : UnitReset u u.reset := by
  obtain ⟨ph, a, b, c, d, e, f, g, h⟩ := u
  unfold CmdUnit.reset
  cases ph <;> refine ⟨rfl, rfl, rfl, rfl, ?_, ?_, ?_, ?_, ?_⟩ <;> try simp
  all_goals
    next c =>
    cases b : c.code.block <;> simp [CmdUnit.markDiscard]

/-- Transfers in progress are abandoned. -/
theorem State.abandonLinks_spec (s t : State) (h : t.linkA = s.abandonLinks.linkA)
    (h2 : t.linkB = s.abandonLinks.linkB) : LinksAbandoned s t := by
  refine ⟨?_, ?_, ?_, ?_, ?_, ?_, ?_⟩ <;> (try rw [h]) <;> (try rw [h2])
  all_goals try rfl
  · intro e; simp [State.abandonLinks, e]
  · intro e; cases e2 : s.linkA.line <;> simp_all [State.abandonLinks]

end Sys2Proof.Machine
end

