-- ==== Sys2Proof/WellFormed.lean ====
section
/-! DEFINITION. Which commands are well formed: a command that stands for a whole valid frame carries
as many argument bytes as a request frame can hold. -/

namespace Sys2Proof

/-- A request frame holds 0 to 40 argument bytes (R166). -/
def argsFit (args : List Byte) : Bool := args.length ≤ 40

/-- A command is well formed when the frame it stands for is one the link can carry (R166).
A REQUEST_FRAME may carry any bytes: a frame that is faulty is judged so by R169. -/
def Instr.wellFormed : Instr → Bool
  | .stat _ args => argsFit args
  | .rply args _ => argsFit args
  | .cncl _ args => argsFit args
  | .alrd _ args => argsFit args
  | .alcl _ args => argsFit args
  | .requestFrame _ _ | .readTransaction _
  | .plac _ | .amnd _ | .hold _ | .rsum _ | .rtir _ | .purg _ | .look _ | .list _ | .quot | .info _
  | .take _ | .fnsh _ | .ceil _ | .nest _ | .gsetConfigure | .gsetRelease | .gred _ | .gclr _
  | .ckrd _ | .ckst | .ckad | .ckhd | .ckrl | .ckse
  | .fire | .expire | .second | .endOfSettling | .oscillatorLoss | .returnOfOscillation
  | .powerOn _ | .backupEntry _ | .backupEntryWork | .retentionLost | .returnRetentionHeld _ | .returnWork
  | .returnRetentionLost _ | .resetAssertion | .resetWork | .resetRelease _ | .withoutSupply
  | .firstCycleSeen => true

end Sys2Proof
end

