-- ==== Sys2Proof/Tests/Slice0.lean ====
section
/-! SUPPORT. The model's own tests: the smoke of WellFormed, one step of each command on a small state with the values of
the manual's worked sequences (spec/11), and for each obligation with hypotheses a state and operands that meet them. -/

namespace Sys2Proof.Tests

open Sys2Proof Sys2Proof.Machine

/-! ### Small states -/

/-- The date and time of the first firing of spec/11, 12-7. -/
def sunday : DateTime := ⟨2031, 5, 4, 7, 0, 0⟩

/-- The next morning. -/
def monday : DateTime := ⟨2031, 5, 5, 7, 0, 0⟩

/-- The order 6/1 of spec/11, 12-7. -/
def zone : Order :=
  { owner := .B, standing := .waiting sunday, rule := .weekdays 0x2A, remaining := none, anchoring := .wall
    policy := .gather, level := 3, floor := 2, window := 120, answering := .B, member := none
    label := [0x5A, 0x4F, 0x4E, 0x45, 0x2D, 0x34], missed := 0, tally := 0, skipped := false, call := none }

/-- The order 2/0 of spec/11, 12-7, of port A. -/
def noon : Order :=
  { owner := .A, standing := .waiting ⟨2031, 5, 5, 12, 0, 0⟩, rule := .single, remaining := some 3
    anchoring := .elapsed, policy := .drop, level := 5, floor := 3, window := 30, answering := .A, member := none
    label := [], missed := 0, tally := 0, skipped := false, call := none }

/-- A call raised for the order 6/1. -/
def raised (o : Order) (deadline : Option Elapsed) : Order := { o with call := some ⟨.raised, o.level, deadline⟩ }

/-- The table of spec/11, 12-7: 2/0 and 6/1. -/
def two (six : Order) : Table := (Table.powerOn.setOrder 2 noon).setSlot 6 ⟨1, some six⟩

/-- The table with the call of 6/1 taken at level 3. -/
def taken (nesting : Bool) (deadline : Option Elapsed) : Table :=
  (two { zone with call := some ⟨.taken, 3, none⟩ }).setContext .B
    ⟨7, nesting, [⟨.order 6 1, 3, deadline, false, false⟩]⟩

/-- Group 5 of spec/11, 12-10, with the order 41/0 at position 3. -/
def grouped (factor : Byte) (call : Option CallState) : Table :=
  (Table.powerOn.setOrder 41 { noon with member := some ⟨5, 3⟩ }).setGroup 5
    { config := some ⟨1, .B⟩, enable := 0x0C, factor := factor
      positions := (Vector.replicate 8 none).set 3 (some 41), call := call }

/-- The group's call taken by port B. -/
def groupTaken (factor : Byte) : Table :=
  (grouped factor (some .taken)).setContext .B ⟨7, false, [⟨.group 5, 1, none, false, false⟩]⟩

/-- A request granted at 07:00:00 on the Sunday, elapsed 56800. -/
def granted (r : Request) : InHand := ⟨r, sunday, true, 56800⟩

/-- A port's command in hand at the table. -/
def carrying (p : Port) (c : Code) (args : List Byte) (t : Table) : State :=
  { State.reset with
    table := { t with inHand := some (granted (.command p ⟨c, args⟩)) }
    units := State.reset.units.set p { CmdUnit.powerOn with phase := .working ⟨c, args⟩ } }

theorem carrying_carries (p : Port) (c : Code) (args : List Byte) (t : Table) :
    Carries (carrying p c args t) p c args (granted (.command p ⟨c, args⟩)) :=
  ⟨rfl, rfl, rfl, by simp [carrying], by simp [carrying, CmdUnit.powerOn]⟩

/-- A request of the scheduler in hand, with elapsed 56800. -/
def scheduling (r : Request) (t : Table) : State :=
  { State.reset with table := { t with inHand := some (granted r) } }

theorem scheduling_carries (r : Request) (t : Table) : CarriesSched (scheduling r t) r (granted r) := ⟨rfl, rfl, rfl⟩

/-- A clock in a state, VALID, on the Sunday. -/
def clockIn (x : ClockState) : Clock :=
  { Clock.powerOn with calendar := ⟨sunday, 7⟩, valid := true, state := x, divider := 5, elapsed := 56800 }

/-- A clock command handed to a clock that stands as `k`. -/
def turning (p : Port) (c : Code) (args : List Byte) (k : Clock) : State :=
  { State.reset with
    clock := { k with taking := (⟨[], []⟩ : PerPort (List Command)).set p [⟨c, args⟩] }
    units := State.reset.units.set p { CmdUnit.powerOn with phase := .working ⟨c, args⟩ } }

theorem turning_turn (p : Port) (c : Code) (args : List Byte) (k : Clock) :
    ClockTurn (turning p c args k) p c args [] :=
  ⟨rfl, by simp [turning], by simp [turning], by simp [turning, CmdUnit.powerOn]⟩

/-- The reset state with a clock. -/
def ticking (k : Clock) : State := { State.reset with clock := k }

/-- The reset state with a unit of a port in a phase. -/
def phased (p : Port) (x : Phase) : State :=
  { State.reset with units := State.reset.units.set p { CmdUnit.powerOn with phase := x } }

/-- A state with an indication outstanding over a table. -/
def owing (i : Indication) (t : Table) : State := { State.reset with table := { t with work := [i] } }

theorem owing_due (i : Indication) (t : Table) (free : t.inHand = none) : WorkDue (owing i t) i [] := ⟨rfl, free, rfl⟩

/-- The state a command leaves. -/
def after (i : Instr) (s : State) : Option State :=
  match exec i s with
  | .next s' => some s'
  | .fault _ => none
  | .refused _ => none

/-- What a command leaves of the state, by a reading. -/
def leaves {α : Type} (i : Instr) (s : State) (read : State → α) : Option α := (after i s).map read

/-- The phase of a port's unit. -/
def phaseOf (p : Port) (s : State) : Phase := (s.units.get p).phase

/-- A reply with DONE. -/
def done (payload : List Byte) : Phase := .reply ⟨.done, payload⟩

/-! ### WellFormed -/

theorem test_stat_with_41_bytes_is_refused : Instr.wellFormed (.stat .A (List.replicate 41 0)) = false := by decide
theorem test_rply_with_41_bytes_is_refused : Instr.wellFormed (.rply (List.replicate 41 0) 0) = false := by decide
theorem test_cncl_with_41_bytes_is_refused : Instr.wellFormed (.cncl .A (List.replicate 41 0)) = false := by decide
theorem test_alrd_with_41_bytes_is_refused : Instr.wellFormed (.alrd .A (List.replicate 41 0)) = false := by decide
theorem test_alcl_with_41_bytes_is_refused : Instr.wellFormed (.alcl .A (List.replicate 41 0)) = false := by decide
theorem test_frames_of_40_bytes_are_well_formed :
    Instr.wellFormed (.stat .A (List.replicate 40 0)) = true ∧ Instr.wellFormed (.alcl .B (List.replicate 40 0)) = true
      := by decide

/-! ### Frames and the links -/

/-- The frame of spec/12, A-1. -/
theorem test_info_frame : requestBytes .info [] = [0x19, 0x00, 0xE7] := by decide

/-- The first status byte after power-on: RESTARTED alone (spec/11, Table 12-1). -/
theorem test_first_status : State.reset.units.a.status = 0x01 ∧ State.reset.units.b.status = 0x01 := by decide

theorem test_request_frame : leaves (.requestFrame .A (.whole [0x19, 0x00, 0xE7])) State.reset
    (fun s => (phaseOf .A s, s.table.inHand.map InHand.request))
      = some (.working ⟨.info, []⟩, some (.command .A ⟨.info, []⟩)) := by decide

theorem test_faulty_frame : leaves (.requestFrame .B (.whole [0x19, 0x00, 0xE8])) State.reset
    (fun s => (phaseOf .B s, s.units.b.frameFault)) = some (.idle, true) := by decide

theorem test_read_transaction : leaves (.readTransaction (.whole 5)) (phased .B (done [7]))
    (fun s => (phaseOf .B s, s.linkB.sda)) = some (.idle, [0x81, 0x00, 0x01, 0x07, 0xF8]) := by decide

/-- A byte cut after its third bit: SDO presents the fourth bit of the status byte 0x81 (R167). -/
theorem test_sdo_bit : leaves (.requestFrame .A (.clocks [true, true, true]))
    (phased .A (done [7])).selectFalls (fun s => (s.linkA.sdoBit, s.selectRises.linkA.sdoBit)) = some (some false, none)
    ∧ (phased .A (done [7])).selectFalls.linkA.sdoBit = some true := by decide

/-- A write of three bytes is acknowledged four times; another address is not (R168). -/
theorem test_acks : leaves (.requestFrame .B (.whole [0x19, 0x00, 0xE7])) State.reset (fun s => s.linkB.acks)
      = some [true, true, true, true]
    ∧ leaves (.requestFrame .B (.opens 0x3B#7)) State.reset (fun s => s.linkB.acks) = some [false] := by decide

/-- A length byte above 40 (R166, R176; entry 21). -/
theorem test_rply_long : leaves (.requestFrame .A (.whole [0x01, 0x29, 0x00])) State.reset
    (fun s => (s.units.a.frameFault, s.linkA.sdo)) = some (true, [0x01, 0x00, 0x00]) := by decide

theorem test_stat : leaves (.stat .A []) State.reset (fun s => (s.units.a.restarted, s.linkA.sdo))
    = some (false, [0x01, 0x00, 0x00]) := by decide

theorem test_rply_no_reply : leaves (.rply [] 3) State.reset (fun s => s.linkA.sdo)
    = some [0x01, 0x00, 0x00, 0x03, 0x00, 0xFD] := by decide

theorem test_rply_buffered : leaves (.rply [] 4) (phased .A (done [7])) (fun s => (phaseOf .A s, s.linkA.sdo))
    = some (.idle, [0x81, 0x00, 0x00, 0x00, 0x01, 0x07, 0xF8]) := by decide

theorem test_cncl : leaves (.cncl .B []) (phased .B (.pending ⟨.info, []⟩)) (phaseOf .B)
    = some (.reply ⟨.cancelled, []⟩) := by decide

theorem test_alrd : leaves (.alrd .A []) ((State.reset.alert .A .unanswered).alert .A .clockLost) (phaseOf .A)
    = some (done [0x05]) := by decide

theorem test_alcl : leaves (.alcl .A [0x04]) ((State.reset.alert .A .unanswered).alert .A .clockLost) (phaseOf .A)
    = some (done [0x01]) := by decide

/-! ### Order commands -/

/-- The PLAC of spec/11, 12-7, step 1. -/
def zoneArgs : List Byte :=
  [0x31, 0x05, 0x04, 0x07, 0x00, 0x00, 0x03, 0x2A, 0, 0, 0, 0, 0, 0, 3, 2, 120, 2, 0xFF, 0, 6,
    0x5A, 0x4F, 0x4E, 0x45, 0x2D, 0x34]

/-- Slots 0 to 5 hold orders and slot 6 is free at generation 1. -/
def sixHeld : Table := ((List.finRange 64).take 6).foldl (fun t i => t.setOrder i noon) (Table.powerOn.setSlot 6 ⟨1, none⟩)

theorem test_plac : leaves (.plac .B) (carrying .B .plac zoneArgs sixHeld) (fun s => (phaseOf .B s, s.table.order 6))
    = some (done [6, 1], some zone) := by decide

theorem test_plac_bad_time : leaves (.plac .B) (carrying .B .plac (zoneArgs.set 2 0x32) sixHeld) (phaseOf .B)
    = some (.reply ⟨.badTime, []⟩) := by decide

/-- AMND of the level to 7 withdraws the raised call (R44). -/
theorem test_amnd : leaves (.amnd .B) (carrying .B .amnd [6, 1, 0x00, 0x20, 7] (two (raised zone (some 56920))))
    (fun s => (phaseOf .B s, s.table.order 6)) = some (done [6, 1, 0], some { zone with level := 7 }) := by decide

/-- A due and a label selected are read in bit order (R185). -/
theorem test_amnd_fields : leaves (.amnd .B)
    (carrying .B .amnd [6, 1, 0x04, 0x01, 0x31, 0x05, 0x05, 0x07, 0x00, 0x00, 1, 0x41] (two zone))
    (fun s => s.table.order 6) = some (some { zone with standing := .waiting monday, label := [0x41] }) := by decide

theorem test_hold : leaves (.hold .A) (carrying .A .hold [6, 1] (two zone)) (phaseOf .A)
    = some (done [6, 1, 0x31, 0x05, 0x04, 0x07, 0x00, 0x00, 7]) := by decide

theorem test_rsum : leaves (.rsum .B) (carrying .B .rsum [6, 1] (two { zone with standing := .held sunday }))
    (fun s => (phaseOf .B s, s.table.order 6))
    = some (done [6, 1, 0x31, 0x05, 0x04, 0x07, 0x00, 0x00, 7], some zone) := by decide

theorem test_rtir : leaves (.rtir .A) (carrying .A .rtir [6, 1] (taken false none))
    (fun s => (phaseOf .A s, s.table.slot 6, s.table.contexts.b.stack.map Entry.retired))
    = some (done [6, 1, 2, 1], ⟨2, none⟩, [true]) := by decide

set_option maxRecDepth 4000 in
theorem test_purg : leaves (.purg .A) (carrying .A .purg [1] (two zone))
    (fun s => (phaseOf .A s, s.table.slot 6, s.table.order 2)) = some (done [1], ⟨2, none⟩, some noon) := by decide

theorem test_look : leaves (.look .A) (carrying .A .look [6, 1] (two zone)) (phaseOf .A)
    = some (done [6, 1, 1, 0, 0x31, 0x05, 0x04, 0x07, 0x00, 0x00, 7, 3, 0x2A, 0, 0, 0, 0, 0, 0, 0, 3, 2, 120, 1,
        0xFF, 0xFF, 6, 0x5A, 0x4F, 0x4E, 0x45, 0x2D, 0x34, 0, 0, 0, 0, 0, 0, 0, 0, 0, 0, 0, 0, 0, 0, 0]) := by decide

theorem test_list : leaves (.list .A) (carrying .A .list [2, 0, 0xFF] (two zone)) (phaseOf .A)
    = some (done [2, 6, 1, 2, 0]) := by decide

theorem test_quot : leaves .quot (carrying .A .quot [1, 1] (two zone)) (fun s => (phaseOf .A s, s.table.quotas.b))
    = some (done [1, 1, 1], 1) := by decide

theorem test_quot_below : leaves .quot (carrying .A .quot [1, 0] (two zone)) (phaseOf .A)
    = some (.reply ⟨.quotaBelow, []⟩) := by decide

/-- INFO after power-on (spec/11, Table 12-1). -/
theorem test_info : leaves (.info .B) (carrying .B .info [] Table.powerOn) (phaseOf .B)
    = some (done [64, 0, 0, 0, 0, 64, 7, 0, 0, 7, 0, 64, 7, 0, 0, 7]) := by decide

/-! ### Calls -/

/-- The TAKE of spec/11, 12-7, step 3. -/
theorem test_take : leaves (.take .B)
    (carrying .B .take [] (two { raised zone (some 56920) with tally := 1 }))
    (fun s => (phaseOf .B s, s.table.contexts.b.stack))
    = some (done [6, 1, 3, 0, 0, 1, 6, 0x5A, 0x4F, 0x4E, 0x45, 0x2D, 0x34],
        [⟨.order 6 1, 3, some 56920, false, false⟩]) := by decide

theorem test_take_nothing : leaves (.take .A) (carrying .A .take [] (two (raised zone none))) (phaseOf .A)
    = some (.reply ⟨.nothing, []⟩) := by decide

/-- The FNSH of spec/11, 12-7, step 4. -/
theorem test_fnsh : leaves (.fnsh .B) (carrying .B .fnsh [6, 1, 0] (taken false (some 56950)))
    (fun s => (phaseOf .B s, s.table.contexts.b.stack, s.table.order 6))
    = some (done [6, 1, 0, 0, 7], [], some zone) := by decide

/-- The FNSH of spec/11, 12-10, step 3: the group call is raised again. -/
theorem test_fnsh_group : leaves (.fnsh .B) (carrying .B .fnsh [0x45, 0, 0] (groupTaken 0x08))
    (fun s => (phaseOf .B s, (s.table.group 5).call, s.units.b.offer))
    = some (done [0x45, 0, 0, 0, 7], some .raised, true) := by decide

theorem test_ceil : leaves (.ceil .A) (carrying .A .ceil [5] Table.powerOn) (phaseOf .A) = some (done [5, 5]) := by decide

theorem test_nest : leaves (.nest .A) (carrying .A .nest [1] Table.powerOn) (phaseOf .A) = some (done [1, 7]) := by decide

/-! ### Groups -/

theorem test_gset_configure : leaves .gsetConfigure (carrying .A .gset [5, 0, 1, 1, 0x0C] Table.powerOn)
    (fun s => (phaseOf .A s, (s.table.group 5).config)) = some (done [5, 1, 1, 1, 0x0C, 0], some ⟨1, .B⟩) := by decide

theorem test_gset_release_in_use : leaves .gsetRelease (carrying .A .gset [5, 1] (grouped 0 none)) (phaseOf .A)
    = some (.reply ⟨.groupInUse, []⟩) := by decide

theorem test_gset_release : leaves .gsetRelease
    (carrying .A .gset [5, 1] (Table.powerOn.setGroup 5 { Group.unconfigured with config := some ⟨1, .B⟩ }))
    (fun s => (phaseOf .A s, (s.table.group 5).config)) = some (done [5, 0], none) := by decide

theorem test_gred : leaves (.gred .B) (carrying .B .gred [5] (grouped 0x08 (some .raised))) (phaseOf .B)
    = some (done [5, 1, 1, 1, 0xFF, 0xFF, 0xFF, 0xFF, 0xFF, 0xFF, 41, 0, 0xFF, 0xFF, 0xFF, 0xFF, 0xFF, 0xFF,
        0xFF, 0xFF, 0x08, 0x0C, 1]) := by decide

/-- The GCLR of spec/11, 12-10, order (a). -/
theorem test_gclr : leaves (.gclr .B) (carrying .B .gclr [5, 0x04] (groupTaken 0x0C)) (phaseOf .B)
    = some (done [5, 0x08, 2]) := by decide

/-! ### The clock -/

/-- CKRD after power-on (spec/11, Table 12-1). -/
theorem test_ckrd : leaves (.ckrd .B) (turning .B .ckrd [] Clock.powerOn) (phaseOf .B)
    = some (done [0x00, 0x01, 0x01, 0x00, 0x00, 0x00, 6, 0, 0, 0, 0, 0, 0, 3]) := by decide

/-- The CKST of spec/11, 12-9, step 1. -/
theorem test_ckst : leaves .ckst (turning .A .ckst [0x31, 0x06, 0x02, 0x09, 0x00, 0x00] (clockIn .running))
    (fun s => (phaseOf .A s, s.clock.calendar, s.clock.divider))
    = some (done [0x31, 0x06, 0x02, 0x09, 0x00, 0x00, 1], ⟨⟨2031, 6, 2, 9, 0, 0⟩, 1⟩, 0) := by decide

/-- CKAD −3600 moves the calendar and the due of 2/0, anchored ELAPSED, by an hour (R79, R80). -/
theorem test_ckad : leaves .ckad { carrying .A .ckad [0xF1, 0xF0] (two zone) with clock := clockIn .running }
    (fun s => (phaseOf .A s, s.clock.calendar.now, s.table.order 2))
    = some (done [0x31, 0x05, 0x04, 0x06, 0x00, 0x00, 7, 1, 0], ⟨2031, 5, 4, 6, 0, 0⟩,
        some { noon with standing := .waiting ⟨2031, 5, 5, 11, 0, 0⟩ }) := by decide

theorem test_ckhd : leaves .ckhd (turning .A .ckhd [] (clockIn .running)) (fun s => (phaseOf .A s, s.clock.divider))
    = some (done [2], 5) := by decide

theorem test_ckrl : leaves .ckrl (turning .A .ckrl [] (clockIn .held)) (fun s => (phaseOf .A s, s.clock.divider))
    = some (done [1], 0) := by decide

theorem test_ckse : leaves .ckse (turning .A .ckse [4] (clockIn .running)) (fun s => (phaseOf .A s, s.clock.choice))
    = some (done [4], 4) := by decide

theorem test_second_leap_day : leaves .second
    (ticking { clockIn .running with calendar := ⟨⟨2032, 2, 28, 23, 59, 59⟩, 6⟩ })
    (fun s => (s.clock.calendar, s.clock.elapsed, s.clock.divider))
    = some (⟨⟨2032, 2, 29, 0, 0, 0⟩, 7⟩, 56801, 0) := by decide

/-- The wrap of R65. -/
theorem test_second_wrap : leaves .second
    (ticking { clockIn .running with calendar := ⟨⟨2099, 12, 31, 23, 59, 59⟩, 4⟩ })
    (fun s => (s.clock.calendar, s.clock.valid)) = some (⟨⟨2000, 1, 1, 0, 0, 0⟩, 6⟩, false) := by decide

theorem test_end_of_settling : leaves .endOfSettling (ticking { Clock.powerOn with armed := true, settleCount := 65535 })
    (fun s => (s.clock.state, s.clock.divider, s.sched.view.state)) = some (.running, 0, .running) := by decide

theorem test_oscillator_loss : leaves .oscillatorLoss (ticking (clockIn .running))
    (fun s => (s.clock.state, s.clock.valid, s.units.a.alert, s.units.b.alert, s.units.a.valid))
    = some (.lost, false, 1#4, 1#4, false) := by decide

theorem test_return_of_oscillation : leaves .returnOfOscillation (ticking { clockIn .lost with choice := 4 })
    (fun s => (s.clock.state, s.clock.settleTarget)) = some (.settling, 131072) := by decide

theorem test_first_cycle_seen : leaves .firstCycleSeen State.reset (fun s => s.clock.armed) = some true := by decide

/-! ### The scheduler's requests -/

/-- The firing of spec/11, 12-7, step 2. -/
theorem test_fire : leaves .fire (scheduling .fire (two zone))
    (fun s => (s.table.order 6, s.table.head, s.units.b.offer))
    = some (some { zone with standing := .waiting monday, tally := 1, call := some ⟨.raised, 3, some 56920⟩ },
        some ⟨6, monday⟩, true) := by decide

/-- The firing of 31/0 in spec/11, 12-9, step 4. -/
theorem test_fire_late_drop :
    let o : Order := { noon with
      standing := .waiting ⟨2031, 6, 2, 7, 0, 0⟩, rule := .interval 0 0 20 0, remaining := some 10, tally := 8, level := 3 }
    leaves .fire { State.reset with table := { Table.powerOn.setOrder 31 o with
        inHand := some ⟨.fire, ⟨2031, 6, 2, 9, 0, 1⟩, true, 0⟩ } } (fun s => s.table.order 31)
      = some (some { o with standing := .waiting ⟨2031, 6, 2, 9, 20, 0⟩, remaining := some 3, skipped := true }) := by
  decide

/-- The escalation of spec/11, 12-7, step 6. -/
theorem test_expire_escalates : leaves .expire
    { State.reset with table := { two (raised zone (some 143320)) with inHand := some ⟨.expire, monday, true, 143320⟩ } }
    (fun s => (s.table.order 6).bind Order.call) = some (some ⟨.raised, 2, some 143440⟩) := by decide

/-- The unanswered call of spec/11, 12-7, step 7. -/
theorem test_expire_unanswered : leaves .expire
    { State.reset with table := { two { zone with call := some ⟨.raised, 2, some 143440⟩ } with
        inHand := some ⟨.expire, monday, true, 143440⟩ } }
    (fun s => ((s.table.order 6).bind Order.call, s.units.b.alert)) = some (some ⟨.raised, 2, none⟩, 4#4) := by decide

/-! ### Supply and RESET -/

/-- A part without supply. -/
def dark : State := { State.reset with power := .withoutSupply, units := State.reset.units.map fun _ u => { u with offer := true } }

theorem test_power_on : leaves (.powerOn true) dark (fun s => (s.power, s.units, s.linkB.address))
    = some (.main, State.reset.units, 0x3B#7) := by decide

theorem test_backup_entry : leaves (.backupEntry 1800) { phased .A (.pending ⟨.info, []⟩) with
      table := { Table.powerOn with waiting := ⟨some ⟨.info, []⟩, none⟩ } }
    (fun s => (s.power, phaseOf .A s, s.table.waiting.a, s.table.work, s.sched.barred))
    = some (.backup, .idle, none, [.backupEntry], true) := by decide

theorem test_backup_entry_below_hold_level : leaves (.backupEntry 1799) State.reset (fun s => (s.power, s.retention))
    = some (.backup, .lost) := by decide

/-- The backup-entry work on a taken call: raised again without a deadline (spec/11, 12-11, step 1). -/
theorem test_backup_entry_work : leaves .backupEntryWork (owing .backupEntry (taken true (some 200040)))
    (fun s => ((s.table.order 6).bind Order.call, s.table.contexts.b, s.table.inBackup))
    = some (some ⟨.raised, 3, none⟩, ⟨7, false, []⟩, true) := by decide

theorem test_retention_lost : leaves .retentionLost { State.reset with power := .backup }
    (fun s => (s.power, s.retention, s.freeCount)) = some (.backup, .lost, 1) := by decide

theorem test_return_retention_held : leaves (.returnRetentionHeld false) { phased .A (done []) with power := .backup }
    (fun s => (s.power, phaseOf .A s, s.table.work)) = some (.main, .idle, [.returnHeld]) := by decide

/-- The return work gives a raised call its deadline (spec/11, 12-11, step 3). -/
theorem test_return_work : leaves .returnWork
    { owing .returnHeld (two (raised zone none)) with clock := { clockIn .running with elapsed := 230000 } }
    (fun s => (s.table.order 6).bind Order.call) = some (some ⟨.raised, 3, some 230120⟩) := by decide

theorem test_return_retention_lost : leaves (.returnRetentionLost false)
    { State.reset with power := .backup, retention := .lost, table := two zone }
    (fun s => (s.power, s.table.order 6, s.units.a.alert, s.units.b.alert)) = some (.main, none, 2#4, 2#4) := by decide

theorem test_reset_assertion : leaves .resetAssertion (phased .A (.working ⟨.info, []⟩))
    (fun s => (phaseOf .A s, s.units.a.discardTable, s.units.b.discardTable, s.table.work))
    = some (.idle, true, false, [.reset]) := by decide

/-- A command caught by RESET: its change stands, its reply is thrown away, and the marker is clear again (R174, R180). -/
theorem test_discarded_reply : leaves (.ceil .A)
    ((carrying .A .ceil [5] Table.powerOn).modUnit .A fun u => { u with phase := .idle, discardTable := true })
    (fun s => (phaseOf .A s, s.units.a.discardTable, s.table.contexts.a.base)) = some (.idle, false, 5) := by decide

theorem test_reset_work : leaves .resetWork { owing .reset (taken true none) with clock := clockIn .running }
    (fun s => ((s.table.order 6).bind Order.call, s.table.contexts.b))
    = some (some ⟨.raised, 3, some 56920⟩, ⟨7, false, []⟩) := by decide

theorem test_reset_release : leaves (.resetRelease true) { State.reset with resetAsserted := true }
    (fun s => (s.resetAsserted, s.linkB.address)) = some (false, 0x3B#7) := by decide

theorem test_without_supply : leaves .withoutSupply { State.reset with power := .backup } (fun s => s.power)
    = some .withoutSupply := by decide

/-- An empty queue counts crystal cycles, and the last of them is a second (entry 1). -/
theorem test_crystal_cycle :
    (match step (ticking { clockIn .running with divider := 32767 }) with
      | .next s => some (s.clock.divider, s.clock.calendar.now)
      | _ => none) = some (0, ⟨2031, 5, 4, 7, 0, 1⟩) := by decide

/-! ### Witnesses: states and operands that meet the hypotheses of the obligations -/

/-- The link of each port stands between two transfers at reset. -/
theorem lineIdle_reset (p : Port) : State.reset.LineIdle p := by cases p <;> rfl

theorem lineIdle_phased (p : Port) (x : Phase) : (phased p x).LineIdle p := by cases p <;> rfl

theorem test_witness_EmptyQueueIsACrystalCycle :
    ({ State.reset with power := .withoutSupply } : State).reliable = false
    ∧ (∀ d ∈ [32766, 32767], let s := ticking { clockIn .held with divider := d };
        s.pending = [] ∧ s.reliable = true ∧ s.clock.state = .held ∧ (d = 32766 → s.clock.divider < 32767))
    ∧ (∀ n ∈ [65534, 65535], let k := { Clock.powerOn with armed := true, settleCount := n };
        (ticking k).reliable = true ∧ k.state = .settling ∧ k.armed = true
          ∧ (n = 65534 → k.settleCount + 1 < k.settleTarget) ∧ (n = 65535 → k.settleCount + 1 = k.settleTarget))
    ∧ (ticking (clockIn .lost)).clock.state = .lost
    ∧ State.reset.clock.state = .settling ∧ State.reset.clock.armed = false := by decide

theorem test_witness_ExecLeavesTheQueue :
    (after .firstCycleSeen { State.reset with pending := [.second] }).map State.pending = some [.second] := by decide

/-- A table command of 40 argument bytes taken in IDLE, the table free, the table with the work of a RESET due, and a
busy table before which others wait. -/
theorem test_witness_TableCommandIsPutBeforeTheTable :
    (State.reset.serving = true ∧ State.reset.LineIdle .B ∧ (State.reset.units.get .B).phase = .idle
      ∧ Code.plac ∈ tableCommands .B ∧ (List.replicate 40 (0 : Byte)).length ≤ 40
      ∧ State.reset.table.waiting = ⟨none, none⟩ ∧ State.reset.table.schedWaiting = none
      ∧ State.reset.table.inHand = none ∧ State.reset.table.work = [])
    ∧ Code.gset ∈ tableCommands .A
    ∧ (owing .reset Table.powerOn).serving = true ∧ (owing .reset Table.powerOn).table.work ≠ []
    ∧ (scheduling .fire Table.powerOn).serving = true ∧ (scheduling .fire Table.powerOn).table.inHand ≠ none
    ∧ (let t : Table := { Table.powerOn with waiting := ⟨some ⟨.info, []⟩, none⟩, schedWaiting := some .expire };
      (scheduling .fire t).serving = true ∧ (scheduling .fire t).table.inHand ≠ none
        ∧ (scheduling .fire t).table.waiting ≠ ⟨none, none⟩) :=
  ⟨⟨by decide, lineIdle_reset .B, by decide⟩, by decide⟩

theorem test_witness_UnitRefusesOrHandsToTheClock :
    State.reset.serving = true ∧ State.reset.LineIdle .B ∧ (State.reset.units.get .B).phase = .idle
    ∧ Code.gset ∈ [Code.ckst, .ckhd, .ckrl, .ckse, .ckad, .quot, .gset] ∧ Code.ckse ∈ [Code.ckst, .ckhd, .ckrl, .ckse] :=
  ⟨by decide, lineIdle_reset .B, by decide⟩

/-- A frame with a wrong check byte on port B; an RPLY with a wrong check byte on port A. -/
theorem test_witness_FaultyFrameIsNotActedOn :
    (State.reset.serving = true ∧ State.reset.LineIdle .B ∧ State.reset.LineIdle .A)
    ∧ (∀ c args, args.length ≤ 40 → ([0x19, 0x00, 0xE8] : List Byte) = requestBytes c args → Port.B = .B ∧ c = .rply)
    ∧ (∀ c args, args.length ≤ 40 → requestBytes .rply [] = requestBytes c args → Port.B = .B ∧ c = .rply)
    ∧ ([0x00] : List Byte).head? ≠ some 0x01
    ∧ byteSum (0x01 :: byteOf ([] : List Byte).length :: [] ++ [0x00]) ≠ 0
    ∧ (([0x01, 0x29] : List Byte).head? = some 0x01 ∧ 40 < (byteAt [0x01, 0x29] 1).toNat)
    ∧ (([0x01, 0x00] : List Byte).head? = some 0x01
      ∧ ([0x01, 0x00] : List Byte).length < (byteAt [0x01, 0x00] 1).toNat + 3) := by
  refine ⟨⟨by decide, lineIdle_reset .B, lineIdle_reset .A⟩, fun c args _ h => ?_, fun c args _ h => ⟨rfl, ?_⟩, by decide⟩
  · have sum := byteSum_withCheck (c.byte :: byteOf args.length :: args)
    have e : byteSum (requestBytes c args) = 0 := sum
    rw [← h] at e
    exact absurd e (by decide)
  · simp only [requestBytes_eq, List.cons.injEq] at h
    have := codeOf_byte c
    rw [← h.1, codeOf_byte] at this
    simpa using this.symm

theorem test_witness_FrameOutsideIdleIsRefused :
    (phased .B (done [])).serving = true ∧ (phased .B (done [])).LineIdle .B
    ∧ ((phased .B (done [])).units.get .B).phase ≠ .idle ∧ Code.plac ≠ .stat ∧ Code.plac ≠ .rply ∧ Code.plac ≠ .cncl :=
  ⟨by decide, lineIdle_phased .B _, by decide⟩

theorem test_witness_StatAndRply : State.reset.serving = true ∧ State.reset.LineIdle .A ∧ State.reset.LineIdle .B
    ∧ (List.replicate 40 (0 : Byte)).length ≤ 40 := ⟨by decide, lineIdle_reset .A, lineIdle_reset .B, by decide⟩

theorem test_witness_CallLine : (State.reset.alert .A .unanswered).callAsserted .A = true
    ∧ ({ State.reset.alert .A .unanswered with power := .backup } : State).power = .backup
    ∧ dark.power = .withoutSupply ∧ dark.units.a.offer = true ∧ dark.callAsserted .A = false := by decide

theorem test_witness_CnclCancelsAPendingCommand :
    ((phased .A (.pending ⟨.info, []⟩)).serving = true ∧ (phased .A (.pending ⟨.info, []⟩)).LineIdle .A
      ∧ ((phased .A (.pending ⟨.info, []⟩)).units.get .A).phase = .pending ⟨.info, []⟩)
    ∧ ∀ c, (State.reset.units.get .A).phase ≠ .pending c :=
  ⟨⟨by decide, lineIdle_phased .A _, by decide⟩, fun c h => by simp [State.reset, CmdUnit.powerOn] at h⟩

theorem test_witness_PortBReadIsAFetch : State.reset.serving = true ∧ State.reset.LineIdle .B :=
  ⟨by decide, lineIdle_reset .B⟩

theorem test_witness_AlertCommandsReadAndClearTheWord :
    State.reset.serving = true ∧ State.reset.LineIdle .A ∧ (State.reset.units.get .A).phase = .idle
    ∧ (∀ b, ([0x10] : List Byte) = [b] → 16 ≤ b.toNat) := by
  refine ⟨by decide, lineIdle_reset .A, by decide, fun b h => ?_⟩
  simp only [List.cons.injEq, and_true] at h
  subst h; decide

theorem test_witness_PhasedTransferIsTheWhole :
    State.reset.LineIdle .A ∧ State.reset.LineIdle .B ∧ (List.replicate 7 true).length < 8
    ∧ State.reset.serving = true ∧ (0x3B#7) ≠ State.reset.linkB.address
    ∧ requestBytes .rply [] = requestBytes .rply [] ++ [] ∧ ([0x19] : List Byte).head? ≠ some 0x01 :=
  ⟨lineIdle_reset .A, lineIdle_reset .B, by decide⟩

/-- BCD halves, times and rules at the ends of their ranges (R184; Table 2-3). -/
theorem test_times_and_rules : bcdOf 0x99 = some 99 ∧ bcdOf 0x9A = none ∧ bcdOf 0xA0 = none ∧ bcdByte 47 = 0x47
    ∧ timeOf [0x32, 0x02, 0x29, 0x23, 0x59, 0x59] = some ⟨2032, 2, 29, 23, 59, 59⟩
    ∧ timeOf [0x31, 0x02, 0x29, 0, 0, 0] = none ∧ timeOf [0x31, 0x02, 0x28, 0x24, 0, 0] = none
    ∧ ruleOf [1, 0, 0, 0, 0] = none ∧ ruleOf [1, 99, 23, 59, 59] = some (.interval 99 23 59 59)
    ∧ ruleOf [2, 12, 31, 7, 7] = some (.monthly 12 31) ∧ ruleOf [3, 0x03, 0, 0, 0] = none ∧ ruleOf [4, 0, 0, 0, 0] = none := by
  decide

/-- The largest and the smallest values a PLAC may carry. -/
theorem test_witness_PlacArgumentsRoundTrip :
    PlacArgs.Lawful ⟨⟨2099, 12, 31, 23, 59, 59⟩, .interval 99 23 59 59, some 255, .elapsed, .drop, 7, 6, 0xFF, .B,
      some ⟨7, 7⟩, List.replicate 12 0xFF⟩
    ∧ PlacArgs.Lawful ⟨⟨2000, 1, 1, 0, 0, 0⟩, .weekdays 0x02, some 1, .wall, .gather, 0, 0, 0, .A, none, []⟩ :=
  ⟨⟨by decide, by decide, by simp, by decide, by decide, by decide, by decide⟩,
    ⟨by decide, by decide, by simp, by decide, by decide, by decide, by decide⟩⟩

/-- The arguments of 12-7, step 1, as they decode. -/
def zonePlac : PlacArgs :=
  ⟨sunday, .weekdays 0x2A, none, .wall, .gather, 3, 2, 120, .B, none, [0x5A, 0x4F, 0x4E, 0x45, 0x2D, 0x34]⟩

/-- The same with the position 5/0. -/
def memberArgs : List Byte := (zoneArgs.set 18 5).set 19 0

theorem test_witness_PlacFillsTheLowestFreeSlot :
    Carries (carrying .B .plac zoneArgs sixHeld) .B .plac zoneArgs (granted (.command .B ⟨.plac, zoneArgs⟩))
    ∧ placDecode .B zoneArgs = .ok zonePlac ∧ sixHeld.Open none zonePlac.member
    ∧ sixHeld.owned .B < sixHeld.quotas.get .B ∧ sixHeld.order 6 = none ∧ ∀ j : Fin 64, j < 6 → sixHeld.order j ≠ none :=
  ⟨carrying_carries .., by decide, by simp [Table.Open, zonePlac], by decide, by decide, by decide⟩

/-- A full table: every slot holds an order of port A. -/
def full : Table := Table.powerOn.mapOrders id |> fun t => (List.finRange 64).foldl (fun t i => t.setOrder i noon) t

theorem test_witness_PlacRefusesByItsFirstFailure :
    (∀ args t, Carries (carrying .B .plac args t) .B .plac args (granted (.command .B ⟨.plac, args⟩)))
    ∧ ¬ (21 ≤ (zoneArgs.take 20).length)
    ∧ (timeOf ((zoneArgs.set 2 0x32).take 6) = none ∧ (zoneArgs.set 2 0x32).length = 27)
    ∧ (timeOf ((zoneArgs.set 7 1).take 6) ≠ none ∧ ruleOf (((zoneArgs.set 7 1).drop 6).take 5) = none)
    ∧ (ruleOf (((zoneArgs.set 15 4).drop 6).take 5) ≠ none
      ∧ (byteAt (zoneArgs.set 15 4) 14).toNat < (byteAt (zoneArgs.set 15 4) 15).toNat)
    ∧ (placDecode .B memberArgs = .ok { zonePlac with member := some ⟨5, 0⟩ } ∧ (Table.powerOn.group 5).config = none)
    ∧ (placDecode .B (memberArgs.set 19 3) = .ok { zonePlac with member := some ⟨5, 3⟩ }
      ∧ ((grouped 0 none).group 5).config ≠ none ∧ ((grouped 0 none).group 5).positions[3] ≠ none)
    ∧ ({ sixHeld with quotas := ⟨64, 0⟩ } : Table).quotas.get .B ≤ ({ sixHeld with quotas := ⟨64, 0⟩ } : Table).owned .B :=
  ⟨fun args t => carrying_carries .B .plac args t, by decide⟩

theorem test_witness_PlacTableFull : (∀ i, full.order i ≠ none) ∧ full.owned .B < full.quotas.get .B := by decide

/-- A label, and a level of 7, selected for the order 6/1. -/
theorem test_witness_AmndChangesTheSelectedFields :
    Carries (carrying .B .amnd [6, 1, 0x00, 0x20, 7] (two (raised zone none))) .B .amnd [6, 1, 0x00, 0x20, 7]
      (granted (.command .B ⟨.amnd, [6, 1, 0x00, 0x20, 7]⟩))
    ∧ (two (raised zone none)).resolve 6 1 = some (6, raised zone none)
    ∧ amndDecode (raised zone none) 0x0020 [7]
      = .ok ⟨none, none, none, none, none, some 7, none, none, none, none, none⟩
    ∧ (two zone).Open (some 6) none :=
  ⟨carrying_carries .., by decide, by decide, by simp [Table.Open]⟩

/-- The order 6/1 joins position 0 of group 5; the order 41/0 leaves position 3. -/
theorem test_witness_AmndMovesTheMembership :
    (let t := (grouped 0x08 (some .raised)).setSlot 6 ⟨1, some zone⟩;
      t.resolve 6 1 = some (6, zone) ∧ zone.call = none
      ∧ amndDecode zone 0x0200 [5, 0]
        = .ok ⟨none, none, none, none, none, none, none, none, none, some (some ⟨5, 0⟩), none⟩
      ∧ (t.group 5).config ≠ none ∧ (t.group 5).positions[0] = none)
    ∧ (let o : Order := { noon with member := some ⟨5, 3⟩ };
      (grouped 0x08 (some .raised)).resolve 41 0 = some (41, o)
      ∧ amndDecode o 0x0200 [0xFF, 0]
        = .ok ⟨none, none, none, none, none, none, none, none, none, some none, none⟩) := by decide

theorem test_witness_AmndRefusesByItsFirstFailure :
    (∀ args t, Carries (carrying .B .amnd args t) .B .amnd args (granted (.command .B ⟨.amnd, args⟩)))
    ∧ (two zone).resolve 6 0 = none ∧ (two zone).resolve 2 0 = some (2, noon)
    ∧ amndDecode zone 0x0001 [0x31, 0x02, 0x29, 0, 0, 0] = .error .badTime
    ∧ amndDecode zone 0x0200 [5, 3]
        = .ok ⟨none, none, none, none, none, none, none, none, none, some (some ⟨5, 3⟩), none⟩
    ∧ ((two zone).group 5).config = none
    ∧ ((grouped 0 none).group 5).config ≠ none ∧ ((grouped 0 none).group 5).positions[3] = some 41
    ∧ amndDecode (raised zone none) 0x0100 [0]
        = .ok ⟨none, none, none, none, none, none, none, none, some .A, none, none⟩ :=
  ⟨fun args t => carrying_carries .B .amnd args t, by decide⟩

theorem test_witness_AmndFieldsAreCheckedAndRead :
    amndDecode zone 0x0001 [0x31, 0x02, 0x29, 0, 0, 0] = .error .badTime
    ∧ amndDecode zone 0x0002 [3, 1, 0, 0, 0] = .error .badRule
    ∧ amndDecode zone 0x0020 [8] = .error .badArgument
    ∧ amndDecode { noon with standing := .spent, remaining := some 0 } 0x0001 [0x31, 0x02, 0x28, 0, 0, 0]
        = .error .badArgument
    ∧ amndDecode zone 0x0001 [0x31] = .error .badArgument
    ∧ amndDecode zone 0x0420 [3, 1, 0x41]
        = .ok ⟨none, none, none, none, none, some 3, none, none, none, none, some [0x41]⟩ := by decide

theorem test_witness_HandleCommands :
    (∀ c args t, Carries (carrying .B c args t) .B c args (granted (.command .B ⟨c, args⟩)))
    ∧ (two zone).resolve 6 1 = some (6, zone) ∧ zone.standing = .waiting sunday
    ∧ (two { zone with standing := .held sunday }).resolve 6 1 = some (6, { zone with standing := .held sunday })
    ∧ (two { zone with standing := .spent }).resolve 6 1 = some (6, { zone with standing := .spent })
    ∧ (two zone).resolve 64 0 = none ∧ (two zone).resolve 2 0 = some (2, noon) ∧ noon.owner = .A :=
  ⟨fun c args t => carrying_carries .B c args t, by decide⟩

theorem test_witness_PurgRetiresThePortsOrders :
    (∀ args, Carries (carrying .B .purg args (two zone)) .B .purg args (granted (.command .B ⟨.purg, args⟩)))
    ∧ (2 : Byte).toNat = 1 + 1 ∧ [portByte .A] = ([0] : List Byte) ∧ ¬ (Port.B = .B ∧ Port.B = .A) :=
  ⟨fun args => carrying_carries .B .purg args _, by decide⟩

theorem test_witness_Reports :
    (∀ c args t, Carries (carrying .A c args t) .A c args (granted (.command .A ⟨c, args⟩)))
    ∧ (two zone).resolve 6 1 = some (6, zone) ∧ (two zone).resolve 6 2 = none
    ∧ filtersOf [2, 3, 0xFE] = some ⟨none, .any, .none⟩ ∧ filtersOf [1, 0, 5] = some ⟨some .B, .waiting, .group 5⟩ ∧ filtersOf [3, 0, 0] = none
    ∧ (0 : Byte).toNat < (two zone).owned .B ∧ (two zone).owned .B ≤ (64 : Byte).toNat ∧ 64 < (65 : Byte).toNat :=
  ⟨fun c args t => carrying_carries .A c args t, by decide⟩

theorem test_witness_TakeTakesTheBestOfferedCall :
    (∀ args t, Carries (carrying .B .take args t) .B .take args (granted (.command .B ⟨.take, args⟩)))
    ∧ ((two (raised zone none)).bestOffered .B = some ⟨3, .order 6⟩ ∧ (two (raised zone none)).order 6 = some (raised zone none))
    ∧ (grouped 0x08 (some .raised)).bestOffered .B = some ⟨1, .group 5⟩
    ∧ Table.powerOn.bestOffered .B = none ∧ (Table.powerOn.contexts.get .B).stack.length < 4 :=
  ⟨fun args t => carrying_carries .B .take args t, by decide⟩

theorem test_witness_TakeStackFull :
    4 ≤ ((Table.powerOn.setContext .B ⟨7, true, List.replicate 4 ⟨.order 6 0, 1, none, false, true⟩⟩).contexts.get .B).stack.length := by
  decide

theorem test_witness_FnshFinishesTheTopEntry :
    (∀ args t, Carries (carrying .B .fnsh args t) .B .fnsh args (granted (.command .B ⟨.fnsh, args⟩)))
    ∧ (Table.powerOn.contexts.get .B).stack = []
    ∧ ((taken false none).contexts.get .B).stack = [⟨.order 6 1, 3, none, false, false⟩]
    ∧ ((taken false none).slot 6).generation = 1 ∧ ((taken false none).order 6).isSome
    ∧ ((groupTaken 0x08).contexts.get .B).stack = [⟨.group 5, 1, none, false, false⟩]
    ∧ (let t := Table.powerOn.setContext .B ⟨7, false, [⟨.order 6 1, 3, none, true, true⟩]⟩;
      (t.contexts.get .B).stack = [⟨.order 6 1, 3, none, true, true⟩])
    ∧ 72 ≤ (72 : Byte).toNat ∧ (63 : Byte).toNat < 64 ∧ 16 ≤ (16 : Byte).toNat ∧ 1 < (2 : Byte).toNat
    ∧ 64 ≤ (64 : Byte).toNat ∧ (1 : Byte) ≠ 0 :=
  ⟨fun args t => carrying_carries .B .fnsh args t, by decide⟩

theorem test_witness_CeilAndNestSetTheContext :
    (∀ c args t, Carries (carrying .B c args t) .B c args (granted (.command .B ⟨c, args⟩)))
    ∧ 7 < (8 : Byte).toNat ∧ (7 : Byte).toNat ≤ 7 ∧ ((taken false none).contexts.get .B).stack ≠ []
    ∧ (Table.powerOn.contexts.get .B).stack = [] :=
  ⟨fun c args t => carrying_carries .B c args t, by decide⟩

theorem test_witness_GsetSetsAndReleases :
    (∀ args t, Carries (carrying .A .gset args t) .A .gset args (granted (.command .A ⟨.gset, args⟩)))
    ∧ (Table.powerOn.group 5).config = none ∧ ((grouped 0x08 none).group 5).config = some ⟨1, .B⟩
    ∧ ((grouped 0x08 none).group 5).call = none ∧ ((grouped 0x08 (some .raised)).group 5).call = some .raised
    ∧ ((groupTaken 0x08).group 5).call = some .taken
    ∧ ((grouped 0 none).group 5).positions[3] ≠ none
    ∧ (∀ q : Fin 8, (Group.unconfigured).positions[q.val] = none) :=
  ⟨fun args t => carrying_carries .A .gset args t, by decide⟩

theorem test_witness_GredReportsAndGclrClears :
    (∀ c args t, Carries (carrying .B c args t) .B c args (granted (.command .B ⟨c, args⟩)))
    ∧ ((grouped 0 none).group 5).config.map GroupConfig.answering = some .B
    ∧ (Table.powerOn.group 5).config.map GroupConfig.answering ≠ some .B :=
  ⟨fun c args t => carrying_carries .B c args t, by decide⟩

theorem test_witness_ClockCommands :
    (∀ c args k, ClockTurn (turning .A c args k) .A c args [])
    ∧ (clockIn .running).state = .running ∧ (clockIn .held).state = .held ∧ (clockIn .lost).state = .lost
    ∧ (4 : Byte).toNat ≤ 4 ∧ 4 < (5 : Byte).toNat
    ∧ DateTime.real ⟨2099, 12, 31, 23, 59, 59⟩ = true ∧ timeOf [0x99, 0x02, 0x29, 0, 0, 0] = none :=
  ⟨fun c args k => turning_turn .A c args k, by decide⟩

theorem test_witness_CkadShiftsTheCalendarAndTheDues :
    (∀ args k, Carries { carrying .A .ckad args (two zone) with clock := k } .A .ckad args
      (granted (.command .A ⟨.ckad, args⟩)))
    ∧ ((0x1C#8 ++ 0x20#8 : BitVec 16).toInt = 7200 ∧ (0x1C#8 ++ 0x21#8 : BitVec 16).toInt = 7201
      ∧ (0xE3#8 ++ 0xE0#8 : BitVec 16).toInt = -7200 ∧ (0xE3#8 ++ 0xDF#8 : BitVec 16).toInt = -7201)
    ∧ (secondNumber ⟨2000, 1, 1, 1, 59, 59⟩ : Int) - 7200 = -1
    ∧ (secondNumber ⟨2099, 12, 31, 22, 0, 0⟩ : Int) + 7200 = 3155759999 + 1
    ∧ (clockIn .running).valid = true ∧ Clock.powerOn.valid = false
    ∧ noon.anchoring = .elapsed ∧ zone.anchoring = .wall :=
  ⟨fun args k => ⟨rfl, rfl, rfl, rfl, rfl⟩, by decide⟩

theorem test_witness_CalendarCountsSeconds :
    Calendar.lawful ⟨⟨2099, 12, 31, 23, 59, 58⟩, 4⟩ = true
    ∧ Calendar.next ⟨⟨2099, 12, 31, 23, 59, 58⟩, 4⟩ = some ⟨⟨2099, 12, 31, 23, 59, 59⟩, 4⟩
    ∧ Calendar.next ⟨⟨2099, 12, 31, 23, 59, 59⟩, 4⟩ = none
    ∧ secondNumber ⟨2099, 12, 31, 23, 59, 59⟩ = 3155759999 := by decide

theorem test_witness_ClockEventsChangeTheClock :
    (∀ k, (ticking k).reliable = true)
    ∧ (clockIn .running).calendar.next = some ⟨⟨2031, 5, 4, 7, 0, 1⟩, 7⟩
    ∧ (⟨⟨2099, 12, 31, 23, 59, 59⟩, 4⟩ : Calendar).next = none
    ∧ (clockIn .held).state = .held ∧ (clockIn .lost).state = .lost
    ∧ Clock.powerOn.state = .settling ∧ Clock.powerOn.armed = false := ⟨fun _ => rfl, by decide⟩

theorem test_witness_FiringCountsTheOccurrencesPassed :
    Rule.lawful (.weekdays 0x2A) = true ∧ Rule.lawful (.monthly 12 31) = true ∧ Rule.lawful (.interval 0 0 0 1) = true
    ∧ sunday.real = true ∧ monday.real = true ∧ secondNumber sunday ≤ secondNumber sunday
    ∧ secondNumber sunday ≤ secondNumber monday := by decide

theorem test_witness_FireFiresTheHead :
    (∀ t, CarriesSched (scheduling .fire t) .fire (granted .fire))
    ∧ Table.powerOn.head = none
    ∧ ((two zone).head = some ⟨6, sunday⟩ ∧ secondNumber sunday ≤ secondNumber (granted .fire).now
      ∧ (granted .fire).valid = true ∧ (two zone).order 6 = some zone)
    ∧ (Table.powerOn.setOrder 2 noon).head = some ⟨2, ⟨2031, 5, 5, 12, 0, 0⟩⟩
    ∧ secondNumber (granted .fire).now < secondNumber ⟨2031, 5, 5, 12, 0, 0⟩ :=
  ⟨fun t => scheduling_carries .fire t, by decide⟩

theorem test_witness_ExpireDealsWithTheEarliestLapse :
    (∀ t, CarriesSched (scheduling .expire t) .expire (granted .expire))
    ∧ earliestLapsed 56800 Table.powerOn.deadlines = none
    ∧ earliestLapsed 56800 (two (raised zone (some 56800))).deadlines = some (.call 6, 56800)
    ∧ earliestLapsed 56800 (two (raised zone (some 56801))).deadlines = none
    ∧ (zone.floor < 3 ∧ ¬ zone.floor < 2)
    ∧ earliestLapsed 56800 (taken false (some 56799)).deadlines = some (.entry .B 0, 56799) :=
  ⟨fun t => scheduling_carries .expire t, by decide⟩

/-- A view in which firing is needed, one in which expiry alone is needed, and one with neither. -/
theorem test_witness_JudgementAndGrantFollowTheirRules :
    (let v := (clockIn .running).view;
      v.valid = true ∧ v.state = .running ∧ secondNumber sunday ≤ secondNumber v.now
      ∧ ((56800 : Elapsed) - v.elapsed).toNat = 0 ∧ 255 < ((56799 : Elapsed) - v.elapsed).toNat
      ∧ ¬ 255 < ((57055 : Elapsed) - v.elapsed).toNat)
    ∧ (let t : Table := { Table.powerOn with waiting := ⟨some ⟨.info, []⟩, none⟩, schedWaiting := some .fire, lastServed := .unit .A };
      t.inHand = none ∧ t.work = [] ∧ (t.schedWaiting.map fun _ => Requester.scheduler) = some .scheduler) := by decide

theorem test_witness_PowerOnValuesAreTaken :
    dark.power = .withoutSupply
    ∧ ({ State.reset with power := .backup, retention := .lost } : State).retention = .lost := by decide

theorem test_witness_ResetAndBackupEntryResetTheUnits :
    (State.reset.resetAsserted = false ∧ State.reset.reliable = true ∧ State.reset.power = .main ∧ 1800 ≤ 1800
      ∧ ({ State.reset with resetAsserted := true } : State).resetAsserted = true)
    ∧ (let s := (carrying .A .gset [5, 1] Table.powerOn).modUnit .A CmdUnit.reset;
      s.reliable = true ∧ s.table.inHand = some (granted (.command .A ⟨.gset, [5, 1]⟩))
        ∧ (s.units.get .A).discardTable = true)
    ∧ carriesOut .gsetRelease .A ⟨.gset, [5, 1]⟩ ∧ carriesOut (.look .B) .B ⟨.look, []⟩
    ∧ (let s := (turning .A .ckst [] Clock.powerOn).modUnit .A CmdUnit.reset;
      s.reliable = true ∧ s.clock.taking.get .A = [⟨.ckst, []⟩] ∧ (s.units.get .A).discardClock = true)
    ∧ takesOut .ckst .A ⟨.ckst, []⟩ ∧ takesOut (.ckrd .B) .B ⟨.ckrd, []⟩ :=
  ⟨by decide, by decide, by simp [carriesOut], by simp [carriesOut], by decide, by simp [takesOut], by simp [takesOut]⟩

theorem test_witness_LostBlocksDoNotAct :
    State.reset.power = .main ∧ 1799 < 1800
    ∧ (let s : State := { State.reset with power := .backup }; s.power = .backup ∧ s.retention = .held)
    ∧ dark.power = .withoutSupply ∧ actsAtBlocks .second = true := by decide

/-- Links that are deaf in BACKUP, without supply, and under RESET with SEL low. -/
theorem test_witness_DeafLinks :
    (let s : State := { State.reset with power := .backup }; s.serving = false ∧ s.DeafLaw)
    ∧ (dark.serving = false ∧ dark.DeafLaw)
    ∧ (let s : State := { State.reset with resetAsserted := true, linkA := { State.reset.linkA with line := .ignoring } };
      s.serving = false ∧ s.DeafLaw)
    ∧ isTransfer (.requestFrame .A .closes) = true ∧ isTransfer (.alcl .B []) = true := by
  refine ⟨⟨by decide, fun _ => ⟨fun q h => ?_, rfl⟩⟩, ⟨by decide, fun _ => ⟨fun q h => ?_, rfl⟩⟩,
    ⟨by decide, fun _ => ⟨fun q h => ?_, rfl⟩⟩, by decide⟩ <;> simp [State.reset, dark] at h

theorem test_witness_ReturnWithRetentionHeldRestartsDeadlines :
    (let s : State := { State.reset with power := .backup }; s.power = .backup ∧ s.retention = .held)
    ∧ WorkDue (owing .returnHeld (two (raised zone none))) .returnHeld []
    ∧ (two (raised zone none)).order 6 = some (raised zone none) ∧ zone.window ≠ 0 :=
  ⟨by decide, owing_due _ _ rfl, by decide⟩

/-! ### Tables that obey the laws -/

theorem order_taken {nesting : Bool} {d : Option Elapsed} {i : Fin 64} {o : Order} (h : (taken nesting d).order i = some o) :
    i = 6 ∧ o = { zone with call := some ⟨.taken, 3, none⟩ } ∨ i = 2 ∧ o = noon := by
  simp only [taken, two, Table.order_setContext, Table.order_setSlot, Table.order_setOrder] at h
  split at h
  · left; simp_all
  · split at h
    · right; simp_all
    · simp [Table.order, Table.slot, Table.powerOn] at h

/-- The law of the taken calls holds where port B has taken the call of 6/1. -/
theorem takenLaw_taken : (taken true (some 200040)).TakenLaw := by
  refine ⟨fun p e h _ => ?_, by decide, fun i o c ho hc hs => ?_, fun g h => ?_, fun p e h r => ?_, fun i o ho hm => ?_⟩
  · cases p with
    | A => simp [taken, two, Table.setContext, Table.setSlot, Table.setOrder, Table.powerOn, Context.powerOn, PerPort.set] at h
    | B =>
      have : e = ⟨.order 6 1, 3, some 200040, false, false⟩ := by simpa [taken, Table.setContext, PerPort.set] using h
      subst this
      exact ⟨by decide, { zone with call := some ⟨.taken, 3, none⟩ }, ⟨.taken, 3, none⟩, by decide, rfl, rfl, rfl, rfl⟩
  · obtain ⟨rfl, rfl⟩ | ⟨rfl, rfl⟩ := order_taken ho
    · decide
    · simp [noon] at hc
  · revert h; revert g; decide
  · cases p with
    | A => simp [taken, two, Table.setContext, Table.setSlot, Table.setOrder, Table.powerOn, Context.powerOn, PerPort.set] at h
    | B =>
      have : e = ⟨.order 6 1, 3, some 200040, false, false⟩ := by simpa [taken, Table.setContext, PerPort.set] using h
      subst this
      simp at r
  · obtain ⟨rfl, rfl⟩ | ⟨rfl, rfl⟩ := order_taken ho <;> simp [zone, noon] at hm

/-- The state of spec/11, 12-11, in miniature: the works of RESET and backup entry find a taken call. -/
theorem test_witness_ResetAndBackupWorkEmptyTheStacks :
    WorkDue (owing .reset (taken true (some 200040))) .reset []
    ∧ WorkDue (owing .backupEntry (taken true (some 200040))) .backupEntry []
    ∧ (owing .reset (taken true (some 200040))).table.TakenLaw :=
  ⟨owing_due _ _ rfl, owing_due _ _ rfl,
    ⟨takenLaw_taken.backed, takenLaw_taken.distinct, takenLaw_taken.orders, takenLaw_taken.groups,
      takenLaw_taken.unretired, takenLaw_taken.grouped⟩⟩

/-- A step from a state that obeys every law of the part, with an order taken by port B. -/
theorem test_witness_EveryStepKeepsTheLaws :
    let s : State := { State.reset with table := taken true (some 200040), clock := clockIn .running, pending := [.second] }
    WhileReliable CalendarLaw s
    ∧ WhileReliable (fun s => s.table.EveryOrder fun o => o.DueLaw ∧ o.CountLaw ∧ o.LevelLaw) s
    ∧ WhileReliable (fun s => s.table.QuotaLaw) s ∧ WhileReliable (fun s => s.table.StackLaw) s
    ∧ WhileReliable (fun s => s.table.TakenLaw) s
    ∧ ∃ s', step s = .next s' := by
  refine ⟨fun _ => by unfold CalendarLaw; decide, fun _ i o h => ?_, fun _ p => by cases p <;> decide, fun _ p => ?_,
    fun _ => takenLaw_taken, ⟨_, rfl⟩⟩
  · obtain ⟨rfl, rfl⟩ | ⟨rfl, rfl⟩ := order_taken h
    all_goals
      refine ⟨⟨?_, by decide⟩, ⟨?_, ?_, by decide, by decide, by decide⟩, ⟨by decide, by decide, by decide, ?_⟩⟩
    · intro d h; simp [zone, Standing.due] at h; subst h; decide
    · simp [zone]
    · simp [zone]
    · intro c h
      simp at h; subst h
      exact ⟨by decide, by decide, by decide⟩
    · intro d h; simp [noon, Standing.due] at h; subst h; decide
    · simp [noon]
    · simp [noon]
    · simp [noon]
  · cases p
    · exact ⟨by decide, by decide, trivial⟩
    · refine ⟨by decide, by decide, ?_⟩
      show (3 : Nat) < 7
      decide

/-- The law of the groups holds where the order 41/0 is the member of group 5 at position 3. -/
theorem test_witness_EveryStepKeepsTheGroupLaw : (grouped 0x08 (some .raised)).GroupLaw := by
  have order : ∀ i o, (grouped 0x08 (some .raised)).order i = some o →
      i = 41 ∧ o = { noon with member := some ⟨5, 3⟩ } := by
    intro i o h
    simp only [grouped, Table.order_setGroup, Table.order_setOrder] at h
    split at h
    · simp_all
    · simp [Table.order, Table.slot, Table.powerOn] at h
  have position : ∀ g p : Fin 8, ((grouped 0x08 (some .raised)).group g).positions[p.val]
      = if g = 5 ∧ p = 3 then some 41 else none := by decide
  refine ⟨fun g p i => ?_, by decide, by decide, by decide⟩
  rw [position]
  constructor
  · intro h
    split at h
    · next c =>
      simp only [Option.some.injEq] at h
      obtain ⟨rfl, rfl⟩ := c
      subst h
      exact ⟨{ noon with member := some ⟨5, 3⟩ }, by decide, rfl⟩
    · simp at h
  · rintro ⟨o, h, m⟩
    obtain ⟨rfl, rfl⟩ := order i o h
    simp at m
    obtain ⟨rfl, rfl⟩ := m
    rfl

end Sys2Proof.Tests
end

section
/-! Calendar arithmetic: what the day number counts, and which dates the splits of a day number give (R59 to R64). -/

namespace Sys2Proof.Machine

/-! ### Months and years as day counts (R60, R61) -/

theorem daysOfMonths_eleven (year : Nat) : daysOfMonths year 11 + 31 = yearLength year := by
  simp only [daysOfMonths, monthLength, yearLength]
  split <;> rfl

theorem monthLength_twelve (year : Nat) : monthLength year 12 = 31 := rfl

theorem one_le_monthLength (year month : Nat) : 1 ≤ monthLength year month := by
  unfold monthLength
  repeat' split
  all_goals omega

/-- The day number of the first day of a year (R61). -/
def firstDay (year : Nat) : Nat := 365 * (year - 2000) + leapsBefore year

theorem firstDay_succ {year : Nat} (h : 2000 ≤ year) : firstDay (year + 1) = firstDay year + yearLength year := by
  simp only [firstDay, leapsBefore, yearLength, isLeap, beq_iff_eq]
  split <;> omega

theorem dayNumber_eq (d : DateTime) :
    dayNumber d = firstDay d.year + daysOfMonths d.year (d.month - 1) + (d.day - 1) := rfl

/-! ### The next day (R61, R64) -/

theorem weekdayOfDay_succ (n : Nat) : weekdayOfDay (n + 1) = nextWeekday (weekdayOfDay n) := by
  unfold weekdayOfDay nextWeekday
  split <;> omega

/-- The weekday of the day after. -/
theorem weekdayOf_next {d e : DateTime} (h : dayNumber e = dayNumber d + 1) :
    weekdayOf e = nextWeekday (weekdayOf d) := by
  simp only [weekdayOf, h, weekdayOfDay_succ]

theorem dayNumber_nextDay {d : DateTime} (one : 1 ≤ d.day) (h m s : Nat) :
    dayNumber ⟨d.year, d.month, d.day + 1, h, m, s⟩ = dayNumber d + 1 := by
  simp only [dayNumber_eq]
  omega

theorem dayNumber_nextMonth {d : DateTime} (month : 1 ≤ d.month) (one : 1 ≤ d.day)
    (last : d.day = monthLength d.year d.month) (h m s : Nat) :
    dayNumber ⟨d.year, d.month + 1, 1, h, m, s⟩ = dayNumber d + 1 := by
  obtain ⟨k, hk⟩ : ∃ k, d.month = k + 1 := ⟨d.month - 1, by omega⟩
  simp only [dayNumber_eq, hk, Nat.add_sub_cancel, daysOfMonths] at last ⊢
  omega

theorem dayNumber_nextYear {d : DateTime} (year : 2000 ≤ d.year) (month : d.month = 12) (last : d.day = 31)
    (h m s : Nat) : dayNumber ⟨d.year + 1, 1, 1, h, m, s⟩ = dayNumber d + 1 := by
  have total := daysOfMonths_eleven d.year
  simp only [dayNumber_eq, firstDay_succ year, month, last, Nat.sub_self, Nat.reduceSub, daysOfMonths.eq_1]
  omega

theorem Calendar.lawful_iff (c : Calendar) : c.lawful = true ↔ c.now.real = true ∧ c.weekday = weekdayOf c.now := by
  simp [Calendar.lawful]

theorem Calendar.ofDateTime_lawful {d : DateTime} (h : d.real = true) : (Calendar.ofDateTime d).lawful = true :=
  (Calendar.lawful_iff _).mpr ⟨h, rfl⟩

/-- A midnight is real when its date is (R59). -/
theorem midnight_real {year month day : Nat} (ylo : 2000 ≤ year) (yhi : year ≤ 2099) (mlo : 1 ≤ month) (mhi : month ≤ 12)
    (dlo : 1 ≤ day) (dhi : day ≤ monthLength year month) : DateTime.real ⟨year, month, day, 0, 0, 0⟩ = true :=
  (DateTime.real_iff _).mpr ⟨ylo, yhi, mlo, mhi, dlo, dhi, Nat.zero_le _, Nat.zero_le _, Nat.zero_le _⟩

/-- A calendar step keeps a real date and time with its own weekday (R59, R64). -/
theorem Calendar.next_lawful {c c' : Calendar} (h : c.lawful = true) (e : c.next = some c') : c'.lawful = true := by
  obtain ⟨real, weekday⟩ := c.lawful_iff.mp h
  obtain ⟨ylo, yhi, mlo, mhi, dlo, dhi, hh, hm, hs⟩ := (DateTime.real_iff _).mp real
  rw [Calendar.lawful_iff]
  simp only [Calendar.next] at e
  split at e
  · next second => cases e; exact ⟨(DateTime.real_iff _).mpr ⟨ylo, yhi, mlo, mhi, dlo, dhi, hh, hm, second⟩, weekday⟩
  split at e
  · next minute =>
    cases e
    exact ⟨(DateTime.real_iff _).mpr ⟨ylo, yhi, mlo, mhi, dlo, dhi, hh, minute, Nat.zero_le _⟩, weekday⟩
  split at e
  · next hour =>
    cases e
    exact ⟨(DateTime.real_iff _).mpr ⟨ylo, yhi, mlo, mhi, dlo, dhi, hour, Nat.zero_le _, Nat.zero_le _⟩, weekday⟩
  split at e
  · next day =>
    cases e
    exact ⟨midnight_real ylo yhi mlo mhi (Nat.le_add_left _ _) day,
      by rw [weekday, weekdayOf_next (dayNumber_nextDay dlo 0 0 0)]⟩
  next day =>
  have last : c.now.day = monthLength c.now.year c.now.month := by omega
  split at e
  · next month =>
    cases e
    exact ⟨midnight_real ylo yhi (Nat.le_add_left _ _) month le_rfl (one_le_monthLength _ _),
      by rw [weekday, weekdayOf_next (dayNumber_nextMonth mlo dlo last 0 0 0)]⟩
  next month =>
  have december : c.now.month = 12 := by omega
  rw [december, monthLength_twelve] at last
  split at e
  · next year =>
    cases e
    exact ⟨midnight_real (Nat.le_succ_of_le ylo) year le_rfl (by omega) le_rfl (one_le_monthLength _ _),
      by rw [weekday, weekdayOf_next (dayNumber_nextYear ylo december last 0 0 0)]⟩
  · cases e

/-! ### The date of a day number (R61, R62) -/

/-- Where a split by years ends: the days before and within the year add up, and the day lies within the year unless
the fuel was used up. -/
theorem splitYears_spec (fuel : Nat) {year : Nat} (h : 2000 ≤ year) (n : Nat) :
    year ≤ (splitYears fuel year n).1 ∧ (splitYears fuel year n).1 ≤ year + fuel
    ∧ firstDay (splitYears fuel year n).1 + (splitYears fuel year n).2 = firstDay year + n
    ∧ ((splitYears fuel year n).2 < yearLength (splitYears fuel year n).1
      ∨ (splitYears fuel year n).1 = year + fuel) := by
  induction fuel generalizing year n with
  | zero => exact ⟨le_rfl, le_rfl, rfl, .inr rfl⟩
  | succ fuel ih =>
    rw [splitYears]
    split
    · next lt => exact ⟨le_rfl, by omega, rfl, .inl lt⟩
    · obtain ⟨lo, hi, sum, stop⟩ := ih (show 2000 ≤ year + 1 by omega) (n - yearLength year)
      rw [firstDay_succ h] at sum
      exact ⟨by omega, by omega, by omega, stop.imp_right fun e => by omega⟩

/-- The same for a split by months. -/
theorem splitMonths_spec (year fuel month n : Nat) :
    month + 1 ≤ (splitMonths year fuel (month + 1) n).1 ∧ (splitMonths year fuel (month + 1) n).1 ≤ month + 1 + fuel
    ∧ daysOfMonths year ((splitMonths year fuel (month + 1) n).1 - 1) + (splitMonths year fuel (month + 1) n).2
      = daysOfMonths year month + n
    ∧ ((splitMonths year fuel (month + 1) n).2 < monthLength year (splitMonths year fuel (month + 1) n).1
      ∨ (splitMonths year fuel (month + 1) n).1 = month + 1 + fuel) := by
  induction fuel generalizing month n with
  | zero => exact ⟨le_rfl, le_rfl, rfl, .inr rfl⟩
  | succ fuel ih =>
    rw [splitMonths]
    split
    · next lt => exact ⟨le_rfl, by omega, rfl, .inl lt⟩
    · obtain ⟨lo, hi, sum, stop⟩ := ih (month + 1) (n - monthLength year (month + 1))
      rw [daysOfMonths] at sum
      exact ⟨by omega, by omega, by omega, stop.imp_right fun e => by omega⟩

/-- A day number of the range lies within its year (R61). -/
theorem splitYears_range {day : Nat} (h : day ≤ Config.maxDay) :
    2000 ≤ (splitYears 99 2000 day).1 ∧ (splitYears 99 2000 day).1 ≤ 2099
      ∧ (splitYears 99 2000 day).2 < yearLength (splitYears 99 2000 day).1 := by
  obtain ⟨lo, hi, sum, stop⟩ := splitYears_spec 99 (le_refl 2000) day
  refine ⟨lo, hi, stop.elim id fun e => ?_⟩
  rw [e] at sum ⊢
  simp only [Config.maxDay, firstDay, leapsBefore] at h sum
  have : yearLength (2000 + 99) = 365 := rfl
  omega

/-- A day of a year lies within its month (R60). -/
theorem splitMonths_range {year n : Nat} (h : n < yearLength year) :
    1 ≤ (splitMonths year 11 1 n).1 ∧ (splitMonths year 11 1 n).1 ≤ 12
      ∧ (splitMonths year 11 1 n).2 < monthLength year (splitMonths year 11 1 n).1 := by
  obtain ⟨lo, hi, sum, stop⟩ := splitMonths_spec year 11 0 n
  refine ⟨lo, hi, stop.elim id fun e => ?_⟩
  rw [e] at sum ⊢
  have total := daysOfMonths_eleven year
  rw [show monthLength year (0 + 1 + 11) = 31 from rfl]
  simp only [Nat.reduceAdd, Nat.reduceSub, daysOfMonths.eq_1] at sum
  omega

/-- The date of a day number of the range, at a second of the day, is real (R59, R61). -/
theorem ofDayAndSecond_real {day second : Nat} (hd : day ≤ Config.maxDay) (hs : second < 86400) :
    (ofDayAndSecond day second).real = true := by
  obtain ⟨ylo, yhi, yday⟩ := splitYears_range hd
  obtain ⟨mlo, mhi, mday⟩ := splitMonths_range yday
  rw [DateTime.real_iff]
  simp only [ofDayAndSecond]
  exact ⟨ylo, yhi, mlo, mhi, by omega, mday, by omega, by omega, by omega⟩

/-- The date of a second number of the range is real (R59, R62). -/
theorem ofSecondNumber_real {n : Nat} (h : n ≤ Config.maxSecond) : (ofSecondNumber n).real = true := by
  refine ofDayAndSecond_real ?_ (Nat.mod_lt _ (by decide))
  simp only [Config.maxSecond, Config.maxDay] at h ⊢
  omega

/-! ### Every change keeps the calendar (R59) -/

/-- A second at the calendar, the wrap included (R64, R65). -/
theorem Clock.stepCalendar_lawful {k : Clock} (h : k.calendar.lawful = true) :
    k.stepCalendar.calendar.lawful = true := by
  unfold Clock.stepCalendar
  split
  · next c e => exact Calendar.next_lawful h e
  · show Calendar.lawful ⟨rangeStart, 6⟩ = true
    decide

/-- Every change of a step leaves the calendar lawful, if it was so while the blocks could be relied upon. -/
theorem Change.calendar_lawful {s s' : State} (h : Change s s') (before : WhileReliable CalendarLaw s)
    (after : s'.reliable = true) : CalendarLaw s' := by
  have of_still : ∀ {u : State}, Still u s' → (u.reliable = true → u.clock.calendar.lawful = true) → CalendarLaw s' :=
    fun still lawful => by
      rw [CalendarLaw, still.calendar]
      exact lawful (still.reliable after)
  cases h with
  | nothing still => exact of_still still before
  | service _ _ _ _ _ still => exact of_still still before
  | adjusted n sum range still => exact of_still still fun _ => Calendar.ofDateTime_lawful (ofSecondNumber_real range)
  | loaded d real still => exact of_still still fun _ => Calendar.ofDateTime_lawful real
  | stepped still => exact of_still still fun r => Clock.stepCalendar_lawful (before r)
  | fired _ still => exact of_still still before
  | expiredCall _ _ _ _ _ _ _ still => exact of_still still before
  | expiredEntry _ _ still => exact of_still still before
  | resetWork _ still => exact of_still still before
  | backupWork still => exact of_still still before
  | returnWork _ still => exact of_still still before
  | poweredOn _ clock _ =>
    rw [CalendarLaw, clock]
    decide
  | lost reliable _ => rw [reliable] at after; cases after

/-- Every step keeps a real date and time with its own weekday (R59). -/
theorem step_keeps_calendarLaw : StepKeeps (WhileReliable CalendarLaw) := fun _ _ before e after =>
  (step_change e).calendar_lawful before after

end Sys2Proof.Machine
end

section
/-! The laws of the order records (R5 to R16): which changes of a record keep them, and that every change of the table
does. -/

namespace Sys2Proof.Machine

/-! ### The next due of a firing is real (R89 to R92) -/

theorem secondOfDay_lt {d : DateTime} (h : d.real = true) : secondOfDay d < 86400 := by
  obtain ⟨_, _, _, _, _, _, hh, hm, hs⟩ := (DateTime.real_iff _).mp h
  unfold secondOfDay
  omega

theorem passedInterval_next_real {len : Nat} {due now d : DateTime} (h : (passedInterval len due now).next = some d) :
    d.real = true := by
  simp only [passedInterval, Option.ite_none_right_eq_some, Option.some.injEq] at h
  obtain ⟨range, rfl⟩ := h
  exact ofSecondNumber_real range

theorem monthlyOccurrence_real {step day j : Nat} {due d : DateTime} (real : due.real = true) (one : 1 ≤ day)
    (h : monthlyOccurrence step day due j = some d) : d.real = true := by
  obtain ⟨_, _, _, _, _, _, hh, hm, hs⟩ := (DateTime.real_iff _).mp real
  simp only [monthlyOccurrence] at h
  split at h
  · cases h
  · next range =>
    have range : monthCount due + j * step ≤ 1199 := Nat.not_lt.mp range
    cases h
    exact (DateTime.real_iff _).mpr ⟨Nat.le_add_right _ _, by dsimp only; omega, Nat.le_add_left _ _,
      by dsimp only; omega, le_min one (one_le_monthLength _ _), min_le_right _ _, hh, hm, hs⟩

theorem scanMonthly_next_real {step day : Nat} {due now d : DateTime} (real : due.real = true) (one : 1 ≤ day)
    {fuel j k : Nat} (h : (scanMonthly step day due now fuel j k).next = some d) : d.real = true := by
  induction fuel generalizing j k with
  | zero => cases h
  | succ fuel ih =>
    rw [scanMonthly] at h
    split at h
    · cases h
    · next o occ =>
      split at h
      · exact ih h
      · cases h; exact monthlyOccurrence_real real one occ

theorem scanWeekdays_next_real {set : Byte} {second now : Nat} {d : DateTime} (lt : second < 86400) {fuel day k : Nat}
    (h : (scanWeekdays set second now fuel day k).next = some d) : d.real = true := by
  induction fuel generalizing day k with
  | zero => cases h
  | succ fuel ih =>
    rw [scanWeekdays] at h
    split at h
    · cases h
    · next range =>
      split at h
      · split at h
        · exact ih h
        · cases h; exact ofDayAndSecond_real (Nat.not_lt.mp range) lt
      · exact ih h

/-- A firing of an order with a real due finds a real next due (R63, R89). -/
theorem passed_next_real {rule : Rule} {due now d : DateTime} (lawful : rule.lawful = true) (real : due.real = true)
    (h : (passed rule due now).next = some d) : d.real = true := by
  cases rule with
  | single => cases h
  | interval => exact passedInterval_next_real h
  | monthly step day =>
    simp only [Rule.lawful, Bool.and_eq_true, decide_eq_true_eq] at lawful
    obtain ⟨⟨_, one⟩, _⟩ := lawful
    exact scanMonthly_next_real real one h
  | weekdays set => exact scanWeekdays_next_real (secondOfDay_lt real) h

/-- A due moved by an adjustment is real (R80). -/
theorem shiftDue_real {n : Int} {d e : DateTime} (h : shiftDue n d = some e) : e.real = true := by
  simp only [shiftDue] at h
  split at h
  · cases h; decide
  · split at h
    · cases h
    · cases h; exact ofSecondNumber_real (by omega)

/-! ### Changes of one record -/

/-- The laws of an order record (R5 to R16). -/
def Order.Laws (o : Order) : Prop := o.DueLaw ∧ o.CountLaw ∧ o.LevelLaw

theorem Order.Laws.dueLaw {o : Order} (h : o.Laws) : o.DueLaw := h.1

theorem Order.Laws.countLaw {o : Order} (h : o.Laws) : o.CountLaw := h.2.1

theorem Order.Laws.levelLaw {o : Order} (h : o.Laws) : o.LevelLaw := h.2.2

/-- The law of levels speaks of the level, the floor and the call alone (R11, R16). -/
theorem Order.LevelLaw.of_same {o o' : Order} (h : o.LevelLaw) (floor : o'.floor = o.floor) (level : o'.level = o.level)
    (call : ∀ c, o'.call = some c → c.Lawful o) : o'.LevelLaw where
  floor := floor ▸ h.floor
  ordered := by rw [floor, level]; exact h.ordered
  level := level ▸ h.level
  call c e := by
    have lawful := call c e
    exact ⟨lawful.level, by rw [floor, level]; exact lawful.raised, lawful.taken⟩

/-- A new standing keeps the laws where its due is real, and where an order not SPENT has a count left. -/
theorem Order.Laws.withStanding {o : Order} (h : o.Laws) (x : Standing) (due : ∀ d, x.due = some d → d.real = true)
    (alive : x ≠ .spent → o.remaining ≠ some 0) : Order.Laws { o with standing := x } :=
  ⟨⟨due, h.dueLaw.rule⟩,
    ⟨h.countLaw.remaining, alive, h.countLaw.missed, h.countLaw.tally, h.countLaw.label⟩,
    h.levelLaw.of_same rfl rfl h.levelLaw.call⟩

/-- An order that passes between WAITING and HELD at the due it keeps stays lawful (R47, R48). -/
theorem Order.Laws.sameDue {o : Order} (h : o.Laws) {x : Standing} {d : DateTime} (held : o.standing.due = some d)
    (kept : x.due = some d) : Order.Laws { o with standing := x } :=
  h.withStanding x (fun e he => h.dueLaw.due e (held.trans (kept.symm.trans he)))
    fun _ => h.countLaw.alive fun spent => by rw [spent] at held; cases held

/-- A new call keeps the laws where it is lawful (R16). -/
theorem Order.Laws.withCall {o : Order} (h : o.Laws) (c : Option Call) (lawful : ∀ k, c = some k → k.Lawful o) :
    Order.Laws { o with call := c } :=
  ⟨⟨h.dueLaw.due, h.dueLaw.rule⟩,
    ⟨h.countLaw.remaining, h.countLaw.alive, h.countLaw.missed, h.countLaw.tally, h.countLaw.label⟩,
    h.levelLaw.of_same rfl rfl lawful⟩

/-- New counts of missed and tallied firings keep the laws within their bounds (R13). -/
theorem Order.Laws.withCounts {o : Order} (h : o.Laws) {missed tally : Nat} (skipped : Bool)
    (m : missed ≤ Config.maxMissed) (t : tally ≤ Config.maxTally) :
    Order.Laws { o with missed := missed, tally := tally, skipped := skipped } :=
  ⟨⟨h.dueLaw.due, h.dueLaw.rule⟩, ⟨h.countLaw.remaining, h.countLaw.alive, m, t, h.countLaw.label⟩,
    h.levelLaw.of_same rfl rfl h.levelLaw.call⟩

/-- A lawful order that is not silent has room for a RAISED call at its own level. -/
theorem Order.Laws.raisedAt {o : Order} (h : o.Laws) {level : Nat} (lo : o.floor ≤ level) (hi : level ≤ o.level)
    (loud : o.level ≠ 7) (d : Option Elapsed) : Call.Lawful o ⟨.raised, level, d⟩ :=
  ⟨by have := h.levelLaw.level; dsimp only; omega, fun _ => ⟨lo, hi, loud⟩, nofun⟩

theorem PlacArgs.order_laws {a : PlacArgs} (h : a.Lawful) (owner : Port) : (a.order owner).Laws :=
  ⟨⟨fun _ e => by cases e; exact h.due, h.rule⟩,
    ⟨fun n e => (h.remaining n e).2, fun _ e => absurd (h.remaining 0 e).1 (by decide), Nat.zero_le _, Nat.zero_le _,
      h.label⟩,
    ⟨h.floor, h.ordered, h.level, nofun⟩⟩

/-! ### FNSH and TAKE on a record -/

theorem Order.finished_laws {o : Order} (h : o.Laws) (hold : Bool) : (o.finished hold).Laws := by
  have quiet : Order.Laws { o with call := none } := h.withCall none nofun
  unfold Order.finished
  split
  · next d waiting => split <;> exact quiet.sameDue (congrArg Standing.due waiting) rfl
  · next d held => exact quiet.sameDue (congrArg Standing.due held) rfl
  · exact quiet.withStanding _ nofun fun alive => absurd rfl alive

theorem Order.taken_laws {o : Order} (h : o.Laws) {level : Nat} (le : level ≤ 6) : (o.taken level).Laws :=
  (h.withCall (some ⟨.taken, level, none⟩) fun _ e => by cases e; exact ⟨le, nofun, fun _ => rfl⟩).withCounts o.skipped
    (Nat.zero_le _) h.countLaw.tally

/-! ### AMND on a record -/

/-- A RAISED call restarted stands within the new floor and level; a TAKEN one stands as it was (R44). -/
theorem restartCall_lawful {o o' : Order} (h : o'.floor ≤ o'.level ∧ o'.level ≤ 7) {e : Elapsed} {window : Byte}
    {c k : Call} (lawful : c.Lawful o) (eq : restartCall e o'.level window c = some k) : k.Lawful o' := by
  unfold restartCall at eq
  split at eq
  · split at eq
    · cases eq
    · next loud => cases eq; exact ⟨by dsimp only; omega, fun _ => ⟨h.1, le_rfl, loud⟩, nofun⟩
  · next taken =>
    cases eq
    exact ⟨lawful.level, (nomatch taken.symm.trans ·), lawful.taken⟩

theorem Amend.standing_due {a : Amend} {o : Order} (h : o.Laws) (l : a.LawfulFor o) :
    ∀ d, (a.standing o).due = some d → d.real = true := by
  intro d e
  unfold Amend.standing at e
  cases due : a.due with
  | none => rw [due] at e; exact h.dueLaw.due d e
  | some x =>
    have real := l.due x due
    rw [due] at e
    cases st : o.standing <;> rw [st] at e <;> cases e <;> exact real

/-- An AMND leaves an order not SPENT only where it was so or where it gives it a due (R42). -/
theorem Amend.standing_spent {a : Amend} {o : Order} (h : a.standing o ≠ .spent) :
    o.standing ≠ .spent ∨ a.due ≠ none := by
  cases due : a.due with
  | none => left; simpa [Amend.standing, due] using h
  | some d => exact .inr nofun

theorem Amend.call_lawful {a : Amend} {e : Elapsed} {o : Order} (h : o.Laws) (l : a.LawfulFor o)
    (level : (a.order e o).level ≤ 7) {k : Call} (eq : a.call e o = some k) : k.Lawful (a.order e o) := by
  unfold Amend.call at eq
  split at eq
  · obtain ⟨c, call, eq⟩ := Option.bind_eq_some_iff.mp eq
    exact restartCall_lawful (o' := a.order e o) ⟨l.ordered, level⟩ (h.levelLaw.call c call) eq
  · next same =>
    obtain ⟨lv, fl⟩ : a.level = none ∧ a.floor = none := by simpa using same
    have c := h.levelLaw.call k eq
    exact ⟨c.level, fun r => by simpa [Amend.order, lv, fl] using c.raised r, c.taken⟩

/-- What an AMND that passed its field checks leaves of a record is lawful, whatever its membership (R40, R46). -/
theorem Amend.order_laws {a : Amend} {e : Elapsed} {o : Order} (h : o.Laws) (l : a.LawfulFor o) (m : Option Member) :
    Order.Laws { a.order e o with member := m } := by
  have level : (a.order e o).level ≤ 7 := by
    simp only [Amend.order]
    cases lv : a.level with
    | none => exact h.levelLaw.level
    | some n => exact l.level n lv
  have floor : (a.order e o).floor ≤ 6 := by
    simp only [Amend.order]
    cases fl : a.floor with
    | none => exact h.levelLaw.floor
    | some n => exact l.floor n fl
  refine ⟨⟨Amend.standing_due h l, ?_⟩,
    ⟨fun n en => ?_, fun st => l.alive (Amend.standing_spent st), h.countLaw.missed, h.countLaw.tally, ?_⟩,
    ⟨floor, l.ordered, level, fun k ek => let c := Amend.call_lawful h l level ek; ⟨c.level, c.raised, c.taken⟩⟩⟩
  · simp only [Amend.order]
    cases r : a.rule with
    | none => exact h.dueLaw.rule
    | some r' => exact l.rule r' r
  · simp only [Amend.order] at en
    cases r : a.remaining with
    | none => rw [r] at en; exact h.countLaw.remaining n en
    | some x => rw [r] at en; exact (l.remaining n (r.trans (congrArg some en))).2
  · simp only [Amend.order]
    cases r : a.label with
    | none => exact h.countLaw.label
    | some x => exact l.label x r

/-! ### Firing, expiry, adjustment and the works on a record -/

/-- An order charged and placed by a firing: SPENT where no count is left or no next due was found (R93, R97). -/
theorem Order.advanced_laws {o : Order} (h : o.Laws) {d now : DateTime} (real : d.real = true) :
    (o.advanced (passed o.rule d now)).Laws := by
  have charged : Order.Laws
      { o with remaining := chargeRemaining (passed o.rule d now).k o.remaining, standing := .spent } := by
    refine ⟨⟨nofun, h.dueLaw.rule⟩, ⟨fun n e => ?_, nofun, h.countLaw.missed, h.countLaw.tally, h.countLaw.label⟩,
      h.levelLaw.of_same rfl rfl h.levelLaw.call⟩
    obtain ⟨m, em, rfl⟩ := Option.map_eq_some_iff.mp e
    exact (Nat.sub_le _ _).trans (h.countLaw.remaining m em)
  refine charged.withStanding _ (fun x e => ?_) fun alive gone => alive (if_pos gone)
  unfold placeFired at e
  split at e
  · cases e
  · split at e
    · next next => cases e; exact passed_next_real h.dueLaw.rule real next
    · cases e

theorem saturate_le (limit n more : Nat) : saturate limit n more ≤ limit := min_le_left _ _

theorem Order.counted_laws {o : Order} (h : o.Laws) : o.counted.Laws :=
  h.withCounts false h.countLaw.missed (saturate_le _ _ _)

theorem Order.call1_laws {o : Order} (h : o.Laws) (k : Nat) (start : Byte → Option Elapsed) :
    (o.call1 k start).Laws := by
  unfold Order.call1
  split
  · exact h
  next loud =>
  split
  · exact (h.withCall (some ⟨.raised, o.level, start o.window⟩) fun c e => by
      cases e; exact h.raisedAt h.levelLaw.ordered le_rfl loud _).withCounts o.skipped (saturate_le _ _ _)
      h.countLaw.tally
  · exact h.withCounts o.skipped (saturate_le _ _ _) h.countLaw.tally

theorem Order.expired_laws {o : Order} (h : o.Laws) (e : Elapsed) {c : Call} (call : o.call = some c)
    (raised : c.state = .raised) : (o.expired e c).Laws := by
  have l := h.levelLaw.call c call
  obtain ⟨lo, hi, loud⟩ := l.raised raised
  unfold Order.expired
  split
  · exact h.withCall _ fun k ek => by
      cases ek
      exact ⟨(Nat.sub_le _ _).trans l.level, fun _ => ⟨by dsimp only; omega, (Nat.sub_le _ _).trans hi, loud⟩,
        (nomatch raised.symm.trans ·)⟩
  · exact h.withCall _ fun k ek => by cases ek; exact ⟨l.level, l.raised, fun _ => rfl⟩

theorem shiftStanding_due {n : Int} {x : Standing} {d : DateTime} (h : (shiftStanding n x).due = some d) :
    d.real = true := by
  cases x with
  | spent => cases h
  | waiting y =>
    cases e : shiftDue n y with
    | none => simp [shiftStanding, e, Standing.due] at h
    | some z => simp [shiftStanding, e, Standing.due] at h; exact shiftDue_real (h ▸ e)
  | held y =>
    cases e : shiftDue n y with
    | none => simp [shiftStanding, e, Standing.due] at h
    | some z => simp [shiftStanding, e, Standing.due] at h; exact shiftDue_real (h ▸ e)

theorem Order.shift_laws {o : Order} (h : o.Laws) (n : Int) : (o.shift n).Laws := by
  unfold Order.shift
  split
  · exact h.withStanding _ (fun _ e => shiftStanding_due e) fun alive =>
      h.countLaw.alive fun spent => alive (by rw [spent]; rfl)
  · exact h

theorem Order.reRaise_laws {o : Order} (h : o.Laws) (level : Nat) (start : Byte → Option Elapsed) :
    (o.reRaise level start).Laws := by
  unfold Order.reRaise
  split
  · exact h.withCall none nofun
  · next loud =>
    exact h.withCall _ fun k e => by
      cases e
      exact h.raisedAt (le_max_left _ _) (max_le h.levelLaw.ordered (min_le_right _ _)) loud _

theorem Order.withDeadline_laws {o : Order} (h : o.Laws) (d : Option Elapsed → Option Elapsed) :
    (o.withDeadline d).Laws := by
  unfold Order.withDeadline
  split
  · next c call =>
    split
    · next raised =>
      have l := h.levelLaw.call c call
      exact h.withCall _ fun k e => by
        cases e
        exact ⟨l.level, l.raised, (nomatch raised.symm.trans ·)⟩
    · exact h
  · exact h

end Sys2Proof.Machine
end

section
/-! Every change of the table keeps the laws of the order records (R5 to R16). -/

namespace Sys2Proof.Machine

/-! ### What is true of every order -/

theorem Table.EveryOrder.mono {P : Order → Prop} {t t' : Table} (h : t.EveryOrder P)
    (old : ∀ i o, t'.order i = some o → t.order i = some o) : t'.EveryOrder P := fun i o e => h i o (old i o e)

theorem Table.EveryOrder.setOrder {P : Order → Prop} {t : Table} (h : t.EveryOrder P) {i : Fin 64} {o : Order}
    (new : P o) : (t.setOrder i o).EveryOrder P := by
  intro j x e
  rw [Table.order_setOrder] at e
  split at e
  · cases e; exact new
  · exact h j x e

theorem Table.EveryOrder.mapOrders {P : Order → Prop} {t : Table} (h : t.EveryOrder P) {f : Order → Order}
    (keeps : ∀ o, P o → P (f o)) : (t.mapOrders f).EveryOrder P := by
  intro i o e
  rw [Table.order_mapOrders] at e
  obtain ⟨x, ex, rfl⟩ := Option.map_eq_some_iff.mp e
  exact keeps x (h i x ex)

theorem Table.EveryOrder.joinIf {P : Order → Prop} {t : Table} (h : t.EveryOrder P) (i : Fin 64) (m : Option Member) :
    (t.joinIf i m).EveryOrder P := h.mono fun j o e => by rwa [Table.order_joinIf] at e

theorem Table.EveryOrder.leaveIf {P : Order → Prop} {t : Table} (h : t.EveryOrder P) (m : Option Member) :
    (t.leaveIf m).EveryOrder P := h.mono fun j o e => by rwa [Table.order_leaveIf] at e

/-- Retiring an order leaves the others as they were (R50). -/
theorem Table.EveryOrder.retire {P : Order → Prop} {t : Table} (h : t.EveryOrder P) (i : Fin 64) (o : Order) :
    (t.retire i o).EveryOrder P := h.mono fun j x e => by
  have spec := t.retire_spec i o
  by_cases hj : j = i
  · subst hj
    rw [Table.order, spec.slot] at e
    cases e
  · rwa [Table.order, spec.other j hj] at e

theorem Table.EveryOrder.purge {P : Order → Prop} {t : Table} (h : t.EveryOrder P) (owner : Port) :
    (t.purge owner).EveryOrder P :=
  List.foldlRecOn allSlots (Table.purgeSlot owner) h fun u hu i _ => by
    unfold Table.purgeSlot
    split
    · split
      · exact hu.retire i _
      · exact hu
    · exact hu

/-- A service keeps a property of the table. -/
def ServiceKeeps (P : Table → Prop) (f : Port → InHand → List Byte → Table → Table × Reply) : Prop :=
  ∀ p h args t, P t → P (f p h args t).1

/-- A command under a handle keeps what its action on the named order keeps: its refusals change nothing (R35). -/
theorem withHandle_keeps {P : Table → Prop} {p : Port} {args : List Byte} {t : Table}
    {k : Fin 64 → Order → Table × Reply} (h : P t)
    (action : ∀ i o, t.order i = some o → P (k i o).1) : P (withHandle p args t k).1 := by
  unfold withHandle
  split
  · split
    · exact h
    · next i o named =>
      split
      · exact h
      · exact action i o ((Table.resolve_eq_some _ _ _ _ _).mp named).2.2
  · exact h

/-! ### The services keep the laws of the records -/

/-- The laws of the order records hold throughout a table (R5 to R16). -/
def Table.OrderLaws (t : Table) : Prop := t.EveryOrder Order.Laws

theorem servePlac_keeps : ServiceKeeps Table.OrderLaws servePlac := by
  intro p g args t h
  unfold servePlac
  split
  · exact h
  next a decoded =>
  split
  · exact h
  split
  · exact h
  split
  · exact h
  next i _ _ =>
  rw [Table.place_eq]
  exact Table.EveryOrder.joinIf (Table.EveryOrder.setOrder h (PlacArgs.order_laws (placDecode_lawful decoded) p)) i _

theorem Table.OrderLaws.amend {t : Table} (h : t.OrderLaws) {i : Fin 64} {o : Order} (e : Elapsed) {a : Amend}
    (order : t.order i = some o) (l : a.LawfulFor o) : (t.amend i o e a).OrderLaws := by
  have written : ∀ m, (t.setOrder i { a.order e o with member := m }).OrderLaws := fun m =>
    Table.EveryOrder.setOrder h (Amend.order_laws (h i o order) l m)
  by_cases same : a.member.getD o.member = o.member
  · rw [Table.amend_stay _ _ _ _ _ same]
    exact written _
  · rw [Table.amend_move _ _ _ _ _ same]
    exact Table.EveryOrder.joinIf (Table.EveryOrder.leaveIf (written _) _) _ _

theorem serveAmnd_keeps : ServiceKeeps Table.OrderLaws serveAmnd := by
  intro p g args t h
  unfold serveAmnd
  split
  · split
    · exact h
    split
    · exact h
    next i o named =>
    split
    · exact h
    unfold amendOrder
    split
    · exact h
    next a decoded =>
    split
    · exact h
    split
    · exact h
    · exact h.amend _ ((Table.resolve_eq_some _ _ _ _ _).mp named).2.2 (amndDecode_lawful decoded)
  · exact h

theorem serveHold_keeps : ServiceKeeps Table.OrderLaws serveHold := fun _ _ _ _ h =>
  withHandle_keeps h fun i o order => by
    split
    · next d waiting => exact Table.EveryOrder.setOrder h ((h i o order).sameDue (congrArg Standing.due waiting) rfl)
    · exact h
    · exact h

theorem serveRsum_keeps : ServiceKeeps Table.OrderLaws serveRsum := fun _ _ _ _ h =>
  withHandle_keeps h fun i o order => by
    split
    · next d held => exact Table.EveryOrder.setOrder h ((h i o order).sameDue (congrArg Standing.due held) rfl)
    · exact h
    · exact h

theorem serveRtir_keeps : ServiceKeeps Table.OrderLaws serveRtir := fun _ _ _ _ h =>
  withHandle_keeps h fun i o _ => Table.EveryOrder.retire h i o

theorem servePurg_keeps : ServiceKeeps Table.OrderLaws servePurg := by
  intro p g args t h
  unfold servePurg
  split
  · split
    · exact h
    next owner _ =>
    split
    · exact h
    · have purged : (t.purge owner).OrderLaws := Table.EveryOrder.purge h owner
      simpa only using purged
  · exact h

/-- The best offered call of an order is that order's call, at its level (R110). -/
theorem Table.bestOffered_order {t : Table} {p : Port} {x : RaisedCall} {i : Fin 64} (best : t.bestOffered p = some x)
    (origin : x.origin = .order i) : ∃ o c, t.order i = some o ∧ o.call = some c ∧ c.level = x.level := by
  have mem := ((lowest_some (List.Pairwise.filter _ (t.raisedCalls_sorted p)) x).mp best).1
  have raises := Table.mem_raisedCalls.mp (List.mem_of_mem_filter mem)
  simp only [Table.raises, origin] at raises
  obtain ⟨o, c, order, call, _, level, _⟩ := raises
  exact ⟨o, c, order, call, level⟩

theorem serveTake_keeps : ServiceKeeps Table.OrderLaws serveTake := by
  intro p g args t h
  unfold serveTake
  split
  · exact h
  split
  · exact h
  split
  · exact h
  next x best =>
  unfold Table.takeCall
  split
  · next i origin =>
    obtain ⟨o, c, order, call, level⟩ := Table.bestOffered_order best origin
    have laws := h i o order
    simp only [order]
    have taken := Order.taken_laws laws (level ▸ (laws.levelLaw.call c call).level)
    exact (Table.EveryOrder.setOrder h taken).mono fun _ _ e => e
  · exact h.mono fun _ _ e => e

/-- The order an entry names stands in the table (R107). -/
theorem Table.order_of_entryOrder {t : Table} {e : Entry} {i : Fin 64} {o : Order} (h : t.entryOrder e = some (i, o)) :
    t.order i = some o := by
  unfold Table.entryOrder at h
  split at h
  · cases h
  split at h
  · split at h
    · obtain ⟨x, hx, e⟩ := Option.map_eq_some_iff.mp h
      cases e
      exact hx
    · cases h
  · cases h

theorem Table.OrderLaws.finishCall {t : Table} (h : t.OrderLaws) (e : Entry) (hold : Bool) :
    (t.finishCall e hold).1.OrderLaws := by
  unfold Table.finishCall
  split
  · split
    · next i o named =>
      exact Table.EveryOrder.setOrder h (Order.finished_laws (h i o (Table.order_of_entryOrder named)) hold)
    · exact h
  · exact h.mono fun _ _ e => e

theorem serveFnsh_keeps : ServiceKeeps Table.OrderLaws serveFnsh := by
  intro p g args t h
  unfold serveFnsh
  split
  · exact h
  split
  · exact h
  split
  · have popped : (t.pop p).OrderLaws := Table.EveryOrder.mono h fun _ _ e => e
    exact popped.finishCall _ _
  · exact h

/-- A service that writes no slot keeps what is true of every order. -/
theorem serviceKeeps_of_order_eq {f : Port → InHand → List Byte → Table → Table × Reply}
    (same : ∀ p h args t i, (f p h args t).1.order i = t.order i) : ServiceKeeps Table.OrderLaws f := fun p g args t h =>
  Table.EveryOrder.mono h fun i o e => by rwa [same p g args t i] at e

theorem serveList_order (p : Port) (h : InHand) (args : List Byte) (t : Table) (i : Fin 64) :
    (serveList p h args t).1.order i = t.order i := by
  unfold serveList; split <;> rfl

theorem serveQuot_order (p : Port) (h : InHand) (args : List Byte) (t : Table) (i : Fin 64) :
    (serveQuot p h args t).1.order i = t.order i := by
  unfold serveQuot; repeat' split
  all_goals rfl

theorem serveInfo_order (p : Port) (h : InHand) (args : List Byte) (t : Table) (i : Fin 64) :
    (serveInfo p h args t).1.order i = t.order i := by
  unfold serveInfo; split <;> rfl

theorem serveCeil_order (p : Port) (h : InHand) (args : List Byte) (t : Table) (i : Fin 64) :
    (serveCeil p h args t).1.order i = t.order i := by
  unfold serveCeil; dsimp only; repeat' split
  all_goals rfl

theorem serveNest_order (p : Port) (h : InHand) (args : List Byte) (t : Table) (i : Fin 64) :
    (serveNest p h args t).1.order i = t.order i := by
  unfold serveNest; dsimp only; repeat' split
  all_goals rfl

theorem serveConfigure_order (p : Port) (h : InHand) (args : List Byte) (t : Table) (i : Fin 64) :
    (serveConfigure p h args t).1.order i = t.order i := by
  unfold serveConfigure; repeat' split
  all_goals rfl

theorem serveRelease_order (p : Port) (h : InHand) (args : List Byte) (t : Table) (i : Fin 64) :
    (serveRelease p h args t).1.order i = t.order i := by
  unfold serveRelease; repeat' split
  all_goals rfl

theorem serveGred_order (p : Port) (h : InHand) (args : List Byte) (t : Table) (i : Fin 64) :
    (serveGred p h args t).1.order i = t.order i := by
  unfold serveGred; repeat' split
  all_goals rfl

theorem serveGclr_order (p : Port) (h : InHand) (args : List Byte) (t : Table) (i : Fin 64) :
    (serveGclr p h args t).1.order i = t.order i := by
  unfold serveGclr; dsimp only; repeat' split
  all_goals rfl

theorem tableServices_keep_orderLaws : ∀ f ∈ tableServices, ServiceKeeps Table.OrderLaws f := by
  simp only [tableServices, List.forall_mem_cons]
  exact ⟨servePlac_keeps, serveAmnd_keeps, serveHold_keeps, serveRsum_keeps, serveRtir_keeps, servePurg_keeps,
    serviceKeeps_of_order_eq serveList_order, serviceKeeps_of_order_eq serveQuot_order,
    serviceKeeps_of_order_eq serveInfo_order, serveTake_keeps, serveFnsh_keeps,
    serviceKeeps_of_order_eq serveCeil_order, serviceKeeps_of_order_eq serveNest_order,
    serviceKeeps_of_order_eq serveConfigure_order, serviceKeeps_of_order_eq serveRelease_order,
    serviceKeeps_of_order_eq serveGred_order, serviceKeeps_of_order_eq serveGclr_order,
    fun _ mem => absurd mem List.not_mem_nil⟩

/-! ### Firing and the works keep the laws of the records -/

/-- A place of the due list is that of a WAITING order at its due (R19). -/
theorem Table.order_of_dueEntry {t : Table} {i : Fin 64} {e : DueEntry} (h : t.dueEntry i = some e) :
    ∃ o, t.order e.slot = some o ∧ o.standing = .waiting e.due := by
  unfold Table.dueEntry at h
  split at h
  · next o order =>
    split at h
    · next d waiting => cases h; exact ⟨o, order, waiting⟩
    · cases h
    · cases h
  · cases h

theorem Table.order_of_head {t : Table} {e : DueEntry} (h : t.head = some e) :
    ∃ o, t.order e.slot = some o ∧ o.standing = .waiting e.due := by
  have mem : e ∈ t.dueList := List.mem_of_mem_head? h
  obtain ⟨i, _, entry⟩ := List.mem_filterMap.mp ((foldr_insertDue_perm _).mem_iff.mp mem)
  exact Table.order_of_dueEntry entry

theorem Table.OrderLaws.fireOrder {t : Table} (h : t.OrderLaws) (g : InHand) (i : Fin 64) {o : Order} (laws : o.Laws)
    {d : DateTime} (real : d.real = true) : (t.fireOrder g i o d).OrderLaws := by
  have advanced := Order.advanced_laws laws (now := g.now) real
  unfold Table.fireOrder
  dsimp only
  split
  · exact Table.EveryOrder.setOrder h (advanced.withCounts true advanced.countLaw.missed advanced.countLaw.tally)
  split
  · exact (Table.EveryOrder.setOrder h (Order.counted_laws advanced)).mono fun _ _ e => e
  · exact Table.EveryOrder.setOrder h (Order.call1_laws (Order.counted_laws advanced) _ _)

theorem Table.OrderLaws.fire {t : Table} (h : t.OrderLaws) (g : InHand) : (t.fire g).OrderLaws := by
  unfold Table.fire
  split
  · split
    · exact h
    next e head =>
    obtain ⟨o, order, waiting⟩ := Table.order_of_head head
    have laws := h e.slot o order
    simp only [order]
    split
    · exact h.fireOrder g e.slot laws (laws.dueLaw.due e.due (by rw [waiting]; rfl))
    · exact h
  · exact h

theorem Table.OrderLaws.returnCall {t : Table} (h : t.OrderLaws) (start : Byte → Option Elapsed) (e : Entry) :
    (Table.returnCall start t e).OrderLaws := by
  unfold Table.returnCall
  split
  · split
    · next i o named =>
      exact Table.EveryOrder.setOrder h (Order.reRaise_laws (h i o (Table.order_of_entryOrder named)) _ _)
    · exact h
  · exact h.mono fun _ _ e => e

theorem Table.OrderLaws.emptyStacks {t : Table} (h : t.OrderLaws) (start : Byte → Option Elapsed) :
    (t.emptyStacks start).OrderLaws := by
  have stack : ∀ {u : Table} (l : List Entry), u.OrderLaws → (l.foldl (Table.returnCall start) u).OrderLaws :=
    fun l hu => List.foldlRecOn l _ hu fun _ hv e _ => Table.OrderLaws.returnCall hv start e
  exact (stack t.contexts.b.stack (stack t.contexts.a.stack h)).mono fun _ _ e => e

theorem Table.OrderLaws.backupWork {t : Table} (h : t.OrderLaws) : t.backupWork.OrderLaws :=
  ((h.emptyStacks _).mapOrders fun _ l => Order.withDeadline_laws l _).mono fun _ _ e => e

theorem Table.OrderLaws.returnWork {t : Table} (h : t.OrderLaws) (e : Elapsed) : (t.returnWork e).OrderLaws :=
  (Table.EveryOrder.mapOrders h fun o l => by
    split
    · exact l
    · exact Order.withDeadline_laws l _).mono fun _ _ e => e

theorem Table.powerOn_order (i : Fin 64) : Table.powerOn.order i = none := by
  simp [Table.order, Table.slot, Table.powerOn]

theorem Table.powerOn_orderLaws : Table.powerOn.OrderLaws := fun i o e => by rw [Table.powerOn_order] at e; cases e

/-- The laws of the order records survive every change of the table. -/
theorem Table.OrderLaws.keeps : Table.Keeps Table.OrderLaws where
  stored _ _ e h := Table.EveryOrder.mono h fun i o eo => by rwa [Table.order_stored e] at eo
  powerOn := Table.powerOn_orderLaws
  service := tableServices_keep_orderLaws
  shift _ n h := Table.EveryOrder.mapOrders h fun _ l => Order.shift_laws l n
  fire _ g h := h.fire g
  expiredCall _ e i o _ order call raised h :=
    Table.EveryOrder.setOrder h (Order.expired_laws (h i o order) e call raised)
  expiredEntry _ _ _ h := Table.EveryOrder.mono h fun _ _ e => e
  resetWork _ e h := h.emptyStacks (startDeadline e)
  backupWork _ h := h.backupWork
  returnWork _ e h := h.returnWork e

/-- Settles O56: the calendar by the changes of a step, the order records by the changes of the table. -/
theorem everyStepKeepsTheCalendarAndOrderLaws : Obligations.EveryStepKeepsTheCalendarAndOrderLaws :=
  ⟨step_keeps_calendarLaw, Table.OrderLaws.keeps.step⟩

end Sys2Proof.Machine
end

section
/-! The laws of the part at power-on, and what a handle names. -/

namespace Sys2Proof.Machine

/-! ### The laws at power-on (Table 3-2) -/

@[simp] theorem Table.powerOn_group (g : Fin 8) : Table.powerOn.group g = Group.unconfigured := by
  simp [Table.group, Table.powerOn]

@[simp] theorem Table.powerOn_context (p : Port) : Table.powerOn.contexts.get p = Context.powerOn := by cases p <;> rfl

theorem Table.powerOn_owned (p : Port) : Table.powerOn.owned p = 0 := by
  simp [Table.owned, Table.ordersWhere, Table.powerOn_order]

theorem Table.powerOn_quotaLaw : Table.powerOn.QuotaLaw := fun p => by
  rw [Table.powerOn_owned]
  exact Nat.zero_le _

theorem Table.powerOn_stackLaw : Table.powerOn.StackLaw := fun p => by
  rw [Table.powerOn_context]
  exact ⟨Nat.zero_le _, fun _ => Nat.zero_le _, trivial⟩

theorem Group.unconfigured_position (p : Fin 8) : Group.unconfigured.positions[p.val] = none := by
  simp [Group.unconfigured]

theorem Table.powerOn_groupLaw : Table.powerOn.GroupLaw where
  members g p i := by
    rw [Table.powerOn_group, Group.unconfigured_position]
    exact ⟨nofun, fun ⟨o, order, _⟩ => by rw [Table.powerOn_order] at order; cases order⟩
  vacant g _ := by
    rw [Table.powerOn_group]
    exact ⟨rfl, rfl, rfl, Group.unconfigured_position⟩
  factor g p bit := by
    rw [Table.powerOn_group] at bit
    simp [Group.unconfigured] at bit
  raised g call := by
    rw [Table.powerOn_group] at call
    cases call

theorem Table.powerOn_takenLaw : Table.powerOn.TakenLaw where
  backed p e mem := by
    rw [Table.powerOn_context] at mem
    cases mem
  distinct := List.nodup_nil
  orders i o c order := by
    rw [Table.powerOn_order] at order
    cases order
  groups g call := by
    rw [Table.powerOn_group] at call
    cases call
  unretired p e mem := by
    rw [Table.powerOn_context] at mem
    cases mem
  grouped i o order := by
    rw [Table.powerOn_order] at order
    cases order

/-- Settles O60: the reset state holds the power-on table and clock, and its links are at rest. -/
theorem theLawsHoldAfterReset : Obligations.TheLawsHoldAfterReset :=
  ⟨by unfold CalendarLaw; decide, Table.powerOn_orderLaws, Table.powerOn_quotaLaw, Table.powerOn_stackLaw,
    Table.powerOn_groupLaw, Table.powerOn_takenLaw, fun _ => ⟨nofun, rfl⟩⟩

/-! ### Handles (R3) -/

/-- A handle names nothing where no order stands in its slot at its generation (R3). -/
theorem Table.resolve_eq_none (t : Table) (slot generation : Byte) :
    t.resolve slot generation = none ↔
      ∀ i : Fin 64, slot.toNat = i.val → generation.toNat = (t.slot i).generation.toNat → t.order i = none := by
  rw [Option.eq_none_iff_forall_ne_some]
  constructor
  · intro unnamed i hs hg
    rw [Option.eq_none_iff_forall_ne_some]
    exact fun o order => unnamed (i, o) ((t.resolve_eq_some _ _ _ _).mpr ⟨hs, hg, order⟩)
  · rintro empty ⟨i, o⟩ named
    obtain ⟨hs, hg, order⟩ := (t.resolve_eq_some _ _ _ _).mp named
    rw [empty i hs hg] at order
    cases order

/-- Settles O16. -/
theorem handleNamesTheOrderOfItsGeneration : Obligations.HandleNamesTheOrderOfItsGeneration :=
  fun t slot generation => ⟨t.resolve_eq_some slot generation, t.resolve_eq_none slot generation⟩

/-! ### HOLD, RSUM and RTIR: layout, handle, rights (R24, R35) -/

/-- A command that its service refuses answers the refusal and changes nothing (R35). -/
theorem Carries.refused {i : Instr} {s : State} {p : Port} {c : Code} {args : List Byte} {h : InHand}
    (hs : Carries s p c args h) (block : c.block = .table) {f : Port → InHand → List Byte → Table → Table × Reply}
    (e : exec i s = .next (whileReliable (serve c p (tableService f)) s)) {r : ReplyCode}
    (served : f p h args s.table = s.table.answer r) : Answers i s p ⟨r, []⟩ s.table :=
  hs.answers block e served rfl

section
variable {p : Port} {args : List Byte} {t : Table} {k : Fin 64 → Order → Table × Reply} {slot generation : Byte}
  {i : Fin 64} {o : Order}

theorem withHandle_layout (h : args.length ≠ 2) : withHandle p args t k = t.answer .badArgument := by
  unfold withHandle
  split
  · exact absurd rfl h
  · rfl

theorem withHandle_unknown (h : t.resolve slot generation = none) :
    withHandle p [slot, generation] t k = t.answer .noSuchOrder := by
  simp only [withHandle, h]

theorem withHandle_denied (h : t.resolve slot generation = some (i, o)) (no : p = .B ∧ o.owner = .A) :
    withHandle p [slot, generation] t k = t.answer .notPermitted := by
  simp only [withHandle, h, denied_iff.mpr no, if_true]

theorem withHandle_permitted (h : t.resolve slot generation = some (i, o)) (yes : ¬ (p = .B ∧ o.owner = .A)) :
    withHandle p [slot, generation] t k = k i o := by
  have free : denied p o.owner = false := Bool.eq_false_iff.mpr fun d => yes (denied_iff.mp d)
  simp only [withHandle, h, free, Bool.false_eq_true, if_false]

end

/-- A command under a handle checks its layout, then the handle, then the rights, whatever its action (R35). -/
theorem Carries.handle_checks {i : Instr} {s : State} {p : Port} {c : Code} {args : List Byte} {h : InHand}
    (hs : Carries s p c args h) (block : c.block = .table) {f : Port → InHand → List Byte → Table → Table × Reply}
    (e : exec i s = .next (whileReliable (serve c p (tableService f)) s)) {k : Fin 64 → Order → Table × Reply}
    (checks : f p h args s.table = withHandle p args s.table k) :
    (args.length ≠ 2 → Answers i s p ⟨.badArgument, []⟩ s.table)
    ∧ ∀ slot generation, args = [slot, generation] →
      (s.table.resolve slot generation = none → Answers i s p ⟨.noSuchOrder, []⟩ s.table)
      ∧ ∀ j o, s.table.resolve slot generation = some (j, o) → p = .B → o.owner = .A →
        Answers i s p ⟨.notPermitted, []⟩ s.table := by
  refine ⟨fun layout => hs.refused block e (checks.trans (withHandle_layout layout)), ?_⟩
  rintro slot generation rfl
  exact ⟨fun unknown => hs.refused block e (checks.trans (withHandle_unknown unknown)),
    fun _ _ named b a => hs.refused block e (checks.trans (withHandle_denied named ⟨b, a⟩))⟩

/-- Settles O27: all three serve through `withHandle`. -/
theorem handleCommandsCheckLayoutHandleRights : Obligations.HandleCommandsCheckLayoutHandleRights := by
  intro p args h s
  simp only [List.forall_mem_cons]
  exact ⟨fun hs => hs.handle_checks rfl rfl rfl, fun hs => hs.handle_checks rfl rfl rfl,
    fun hs => hs.handle_checks rfl rfl rfl, fun _ mem => absurd mem List.not_mem_nil⟩

/-! ### RTIR (R49, R50) -/

/-- A group whose member is another group's is left as it was. -/
theorem Group.LeftBy.eq_of_other {old : Option Member} {g : Fin 8} {x y : Group} (h : Group.LeftBy old g x y)
    (other : old.map Member.group ≠ some g) : y = x := by
  have elsewhere : ∀ q, old ≠ some ⟨g, q⟩ := by rintro q rfl; exact other rfl
  have positions : y.positions = x.positions := Vector.ext fun q hq => by
    rw [h.positions ⟨q, hq⟩, if_neg (elsewhere _)]
  have factor : y.factor = x.factor := BitVec.eq_of_getLsbD_eq fun q hq => by
    rw [h.factor ⟨q, hq⟩, decide_eq_false (elsewhere _), Bool.not_false, Bool.and_true]
  have call : y.call = x.call := by rw [h.call, if_neg fun c => other c.1]
  have config := h.config
  have enable := h.enable
  cases x
  cases y
  simp_all only

/-- The positions of a member's group after it left: its own is empty, the others stand. -/
theorem Group.LeftBy.positions_eq {m : Member} {x y : Group} (h : Group.LeftBy (some m) m.group x y) :
    y.positions = x.positions.set m.position.val none := Vector.ext fun q hq => by
  rw [h.positions ⟨q, hq⟩, Vector.getElem_set]
  simp only [Member.eq_iff, true_and, Fin.ext_iff]

theorem Group.LeftBy.factor_eq {m : Member} {x y : Group} (h : Group.LeftBy (some m) m.group x y) (q : Fin 8) :
    y.factor.getLsbD q.val = (x.factor.getLsbD q.val && !decide (q = m.position)) := by
  rw [h.factor q]
  simp only [Member.eq_iff, true_and, eq_comm]

theorem Group.LeftBy.call_eq {m : Member} {x y : Group} (h : Group.LeftBy (some m) m.group x y) :
    y.call = if x.call = some .raised ∧ y.factor &&& y.enable = 0 then none else x.call := by
  rw [h.call]
  simp only [Option.map_some, true_and]

/-- The call outcome bytes of RTIR, by the order's call (R49; Table A-5). -/
theorem Order.retiredCall_bytes (o : Order) : o.retiredCall.bytes = match o.call with
    | none => [0, 0xFF]
    | some c => match c.state with
      | .raised => [1, 0xFF]
      | .taken => [2, portByte o.answering] := by
  unfold Order.retiredCall
  cases o.call with
  | none => rfl
  | some c => cases h : c.state <;> simp only [h, CallOutcome.bytes]

/-- Settles O28, by `Table.retire_spec`. -/
theorem rtirRetiresTheOrder : Obligations.RtirRetiresTheOrder := by
  intro p slot generation h s i o hs named permitted
  have spec := s.table.retire_spec i o
  have served : serveRtir p h [slot, generation] s.table
      = (s.table.retire i o, .done (s.table.handle i ++ o.retiredCall.bytes)) := withHandle_permitted named permitted
  rw [Table.handle_of_resolve named, Order.retiredCall_bytes] at served
  refine ⟨_, hs.answers rfl rfl served spec.arbiter, spec.slot, spec.other, spec.quotas, spec.inBackup, spec.ctx,
    fun g => ?_⟩
  have left := spec.group g
  cases member : o.member with
  | none => exact (member ▸ left).eq_of_other nofun
  | some m =>
    rw [member] at left
    dsimp only
    split
    · next own =>
      subst own
      exact ⟨left.config, left.enable, left.positions_eq, left.factor_eq, left.call_eq⟩
    · next other => exact left.eq_of_other fun e => other (Option.some.inj e)

end Sys2Proof.Machine
end

section
/-! The arguments of a PLAC: which bytes each reading accepts, when the whole decodes, and what it decodes to (R14, R36,
R184, R185; Tables 2-3, A-4). -/

namespace Sys2Proof.Machine

/-! ### Readings of one byte (Table A-4) -/

theorem anchoringOf_eq_none {b : Byte} : anchoringOf b = none ↔ 1 < b.toNat := by
  unfold anchoringOf; split <;> simp_all; omega

theorem policyOf_eq_none {b : Byte} : policyOf b = none ↔ 1 < b.toNat := by
  unfold policyOf; split <;> simp_all; omega

theorem answeringOf_eq_none {owner : Port} {b : Byte} : answeringOf owner b = none ↔ 2 < b.toNat := by
  unfold answeringOf; split <;> simp_all; omega

theorem memberOf_eq_none {group position : Byte} :
    memberOf group position = none ↔ group ≠ 0xFF ∧ (7 < group.toNat ∨ 7 < position.toNat) := by
  unfold memberOf
  split
  · next absent => simp [absent]
  next present =>
  split
  · next g p hg hp =>
    have hg := finOf_eq_some.mp hg
    have hp := finOf_eq_some.mp hp
    simp only [reduceCtorEq, false_iff]
    omega
  · next outside =>
    simp only [true_iff]
    refine ⟨present, ?_⟩
    by_contra inside
    exact outside ⟨group.toNat, by omega⟩ ⟨position.toNat, by omega⟩ (finOf_eq_some.mpr rfl) (finOf_eq_some.mpr rfl)

/-- A membership is absent by its group byte alone: the position byte is not read (Table A-4). -/
theorem memberOf_eq_some_none {group position : Byte} : memberOf group position = some none ↔ group = 0xFF := by
  unfold memberOf
  split
  · next absent => simp [absent]
  · next present =>
    split
    · exact ⟨nofun, fun absent => absurd absent present⟩
    · exact ⟨nofun, fun absent => absurd absent present⟩

theorem levelOf_eq (b : Byte) : levelOf b = if b.toNat ≤ 7 then some b.toNat else none := rfl

theorem floorOf_eq (b : Byte) : floorOf b = if b.toNat ≤ 6 then some b.toNat else none := rfl

theorem labelOf_cons (b : Byte) (rest : List Byte) :
    labelOf (b :: rest) = if b.toNat ≤ 12 ∧ rest.length = b.toNat then some rest else none := by
  exact if_congr (by rw [Bool.and_eq_true, decide_eq_true_eq, beq_iff_eq, Config.maxLabel]) rfl rfl

theorem remainingOf_byteOf {r : Option Nat} (h : ∀ n, r = some n → 1 ≤ n ∧ n ≤ 255) :
    remainingOf (byteOf (r.getD 0)) = r := by
  cases r with
  | none => rfl
  | some n =>
    have bounds := h n rfl
    have read : (byteOf n).toNat = n := byteOf_toNat_lt (by omega)
    have present : byteOf n ≠ 0 := fun z => by rw [z] at read; exact absurd read.symm (by simpa using by omega)
    simp only [Option.getD_some, remainingOf, if_neg present, read]

theorem levelOf_byteOf {n : Nat} (h : n ≤ 7) : levelOf (byteOf n) = some n := by
  rw [levelOf_eq, byteOf_toNat_lt (by omega), if_pos h]

theorem floorOf_byteOf {n : Nat} (h : n ≤ 6) : floorOf (byteOf n) = some n := by
  rw [floorOf_eq, byteOf_toNat_lt (by omega), if_pos h]

theorem anchoringOf_anchoringByte (a : Anchoring) : anchoringOf (anchoringByte a) = some a := by cases a <;> rfl

theorem policyOf_policyByte (a : Policy) : policyOf (policyByte a) = some a := by cases a <;> rfl

theorem answeringOf_portByte (owner p : Port) : answeringOf owner (portByte p) = some p := by cases p <;> rfl

/-- A membership reads back from its bytes (Table A-4). -/
theorem memberOf_memberBytes {m : Option Member} {x y : Byte} (h : memberBytes m = [x, y]) : memberOf x y = some m := by
  cases m with
  | none =>
    obtain ⟨rfl, rfl⟩ : (0xFF : Byte) = x ∧ (0xFF : Byte) = y := by simpa [memberBytes] using h
    rfl
  | some m =>
    obtain ⟨rfl, rfl⟩ : byteOf m.group.val = x ∧ byteOf m.position.val = y := by simpa [memberBytes] using h
    have present : byteOf m.group.val ≠ 0xFF := fun e => by
      have read : (byteOf m.group.val).toNat = m.group.val := byteOf_toNat_lt (by omega)
      rw [e] at read
      have := m.group.isLt
      simp at read
      omega
    simp only [memberOf, if_neg present, finOf_groupByte]

/-! ### Bytes at their places -/

theorem drop_eq_byteAt_cons {bytes : List Byte} {n : Nat} (h : n < bytes.length) :
    bytes.drop n = byteAt bytes n :: bytes.drop (n + 1) := by
  rw [List.drop_eq_getElem_cons h, byteAt, List.getD_eq_getElem _ _ h]

theorem byteAt_set_same {bytes : List Byte} {n : Nat} (h : n < bytes.length) (x : Byte) :
    byteAt (bytes.set n x) n = x := by
  simp [byteAt, h]

theorem byteAt_set_other {bytes : List Byte} {m n : Nat} (h : n ≠ m) (x : Byte) :
    byteAt (bytes.set n x) m = byteAt bytes m := by
  simp [byteAt, h]

/-! ### When the arguments of a PLAC decode (R14, R37) -/

/-- The argument bytes are as many as the label's length announces (R185). -/
def placCounted (args : List Byte) : Prop := 21 ≤ args.length ∧ args.length = 21 + (byteAt args 20).toNat

theorem placCount_iff (args : List Byte) : placCount args = true ↔ placCounted args := by
  simp only [placCount, placCounted, Bool.and_eq_true, decide_eq_true_eq, beq_iff_eq]

section
variable {p : Port} {args : List Byte}

theorem placDecode_uncounted (h : ¬ placCounted args) : placDecode p args = .error .badArgument :=
  if_neg fun c => h ((placCount_iff args).mp c)

/-- The classes in their order, once the count agrees (Table 2-3). -/
theorem placDecode_counted (h : placCounted args) : placDecode p args =
    match timeOf (args.take 6) with
    | none => .error .badTime
    | some due =>
      match ruleOf ((args.drop 6).take 5) with
      | none => .error .badRule
      | some rule =>
        match placFields p args due rule with
        | none => .error .badArgument
        | some a => .ok a := by
  unfold placDecode
  exact if_pos ((placCount_iff args).mpr h)

theorem placDecode_badTime (h : placCounted args) (time : timeOf (args.take 6) = none) :
    placDecode p args = .error .badTime := by
  rw [placDecode_counted h, time]

theorem placDecode_badRule (h : placCounted args) (time : timeOf (args.take 6) ≠ none)
    (rule : ruleOf ((args.drop 6).take 5) = none) : placDecode p args = .error .badRule := by
  obtain ⟨due, time⟩ := Option.ne_none_iff_exists'.mp time
  rw [placDecode_counted h, time, rule]

theorem placDecode_badFields (h : placCounted args) (time : timeOf (args.take 6) ≠ none)
    (rule : ruleOf ((args.drop 6).take 5) ≠ none) (fields : ∀ due rule, placFields p args due rule = none) :
    placDecode p args = .error .badArgument := by
  obtain ⟨due, time⟩ := Option.ne_none_iff_exists'.mp time
  obtain ⟨r, rule⟩ := Option.ne_none_iff_exists'.mp rule
  simp only [placDecode_counted h, time, rule, fields]

/-- The fields of class 3, each read from its bytes (Table 2-3; R36). -/
theorem placFields_eq_some {due : DateTime} {rule : Rule} {a : PlacArgs} :
    placFields p args due rule = some a ↔ due = a.due ∧ rule = a.rule
      ∧ remainingOf (byteAt args 11) = a.remaining ∧ anchoringOf (byteAt args 12) = some a.anchoring
      ∧ policyOf (byteAt args 13) = some a.policy ∧ levelOf (byteAt args 14) = some a.level
      ∧ floorOf (byteAt args 15) = some a.floor ∧ a.floor ≤ a.level ∧ byteAt args 16 = a.window
      ∧ answeringOf p (byteAt args 17) = some a.answering ∧ memberOf (byteAt args 18) (byteAt args 19) = some a.member
      ∧ labelOf (args.drop 20) = some a.label := by
  unfold placFields
  constructor
  · intro h
    split at h
    · next an po lv fl port mem label e12 e13 e14 e15 e17 e18 e20 =>
      split at h
      · next ordered => cases h; exact ⟨rfl, rfl, rfl, e12, e13, e14, e15, ordered, rfl, e17, e18, e20⟩
      · cases h
    · cases h
  · rintro ⟨rfl, rfl, e11, e12, e13, e14, e15, ordered, e16, e17, e18, e20⟩
    simp only [e11, e12, e13, e14, e15, e16, e17, e18, e20, ordered, if_true]

/-- Arguments decode exactly where their count agrees and every field is read from its bytes (R14, R36). -/
theorem placDecode_eq_ok {a : PlacArgs} : placDecode p args = .ok a ↔ placCounted args
    ∧ timeOf (args.take 6) = some a.due ∧ ruleOf ((args.drop 6).take 5) = some a.rule
    ∧ placFields p args a.due a.rule = some a := by
  by_cases counted : placCounted args
  · rw [placDecode_counted counted]
    constructor
    · intro h
      split at h
      · cases h
      next due time =>
      split at h
      · cases h
      next rule er =>
      split at h
      · cases h
      next a' fields =>
      cases h
      obtain ⟨rfl, rfl, _⟩ := placFields_eq_some.mp fields
      exact ⟨counted, time, er, fields⟩
    · rintro ⟨_, time, rule, fields⟩
      simp only [time, rule, fields]
  · rw [placDecode_uncounted counted]
    exact ⟨nofun, fun h => absurd h.1 counted⟩

theorem placCounted_iff : placCounted args ↔ args.length = 21 + (byteAt args 20).toNat :=
  ⟨fun h => h.2, fun h => ⟨by omega, h⟩⟩

/-- A byte outside its encoding, or a floor above the level, fails class 3 (R14). -/
theorem placFields_eq_none (h : placCounted args)
    (bad : 1 < (byteAt args 12).toNat ∨ 1 < (byteAt args 13).toNat ∨ 7 < (byteAt args 14).toNat
      ∨ 6 < (byteAt args 15).toNat ∨ (byteAt args 14).toNat < (byteAt args 15).toNat ∨ 2 < (byteAt args 17).toNat
      ∨ (byteAt args 18 ≠ 0xFF ∧ (7 < (byteAt args 18).toNat ∨ 7 < (byteAt args 19).toNat))
      ∨ 12 < (byteAt args 20).toNat) (due : DateTime) (rule : Rule) : placFields p args due rule = none := by
  rw [Option.eq_none_iff_forall_ne_some]
  intro a e
  obtain ⟨_, _, _, e12, e13, e14, e15, ordered, _, e17, e18, e20⟩ := placFields_eq_some.mp e
  rw [drop_eq_byteAt_cons (show 20 < args.length from h.1), labelOf_cons, Option.ite_none_right_eq_some] at e20
  rcases bad with bad | bad | bad | bad | bad | bad | bad | bad
  · exact nomatch e12.symm.trans (anchoringOf_eq_none.mpr bad)
  · exact nomatch e13.symm.trans (policyOf_eq_none.mpr bad)
  · exact nomatch e14.symm.trans (levelOf_eq_none.mpr bad)
  · exact nomatch e15.symm.trans (floorOf_eq_none.mpr bad)
  · simp only [levelOf_eq, floorOf_eq, Option.ite_none_right_eq_some, Option.some.injEq] at e14 e15
    omega
  · exact nomatch e17.symm.trans (answeringOf_eq_none.mpr bad)
  · exact nomatch e18.symm.trans (memberOf_eq_none.mpr bad)
  · omega

end

/-! ### The arguments round trip (R36, R184, R185) -/

theorem ruleBytes_length (r : Rule) : (ruleBytes r).length = 5 := by cases r <;> rfl

theorem memberBytes_length (m : Option Member) : (memberBytes m).length = 2 := by cases m <;> rfl

theorem PlacArgs.bytes_length (a : PlacArgs) : a.bytes.length = 21 + a.label.length := by
  simp only [PlacArgs.bytes, List.length_append, requestTime, ruleBytes_length, memberBytes_length, List.length_cons,
    List.length_nil]
  omega

/-- Where each field stands among the argument bytes of a PLAC (R36). -/
theorem PlacArgs.bytes_layout (a : PlacArgs) :
    a.bytes.take 6 = requestTime a.due ∧ (a.bytes.drop 6).take 5 = ruleBytes a.rule
    ∧ byteAt a.bytes 11 = byteOf (a.remaining.getD 0) ∧ byteAt a.bytes 12 = anchoringByte a.anchoring
    ∧ byteAt a.bytes 13 = policyByte a.policy ∧ byteAt a.bytes 14 = byteOf a.level ∧ byteAt a.bytes 15 = byteOf a.floor
    ∧ byteAt a.bytes 16 = a.window ∧ byteAt a.bytes 17 = portByte a.answering
    ∧ memberBytes a.member = [byteAt a.bytes 18, byteAt a.bytes 19]
    ∧ byteAt a.bytes 20 = byteOf a.label.length ∧ a.bytes.drop 20 = byteOf a.label.length :: a.label := by
  obtain ⟨due, rule, remaining, anchoring, policy, level, floor, window, answering, member, label⟩ := a
  cases rule <;> cases member <;> exact ⟨rfl, rfl, rfl, rfl, rfl, rfl, rfl, rfl, rfl, rfl, rfl, rfl⟩

/-- The argument bytes of lawful values decode to those values (R36). -/
theorem placDecode_bytes (p : Port) {a : PlacArgs} (h : a.Lawful) : placDecode p a.bytes = .ok a := by
  obtain ⟨time, rule, e11, e12, e13, e14, e15, e16, e17, e18, e20, label⟩ := a.bytes_layout
  have short : (byteOf a.label.length).toNat = a.label.length := byteOf_toNat_lt (by have := h.label; omega)
  refine placDecode_eq_ok.mpr ⟨placCounted_iff.mpr (by rw [a.bytes_length, e20, short]),
    by rw [time, timeOf_requestTime h.due], by rw [rule, ruleOf_ruleBytes h.rule],
    placFields_eq_some.mpr ⟨rfl, rfl, ?_, ?_, ?_, ?_, ?_, h.ordered, e16, ?_,
      memberOf_memberBytes e18, ?_⟩⟩
  · rw [e11, remainingOf_byteOf h.remaining]
  · rw [e12, anchoringOf_anchoringByte]
  · rw [e13, policyOf_policyByte]
  · rw [e14, levelOf_byteOf h.level]
  · rw [e15, floorOf_byteOf h.floor]
  · rw [e17, answeringOf_portByte]
  · rw [label, labelOf_cons, short, if_pos ⟨h.label, rfl⟩]

section
variable {p : Port} {args : List Byte} {a : PlacArgs} (decoded : placDecode p args = .ok a)
include decoded

/-- A byte of the answering port or the membership written anew changes what those two read, and nothing else. -/
theorem placDecode_set {k : Nat} (lo : 17 ≤ k) (hi : k ≤ 19) {x : Byte} {port : Port} {member : Option Member}
    (answering : answeringOf p (byteAt (args.set k x) 17) = some port)
    (membership : memberOf (byteAt (args.set k x) 18) (byteAt (args.set k x) 19) = some member) :
    placDecode p (args.set k x) = .ok { a with answering := port, member := member } := by
  obtain ⟨counted, time, rule, fields⟩ := placDecode_eq_ok.mp decoded
  obtain ⟨_, _, e11, e12, e13, e14, e15, ordered, e16, _, _, e20⟩ := placFields_eq_some.mp fields
  have other : ∀ {m}, m < 17 ∨ 19 < m → byteAt (args.set k x) m = byteAt args m := fun h =>
    byteAt_set_other (by omega) x
  refine placDecode_eq_ok.mpr ⟨?_, ?_, ?_, placFields_eq_some.mpr ⟨rfl, rfl, ?_, ?_, ?_, ?_, ?_, ordered, ?_, answering,
    membership, ?_⟩⟩
  · rwa [placCounted, List.length_set, other (by decide)]
  · rwa [List.take_set_of_le (by omega)]
  · rwa [List.drop_set, if_neg (by omega), List.take_set_of_le (by omega)]
  · rwa [other (by decide)]
  · rwa [other (by decide)]
  · rwa [other (by decide)]
  · rwa [other (by decide)]
  · rwa [other (by decide)]
  · rwa [other (by decide)]
  · rwa [List.drop_set_of_lt (by omega)]

/-- The default answering port 0x02 is the owner (R4, R184). -/
theorem placDecode_set_answering : placDecode p (args.set 17 0x02) = .ok { a with answering := p } := by
  obtain ⟨counted, _, _, fields⟩ := placDecode_eq_ok.mp decoded
  obtain ⟨_, _, _, _, _, _, _, _, _, _, membership, _⟩ := placFields_eq_some.mp fields
  refine placDecode_set decoded le_rfl (by decide) ?_ ?_
  · rw [byteAt_set_same (by have := counted.1; omega)]; rfl
  · rwa [byteAt_set_other (by decide), byteAt_set_other (by decide)]

/-- The position byte of an absent membership is not read (Table A-4). -/
theorem placDecode_set_position (absent : a.member = none) (x : Byte) : placDecode p (args.set 19 x) = .ok a := by
  obtain ⟨_, _, _, fields⟩ := placDecode_eq_ok.mp decoded
  obtain ⟨_, _, _, _, _, _, _, _, _, answering, membership, _⟩ := placFields_eq_some.mp fields
  rw [absent, memberOf_eq_some_none] at membership
  exact placDecode_set decoded (k := 19) (x := x) (port := a.answering) (member := a.member) (by decide) le_rfl
    (by rwa [byteAt_set_other (by decide)])
    (by rw [absent, memberOf_eq_some_none, byteAt_set_other (by decide)]; exact membership)

end

end Sys2Proof.Machine
end

section
/-! PLAC at the table: what its argument bytes mean, the checks in their order, and the slot it fills (R36 to R38). -/

namespace Sys2Proof.Machine

/-! ### Times and rules, read and written (R60, R184; Tables 2-3, 5-1, A-4) -/

theorem bcdOf_eq (b : Byte) :
    bcdOf b = if b.toNat / 16 ≤ 9 ∧ b.toNat % 16 ≤ 9 then some (10 * (b.toNat / 16) + b.toNat % 16) else none :=
  if_congr (by rw [Bool.and_eq_true, decide_eq_true_eq, decide_eq_true_eq]) rfl rfl

theorem bcdByte_toNat {n : Nat} (h : n ≤ 99) : (bcdByte n).toNat = 16 * (n / 10) + n % 10 :=
  byteOf_toNat_lt (by omega)

/-- A byte that reads as two digits is the byte of that number (R184). -/
theorem bcdByte_of_bcdOf {b : Byte} {n : Nat} (h : bcdOf b = some n) : b = bcdByte n := by
  rw [bcdOf_eq, Option.ite_none_right_eq_some, Option.some.injEq] at h
  obtain ⟨digits, rfl⟩ := h
  apply BitVec.eq_of_toNat_eq
  rw [bcdByte_toNat (by omega)]
  omega

/-- A time is the six BCD bytes of a real date and time (Table A-4; Table 2-3, class 1). -/
theorem timeOf_eq_some {bytes : List Byte} {d : DateTime} :
    timeOf bytes = some d ↔ bytes = requestTime d ∧ d.real = true := by
  constructor
  · intro h
    refine ⟨?_, timeOf_real h⟩
    unfold timeOf at h
    split at h
    · next y mo dd hh mi ss digits =>
      simp only [Option.ite_none_right_eq_some, Option.some.injEq] at h
      obtain ⟨_, rfl⟩ := h
      obtain ⟨b0, r0, rfl, h0, digits⟩ := List.map_eq_cons_iff.mp digits
      obtain ⟨b1, r1, rfl, h1, digits⟩ := List.map_eq_cons_iff.mp digits
      obtain ⟨b2, r2, rfl, h2, digits⟩ := List.map_eq_cons_iff.mp digits
      obtain ⟨b3, r3, rfl, h3, digits⟩ := List.map_eq_cons_iff.mp digits
      obtain ⟨b4, r4, rfl, h4, digits⟩ := List.map_eq_cons_iff.mp digits
      obtain ⟨b5, r5, rfl, h5, digits⟩ := List.map_eq_cons_iff.mp digits
      obtain rfl := List.map_eq_nil_iff.mp digits
      simp only [requestTime, Nat.add_sub_cancel_left, ← bcdByte_of_bcdOf h0, ← bcdByte_of_bcdOf h1,
        ← bcdByte_of_bcdOf h2, ← bcdByte_of_bcdOf h3, ← bcdByte_of_bcdOf h4, ← bcdByte_of_bcdOf h5]
    · cases h
  · rintro ⟨rfl, real⟩
    exact timeOf_requestTime real

theorem monthLength_eq (year month : Nat) : monthLength year month =
    if month = 2 then (if year % 4 = 0 then 29 else 28) else if month ∈ [4, 6, 9, 11] then 30 else 31 := by
  unfold monthLength isLeap
  split <;> simp_all

/-- A byte is known by its number. -/
theorem byte_toNat_eq {b : Byte} {n : Nat} (h : n < 256) : b.toNat = n ↔ b = BitVec.ofNat 8 n := by
  constructor
  · intro e
    apply BitVec.eq_of_toNat_eq
    rw [e, BitVec.toNat_ofNat, Nat.mod_eq_of_lt h]
  · rintro rfl
    rw [BitVec.toNat_ofNat, Nat.mod_eq_of_lt h]

theorem ruleOf_single (w x y z : Byte) : ruleOf [0, w, x, y, z] = some .single := rfl

theorem ruleOf_interval (w x y z : Byte) : ruleOf [1, w, x, y, z] =
    if w.toNat ≤ 99 ∧ x.toNat ≤ 23 ∧ y.toNat ≤ 59 ∧ z.toNat ≤ 59 ∧ ¬ (w = 0 ∧ x = 0 ∧ y = 0 ∧ z = 0) then
      some (.interval w.toNat x.toNat y.toNat z.toNat) else none := by
  refine if_congr ?_ rfl rfl
  have zero : ∀ b : Byte, (b.toNat != 0) = true ↔ ¬ b = 0 := fun b => by
    rw [bne_iff_ne]
    exact not_congr (byte_toNat_eq (by decide))
  simp only [Bool.and_eq_true, Bool.or_eq_true, decide_eq_true_eq, zero]
  tauto

theorem ruleOf_monthly (w x y z : Byte) : ruleOf [2, w, x, y, z] =
    if 1 ≤ w.toNat ∧ w.toNat ≤ 12 ∧ 1 ≤ x.toNat ∧ x.toNat ≤ 31 then some (.monthly w.toNat x.toNat) else none := by
  refine if_congr ?_ rfl rfl
  simp only [Bool.and_eq_true, decide_eq_true_eq, and_assoc]

theorem ruleOf_weekdays (w x y z : Byte) : ruleOf [3, w, x, y, z] =
    if w ≠ 0 ∧ w.getLsbD 0 = false then some (.weekdays w) else none := by
  have same : byteOf w.toNat = w := BitVec.eq_of_toNat_eq (byteOf_toNat_lt w.isLt)
  refine if_congr ?_ (by rw [same]) rfl
  rw [Bool.and_eq_true, bne_iff_ne, beq_iff_eq]
  refine and_congr (not_congr (byte_toNat_eq (by decide))) ?_
  rw [BitVec.getLsbD, Nat.testBit_zero, decide_eq_false_iff_not]
  omega

theorem ruleOf_otherKind {kind : Byte} (h0 : kind ≠ 0) (h1 : kind ≠ 1) (h2 : kind ≠ 2) (h3 : kind ≠ 3) (w x y z : Byte) :
    ruleOf [kind, w, x, y, z] = none := by
  have other : ∀ n, n < 256 → kind ≠ BitVec.ofNat 8 n → kind.toNat ≠ n := fun n lt ne e => ne ((byte_toNat_eq lt).mp e)
  have n0 := other 0 (by decide) h0
  have n1 := other 1 (by decide) h1
  have n2 := other 2 (by decide) h2
  have n3 := other 3 (by decide) h3
  unfold ruleOf
  split <;> simp_all

theorem ruleOf_length {bytes : List Byte} (h : bytes.length ≠ 5) : ruleOf bytes = none := by
  have short : (bytes.map BitVec.toNat).length ≠ 5 := by rwa [List.length_map]
  unfold ruleOf
  split
  · next e => exact absurd (by rw [e]; rfl) short
  · next e => exact absurd (by rw [e]; rfl) short
  · next e => exact absurd (by rw [e]; rfl) short
  · next e => exact absurd (by rw [e]; rfl) short
  · rfl

/-- A rule is a kind with its parameters in their ranges (R6 to R8; Table A-4). -/
theorem ruleOf_eq (kind w x y z : Byte) : ruleOf [kind, w, x, y, z] =
    if kind = 0 then some .single
    else if kind = 1 then
      if w.toNat ≤ 99 ∧ x.toNat ≤ 23 ∧ y.toNat ≤ 59 ∧ z.toNat ≤ 59 ∧ ¬ (w = 0 ∧ x = 0 ∧ y = 0 ∧ z = 0) then
        some (.interval w.toNat x.toNat y.toNat z.toNat) else none
    else if kind = 2 then
      if 1 ≤ w.toNat ∧ w.toNat ≤ 12 ∧ 1 ≤ x.toNat ∧ x.toNat ≤ 31 then some (.monthly w.toNat x.toNat) else none
    else if kind = 3 then if w ≠ 0 ∧ w.getLsbD 0 = false then some (.weekdays w) else none
    else none := by
  split
  · next e => rw [e, ruleOf_single]
  next h0 =>
  split
  · next e => rw [e, ruleOf_interval]
  next h1 =>
  split
  · next e => rw [e, ruleOf_monthly]
  next h2 =>
  split
  · next e => rw [e, ruleOf_weekdays]
  next h3 => exact ruleOf_otherKind h0 h1 h2 h3 w x y z

/-- Settles O19. -/
theorem placArgumentsRoundTrip : Obligations.PlacArgumentsRoundTrip := by
  refine ⟨fun p a h => ?_, fun w x y z => ⟨ruleOf_single w x y z, rfl, rfl⟩, fun p args a => ?_, bcdOf_eq,
    fun n h => bcdByte_toNat h, fun _ _ => timeOf_eq_some, fun d => ?_, ruleOf_eq, fun _ h => ruleOf_length h, rfl,
    fun b => ⟨levelOf_eq b, floorOf_eq b, rfl, labelOf_cons b⟩⟩
  · have decoded := placDecode_bytes p h
    exact ⟨decoded, placDecode_set_answering decoded, placDecode_set_position decoded⟩
  · dsimp only
    rw [placDecode_eq_ok, placCounted_iff, placFields_eq_some]
    simp only [true_and]
  · rw [DateTime.real_iff, monthLength_eq]

/-! ### The free pool (R18) -/

theorem Table.mem_freePool {t : Table} {i : Fin 64} : i ∈ t.freePool ↔ t.order i = none := by
  simp only [Table.freePool, List.mem_filter, mem_allSlots, true_and, Option.isNone_iff_eq_none]

theorem Table.freePool_sorted (t : Table) : t.freePool.Pairwise (· < ·) := allSlots_sorted.filter _

/-- The lowest FREE slot heads the free pool (R18). -/
theorem Table.freePool_eq_cons {t : Table} {i : Fin 64} (free : t.order i = none)
    (lowest : ∀ j, j < i → t.order j ≠ none) : ∃ rest, t.freePool = i :: rest := by
  have mem := Table.mem_freePool.mpr free
  have sorted := t.freePool_sorted
  cases pool : t.freePool with
  | nil => rw [pool] at mem; cases mem
  | cons j rest =>
    rw [pool] at mem sorted
    rcases List.mem_cons.mp mem with rfl | later
    · exact ⟨rest, rfl⟩
    · have first : t.order j = none := Table.mem_freePool.mp (pool ▸ List.mem_cons_self)
      exact absurd first (lowest j (List.rel_of_pairwise_cons sorted later))

theorem Table.freePool_eq_nil {t : Table} (full : ∀ i, t.order i ≠ none) : t.freePool = [] :=
  List.eq_nil_iff_forall_not_mem.mpr fun i mem => full i (Table.mem_freePool.mp mem)

/-! ### The membership check (R37, R40) -/

theorem Table.joinRefusal_noSuchGroup {t : Table} {self : Option (Fin 64)} {m : Member}
    (h : (t.group m.group).config = none) : t.joinRefusal self (some m) = some .noSuchGroup := by
  simp only [Table.joinRefusal, h, Option.isNone_none, if_true]

theorem Table.joinRefusal_positionTaken {t : Table} {self : Option (Fin 64)} {m : Member}
    (configured : (t.group m.group).config ≠ none) (filled : (t.group m.group).positions[m.position.val] ≠ none)
    (other : (t.group m.group).positions[m.position.val] ≠ self) :
    t.joinRefusal self (some m) = some .positionTaken := by
  obtain ⟨c, config⟩ := Option.ne_none_iff_exists'.mp configured
  obtain ⟨i, holds⟩ := Option.ne_none_iff_exists'.mp filled
  rw [holds] at other
  simp only [Table.joinRefusal, config, Option.isNone_some, Bool.false_eq_true, if_false, holds, if_neg other.symm]

/-! ### PLAC's checks in their order (R35, R37) -/

section
variable {p : Port} {args : List Byte} {h : InHand} {t : Table} {a : PlacArgs}

theorem servePlac_undecoded {c : ReplyCode} (e : placDecode p args = .error c) : servePlac p h args t = t.answer c := by
  simp only [servePlac, e]

theorem servePlac_unjoined {c : ReplyCode} (e : placDecode p args = .ok a)
    (refusal : t.joinRefusal none a.member = some c) : servePlac p h args t = t.answer c := by
  simp only [servePlac, e, refusal]

theorem servePlac_quotaFull (e : placDecode p args = .ok a) (joins : t.Open none a.member)
    (quota : t.quotas.get p ≤ t.owned p) : servePlac p h args t = t.answer .quotaFull := by
  simp only [servePlac, e, Table.joinRefusal_of_open joins, if_pos quota]

theorem servePlac_tableFull (e : placDecode p args = .ok a) (joins : t.Open none a.member)
    (quota : t.owned p < t.quotas.get p) (full : t.freePool = []) : servePlac p h args t = t.answer .tableFull := by
  simp only [servePlac, e, Table.joinRefusal_of_open joins, if_neg (Nat.not_le.mpr quota), full]

theorem servePlac_placed (e : placDecode p args = .ok a) (joins : t.Open none a.member)
    (quota : t.owned p < t.quotas.get p) {i : Fin 64} {rest : List (Fin 64)} (pool : t.freePool = i :: rest) :
    servePlac p h args t = (t.place i (a.order p), .done (t.handle i)) := by
  simp only [servePlac, e, Table.joinRefusal_of_open joins, if_neg (Nat.not_le.mpr quota), pool]

end

/-- A PLAC that its service refuses answers the refusal and changes nothing. -/
theorem Carries.plac_refused {p : Port} {args : List Byte} {h : InHand} {s : State} (hs : Carries s p .plac args h)
    {c : ReplyCode} (served : servePlac p h args s.table = s.table.answer c) : Answers (.plac p) s p ⟨c, []⟩ s.table :=
  hs.refused rfl rfl served

/-- Settles O21: the field checks by their classes, then the membership, the quota and the free pool. -/
theorem placRefusesByItsFirstFailure : Obligations.PlacRefusesByItsFirstFailure := by
  intro p args h s hs
  exact ⟨fun uncounted => hs.plac_refused (servePlac_undecoded (placDecode_uncounted uncounted)),
    fun counted time => hs.plac_refused (servePlac_undecoded (placDecode_badTime counted time)),
    fun counted time rule => hs.plac_refused (servePlac_undecoded (placDecode_badRule counted time rule)),
    fun counted time rule bad => hs.plac_refused (servePlac_undecoded
      (placDecode_badFields counted time rule (placFields_eq_none counted bad))),
    fun a m decoded member unconfigured => hs.plac_refused (servePlac_unjoined decoded
      (member ▸ Table.joinRefusal_noSuchGroup unconfigured)),
    fun a m decoded member configured filled => hs.plac_refused (servePlac_unjoined decoded
      (member ▸ Table.joinRefusal_positionTaken configured filled filled)),
    fun a decoded joins quota => hs.plac_refused (servePlac_quotaFull decoded joins quota),
    fun a decoded joins quota full => hs.plac_refused
      (servePlac_tableFull decoded joins quota (Table.freePool_eq_nil full))⟩

theorem Table.place_arbiter (t : Table) (i : Fin 64) (o : Order) : (t.place i o).arbiter = t.arbiter := by
  obtain ⟨_, _, _, arbiter, _⟩ := (t.setOrder i o).joinIf_rest i o.member
  rw [Table.place_eq]
  exact arbiter

/-- Settles O20: the lowest FREE slot is the one the table takes. -/
theorem placFillsTheLowestFreeSlot : Obligations.PlacFillsTheLowestFreeSlot := by
  intro p args h s a i hs decoded joins quota free lowest o
  obtain ⟨rest, pool⟩ := Table.freePool_eq_cons free lowest
  have placed := hs.answers (i := .plac p) rfl rfl (servePlac_placed decoded joins quota pool)
    (Table.place_arbiter s.table i (a.order p))
  have joined : s.table.place i (a.order p) = (s.table.setOrder i o).joinIf i a.member := Table.place_eq _ _ _
  rw [joined] at placed
  cases member : a.member with
  | none => rw [member] at placed; exact placed
  | some m => rw [member] at placed; exact placed

end Sys2Proof.Machine
end

section
/-! The fields of an AMND: where they stand, when they agree with the select set, and what each is read from (R14, R40,
R185). -/

namespace Sys2Proof.Machine

/-! ### Where the fields stand (R185) -/

theorem fieldLength_eq (k : Nat) : fieldLength k = if k = 0 then 6 else if k = 1 then 5 else if k = 9 then 2 else 1 := by
  unfold fieldLength
  split <;> simp_all

/-- A field begins after the selected fields of lower bits (R185). -/
theorem fieldOffset_eq_sum (sel : BitVec 16) (bit : Nat) : fieldOffset sel bit = ((List.range bit).map fun k =>
    if sel.getLsbD k then (if k = 0 then 6 else if k = 1 then 5 else if k = 9 then 2 else 1) else 0).sum := by
  induction bit with
  | zero => rfl
  | succ bit ih =>
    rw [List.range_succ, List.map_append, List.sum_append, ← ih, fieldOffset, fieldLength_eq, List.map_singleton,
      List.sum_singleton]

/-- An AMND carries all the bytes it announces (R14, R185). -/
def amndWhole (sel : BitVec 16) (rest : List Byte) : Prop :=
  if sel.getLsbD 10 then
    fieldOffset sel 10 < rest.length
      ∧ rest.length = fieldOffset sel 10 + 1 + (byteAt rest (fieldOffset sel 10)).toNat
  else rest.length = fieldOffset sel 10

theorem amndAgrees_iff {sel : BitVec 16} {rest : List Byte} : amndAgrees sel rest = true ↔ amndWhole sel rest := by
  unfold amndAgrees amndWhole
  cases sel.getLsbD 10 with
  | false => simp only [Bool.false_eq_true, if_false, beq_iff_eq]
  | true => simp only [if_true, Bool.and_eq_true, decide_eq_true_eq, beq_iff_eq, Nat.lt_iff_add_one_le]

/-! ### A selected field (R40) -/

theorem selected_eq_none {α : Type} {sel : BitVec 16} {bit : Nat} {read : Option α} :
    selected sel bit read = none ↔ sel.getLsbD bit = true ∧ read = none := by
  unfold selected
  cases sel.getLsbD bit with
  | false => simp only [Bool.false_eq_true, if_false, reduceCtorEq, false_and]
  | true => simp only [if_true, Option.map_eq_none_iff, true_and]

/-- A field that is not refused reads as something, selected or not. -/
theorem selected_exists {α : Type} {sel : BitVec 16} {bit : Nat} {read : Option α}
    (h : ¬ (sel.getLsbD bit = true ∧ read = none)) : ∃ x, selected sel bit read = some x :=
  Option.ne_none_iff_exists'.mp fun none => h (selected_eq_none.mp none)

/-- The number a field leaves in the record: what its byte says where it is selected. -/
theorem selected_getD {sel : BitVec 16} {bit bound old : Nat} {b : Byte} {x : Option Nat}
    (h : selected sel bit (if b.toNat ≤ bound then some b.toNat else none) = some x) :
    x.getD old = if sel.getLsbD bit then b.toNat else old := by
  obtain ⟨rfl, present⟩ := selected_eq_some h
  cases on : sel.getLsbD bit with
  | false => simp only [Bool.false_eq_true, if_false, Option.getD_none]
  | true =>
    rw [on] at present
    simp only [if_true] at present ⊢
    split at present
    · next le => rw [if_pos le, Option.getD_some]
    · cases present

/-- The label of an AMND that carries all its bytes is read by its length alone (R12, R185). -/
theorem amndLabel {sel : BitVec 16} {rest : List Byte} (whole : amndWhole sel rest) (on : sel.getLsbD 10 = true) :
    labelOf (rest.drop (fieldOffset sel 10)) = none ↔ 12 < (byteAt rest (fieldOffset sel 10)).toNat := by
  rw [amndWhole, if_pos on] at whole
  obtain ⟨lt, length⟩ := whole
  have exact_length : (rest.drop (fieldOffset sel 10 + 1)).length = (byteAt rest (fieldOffset sel 10)).toNat := by
    rw [List.length_drop]
    omega
  rw [drop_eq_byteAt_cons lt, labelOf_cons]
  simp only [exact_length, and_true, ite_eq_right_iff, reduceCtorEq, imp_false, Nat.not_le]

/-! ### Class 3 (R14; Table 2-3) -/

/-- Some field of class 3 lies outside its encoding, the floor would stand above the level, or the record would stand
WAITING or HELD with no count left (R14). -/
def amndBadArgument (o : Order) (sel : BitVec 16) (rest : List Byte) : Prop :=
  let at_ bit := byteAt rest (fieldOffset sel bit)
  (sel.getLsbD 3 = true ∧ 1 < (at_ 3).toNat) ∨ (sel.getLsbD 4 = true ∧ 1 < (at_ 4).toNat)
    ∨ (sel.getLsbD 5 = true ∧ 7 < (at_ 5).toNat) ∨ (sel.getLsbD 6 = true ∧ 6 < (at_ 6).toNat)
    ∨ (sel.getLsbD 8 = true ∧ 2 < (at_ 8).toNat)
    ∨ (sel.getLsbD 9 = true ∧ at_ 9 ≠ 0xFF ∧ (7 < (at_ 9).toNat ∨ 7 < (byteAt rest (fieldOffset sel 9 + 1)).toNat))
    ∨ (sel.getLsbD 10 = true ∧ 12 < (at_ 10).toNat)
    ∨ (if sel.getLsbD 5 then (at_ 5).toNat else o.level) < (if sel.getLsbD 6 then (at_ 6).toNat else o.floor)
    ∨ (o.standing ≠ .spent ∨ sel.getLsbD 0 = true) ∧ sel.getLsbD 2 = false ∧ o.remaining = some 0

theorem remainingOf_ne_zero (b : Byte) : remainingOf b ≠ some 0 := fun h => absurd (remainingOf_bounds h).1 (by decide)

/-- A record is starved where no count is given and the one it holds is 0 (R14, class 3). -/
theorem amndStarved_iff {o : Order} {sel : BitVec 16} {b : Byte} {a : Amend} (due : a.due.isSome = sel.getLsbD 0)
    (remaining : a.remaining = if sel.getLsbD 2 then some (remainingOf b) else none) :
    amndStarved o a = true ↔
      (o.standing ≠ .spent ∨ sel.getLsbD 0 = true) ∧ sel.getLsbD 2 = false ∧ o.remaining = some 0 := by
  rw [amndStarved, Bool.and_eq_true, Bool.or_eq_true, bne_iff_ne, due, remaining, beq_iff_eq]
  refine and_congr Iff.rfl ?_
  cases sel.getLsbD 2 with
  | false => simp only [Bool.false_eq_true, if_false, Option.getD_none, true_and]
  | true => simp only [if_true, Option.getD_some, remainingOf_ne_zero, reduceCtorEq, false_and]

section
variable {o : Order} {sel : BitVec 16} {rest : List Byte} {due : Option DateTime} {rule : Option Rule}

/-- A bad argument fails class 3. -/
theorem amndFields_eq_none (whole : amndWhole sel rest) (selects : due.isSome = sel.getLsbD 0)
    (bad : amndBadArgument o sel rest) : amndFields o sel rest due rule = none := by
  rw [Option.eq_none_iff_forall_ne_some]
  intro a e
  obtain ⟨_, edue, _, e3, e4, e5, e6, e8, e9, e10, erem, _, ordered, starved⟩ := amndFields_eq_some e
  have fails : ∀ {α : Type} {bit : Nat} {read : Option α} {x : Option α}, selected sel bit read = some x →
      sel.getLsbD bit = true ∧ read = none → False := fun h bad => nomatch h.symm.trans (selected_eq_none.mpr bad)
  rcases bad with ⟨on, bad⟩ | ⟨on, bad⟩ | ⟨on, bad⟩ | ⟨on, bad⟩ | ⟨on, bad⟩ | ⟨on, bad⟩ | ⟨on, bad⟩ | bad | bad
  · exact fails e3 ⟨on, anchoringOf_eq_none.mpr bad⟩
  · exact fails e4 ⟨on, policyOf_eq_none.mpr bad⟩
  · exact fails e5 ⟨on, levelOf_eq_none.mpr bad⟩
  · exact fails e6 ⟨on, floorOf_eq_none.mpr bad⟩
  · exact fails e8 ⟨on, answeringOf_eq_none.mpr bad⟩
  · exact fails e9 ⟨on, memberOf_eq_none.mpr bad⟩
  · exact fails e10 ⟨on, (amndLabel whole on).mpr bad⟩
  · rw [selected_getD e5, selected_getD e6] at ordered
    exact absurd ordered (Nat.not_le.mpr bad)
  · rw [(amndStarved_iff (edue ▸ selects) erem).mpr bad] at starved
    cases starved

/-- Where no class fails, class 3 passes. -/
theorem amndFields_exists (whole : amndWhole sel rest) (selects : due.isSome = sel.getLsbD 0)
    (good : ¬ amndBadArgument o sel rest) : ∃ a, amndFields o sel rest due rule = some a := by
  simp only [amndBadArgument, not_or] at good
  obtain ⟨g3, g4, g5, g6, g8, g9, g10, ordered, fed⟩ := good
  obtain ⟨an, e3⟩ := selected_exists fun b => g3 ⟨b.1, anchoringOf_eq_none.mp b.2⟩
  obtain ⟨po, e4⟩ := selected_exists fun b => g4 ⟨b.1, policyOf_eq_none.mp b.2⟩
  obtain ⟨lv, e5⟩ := selected_exists fun b => g5 ⟨b.1, levelOf_eq_none.mp b.2⟩
  obtain ⟨fl, e6⟩ := selected_exists fun b => g6 ⟨b.1, floorOf_eq_none.mp b.2⟩
  obtain ⟨port, e8⟩ := selected_exists fun b => g8 ⟨b.1, (answeringOf_eq_none (owner := o.owner)).mp b.2⟩
  obtain ⟨mem, e9⟩ := selected_exists fun b => g9 ⟨b.1, memberOf_eq_none.mp b.2⟩
  obtain ⟨label, e10⟩ := selected_exists fun b => g10 ⟨b.1, (amndLabel whole b.1).mp b.2⟩
  have le : fl.getD o.floor ≤ lv.getD o.level := by
    rw [selected_getD e5, selected_getD e6]
    exact Nat.not_lt.mp ordered
  have alive : ∀ a : Amend, a.due = due →
      a.remaining = (if sel.getLsbD 2 then some (remainingOf (fieldByte sel rest 2)) else none) →
      amndStarved o a = false := fun a edue erem =>
    Bool.eq_false_iff.mpr fun starved => fed ((amndStarved_iff (edue ▸ selects) erem).mp starved)
  simp only [amndFields, amndAgrees_iff.mpr whole, if_true, fieldByte, e3, e4, e5, e6, e8, e9, e10]
  exact ⟨_, if_pos (Bool.and_eq_true_iff.mpr ⟨decide_eq_true le, by rw [alive _ rfl rfl]; rfl⟩)⟩

end

/-! ### The classes in their order (R14, R40) -/

/-- The due an AMND selects, by class 1. -/
def amndDue (sel : BitVec 16) (rest : List Byte) : Option DateTime :=
  if sel.getLsbD 0 then timeOf (rest.take 6) else none

/-- The rule an AMND selects, by class 2. -/
def amndRule (sel : BitVec 16) (rest : List Byte) : Option Rule :=
  if sel.getLsbD 1 then ruleOf ((rest.drop (fieldOffset sel 1)).take 5) else none

/-- A read that is made where a bit is set yields something exactly there, unless it fails. -/
theorem isSome_ite {α : Type} {on : Bool} {read : Option α} (h : ¬ (on = true ∧ read = none)) :
    (if on then read else none).isSome = on := by
  cases on with
  | false => rfl
  | true => exact Option.isSome_iff_ne_none.mpr fun none => h ⟨rfl, none⟩

theorem not_missing {α : Type} {on : Bool} {x : Option α} (h : x.isSome = on) : ¬ (on && x.isNone) = true := by
  subst h
  cases x <;> simp

section
variable {o : Order} {sel : BitVec 16} {rest : List Byte}

theorem amndDue_isSome (h : ¬ (sel.getLsbD 0 = true ∧ timeOf (rest.take 6) = none)) :
    (amndDue sel rest).isSome = sel.getLsbD 0 := isSome_ite h

theorem amndRule_isSome (h : ¬ (sel.getLsbD 1 = true ∧ ruleOf ((rest.drop (fieldOffset sel 1)).take 5) = none)) :
    (amndRule sel rest).isSome = sel.getLsbD 1 := isSome_ite h

/-- Where all the bytes are there the due and the rule are examined before class 3 (R14). -/
theorem amndDecode_whole (whole : amndWhole sel rest) : amndDecode o sel rest =
    if sel.getLsbD 0 && (amndDue sel rest).isNone then .error .badTime
    else if sel.getLsbD 1 && (amndRule sel rest).isNone then .error .badRule
    else
      match amndFields o sel rest (amndDue sel rest) (amndRule sel rest) with
      | none => .error .badArgument
      | some a => .ok a := by
  have le := amndAgrees_le (amndAgrees_iff.mpr whole)
  simp only [amndDecode, fieldWhole_eq le (show 0 < 10 by decide), fieldWhole_eq le (show 1 < 10 by decide)]
  rfl

theorem amndDecode_badTime (whole : amndWhole sel rest) (on : sel.getLsbD 0 = true) (bad : timeOf (rest.take 6) = none) :
    amndDecode o sel rest = .error .badTime := by
  rw [amndDecode_whole whole, if_pos (by simp only [amndDue, on, bad, if_true, Option.isNone_none, Bool.and_self])]

section
variable (whole : amndWhole sel rest) (time : ¬ (sel.getLsbD 0 = true ∧ timeOf (rest.take 6) = none))
include whole time

theorem amndDecode_badRule (on : sel.getLsbD 1 = true) (bad : ruleOf ((rest.drop (fieldOffset sel 1)).take 5) = none) :
    amndDecode o sel rest = .error .badRule := by
  rw [amndDecode_whole whole, if_neg (not_missing (amndDue_isSome time)),
    if_pos (by simp only [amndRule, on, bad, if_true, Option.isNone_none, Bool.and_self])]

/-- Where classes 1 and 2 pass, class 3 decides. -/
theorem amndDecode_fields (rule : ¬ (sel.getLsbD 1 = true ∧ ruleOf ((rest.drop (fieldOffset sel 1)).take 5) = none)) :
    amndDecode o sel rest = match amndFields o sel rest (amndDue sel rest) (amndRule sel rest) with
      | none => .error .badArgument
      | some a => .ok a := by
  rw [amndDecode_whole whole, if_neg (not_missing (amndDue_isSome time)), if_neg (not_missing (amndRule_isSome rule))]

end

/-- An AMND that passes its field checks carries all its bytes. -/
theorem amndWhole_of_ok {a : Amend} (h : amndDecode o sel rest = .ok a) : amndWhole sel rest := by
  obtain ⟨_, _, fields⟩ := amndDecode_eq_ok h
  exact amndAgrees_iff.mp (amndFields_eq_some fields).1

/-- What an AMND that passes was read from: the due and the rule by their classes, the rest by class 3. -/
theorem amndDecode_ok_reads {a : Amend} (h : amndDecode o sel rest = .ok a) :
    a.due = amndDue sel rest ∧ a.due.isSome = sel.getLsbD 0 ∧ a.rule = amndRule sel rest ∧ a.rule.isSome = sel.getLsbD 1
      ∧ amndFields o sel rest a.due a.rule = some a := by
  have whole := amndWhole_of_ok h
  have time : ¬ (sel.getLsbD 0 = true ∧ timeOf (rest.take 6) = none) := fun bad =>
    nomatch h.symm.trans (amndDecode_badTime whole bad.1 bad.2)
  have rule : ¬ (sel.getLsbD 1 = true ∧ ruleOf ((rest.drop (fieldOffset sel 1)).take 5) = none) := fun bad =>
    nomatch h.symm.trans (amndDecode_badRule whole time bad.1 bad.2)
  rw [amndDecode_fields whole time rule] at h
  split at h
  · cases h
  · next fields =>
    cases h
    obtain ⟨_, edue, erule, _⟩ := amndFields_eq_some fields
    refine ⟨edue, edue ▸ amndDue_isSome time, erule, erule ▸ amndRule_isSome rule, ?_⟩
    rwa [edue, erule]

end

/-- Settles O25. -/
theorem amndFieldsAreCheckedAndRead : Obligations.AmndFieldsAreCheckedAndRead := by
  intro o sel rest
  refine ⟨fun bit _ => fieldOffset_eq_sum sel bit, fun whole bad => amndDecode_badTime whole bad.1 bad.2,
    fun whole time bad => amndDecode_badRule whole time bad.1 bad.2, fun whole time rule bad => ?_,
    fun whole time rule good => ?_, fun cut => ?_, fun a h => ?_⟩
  · rw [amndDecode_fields whole time rule, amndFields_eq_none whole (amndDue_isSome time) bad]
  · obtain ⟨a, fields⟩ := amndFields_exists (rule := amndRule sel rest) whole (amndDue_isSome time) good
    exact ⟨a, by rw [amndDecode_fields whole time rule, fields]⟩
  · cases e : amndDecode o sel rest with
    | error c => exact ⟨c, rfl⟩
    | ok a => exact absurd (amndWhole_of_ok e) cut
  · obtain ⟨due, dueOn, rule, ruleOn, fields⟩ := amndDecode_ok_reads h
    obtain ⟨_, _, _, e3, e4, e5, e6, e8, e9, e10, remaining, window, ordered, _⟩ := amndFields_eq_some fields
    obtain ⟨anchoring, on3⟩ := selected_eq_some e3
    obtain ⟨policy, on4⟩ := selected_eq_some e4
    obtain ⟨level, on5⟩ := selected_eq_some e5
    obtain ⟨floor, on6⟩ := selected_eq_some e6
    obtain ⟨answering, on8⟩ := selected_eq_some e8
    obtain ⟨member, on9⟩ := selected_eq_some e9
    obtain ⟨label, on10⟩ := selected_eq_some e10
    exact ⟨due, dueOn, rule, ruleOn, remaining, anchoring, on3, policy, on4, level, on5, floor, on6, window, answering,
      on8, member, on9, label, on10, ordered, (amndDecode_lawful h).alive⟩

end Sys2Proof.Machine
end

section
/-! The laws of the quotas and of the acceptance stacks (R23, R108). Most changes of the table move no ownership and no
taken level (`Table.Kept`); the few that do are PLAC and QUOT for the quotas, and TAKE, FNSH, CEIL, NEST and the two
works that empty the stacks for the levels. -/

namespace Sys2Proof.Machine

/-! ### What the law of the quotas depends on -/

/-- The quotas stand, and every order stands where an order of the same owner stood. -/
structure Table.OwnersKept (t t' : Table) : Prop where
  quotas : t'.quotas = t.quotas
  owners : ∀ i o', t'.order i = some o' → ∃ o, t.order i = some o ∧ o.owner = o'.owner

theorem Table.ordersWhere_nodup (t : Table) (f : Order → Bool) : (t.ordersWhere f).Nodup :=
  (List.nodup_finRange 64).filter _

/-- The slots a port owns. -/
theorem Table.mem_owned {t : Table} {p : Port} {i : Fin 64} :
    i ∈ t.ordersWhere (fun o => o.owner == p) ↔ ∃ o, t.order i = some o ∧ o.owner = p := by
  simp only [Table.mem_ordersWhere, beq_iff_eq]

/-- A port whose slots all lie among some slots owns no more orders than those are. -/
theorem Table.owned_le_length {t : Table} {p : Port} {l : List (Fin 64)}
    (sub : ∀ i o, t.order i = some o → o.owner = p → i ∈ l) : t.owned p ≤ l.length :=
  (List.subperm_of_subset (t.ordersWhere_nodup _) fun i mem => by
    obtain ⟨o, order, owner⟩ := Table.mem_owned.mp mem
    exact sub i o order owner).length_le

theorem Table.OwnersKept.owned_le {t t' : Table} (h : t.OwnersKept t') (p : Port) : t'.owned p ≤ t.owned p :=
  Table.owned_le_length fun i o' order' owner => by
    obtain ⟨o, order, same⟩ := h.owners i o' order'
    exact Table.mem_owned.mpr ⟨o, order, same.trans owner⟩

theorem Table.QuotaLaw.of_ownersKept {t t' : Table} (h : t.QuotaLaw) (kept : t.OwnersKept t') : t'.QuotaLaw := by
  intro p
  rw [kept.quotas]
  exact (kept.owned_le p).trans (h p)

theorem Table.OwnersKept.trans {t u v : Table} (a : t.OwnersKept u) (b : u.OwnersKept v) : t.OwnersKept v :=
  ⟨b.quotas.trans a.quotas, fun i o'' order'' => by
    obtain ⟨o', order', owner'⟩ := b.owners i o'' order''
    obtain ⟨o, order, owner⟩ := a.owners i o' order'
    exact ⟨o, order, owner.trans owner'⟩⟩

theorem Table.OwnersKept.of_order {t t' : Table} (quotas : t'.quotas = t.quotas) (order : ∀ i, t'.order i = t.order i) :
    t.OwnersKept t' := ⟨quotas, fun i o' order' => ⟨o', (order i).symm.trans order', rfl⟩⟩

theorem Table.OwnersKept.setOrder {t : Table} {i : Fin 64} {o o' : Order} (order : t.order i = some o)
    (owner : o'.owner = o.owner) : t.OwnersKept (t.setOrder i o') := by
  refine ⟨rfl, fun j x e => ?_⟩
  rw [Table.order_setOrder] at e
  split at e
  · next own => cases e; exact ⟨o, own ▸ order, owner.symm⟩
  · exact ⟨x, e, rfl⟩

/-! ### What the law of the stacks depends on -/

/-- The base ceiling, the nesting flag and the taken levels stand. -/
structure Context.LevelsKept (c c' : Context) : Prop where
  base : c'.base = c.base
  nesting : c'.nesting = c.nesting
  levels : c'.stack.map Entry.level = c.stack.map Entry.level

/-- Both contexts keep their levels. -/
def Table.LevelsKept (t t' : Table) : Prop := ∀ p, (t.contexts.get p).LevelsKept (t'.contexts.get p)

theorem Context.LevelsKept.refl (c : Context) : c.LevelsKept c := ⟨rfl, rfl, rfl⟩

theorem Table.LevelsKept.of_contexts {t t' : Table} (h : t'.contexts = t.contexts) : t.LevelsKept t' := fun p => by
  rw [h]
  exact .refl _

theorem Table.LevelsKept.trans {t u v : Table} (a : t.LevelsKept u) (b : u.LevelsKept v) : t.LevelsKept v := fun p =>
  ⟨(b p).base.trans (a p).base, (b p).nesting.trans (a p).nesting, (b p).levels.trans (a p).levels⟩

/-- Entries changed in place, each at its level. -/
theorem Context.LevelsKept.map (c : Context) {f : Entry → Entry} (level : ∀ e, (f e).level = e.level) :
    c.LevelsKept { c with stack := c.stack.map f } :=
  ⟨rfl, rfl, by rw [List.map_map]; exact List.map_congr_left fun e _ => level e⟩

/-- Whether levels climb depends on the levels alone. -/
theorem levelsClimb_of_levels {bound : Nat} {l l' : List Entry} (same : l'.map Entry.level = l.map Entry.level)
    (h : levelsClimb bound l) : levelsClimb bound l' := by
  induction l generalizing l' with
  | nil => rw [List.map_eq_nil_iff.mp same]; trivial
  | cons e l ih =>
    obtain ⟨e', l', rfl, level, rest⟩ := List.map_eq_cons_iff.mp same
    match l, l' with
    | [], [] =>
      show e'.level < bound
      rw [level]
      exact h
    | f :: l, f' :: l' =>
      have next : f'.level = f.level := (List.cons.inj rest).1
      exact ⟨by rw [level, next]; exact h.1, ih rest h.2⟩

theorem Context.StackLaw.of_levelsKept {c c' : Context} (h : c.StackLaw) (kept : c.LevelsKept c') : c'.StackLaw := by
  have length : c'.stack.length = c.stack.length := by simpa using congrArg List.length kept.levels
  exact ⟨length ▸ h.depth, fun off => length ▸ h.single (kept.nesting ▸ off),
    kept.base ▸ levelsClimb_of_levels kept.levels h.climb⟩

theorem Table.StackLaw.of_levelsKept {t t' : Table} (h : t.StackLaw) (kept : t.LevelsKept t') : t'.StackLaw := fun p =>
  (h p).of_levelsKept (kept p)

theorem Table.StackLaw.setContext {t : Table} (h : t.StackLaw) {p : Port} {c : Context} (new : c.StackLaw) :
    (t.setContext p c).StackLaw := fun q => by
  rw [Table.setContext_contexts, PerPort.get_set]
  split
  · exact new
  · exact h q

theorem Context.StackLaw.of_empty {c : Context} (h : c.stack = []) : c.StackLaw :=
  ⟨by simp [h], fun _ => by simp [h], by rw [h]; trivial⟩

/-- A call below the current ceiling is pushed where an entry has room (R109, R112): a nonempty stack with nesting off
has the ceiling 0, below which no level lies. -/
theorem Context.StackLaw.push {c : Context} (h : c.StackLaw) {e : Entry} (room : c.stack.length < Config.stackDepth)
    (below : e.level < c.ceiling) : Context.StackLaw { c with stack := e :: c.stack } := by
  unfold Context.ceiling at below
  cases stack : c.stack with
  | nil =>
    rw [stack] at below
    exact ⟨(by decide : 1 ≤ Config.stackDepth), fun _ => le_rfl, below⟩
  | cons top rest =>
    simp only [stack] at below
    cases nesting : c.nesting with
    | false => simp [nesting] at below
    | true =>
      rw [nesting, if_pos rfl] at below
      exact ⟨stack ▸ room, nofun, below, stack ▸ h.climb⟩

/-- A popped stack keeps the law. -/
theorem Context.StackLaw.pop {c : Context} (h : c.StackLaw) : Context.StackLaw { c with stack := c.stack.tail } := by
  obtain ⟨depth, single, climb⟩ := h
  have shorter : c.stack.tail.length ≤ c.stack.length := by simp
  refine ⟨shorter.trans depth, fun off => shorter.trans (single off), ?_⟩
  show levelsClimb c.base c.stack.tail
  match c.stack, climb with
  | [], _ => trivial
  | [_], _ => trivial
  | _ :: _ :: _, climb => exact climb.2

/-! ### Changes that move neither -/

/-- No ownership, quota or taken level moved. -/
structure Table.Kept (t t' : Table) : Prop where
  owners : t.OwnersKept t'
  levels : t.LevelsKept t'

theorem Table.Kept.of_same {t t' : Table} (quotas : t'.quotas = t.quotas) (order : ∀ i, t'.order i = t.order i)
    (contexts : t'.contexts = t.contexts) : t.Kept t' := ⟨.of_order quotas order, .of_contexts contexts⟩

theorem Table.Kept.refl (t : Table) : t.Kept t := .of_same rfl (fun _ => rfl) rfl

theorem Table.Kept.trans {t u v : Table} (a : t.Kept u) (b : u.Kept v) : t.Kept v :=
  ⟨a.owners.trans b.owners, a.levels.trans b.levels⟩

theorem Table.Kept.setOrder {t : Table} {i : Fin 64} {o o' : Order} (order : t.order i = some o)
    (owner : o'.owner = o.owner) : t.Kept (t.setOrder i o') := ⟨.setOrder order owner, .of_contexts rfl⟩

theorem Table.Kept.setGroup (t : Table) (g : Fin 8) (x : Group) : t.Kept (t.setGroup g x) :=
  .of_same rfl (fun _ => rfl) rfl

theorem Table.Kept.joinIf (t : Table) (i : Fin 64) (m : Option Member) : t.Kept (t.joinIf i m) := by
  obtain ⟨_, quotas, contexts, _, _⟩ := t.joinIf_rest i m
  exact .of_same quotas (t.order_joinIf i m) contexts

theorem Table.Kept.leaveIf (t : Table) (m : Option Member) : t.Kept (t.leaveIf m) := by
  obtain ⟨_, quotas, contexts, _, _⟩ := t.leaveIf_rest m
  exact .of_same quotas (t.order_leaveIf m) contexts

theorem Table.Kept.mapOrders (t : Table) {f : Order → Order} (owner : ∀ o, (f o).owner = o.owner) :
    t.Kept (t.mapOrders f) := by
  refine ⟨⟨rfl, fun i o' e => ?_⟩, .of_contexts rfl⟩
  rw [Table.order_mapOrders] at e
  obtain ⟨o, order, rfl⟩ := Option.map_eq_some_iff.mp e
  exact ⟨o, order, (owner o).symm⟩

/-- A retirement takes an order away and marks entries at their levels (R50). -/
theorem Table.Kept.retire (t : Table) (i : Fin 64) (o : Order) : t.Kept (t.retire i o) := by
  have spec := t.retire_spec i o
  refine ⟨⟨spec.quotas, fun j x e => ?_⟩, fun p => ?_⟩
  · by_cases own : j = i
    · rw [own, Table.order, spec.slot] at e
      cases e
    · rw [Table.order, spec.other j own] at e
      exact ⟨x, e, rfl⟩
  · rw [spec.ctx p]
    exact .map _ fun e => by split <;> rfl

theorem Table.Kept.purge (t : Table) (owner : Port) : t.Kept (t.purge owner) :=
  List.foldlRecOn allSlots (Table.purgeSlot owner) (Table.Kept.refl t) fun u kept i _ => by
    unfold Table.purgeSlot
    split
    · split
      · exact kept.trans (.retire u i _)
      · exact kept
    · exact kept

/-- An AMND moves no ownership. -/
theorem Table.Kept.amend {t : Table} {i : Fin 64} {o : Order} (order : t.order i = some o) (e : Elapsed) (a : Amend) :
    t.Kept (t.amend i o e a) := by
  have written : ∀ m, t.Kept (t.setOrder i { a.order e o with member := m }) := fun m => .setOrder order rfl
  by_cases same : a.member.getD o.member = o.member
  · rw [Table.amend_stay _ _ _ _ _ same]
    exact written _
  · rw [Table.amend_move _ _ _ _ _ same]
    exact ((written _).trans (.leaveIf _ _)).trans (.joinIf _ _ _)

/-! ### No change of a record moves its owner -/

@[simp] theorem Order.call1_owner (o : Order) (k : Nat) (start : Byte → Option Elapsed) :
    (o.call1 k start).owner = o.owner := by
  unfold Order.call1
  split
  · rfl
  · split <;> rfl

@[simp] theorem Order.expired_owner (o : Order) (e : Elapsed) (c : Call) : (o.expired e c).owner = o.owner := by
  unfold Order.expired
  split <;> rfl

@[simp] theorem Order.shift_owner (o : Order) (n : Int) : (o.shift n).owner = o.owner := by
  unfold Order.shift
  split <;> rfl

@[simp] theorem Order.reRaise_owner (o : Order) (level : Nat) (start : Byte → Option Elapsed) :
    (o.reRaise level start).owner = o.owner := by
  unfold Order.reRaise
  split <;> rfl

@[simp] theorem Order.withDeadline_owner (o : Order) (d : Option Elapsed → Option Elapsed) :
    (o.withDeadline d).owner = o.owner := by
  unfold Order.withDeadline
  split
  · split <;> rfl
  · rfl

theorem Table.Kept.fireOrder {t : Table} {i : Fin 64} {o : Order} (order : t.order i = some o) (g : InHand)
    (d : DateTime) : t.Kept (t.fireOrder g i o d) := by
  unfold Table.fireOrder
  dsimp only
  split
  · exact .setOrder order rfl
  split
  · exact (Table.Kept.setOrder (o' := (o.advanced _).counted) order rfl).trans (.setGroup _ _ _)
  · exact .setOrder order (by rw [Order.call1_owner]; rfl)

theorem Table.Kept.fire (t : Table) (g : InHand) : t.Kept (t.fire g) := by
  unfold Table.fire
  split
  · split
    · exact .refl t
    split
    · split
      · next order => exact .fireOrder order g _
      · exact .refl t
    · exact .refl t
  · exact .refl t

theorem Table.Kept.returnWork (t : Table) (e : Elapsed) : t.Kept (t.returnWork e) :=
  (Table.Kept.mapOrders t fun o => by split <;> simp).trans (.of_same rfl (fun _ => rfl) rfl)

theorem Table.Kept.expiredEntry (t : Table) (p : Port) (n : Nat) : t.Kept (t.setContext p
    { t.contexts.get p with stack := (t.contexts.get p).stack.modify n Entry.markOverdue }) := by
  refine ⟨.of_order rfl fun _ => rfl, fun q => ?_⟩
  rw [Table.setContext_contexts, PerPort.get_set]
  split
  · next own =>
    subst own
    refine ⟨rfl, rfl, List.ext_getElem (by simp) fun k _ _ => ?_⟩
    simp only [List.getElem_map, List.getElem_modify]
    split <;> rfl
  · exact .refl _

/-! ### The services that move neither -/

/-- A service moves no ownership, quota or taken level. -/
def ServiceMovesNothing (f : Port → InHand → List Byte → Table → Table × Reply) : Prop :=
  ∀ p h args, ∀ t : Table, t.Kept (f p h args t).1

theorem serveAmnd_movesNothing : ServiceMovesNothing serveAmnd := by
  intro p g args t
  unfold serveAmnd
  split
  · split
    · exact .refl t
    split
    · exact .refl t
    next i o named =>
    split
    · exact .refl t
    unfold amendOrder
    split
    · exact .refl t
    split
    · exact .refl t
    split
    · exact .refl t
    · exact .amend ((Table.resolve_eq_some _ _ _ _ _).mp named).2.2 _ _
  · exact .refl t

theorem serveHold_movesNothing : ServiceMovesNothing serveHold := fun _ _ _ t =>
  withHandle_keeps (.refl t) fun i o order => by
    split
    · exact .setOrder order rfl
    · exact .refl t
    · exact .refl t

theorem serveRsum_movesNothing : ServiceMovesNothing serveRsum := fun _ _ _ t =>
  withHandle_keeps (.refl t) fun i o order => by
    split
    · exact .setOrder order rfl
    · exact .refl t
    · exact .refl t

theorem serveRtir_movesNothing : ServiceMovesNothing serveRtir := fun _ _ _ t =>
  withHandle_keeps (.refl t) fun i o _ => .retire t i o

theorem servePurg_movesNothing : ServiceMovesNothing servePurg := by
  intro p g args t
  unfold servePurg
  split
  · split
    · exact .refl t
    next owner _ =>
    split
    · exact .refl t
    · dsimp only
      exact .purge t owner
  · exact .refl t

theorem serveList_movesNothing : ServiceMovesNothing serveList := fun _ _ args t => by
  unfold serveList
  split <;> exact .refl t

theorem serveInfo_movesNothing : ServiceMovesNothing serveInfo := fun _ _ args t => by
  unfold serveInfo
  split <;> exact .refl t

theorem serveConfigure_movesNothing : ServiceMovesNothing serveConfigure := fun _ _ args t => by
  unfold serveConfigure
  split
  · split
    · exact .setGroup t _ _
    · exact .refl t
  · exact .refl t
  · exact .refl t

theorem serveRelease_movesNothing : ServiceMovesNothing serveRelease := fun _ _ args t => by
  unfold serveRelease
  split
  · split
    · exact .refl t
    split
    · exact .refl t
    split
    · exact .refl t
    · exact .setGroup t _ _
  · exact .refl t
  · exact .refl t

theorem serveGred_movesNothing : ServiceMovesNothing serveGred := fun _ _ args t => by
  unfold serveGred
  split
  · split
    · exact .refl t
    · split <;> exact .refl t
  · exact .refl t

theorem serveGclr_movesNothing : ServiceMovesNothing serveGclr := fun _ _ args t => by
  unfold serveGclr
  split
  · split
    · exact .refl t
    split
    · exact .refl t
    split
    · exact .refl t
    · exact .setGroup t _ _
  · exact .refl t

/-! ### PLAC and QUOT: the quotas -/

/-- A service that moves no ownership and no quota keeps the law of the quotas. -/
theorem serviceKeeps_quotaLaw {f : Port → InHand → List Byte → Table → Table × Reply}
    (kept : ∀ p h args, ∀ t : Table, t.OwnersKept (f p h args t).1) : ServiceKeeps Table.QuotaLaw f :=
  fun p g args _ h => h.of_ownersKept (kept p g args _)

/-- A slot filled adds at most one to what its order's owner owns, and nothing to what the other port owns. -/
theorem Table.owned_setOrder_le (t : Table) (i : Fin 64) (o : Order) (p : Port) :
    (t.setOrder i o).owned p ≤ t.owned p + if o.owner = p then 1 else 0 := by
  split
  · refine Table.owned_le_length (l := i :: t.ordersWhere fun o => o.owner == p) fun j x order owner => ?_
    rw [Table.order_setOrder] at order
    split at order
    · next own => exact own ▸ List.mem_cons_self
    · exact List.mem_cons_of_mem _ (Table.mem_owned.mpr ⟨x, order, owner⟩)
  · next other =>
    refine Table.owned_le_length fun j x order owner => ?_
    rw [Table.order_setOrder] at order
    split at order
    · cases order; exact absurd owner other
    · exact Table.mem_owned.mpr ⟨x, order, owner⟩

/-- A PLAC by a port whose owned count is below its quota keeps the law (R37). -/
theorem Table.QuotaLaw.place {t : Table} (h : t.QuotaLaw) (i : Fin 64) {o : Order}
    (room : t.owned o.owner < t.quotas.get o.owner) : (t.place i o).QuotaLaw := by
  rw [Table.place_eq]
  refine Table.QuotaLaw.of_ownersKept (fun q => ?_) (Table.Kept.joinIf _ i o.member).owners
  refine (t.owned_setOrder_le i o q).trans ?_
  split
  · next own => exact own ▸ room
  · exact h q

theorem servePlac_keeps_quotaLaw : ServiceKeeps Table.QuotaLaw servePlac := by
  intro p g args t h
  unfold servePlac
  split
  · exact h
  split
  · exact h
  split
  · exact h
  next room =>
  split
  · exact h
  · exact h.place _ (Nat.not_le.mp room)

theorem serveQuot_keeps_quotaLaw : ServiceKeeps Table.QuotaLaw serveQuot := by
  intro p g args t h
  unfold serveQuot
  split
  · split
    · exact h
    split
    · exact h
    split
    · exact h
    next who _ _ room =>
    intro x
    show t.owned x ≤ (t.quotas.set who _).get x
    rw [PerPort.get_set]
    split
    · next own => exact own ▸ Nat.not_lt.mp room
    · exact h x
  · exact h

/-! ### TAKE, FNSH, CEIL and NEST: the stacks -/

/-- A service that moves no taken level keeps the law of the stacks. -/
theorem serviceKeeps_stackLaw {f : Port → InHand → List Byte → Table → Table × Reply}
    (kept : ∀ p h args, ∀ t : Table, t.LevelsKept (f p h args t).1) : ServiceKeeps Table.StackLaw f :=
  fun p g args _ h => h.of_levelsKept (kept p g args _)

theorem Table.OwnersKept.push (t : Table) (p : Port) (e : Entry) : t.OwnersKept (t.push p e) :=
  .of_order rfl fun _ => rfl

theorem serveTake_ownersKept (p : Port) (g : InHand) (args : List Byte) (t : Table) :
    t.OwnersKept (serveTake p g args t).1 := by
  have same : t.OwnersKept t := (Table.Kept.refl t).owners
  unfold serveTake
  split
  · exact same
  split
  · exact same
  split
  · exact same
  unfold Table.takeCall
  split
  · split
    · next o order => exact (Table.OwnersKept.setOrder (o' := o.taken _) order rfl).trans (.push _ p _)
    · exact same
  · exact (Table.Kept.setGroup t _ _).owners.trans (.push _ p _)

/-- The best offered call lies below the current ceiling (R110). -/
theorem Table.bestOffered_below {t : Table} {p : Port} {x : RaisedCall} (best : t.bestOffered p = some x) :
    x.level < (t.contexts.get p).ceiling := by
  have mem := ((lowest_some (List.Pairwise.filter _ (t.raisedCalls_sorted p)) x).mp best).1
  simpa using List.of_mem_filter mem

theorem serveTake_keeps_stackLaw : ServiceKeeps Table.StackLaw serveTake := by
  intro p g args t h
  unfold serveTake
  split
  · exact h
  split
  · exact h
  next room =>
  split
  · exact h
  next x best =>
  have pushed : ∀ {u : Table} {e : Entry}, u.contexts = t.contexts → e.level = x.level → (u.push p e).StackLaw := by
    intro u e contexts level
    refine (h.of_levelsKept (.of_contexts contexts)).setContext ?_
    rw [contexts]
    exact (h p).push (Nat.not_le.mp room) (level ▸ Table.bestOffered_below best)
  unfold Table.takeCall
  split
  · split
    · exact pushed rfl rfl
    · exact h
  · exact pushed rfl rfl

/-- The end of a taken call moves no ownership and no entry (R119, R120). -/
theorem Table.Kept.finishCall (t : Table) (e : Entry) (hold : Bool) : t.Kept (t.finishCall e hold).1 := by
  unfold Table.finishCall
  split
  · split
    · next named => exact .setOrder (Table.order_of_entryOrder named) rfl
    · exact .refl t
  · exact .setGroup t _ _

theorem serveFnsh_ownersKept (p : Port) (g : InHand) (args : List Byte) (t : Table) :
    t.OwnersKept (serveFnsh p g args t).1 := by
  have same : t.OwnersKept t := (Table.Kept.refl t).owners
  unfold serveFnsh
  split
  · exact same
  split
  · exact same
  split
  · exact Table.OwnersKept.trans (u := t.pop p) (.of_order rfl fun _ => rfl) (Table.Kept.finishCall _ _ _).owners
  · exact same

theorem serveFnsh_keeps_stackLaw : ServiceKeeps Table.StackLaw serveFnsh := by
  intro p g args t h
  unfold serveFnsh
  split
  · exact h
  split
  · exact h
  split
  · have popped : (t.pop p).StackLaw := h.setContext (h p).pop
    exact popped.of_levelsKept (Table.Kept.finishCall _ _ _).levels
  · exact h

theorem serveCeil_ownersKept (p : Port) (g : InHand) (args : List Byte) (t : Table) :
    t.OwnersKept (serveCeil p g args t).1 :=
  .of_order (by unfold serveCeil; dsimp only; repeat' split
                all_goals rfl) (serveCeil_order p g args t)

theorem serveNest_ownersKept (p : Port) (g : InHand) (args : List Byte) (t : Table) :
    t.OwnersKept (serveNest p g args t).1 :=
  .of_order (by unfold serveNest; dsimp only; repeat' split
                all_goals rfl) (serveNest_order p g args t)

/-- CEIL and NEST change a context only while its stack is empty (R122, R123). -/
theorem serveCeil_keeps_stackLaw : ServiceKeeps Table.StackLaw serveCeil := by
  intro p g args t h
  unfold serveCeil
  split
  · dsimp only
    split
    · exact h
    split
    · next empty => exact h.setContext (.of_empty (List.isEmpty_iff.mp empty))
    · exact h
  · exact h

theorem serveNest_keeps_stackLaw : ServiceKeeps Table.StackLaw serveNest := by
  intro p g args t h
  unfold serveNest
  split
  · dsimp only
    split
    · exact h
    split
    · next empty => exact h.setContext (.of_empty (List.isEmpty_iff.mp empty))
    · exact h
  · exact h

/-! ### The works that empty the stacks -/

theorem Table.Kept.returnCall (t : Table) (start : Byte → Option Elapsed) (e : Entry) :
    t.Kept (Table.returnCall start t e) := by
  unfold Table.returnCall
  split
  · split
    · next named => exact .setOrder (Table.order_of_entryOrder named) (Order.reRaise_owner _ _ _)
    · exact .refl t
  · exact .setGroup t _ _

theorem Table.OwnersKept.emptyStacks (t : Table) (start : Byte → Option Elapsed) :
    t.OwnersKept (t.emptyStacks start) := by
  have emptied : ∀ (u : Table) (l : List Entry), u.Kept (l.foldl (Table.returnCall start) u) := fun u l =>
    List.foldlRecOn l _ (Table.Kept.refl u) fun _ kept e _ => kept.trans (.returnCall _ start e)
  exact ((emptied t t.contexts.a.stack).trans (emptied _ t.contexts.b.stack)).owners.trans (.of_order rfl fun _ => rfl)

theorem Table.StackLaw.of_powerOn {t : Table} (h : t.contexts = ⟨Context.powerOn, Context.powerOn⟩) : t.StackLaw :=
  Table.powerOn_stackLaw.of_levelsKept (.of_contexts h)

/-! ### Every change of the table keeps both laws -/

theorem tableServices_keep_quotaLaw : ∀ f ∈ tableServices, ServiceKeeps Table.QuotaLaw f := by
  have still : ∀ {f}, ServiceMovesNothing f → ServiceKeeps Table.QuotaLaw f := fun h =>
    serviceKeeps_quotaLaw fun p g args t => (h p g args t).owners
  simp only [tableServices, List.forall_mem_cons]
  exact ⟨servePlac_keeps_quotaLaw, still serveAmnd_movesNothing, still serveHold_movesNothing,
    still serveRsum_movesNothing, still serveRtir_movesNothing, still servePurg_movesNothing,
    still serveList_movesNothing, serveQuot_keeps_quotaLaw, still serveInfo_movesNothing,
    serviceKeeps_quotaLaw serveTake_ownersKept, serviceKeeps_quotaLaw serveFnsh_ownersKept,
    serviceKeeps_quotaLaw serveCeil_ownersKept, serviceKeeps_quotaLaw serveNest_ownersKept,
    still serveConfigure_movesNothing, still serveRelease_movesNothing, still serveGred_movesNothing,
    still serveGclr_movesNothing, fun _ mem => absurd mem List.not_mem_nil⟩

theorem servePlac_contexts (p : Port) (g : InHand) (args : List Byte) (t : Table) :
    (servePlac p g args t).1.contexts = t.contexts := by
  unfold servePlac
  split
  · rfl
  split
  · rfl
  split
  · rfl
  split
  · rfl
  · rw [Table.place_eq]
    exact (Table.joinIf_rest _ _ _).2.2.1

theorem serveQuot_contexts (p : Port) (g : InHand) (args : List Byte) (t : Table) :
    (serveQuot p g args t).1.contexts = t.contexts := by
  unfold serveQuot; repeat' split
  all_goals rfl

theorem tableServices_keep_stackLaw : ∀ f ∈ tableServices, ServiceKeeps Table.StackLaw f := by
  have still : ∀ {f}, ServiceMovesNothing f → ServiceKeeps Table.StackLaw f := fun h =>
    serviceKeeps_stackLaw fun p g args t => (h p g args t).levels
  simp only [tableServices, List.forall_mem_cons]
  exact ⟨serviceKeeps_stackLaw fun p g args t => .of_contexts (servePlac_contexts p g args t),
    still serveAmnd_movesNothing, still serveHold_movesNothing, still serveRsum_movesNothing,
    still serveRtir_movesNothing, still servePurg_movesNothing, still serveList_movesNothing,
    serviceKeeps_stackLaw fun p g args t => .of_contexts (serveQuot_contexts p g args t),
    still serveInfo_movesNothing, serveTake_keeps_stackLaw, serveFnsh_keeps_stackLaw, serveCeil_keeps_stackLaw,
    serveNest_keeps_stackLaw, still serveConfigure_movesNothing, still serveRelease_movesNothing,
    still serveGred_movesNothing, still serveGclr_movesNothing, fun _ mem => absurd mem List.not_mem_nil⟩

theorem Table.Kept.stored {t t' : Table} (h : t'.stored = t.stored) : t.Kept t' := by
  obtain ⟨_, _, quotas, contexts, _⟩ := Table.stored_eq h
  exact .of_same quotas (Table.order_stored h) contexts

theorem Table.QuotaLaw.keeps : Table.Keeps Table.QuotaLaw where
  stored _ _ e h := h.of_ownersKept (Table.Kept.stored e).owners
  powerOn := Table.powerOn_quotaLaw
  service := tableServices_keep_quotaLaw
  shift t n h := h.of_ownersKept (Table.Kept.mapOrders t fun o => o.shift_owner n).owners
  fire t g h := h.of_ownersKept (Table.Kept.fire t g).owners
  expiredCall _ e _ o c order _ _ h := h.of_ownersKept (.setOrder order (o.expired_owner e c))
  expiredEntry t p n h := h.of_ownersKept (Table.Kept.expiredEntry t p n).owners
  resetWork t _ h := h.of_ownersKept (.emptyStacks t _)
  backupWork t h := h.of_ownersKept ((Table.OwnersKept.emptyStacks t _).trans
    ((Table.Kept.mapOrders _ fun o => o.withDeadline_owner _).owners.trans (.of_order rfl fun _ => rfl)))
  returnWork t e h := h.of_ownersKept (Table.Kept.returnWork t e).owners

theorem Table.StackLaw.keeps : Table.Keeps Table.StackLaw where
  stored _ _ e h := h.of_levelsKept (Table.Kept.stored e).levels
  powerOn := Table.powerOn_stackLaw
  service := tableServices_keep_stackLaw
  shift _ _ h := h.of_levelsKept (.of_contexts rfl)
  fire t g h := h.of_levelsKept (Table.Kept.fire t g).levels
  expiredCall _ _ _ _ _ _ _ _ h := h.of_levelsKept (.of_contexts rfl)
  expiredEntry t p n h := h.of_levelsKept (Table.Kept.expiredEntry t p n).levels
  resetWork _ _ _ := .of_powerOn rfl
  backupWork _ _ := .of_powerOn rfl
  returnWork _ _ h := h.of_levelsKept (.of_contexts rfl)

/-- Settles O57: both laws by the changes of the table. -/
theorem everyStepKeepsTheQuotaAndStackLaws : Obligations.EveryStepKeepsTheQuotaAndStackLaws :=
  ⟨Table.QuotaLaw.keeps.step, Table.StackLaw.keeps.step⟩

end Sys2Proof.Machine
end

section
/-! The collections of the table, what QUOT sets and what INFO reports of them (R18, R19, R22, R23, R26, R27). -/

namespace Sys2Proof.Machine

/-! ### The due list (R19) -/

/-- The place a slot takes in the due list is its own, at the due of its WAITING order. -/
theorem Table.dueEntry_eq_some {t : Table} {i : Fin 64} {e : DueEntry} :
    t.dueEntry i = some e ↔ e.slot = i ∧ ∃ o, t.order i = some o ∧ o.standing = .waiting e.due := by
  obtain ⟨slot, due⟩ := e
  unfold Table.dueEntry
  cases t.order i with
  | none => simp
  | some o => cases standing : o.standing <;> simp [standing, eq_comm]

theorem Table.mem_dueList {t : Table} {i : Fin 64} {d : DateTime} :
    ⟨i, d⟩ ∈ t.dueList ↔ ∃ o, t.order i = some o ∧ o.standing = .waiting d := by
  rw [Table.dueList, (foldr_insertDue_perm _).mem_iff, List.mem_filterMap]
  constructor
  · rintro ⟨j, _, entry⟩
    obtain ⟨rfl, waiting⟩ := Table.dueEntry_eq_some.mp entry
    exact waiting
  · exact fun waiting => ⟨i, mem_allSlots i, Table.dueEntry_eq_some.mpr ⟨rfl, waiting⟩⟩

theorem Table.dueList_slots_nodup (t : Table) : (t.dueList.map DueEntry.slot).Nodup :=
  ((foldr_insertDue_perm _).map _).nodup_iff.mpr (t.dueEntries_nodup allSlots (List.nodup_finRange 64))

theorem Table.dueList_sorted (t : Table) : t.dueList.Pairwise DueEntry.Sooner :=
  foldr_insertDue_sorted _ (t.dueEntries_nodup allSlots (List.nodup_finRange 64))

/-- Settles O17. -/
theorem dueListIsSortedByDueAndSlot : Obligations.DueListIsSortedByDueAndSlot := fun t =>
  ⟨fun _ _ => Table.mem_dueList, t.dueList_slots_nodup, t.dueList_sorted, rfl⟩

/-- The due list counts the WAITING orders. -/
theorem Table.length_dueList (t : Table) : t.dueList.length = (t.ordersWhere Order.isWaiting).length := by
  have same : t.dueList.map DueEntry.slot ⊆ t.ordersWhere Order.isWaiting ∧
      t.ordersWhere Order.isWaiting ⊆ t.dueList.map DueEntry.slot := by
    refine ⟨fun i mem => ?_, fun i mem => ?_⟩
    · obtain ⟨⟨j, d⟩, entry, rfl⟩ := List.mem_map.mp mem
      obtain ⟨o, order, waiting⟩ := Table.mem_dueList.mp entry
      exact Table.mem_ordersWhere.mpr ⟨o, order, by simp only [Order.isWaiting, waiting]⟩
    · obtain ⟨o, order, waiting⟩ := Table.mem_ordersWhere.mp mem
      unfold Order.isWaiting at waiting
      split at waiting
      · next d standing => exact List.mem_map.mpr ⟨⟨i, d⟩, Table.mem_dueList.mpr ⟨o, order, standing⟩, rfl⟩
      · cases waiting
      · cases waiting
  rw [← List.length_map (f := DueEntry.slot)]
  exact le_antisymm (List.subperm_of_subset t.dueList_slots_nodup same.1).length_le
    (List.subperm_of_subset (t.ordersWhere_nodup _) same.2).length_le

/-! ### The other collections (R18, R22, R23) -/

theorem Table.ordersWhere_sorted (t : Table) (f : Order → Bool) : (t.ordersWhere f).Pairwise (· < ·) :=
  allSlots_sorted.filter _

theorem Table.mem_heldSet {t : Table} {i : Fin 64} :
    i ∈ t.heldSet ↔ ∃ o d, t.order i = some o ∧ o.standing = .held d := by
  rw [Table.heldSet, Table.mem_ordersWhere]
  refine exists_congr fun o => ?_
  cases standing : o.standing <;> simp [Order.isHeld, standing]

theorem Table.mem_spentSet {t : Table} {i : Fin 64} :
    i ∈ t.spentSet ↔ ∃ o, t.order i = some o ∧ o.standing = .spent := by
  rw [Table.spentSet, Table.mem_ordersWhere]
  refine exists_congr fun o => ?_
  cases standing : o.standing <;> simp [Order.isSpent, standing]

/-- Every slot is owned by port A, owned by port B or FREE, and is so in one way only. -/
theorem Table.owned_and_free_perm (t : Table) :
    ((t.ordersWhere fun o => o.owner == .A) ++ (t.ordersWhere fun o => o.owner == .B) ++ t.freePool).Perm allSlots := by
  have apart : ∀ i p q, i ∈ t.ordersWhere (fun o => o.owner == p) → i ∈ t.ordersWhere (fun o => o.owner == q) →
      p = q := by
    intro i p q mem mem'
    obtain ⟨o, order, rfl⟩ := Table.mem_owned.mp mem
    obtain ⟨o', order', rfl⟩ := Table.mem_owned.mp mem'
    cases order.symm.trans order'
    rfl
  have filled : ∀ i p, i ∈ t.ordersWhere (fun o => o.owner == p) → i ∉ t.freePool := by
    intro i p mem free
    obtain ⟨o, order, _⟩ := Table.mem_owned.mp mem
    cases order.symm.trans (Table.mem_freePool.mp free)
  have nodup : ((t.ordersWhere fun o => o.owner == .A) ++ (t.ordersWhere fun o => o.owner == .B)
      ++ t.freePool).Nodup := by
    refine ((t.ordersWhere_nodup _).append (t.ordersWhere_nodup _) fun i a b => ?_).append
      (t.freePool_sorted.imp Fin.ne_of_lt) fun i owned => ?_
    · cases apart i .A .B a b
    · exact (List.mem_append.mp owned).elim (filled i .A) (filled i .B)
  refine (List.perm_ext_iff_of_nodup nodup (List.nodup_finRange 64)).mpr fun i => ⟨fun _ => mem_allSlots i, fun _ => ?_⟩
  cases order : t.order i with
  | none => exact List.mem_append_right _ (Table.mem_freePool.mpr order)
  | some o =>
    have own : i ∈ t.ordersWhere (fun x => x.owner == o.owner) := Table.mem_owned.mpr ⟨o, order, rfl⟩
    refine List.mem_append_left _ ?_
    cases owner : o.owner with
    | A => exact List.mem_append_left _ (owner ▸ own)
    | B => exact List.mem_append_right _ (owner ▸ own)

/-- The 64 slots are owned or FREE (R18, R23). -/
theorem Table.owned_add_free (t : Table) : t.owned .A + t.owned .B + t.freePool.length = 64 := by
  have length := t.owned_and_free_perm.length_eq
  rwa [List.length_append, List.length_append, allSlots, List.length_finRange] at length

/-- Settles O18. -/
theorem collectionsFollowTheRecords : Obligations.CollectionsFollowTheRecords := fun t =>
  ⟨fun _ => Table.mem_freePool, fun _ => Table.mem_heldSet, fun _ => Table.mem_spentSet, t.freePool_sorted,
    t.ordersWhere_sorted _, t.ordersWhere_sorted _,
    fun _ => ⟨_, t.ordersWhere_nodup _, rfl, fun _ => Table.mem_owned⟩, t.owned_add_free⟩

/-! ### QUOT and INFO (R26, R27) -/

section
variable {p : Port} {h : InHand} {args : List Byte} {t : Table} {b q : Byte} {who : Port}

theorem serveQuot_layout (bad : args.length ≠ 2) : serveQuot p h args t = t.answer .badArgument := by
  unfold serveQuot
  split
  · exact absurd rfl bad
  · rfl

theorem serveQuot_range (bad : 1 < b.toNat ∨ 64 < q.toNat) : serveQuot p h [b, q] t = t.answer .badArgument := by
  simp only [serveQuot]
  split
  · rfl
  · next who named =>
    have port : ¬ 1 < b.toNat := fun no => by rw [portOf_eq_none.mpr no] at named; cases named
    exact if_pos (bad.resolve_left port)

theorem serveQuot_below (range : q.toNat ≤ 64) (below : q.toNat < t.owned who) :
    serveQuot p h [portByte who, q] t = t.answer .quotaBelow := by
  simp only [serveQuot, portOf_portByte, Config.maxQuota, if_neg (Nat.not_lt.mpr range), if_pos below]

theorem serveQuot_set (range : q.toNat ≤ 64) (room : t.owned who ≤ q.toNat) :
    serveQuot p h [portByte who, q] t =
      ({ t with quotas := t.quotas.set who q.toNat }, .done [portByte who, q, byteOf (t.owned who)]) := by
  simp only [serveQuot, portOf_portByte, Config.maxQuota, if_neg (Nat.not_lt.mpr range), if_neg (Nat.not_lt.mpr room)]

theorem serveInfo_layout (bad : args ≠ []) : serveInfo p h args t = t.answer .badArgument := by
  unfold serveInfo
  split
  · exact absurd rfl bad
  · rfl

end

/-- Settles O32. -/
theorem quotSetsAndInfoReports : Obligations.QuotSetsAndInfoReports := by
  refine ⟨fun args h s hs => ⟨fun layout => hs.refused rfl rfl (serveQuot_layout layout), ?_⟩,
    fun p args h s hs => ⟨?_, fun layout => hs.refused rfl rfl (serveInfo_layout layout)⟩⟩
  · rintro b q rfl
    refine ⟨fun bad => hs.refused rfl rfl (serveQuot_range bad), ?_⟩
    rintro who rfl range
    exact ⟨fun below => hs.refused rfl rfl (serveQuot_below range below),
      fun room => hs.answers rfl rfl (serveQuot_set range room) rfl⟩
  · rintro rfl
    refine hs.answers rfl rfl ?_ rfl
    rw [Table.length_dueList]
    rfl

end Sys2Proof.Machine
end

section
/-! The scheduler's judgement and the arbiter (R29, R84 to R86), and how a unit puts a table command before the table
and withdraws it (R28, R30, R173, R178). -/

namespace Sys2Proof.Machine

/-! ### The judgement (R84 to R86) -/

theorem Scheduler.firingNeeded_iff (c : Scheduler) : c.firingNeeded = true ↔
    c.view.valid = true ∧ (c.view.state = .running ∨ c.view.state = .held)
      ∧ ∃ d, c.head = some d ∧ secondNumber d ≤ secondNumber c.view.now := by
  unfold Scheduler.firingNeeded
  cases c.head <;> simp [DateTime.atOrBefore, and_assoc]

theorem Scheduler.expiryNeeded_iff (c : Scheduler) : c.expiryNeeded = true ↔
    ∃ d, c.deadline = some d ∧ ((d - c.view.elapsed).toNat = 0 ∨ 255 < (d - c.view.elapsed).toNat) := by
  unfold Scheduler.expiryNeeded
  cases c.deadline <;> simp [lapsed_iff]

theorem State.judge_none {s : State} (h : s.sched.wants = none) : s.judge = s := by
  simp only [State.judge, h]

theorem State.judge_some {s : State} {r : SchedRequest} (h : s.sched.wants = some r) : s.judge =
    { s with sched := { s.sched with request := some r }, table := { s.table with schedWaiting := some r } } := by
  simp only [State.judge, h]

section
variable {c : Scheduler}

theorem Scheduler.wants_outstanding (h : c.request ≠ none) : c.wants = none :=
  if_pos (Option.isSome_iff_ne_none.mpr h)

/-- With no request outstanding the judgement is by need (R86). -/
theorem Scheduler.wants_free (h : c.request = none) : c.wants =
    if c.firingNeeded then some .fire else if c.expiryNeeded && !c.barred then some .expire else none := by
  simp only [Scheduler.wants, h, Option.isSome_none, Bool.false_eq_true, if_false]

theorem Scheduler.wants_fire (h : c.request = none) (firing : c.firingNeeded = true) : c.wants = some .fire := by
  rw [Scheduler.wants_free h, if_pos firing]

theorem Scheduler.wants_expire (h : c.request = none) (firing : ¬ c.firingNeeded = true)
    (expiring : c.expiryNeeded = true) (free : c.barred = false) : c.wants = some .expire := by
  rw [Scheduler.wants_free h, if_neg firing, expiring, free]
  rfl

theorem Scheduler.wants_nothing (h : c.request = none) (firing : ¬ c.firingNeeded = true)
    (not : ¬ c.expiryNeeded = true ∨ c.barred = true) : c.wants = none := by
  rw [Scheduler.wants_free h, if_neg firing, if_neg]
  simpa [Bool.and_eq_true, imp_iff_not_or] using not

end

/-! ### The arbiter (R28, R29) -/

/-- What a requester has waiting, as a choice of the arbiter. -/
def Table.candidate (t : Table) (r : Requester) : Option (Requester × Request) := (t.waitingOf r).map fun q => (r, q)

/-- The first waiting requester, counting from the one served last (R29). -/
theorem Table.nextWaiting_eq {t : Table} {r a b c : Requester} (served : t.lastServed = r)
    (cycle : r.cycle = [a, b, c]) : t.nextWaiting = (t.candidate a <|> t.candidate b <|> t.candidate c) := by
  have first : t.nextWaiting = [a, b, c].findSome? t.candidate := by rw [← cycle, ← served]; rfl
  rw [first]
  cases ha : t.candidate a <;> cases hb : t.candidate b <;> simp [ha, hb]

theorem Table.idle_iff (t : Table) : t.idle = true ↔ t.inHand = none ∧ t.work = [] := by
  simp [Table.idle]

section
variable {s : State}

theorem State.arbitrate_busy (h : s.table.inHand ≠ none ∨ s.table.work ≠ []) : s.arbitrate = s :=
  if_neg fun idle => by
    obtain ⟨hand, work⟩ := s.table.idle_iff.mp idle
    exact h.elim (absurd hand) (absurd work)

theorem State.arbitrate_none (h : s.table.nextWaiting = none) : s.arbitrate = s := by
  simp only [State.arbitrate, h, ite_self]

theorem State.arbitrate_grant (hand : s.table.inHand = none) (work : s.table.work = []) {r : Requester} {q : Request}
    (next : s.table.nextWaiting = some (r, q)) : s.arbitrate = s.grant r q := by
  simp only [State.arbitrate, s.table.idle_iff.mpr ⟨hand, work⟩, if_true, next]

end

/-- What a grant leaves in the table (R28, R29). -/
theorem State.grant_table (s : State) (r : Requester) (q : Request) : (s.grant r q).table = { s.table with
    inHand := some ⟨q, s.clock.calendar.now, s.clock.valid, s.clock.elapsed⟩, lastServed := r
    waiting := match r with
      | .unit p => s.table.waiting.set p none
      | .scheduler => s.table.waiting
    schedWaiting := match r with
      | .unit _ => s.table.schedWaiting
      | .scheduler => none } := by
  cases r <;> rfl

theorem State.grant_units (s : State) (r : Requester) (q : Request) (p : Port) :
    (s.grant r q).units.get p = if r = .unit p then (s.units.get p).granted else s.units.get p := by
  cases r with
  | scheduler => rfl
  | unit a =>
    simp only [State.grant, State.modUnit_units, PerPort.get_set, Requester.unit.injEq, eq_comm]
    split
    · next own => rw [own]
    · rfl

theorem State.grant_sched (s : State) (r : Requester) (q : Request) : (s.grant r q).sched = s.sched := by
  cases r <;> rfl

/-- Settles O50. -/
theorem judgementAndGrantFollowTheirRules : Obligations.JudgementAndGrantFollowTheirRules := by
  refine ⟨fun s => ?_, fun s => ?_⟩
  · intro v firing expiring put
    have needs : s.sched.firingNeeded = true ↔ firing := s.sched.firingNeeded_iff
    have lapses : s.sched.expiryNeeded = true ↔ expiring := s.sched.expiryNeeded_iff
    rw [← needs, ← lapses]
    exact ⟨fun out => State.judge_none (Scheduler.wants_outstanding out),
      fun free fire => State.judge_some (Scheduler.wants_fire free fire),
      fun free fire expire unbarred => State.judge_some (Scheduler.wants_expire free fire expire unbarred),
      fun free fire not => State.judge_none (Scheduler.wants_nothing free fire not)⟩
  · intro t a b c first
    have ea : a = t.candidate (.unit .A) := (Option.map_map _ _ _).symm
    have eb : b = t.candidate (.unit .B) := (Option.map_map _ _ _).symm
    have ec : c = t.candidate .scheduler := by
      refine Eq.trans ?_ (Option.map_map _ _ _).symm
      exact congrArg (t.schedWaiting.map ·) (funext fun r => by cases r <;> rfl)
    have same : t.nextWaiting = first := by
      rcases h : t.lastServed with (_ | _) | _
      all_goals exact (Table.nextWaiting_eq h rfl).trans (by simp only [first, h, ea, eb, ec])
    refine ⟨?_, fun hand work r q next => ?_⟩
    · rintro (hand | work | none)
      · exact State.arbitrate_busy (.inl hand)
      · exact State.arbitrate_busy (.inr work)
      · exact State.arbitrate_none (same.trans none)
    · rw [State.arbitrate_grant hand work (same.trans next)]
      have settled := s.grant_settled r q
      exact ⟨s.grant_table r q, s.grant_units r q, settled.clock, s.grant_sched r q, settled.outside⟩

/-! ### A table command taken in IDLE (R28, R29, R173, R174) -/

theorem route_of_tableCommands {c : Code} {p : Port} (h : c ∈ tableCommands p) : c.route p = .table := by
  have all : ∀ p, ∀ c ∈ tableCommands p, c.route p = .table := by intro p; cases p <;> decide
  exact all p c h

theorem ne_of_route_table {c d : Code} {p : Port} (table : c.route p = .table) (unit : d.route p = .unit) : c ≠ d := by
  rintro rfl
  cases table.symm.trans unit

/-- A table command that waits before the arbiter, its unit in PENDING. -/
def State.waits (s : State) (p : Port) (c : Command) : State :=
  (s.setTable (s.table.wait p c)).modUnit p fun u => { u with phase := .pending c }

theorem State.takeFrame_table {s : State} {p : Port} {c : Code} {args : List Byte} (known : c ∈ tableCommands p)
    (idle : (s.units.get p).phase = .idle) : s.takeFrame p ⟨c, args⟩ = (s.waits p ⟨c, args⟩).arbitrate := by
  have route := route_of_tableCommands known
  have unrouted := fun d => ne_of_route_table (d := d) route
  simp only [State.takeFrame, unrouted .stat rfl, unrouted .rply rfl, unrouted .cncl rfl, or_self, if_false, if_true,
    idle, State.routeCommand, route, State.waits]

/-- A command that alone waits is the next (R29). -/
theorem Table.nextWaiting_alone {t : Table} (units : t.waiting = ⟨none, none⟩) (sched : t.schedWaiting = none)
    (p : Port) (c : Command) : (t.wait p c).nextWaiting = some (.unit p, .command p c) := by
  have alone : ∀ r, (t.wait p c).candidate r = if r = .unit p then some (.unit p, .command p c) else none := by
    rintro (q | _)
    · by_cases own : q = p
      · subst own
        simp [Table.candidate, Table.waitingOf, Table.wait]
      · cases q <;> simp [Table.candidate, Table.waitingOf, Table.wait, PerPort.get_set_other _ _ own, units, own]
    · simp [Table.candidate, Table.waitingOf, Table.wait, sched]
  rcases served : (t.wait p c).lastServed with (_ | _) | _
  all_goals
    rw [Table.nextWaiting_eq served rfl, alone, alone, alone]
    cases p <;> rfl

theorem State.waits_frame {p : Port} {s s' : State} (h : LinkFrame p s s') (c : Command) :
    LinkFrame p s (s'.waits p c) := (h.setTable _).modUnit _

/-- Settles O6: the unit puts its command before the arbiter, which grants it or finds the table busy. -/
theorem tableCommandIsPutBeforeTheTable : Obligations.TableCommandIsPutBeforeTheTable := by
  intro p c args s serving line idle known fits
  have route := route_of_tableCommands known
  have sent := frameEvent_command serving line fits (ne_of_route_table route rfl)
  obtain ⟨frame, clock, table, unit⟩ := s.transferred_frame p (args.length + 3)
  generalize s.transferred p (args.length + 3) = m at sent frame clock table unit
  rw [State.takeFrame_table known (by rw [unit, CmdUnit.reported_phase, idle])] at sent
  have waits := State.waits_frame frame ⟨c, args⟩
  refine ⟨fun hand work units sched => ?_, fun busy => ?_⟩
  · rw [State.arbitrate_grant (s := m.waits p ⟨c, args⟩) ((congrArg Table.inHand table).trans hand)
      ((congrArg Table.work table).trans work) (Table.nextWaiting_alone (table ▸ units) (table ▸ sched) p _)] at sent
    refine ⟨_, congrArg Host.Outcome.next sent, (waits.setTable _).modUnit _, clock, ?_, ?_⟩
    · simp [State.grant_units, State.waits, CmdUnit.granted, unit]
    · rw [State.grant_table]
      simp only [State.waits, State.modUnit_table, State.setTable_table, State.modUnit_clock, State.setTable_clock,
        Table.wait, PerPort.set_set, table, clock, units]
      cases p <;> rfl
  · have busy : (m.waits p ⟨c, args⟩).table.inHand ≠ none ∨ (m.waits p ⟨c, args⟩).table.work ≠ [] := by
      rw [← table] at busy
      exact busy
    rw [State.arbitrate_busy busy] at sent
    refine ⟨_, congrArg Host.Outcome.next sent, waits, clock, ?_, ?_⟩
    · simp [State.waits, unit]
    · simp [State.waits, Table.wait, table]

/-! ### CNCL (R30, R178) -/

theorem State.cancel_pending {s : State} {p : Port} {c : Command} (h : (s.units.get p).phase = .pending c) :
    s.cancel p = (s.setTable (s.table.unwait (.unit p))).modUnit p fun u => u.place (.bare .cancelled) := by
  simp only [State.cancel, h]

theorem State.cancel_other {s : State} {p : Port} (h : ∀ c, (s.units.get p).phase ≠ .pending c) : s.cancel p = s := by
  unfold State.cancel
  split
  · next c pending => exact absurd pending (h c)
  · rfl
  · rfl
  · rfl

/-- Settles O11. -/
theorem cnclCancelsAPendingCommand : Obligations.CnclCancelsAPendingCommand := by
  intro p args s serving line fits
  have sent : s.frameEvent p (.whole (requestBytes .cncl args)) = (s.transferred p (args.length + 3)).cancel p :=
    frameEvent_command serving line fits nofun
  have frame := s.transferred_frame p (args.length + 3)
  have phase : ((s.transferred p (args.length + 3)).units.get p).phase = (s.units.get p).phase := by
    rw [frame.unit, CmdUnit.reported_phase]
  refine ⟨fun c pending => ?_, fun other => ?_⟩
  · rw [State.cancel_pending (phase.trans pending)] at sent
    refine ⟨_, congrArg Host.Outcome.next sent, (frame.frame.setTable _).modUnit _, frame.clock, ?_, ?_⟩
    · simp only [State.modUnit_table, State.setTable_table, frame.table, Table.unwait]
    · simp only [State.modUnit_units, PerPort.get_set_same, State.setTable_units, frame.unit]
      rfl
  · rw [State.cancel_other fun c pending => other c (phase.symm.trans pending)] at sent
    exact ⟨_, congrArg Host.Outcome.next sent, frame⟩

/-! ### Power-on (R154; Tables 3-2 and 5-5) -/

theorem Table.powerOn_slot (i : Fin 64) : Table.powerOn.slot i = ⟨0, none⟩ := by
  simp [Table.slot, Table.powerOn]

/-- Settles O4. -/
theorem resetHoldsThePowerOnValues : Obligations.ResetHoldsThePowerOnValues := by
  have ports : ∀ P : Port → Prop, P .A → P .B → ∀ p, P p := fun P a b p => by cases p <;> assumption
  refine ⟨rfl, rfl, rfl, rfl, rfl, rfl, rfl, rfl, rfl, rfl, rfl, ports _ rfl rfl, rfl, rfl, rfl, rfl, rfl, rfl,
    Table.powerOn_slot, Table.powerOn_group, ports _ ?_ ?_, rfl, rfl, rfl, rfl⟩
  · exact ⟨rfl, rfl, rfl, rfl, rfl, rfl, rfl, rfl, rfl, rfl, rfl, rfl⟩
  · exact ⟨rfl, rfl, rfl, rfl, rfl, rfl, rfl, rfl, rfl, rfl, rfl, rfl⟩

end Sys2Proof.Machine
end

section
/-! RESET and backup entry at the units, and a command caught in WORKING by a reset (R30, R32, R58, R155, R167, R168,
R174, R180, R181). -/

namespace Sys2Proof.Machine

/-! ### A reply met by the discard marker (R174) -/

/-- A reply that its unit awaits stands in the buffer; the same reply met by the marker only clears the marker. -/
theorem State.takeReply_awaiting (s : State) (p : Port) {c : Command} {b : Block} (block : c.code.block = b)
    (r : Reply) : ((s.awaiting p c b).modUnit p fun u => u.takeReply b r)
      = (s.modUnit p fun u => u.markDiscard b false).hold p r := by
  have waits : (s.awaiting p c b).units.get p
      = { s.units.get p with phase := .working c : CmdUnit }.markDiscard b false := PerPort.get_set_same _ _ _
  simp only [State.modUnit, waits]
  rw [CmdUnit.takeReply_waiting (c := c) r (by cases b <;> rfl) block (by cases b <;> rfl)]
  cases p <;> cases b <;> rfl

theorem State.takeReply_marked {s : State} {p : Port} {b : Block} (marker : (s.units.get p).discards b = true)
    (r : Reply) : (s.modUnit p fun u => u.takeReply b r) = s.modUnit p fun u => u.markDiscard b false := by
  simp only [State.modUnit, CmdUnit.takeReply_discarded r marker]

/-- Presenting does not touch a reply that stands in a unit. -/
theorem State.presentTable_hold (s : State) (p : Port) (r : Reply) :
    (s.hold p r).presentTable = s.presentTable.hold p r := by
  cases p <;> rfl

theorem State.presentClock_hold (s : State) (p : Port) (r : Reply) :
    (s.hold p r).presentClock = s.presentClock.hold p r := by
  cases p <;> rfl

@[simp] theorem CmdUnit.markDiscard_phase (u : CmdUnit) (b : Block) (on : Bool) :
    (u.markDiscard b on).phase = u.phase := by
  cases b <;> rfl

/-! ### A table command caught in WORKING (R58, R180) -/

/-- A service neither reads nor writes a unit's phase and discard marker. -/
structure SparesUnits (f : Service) : Prop where
  awaiting : ∀ p h args s q c b,
    f p h args (State.awaiting s q c b) = ((f p h args s).1.awaiting q c b, (f p h args s).2)
  phase : ∀ p h args s q, ((f p h args s).1.units.get q).phase = (s.units.get q).phase
  marker : ∀ p h args s q, ((f p h args s).1.units.get q).discardTable = (s.units.get q).discardTable

theorem tableService_sparesUnits (f : Port → InHand → List Byte → Table → Table × Reply) :
    SparesUnits (tableService f) :=
  ⟨fun _ _ _ _ _ _ _ => rfl, fun _ _ _ _ _ => rfl, fun _ _ _ _ _ => rfl⟩

/-- LOOK leaves the state as it is, and answers from the table and the clock. -/
theorem serveLook_eq (p : Port) (h : InHand) (args : List Byte) (s : State) :
    ∃ r, ∀ u : State, u.table = s.table → u.clock = s.clock → serveLook p h args u = (u, r) := by
  unfold serveLook
  split
  · next slot generation =>
    cases named : s.table.resolve slot generation with
    | none => exact ⟨_, fun u table _ => by rw [table, named]⟩
    | some x => exact ⟨_, fun u table clock => by rw [table, named, clock]⟩
  · exact ⟨_, fun _ _ _ => rfl⟩

theorem serveLook_sparesUnits : SparesUnits serveLook := by
  refine ⟨fun p h args s q c b => ?_, fun p h args s q => ?_, fun p h args s q => ?_⟩
  all_goals obtain ⟨r, look⟩ := serveLook_eq p h args s
  · rw [look _ rfl rfl, look (s.awaiting q c b) rfl rfl]
  · rw [look _ rfl rfl]
  · rw [look _ rfl rfl]

theorem State.presentClock_awaiting (s : State) (p : Port) (c : Command) (b : Block) :
    (s.awaiting p c b).presentClock = s.presentClock.awaiting p c b := by
  cases p <;> cases b <;> rfl

/-- CKAD either answers alone, or adjusts the clock and the table and presents the clock (R78 to R80). -/
theorem serveCkad_eq (p : Port) (h : InHand) (args : List Byte) (s : State) :
    (∃ r, ∀ u : State, u.table = s.table → u.clock = s.clock → serveCkad p h args u = (u, r))
    ∨ ∃ k t r, ∀ u : State, u.table = s.table → u.clock = s.clock →
      serveCkad p h args u = (((u.setClock k).setTable t).presentClock, r) := by
  unfold serveCkad
  cases adjustmentOf args with
  | none => exact .inl ⟨_, fun _ _ _ => rfl⟩
  | some n =>
    dsimp only
    cases valid : s.clock.valid with
    | false => exact .inl ⟨_, fun u _ clock => by rw [clock, valid]; rfl⟩
    | true =>
      by_cases range : (secondNumber s.clock.calendar.now : Int) + n < 0
          ∨ (Config.maxSecond : Int) < secondNumber s.clock.calendar.now + n
      · exact .inl ⟨_, fun u _ clock => by rw [clock, valid, if_pos rfl, if_pos range]⟩
      · exact .inr ⟨_, _, _, fun u table clock => by rw [clock, table, valid, if_pos rfl, if_neg range]⟩

/-- CKAD presents the clock, whose validity alone reaches the units. -/
theorem serveCkad_sparesUnits : SparesUnits serveCkad := by
  refine ⟨fun p h args s q c b => ?_, fun p h args s q => ?_, fun p h args s q => ?_⟩
  all_goals obtain ⟨r, answers⟩ | ⟨k, t, r, adjusts⟩ := serveCkad_eq p h args s
  · rw [answers _ rfl rfl, answers (s.awaiting q c b) rfl rfl]
  · rw [adjusts _ rfl rfl, adjusts (s.awaiting q c b) rfl rfl]
    exact Prod.ext (State.presentClock_awaiting ((s.setClock k).setTable t) q c b) rfl
  · rw [answers _ rfl rfl]
  · rw [adjusts _ rfl rfl, State.presentClock_units, PerPort.get_map]
    rfl
  · rw [answers _ rfl rfl]
  · rw [adjusts _ rfl rfl, State.presentClock_units, PerPort.get_map]
    rfl

/-- A table command caught in WORKING: it is carried out as for a waiting unit, up to the reply that is thrown away. -/
def CaughtAtTable (i : Instr) (p : Port) (c : Command) (s : State) : Prop :=
  ∃ (m : State) (r : Reply), exec i (s.awaiting p c .table) = .next (m.hold p r).judge.arbitrate
    ∧ exec i s = .next m.judge.arbitrate ∧ (m.units.get p).phase = (s.units.get p).phase
    ∧ (m.units.get p).discardTable = false ∧ m.table.inHand = none

theorem serve_caught {i : Instr} {p : Port} {c : Command} {h : InHand} {s : State} {f : Service}
    (reliable : s.reliable = true) (inHand : s.table.inHand = some h) (request : h.request = .command p c)
    (marker : (s.units.get p).discardTable = true) (spares : SparesUnits f) (block : c.code.block = .table)
    (row : ∀ u : State, u.table = s.table → exec i u = .next (whileReliable (serve c.code p f) u)) :
    CaughtAtTable i p c s := by
  have hand : s.table.handOf p c.code = some (h, c.args) := Table.handOf_eq inHand request
  have row' : ∀ u : State, u.reliable = true → u.table = s.table →
      exec i u = .next ((f p h c.args u).1.completeCommand p (f p h c.args u).2) := fun u ru table => by
    rw [row u table]
    simp only [whileReliable, ru, if_true, serve, table, hand]
  have phase := spares.phase p h c.args s p
  have marked : ((f p h c.args s).1.units.get p).discards .table = true := (spares.marker p h c.args s p).trans marker
  have plain := row' s reliable rfl
  have waiting := row' (s.awaiting p c .table) reliable rfl
  rw [spares.awaiting] at waiting
  generalize f p h c.args s = x at phase marked plain waiting
  obtain ⟨x, r⟩ := x
  let m := (x.setTable x.table.release).modUnit p fun u => u.markDiscard .table false
  have thrown : x.completeCommand p r = m.presentTable.judge.arbitrate := by
    rw [State.completeCommand, State.takeReply_marked (s := x.setTable x.table.release) marked]
    rfl
  have placed : (x.awaiting p c .table).completeCommand p r = (m.presentTable.hold p r).judge.arbitrate := by
    rw [← State.presentTable_hold, ← State.takeReply_awaiting (x.setTable x.table.release) p block r]
    rfl
  refine ⟨m.presentTable, r, waiting.trans (congrArg _ placed), plain.trans (congrArg _ thrown), ?_, ?_, rfl⟩
  · simpa [m] using phase
  · simp [m, CmdUnit.markDiscard]

theorem Byte.zero_or_one_or_more (b : Byte) : b = 0 ∨ b = 1 ∨ 1 < b.toNat := by bv_omega

/-- A GSET in hand is carried out by the row of its form byte, and by either row where that byte is missing or unknown
(R144; entry 15). -/
theorem Table.gsetForm_of_bytes {t : Table} {h : InHand} {args : List Byte} {form : Byte} (inHand : t.inHand = some h)
    (request : h.request = .command .A ⟨.gset, args⟩) (known : ∀ b, args[1]? = some b → b = form ∨ 1 < b.toNat) :
    t.gsetForm form = true := by
  simp only [Table.gsetForm, Table.handOf_eq inHand request, gsetFormByte]
  cases read : args[1]? with
  | none => rfl
  | some b => simpa using known b read

/-- A table command caught in WORKING, whatever its row. -/
theorem carriesOut_caught {i : Instr} {p : Port} {c : Command} {h : InHand} {s : State} (reliable : s.reliable = true)
    (inHand : s.table.inHand = some h) (request : h.request = .command p c) (row : carriesOut i p c)
    (marker : (s.units.get p).discardTable = true) : CaughtAtTable i p c s := by
  obtain ⟨code, args⟩ := c
  have caught := fun {f : Service} => @serve_caught i p ⟨code, args⟩ h s f reliable inHand request marker
  cases i with
  | plac => obtain ⟨rfl, rfl⟩ := row; exact caught (tableService_sparesUnits servePlac) rfl fun _ _ => rfl
  | amnd => obtain ⟨rfl, rfl⟩ := row; exact caught (tableService_sparesUnits serveAmnd) rfl fun _ _ => rfl
  | hold => obtain ⟨rfl, rfl⟩ := row; exact caught (tableService_sparesUnits serveHold) rfl fun _ _ => rfl
  | rsum => obtain ⟨rfl, rfl⟩ := row; exact caught (tableService_sparesUnits serveRsum) rfl fun _ _ => rfl
  | rtir => obtain ⟨rfl, rfl⟩ := row; exact caught (tableService_sparesUnits serveRtir) rfl fun _ _ => rfl
  | purg => obtain ⟨rfl, rfl⟩ := row; exact caught (tableService_sparesUnits servePurg) rfl fun _ _ => rfl
  | look => obtain ⟨rfl, rfl⟩ := row; exact caught serveLook_sparesUnits rfl fun _ _ => rfl
  | list => obtain ⟨rfl, rfl⟩ := row; exact caught (tableService_sparesUnits serveList) rfl fun _ _ => rfl
  | quot => obtain ⟨rfl, rfl⟩ := row; exact caught (tableService_sparesUnits serveQuot) rfl fun _ _ => rfl
  | info => obtain ⟨rfl, rfl⟩ := row; exact caught (tableService_sparesUnits serveInfo) rfl fun _ _ => rfl
  | take => obtain ⟨rfl, rfl⟩ := row; exact caught (tableService_sparesUnits serveTake) rfl fun _ _ => rfl
  | fnsh => obtain ⟨rfl, rfl⟩ := row; exact caught (tableService_sparesUnits serveFnsh) rfl fun _ _ => rfl
  | ceil => obtain ⟨rfl, rfl⟩ := row; exact caught (tableService_sparesUnits serveCeil) rfl fun _ _ => rfl
  | nest => obtain ⟨rfl, rfl⟩ := row; exact caught (tableService_sparesUnits serveNest) rfl fun _ _ => rfl
  | gred => obtain ⟨rfl, rfl⟩ := row; exact caught (tableService_sparesUnits serveGred) rfl fun _ _ => rfl
  | gclr => obtain ⟨rfl, rfl⟩ := row; exact caught (tableService_sparesUnits serveGclr) rfl fun _ _ => rfl
  | ckad => obtain ⟨rfl, rfl⟩ := row; exact caught serveCkad_sparesUnits rfl fun _ _ => rfl
  | gsetConfigure =>
    obtain ⟨rfl, rfl, form⟩ := row
    refine caught (tableService_sparesUnits serveConfigure) rfl fun u table => ?_
    have served : u.table.gsetForm 0 = true := Table.gsetForm_of_bytes (table ▸ inHand) request fun b read =>
      (Byte.zero_or_one_or_more b).imp_right fun other => other.resolve_left fun one => form (one ▸ read)
    simp only [exec, execGsetConfigure, whileReliable, served, if_true]
  | gsetRelease =>
    obtain ⟨rfl, rfl, form⟩ := row
    refine caught (tableService_sparesUnits serveRelease) rfl fun u table => ?_
    have served : u.table.gsetForm 1 = true := Table.gsetForm_of_bytes (table ▸ inHand) request fun b read =>
      (Byte.zero_or_one_or_more b).resolve_left fun zero => form (zero ▸ read)
    simp only [exec, execGsetRelease, whileReliable, served, if_true]
  | _ => exact row.elim

/-! ### A clock command caught in WORKING (R58, R180) -/

/-- The clock takes a command caught in WORKING: all is as for a waiting unit, but the reply is thrown away. -/
theorem takeClock_caught {p : Port} {c : Command} {rest : List Command} {s : State}
    (f : List Byte → Clock → Clock × Reply) (after : State → State) (reliable : s.reliable = true)
    (taking : s.clock.taking.get p = c :: rest) (block : c.code.block = .clock)
    (marker : (s.units.get p).discardClock = true) :
    let k : Clock := { (f c.args s.clock).1 with taking := s.clock.taking.set p rest }
    let m := (s.setClock k).modUnit p fun u => u.markDiscard .clock false
    whileReliable (takeClock c.code p f after) s = after m
    ∧ whileReliable (takeClock c.code p f after) (s.awaiting p c .clock) = after (m.hold p (f c.args s.clock).2) := by
  intro k m
  have runs : ∀ u : State, u.reliable = true → u.clock = s.clock → whileReliable (takeClock c.code p f after) u
      = after ((u.setClock k).modUnit p fun v => v.takeReply .clock (f c.args s.clock).2) := fun u ru clock => by
    simp only [whileReliable, ru, if_true, takeClock, clock, taking, k]
  refine ⟨?_, ?_⟩
  · rw [runs s reliable rfl]
    exact congrArg after (State.takeReply_marked (s := s.setClock k) (b := .clock) marker _)
  · rw [runs (s.awaiting p c .clock) reliable rfl]
    exact congrArg after (State.takeReply_awaiting (s.setClock k) p block _)

/-- A clock command caught in WORKING: it is carried out as for a waiting unit, up to the reply that is thrown away. -/
def CaughtAtClock (i : Instr) (p : Port) (c : Command) (rest : List Command) (s : State) : Prop :=
  ∃ (m : State) (r : Reply), (m.units.get p).phase = (s.units.get p).phase ∧ (m.units.get p).discardClock = false
    ∧ m.clock.taking.get p = rest
    ∧ (c.code = .ckrd ∨ c.code = .ckse →
      exec i (s.awaiting p c .clock) = .next (m.hold p r) ∧ exec i s = .next m)
    ∧ (c.code ≠ .ckrd → c.code ≠ .ckse →
      exec i (s.awaiting p c .clock) = .next (m.hold p r).judge.arbitrate ∧ exec i s = .next m.judge.arbitrate)

section
variable {i : Instr} {p : Port} {c : Command} {rest : List Command} {s : State} {f : List Byte → Clock → Clock × Reply}
  (reliable : s.reliable = true) (taking : s.clock.taking.get p = c :: rest) (block : c.code.block = .clock)
  (marker : (s.units.get p).discardClock = true)
include reliable taking block marker

/-- CKRD and CKSE present nothing (R74, R77). -/
theorem caughtAtClock_silent (silent : c.code = .ckrd ∨ c.code = .ckse)
    (row : ∀ u, exec i u = .next (whileReliable (takeClock c.code p f id) u)) : CaughtAtClock i p c rest s := by
  obtain ⟨plain, waiting⟩ := takeClock_caught f id reliable taking block marker
  refine ⟨_, (f c.args s.clock).2, ?_, ?_, ?_,
    fun _ => ⟨(row _).trans (congrArg _ waiting), (row _).trans (congrArg _ plain)⟩,
    fun ckrd ckse => absurd silent (not_or.mpr ⟨ckrd, ckse⟩)⟩
  · simp
  · simp [CmdUnit.markDiscard]
  · simp

/-- The other commands of the clock present it (R72). -/
theorem caughtAtClock_seen (seen : c.code ≠ .ckrd ∧ c.code ≠ .ckse)
    (row : ∀ u, exec i u = .next (whileReliable (takeClock c.code p f State.afterClock) u)) :
    CaughtAtClock i p c rest s := by
  obtain ⟨plain, waiting⟩ := takeClock_caught f State.afterClock reliable taking block marker
  rw [State.afterClock, State.presentClock_hold] at waiting
  refine ⟨_, (f c.args s.clock).2, ?_, ?_, ?_, fun silent => absurd silent (not_or.mpr seen),
    fun _ _ => ⟨(row _).trans (congrArg _ waiting), (row _).trans (congrArg _ plain)⟩⟩
  · simp
  · simp [CmdUnit.markDiscard]
  · simp

end

/-- A clock command caught in WORKING, whatever its row. -/
theorem takesOut_caught {i : Instr} {p : Port} {c : Command} {rest : List Command} {s : State}
    (reliable : s.reliable = true) (taking : s.clock.taking.get p = c :: rest) (row : takesOut i p c)
    (marker : (s.units.get p).discardClock = true) : CaughtAtClock i p c rest s := by
  obtain ⟨code, args⟩ := c
  cases i with
  | ckrd => obtain ⟨rfl, rfl⟩ := row; exact caughtAtClock_silent reliable taking rfl marker (.inl rfl) fun _ => rfl
  | ckse => obtain ⟨rfl, rfl⟩ := row; exact caughtAtClock_silent reliable taking rfl marker (.inr rfl) fun _ => rfl
  | ckst => obtain ⟨rfl, rfl⟩ := row; exact caughtAtClock_seen reliable taking rfl marker ⟨nofun, nofun⟩ fun _ => rfl
  | ckhd => obtain ⟨rfl, rfl⟩ := row; exact caughtAtClock_seen reliable taking rfl marker ⟨nofun, nofun⟩ fun _ => rfl
  | ckrl => obtain ⟨rfl, rfl⟩ := row; exact caughtAtClock_seen reliable taking rfl marker ⟨nofun, nofun⟩ fun _ => rfl
  | _ => exact row.elim

/-! ### RESET and backup entry (R155, R180, R181) -/

theorem State.resetUnits_unit (s : State) (i : Indication) (p : Port) :
    UnitReset (s.units.get p) ((s.resetUnits i).units.get p) := by
  rw [State.resetUnits_units, PerPort.get_map]
  exact CmdUnit.reset_spec _

theorem exec_resetAssertion {s : State} (released : s.resetAsserted = false) (reliable : s.reliable = true) :
    exec .resetAssertion s = .next ({ s with resetAsserted := true }.resetUnits .reset).abandonLinks := by
  have act : State.reliable { s with resetAsserted := true } = true := reliable
  simp only [exec, execResetAssertion, State.assertReset, released, Bool.false_eq_true, if_false, act, if_true]

theorem exec_backupEntry {s : State} (main : s.power = .main) {vbat : Nat} (hold : 1800 ≤ vbat) :
    exec (.backupEntry vbat) s = .next s.announceBackup := by
  have held : ¬ vbat < Config.holdLevel := Nat.not_lt.mpr hold
  simp only [exec, execBackupEntry, State.enterBackup, main, if_true, if_neg held]

theorem exec_resetRelease {s : State} (asserted : s.resetAsserted = true) (high : Bool) : exec (.resetRelease high) s =
    .next { s with resetAsserted := false, linkB := { s.linkB with addrHigh := high } } := by
  simp only [exec, execResetRelease, State.releaseReset, asserted, if_true, State.sampleAddr]

/-- Settles O52: the resets by `CmdUnit.reset_spec`, the caught commands by the rows of the two blocks. -/
theorem resetAndBackupEntryResetTheUnits : Obligations.ResetAndBackupEntryResetTheUnits := by
  refine ⟨fun s => ⟨fun released reliable => ?_, fun main vbat hold => ?_, exec_resetRelease⟩,
    fun i p c h s reliable inHand request row marker => carriesOut_caught reliable inHand request row marker,
    fun i p c rest s reliable taking row marker => takesOut_caught reliable taking row marker⟩
  · exact ⟨_, exec_resetAssertion released reliable, rfl, rfl, rfl, rfl, rfl, rfl, s.resetUnits_unit .reset,
      State.abandonLinks_spec s _ rfl rfl, rfl, rfl⟩
  · exact ⟨_, exec_backupEntry main hold, rfl, rfl, rfl, rfl, rfl, rfl, s.resetUnits_unit .backupEntry,
      State.abandonLinks_spec s _ rfl rfl, rfl, rfl⟩

end Sys2Proof.Machine
end

section
/-! The works at the table: the return work restarts deadlines, the RESET and backup-entry works empty the stacks and
raise the taken calls again (R33, R34, R124 to R126, R138, R158). -/

namespace Sys2Proof.Machine

/-! ### The work of an indication (R32) -/

/-- A work is known by what it does in the present state. -/
theorem State.perform_congr {s : State} {i : Indication} {f g : State → State} (same : f s = g s) :
    s.perform i f = s.perform i g := by
  simp only [State.perform, same]

/-- A work that changes the table, but for its arbiter, and the scheduler's bar alone completes. -/
theorem WorkDue.completes {s : State} {i : Indication} {rest : List Indication} (due : WorkDue s i rest)
    {f : State → State} {t : Table} {barred : Bool}
    (does : f s = (s.setTable t).setSched { s.sched with barred := barred })
    (kept : t.arbiter = s.table.arbiter) (free : t.inHand = s.table.inHand) :
    Completion { s with table := { s.table with work := rest }, sched := { s.sched with barred := barred } }
      (whileReliable (fun s => s.perform i f) s) t s.alerts s.sched.request s.phases := by
  have completes := due.completion t kept (free.trans due.inHand) barred
  have same : s.perform i f = s.perform i fun s => (s.setTable t).setSched { s.sched with barred := barred } :=
    State.perform_congr does
  simp only [whileReliable, due.reliable, if_true] at completes ⊢
  rw [same]
  exact completes

/-! ### Deadlines of raised calls (R138) -/

theorem Order.withDeadline_raised {o : Order} {c : Call} (call : o.call = some c) (raised : c.state = .raised)
    (d : Option Elapsed → Option Elapsed) :
    o.withDeadline d = { o with call := some { c with deadline := d c.deadline } } := by
  simp only [Order.withDeadline, call, raised, if_true]

theorem Order.withDeadline_other {o : Order} (other : ∀ c, o.call = some c → c.state ≠ .raised)
    (d : Option Elapsed → Option Elapsed) : o.withDeadline d = o := by
  unfold Order.withDeadline
  split
  · next c call => exact if_neg (other c call)
  · rfl

/-! ### The return with retention held (R34, R138, R158) -/

theorem Table.returnWork_slot (t : Table) (e : Elapsed) (i : Fin 64) : (t.returnWork e).slot i =
    { t.slot i with order := (t.order i).map fun o =>
        if o.window = 0 then o else o.withDeadline fun _ => startDeadline e o.window } :=
  t.slot_mapOrders _ i

theorem Table.returnWork_order (t : Table) (e : Elapsed) (i : Fin 64) : (t.returnWork e).order i =
    (t.order i).map fun o => if o.window = 0 then o else o.withDeadline fun _ => startDeadline e o.window :=
  congrArg Slot.order (t.returnWork_slot e i)

theorem exec_returnRetentionHeld {s : State} (backup : s.power = .backup) (held : s.retention = .held) (high : Bool) :
    exec (.returnRetentionHeld high) s = .next { s with
      power := .main
      units := s.units.map fun _ u =>
        { u with phase := .idle, refused := false, frameFault := false, restarted := true }
      table := { s.table with work := s.table.work ++ [.returnHeld] }
      linkB := { s.linkB with addrHigh := high } } := by
  simp only [exec, execReturnRetentionHeld, State.returnHeld, backup, held, and_self, if_true]
  rfl

/-- Settles O54. -/
theorem returnWithRetentionHeldRestartsDeadlines : Obligations.ReturnWithRetentionHeldRestartsDeadlines := by
  refine ⟨fun high s backup held => exec_returnRetentionHeld backup held high, fun rest s due => ?_⟩
  intro s0
  refine ⟨_, s.table.returnWork s.clock.elapsed, rfl,
    due.completes (t := s.table.returnWork s.clock.elapsed) rfl rfl rfl, rfl, rfl, rfl, rfl,
    fun i => ?_, fun i free => ?_, fun i o order => ⟨fun c call raised window => ?_, fun other => ?_⟩⟩
  · rw [Table.returnWork_slot]
  · rw [Table.returnWork_order, free, Option.map_none]
  · rw [Table.returnWork_order, order, Option.map_some, if_neg window, Order.withDeadline_raised call raised]
    rfl
  · rw [Table.returnWork_order, order, Option.map_some]
    refine congrArg some ?_
    obtain taken | window := other
    · rw [Order.withDeadline_other fun c call => by rw [taken c call]; nofun, ite_self]
    · exact if_pos window

/-! ### Entries and the calls they name (R107) -/

/-- An entry that is not marked retired names a source. -/
def Entry.Names (e : Entry) (x : Source) : Prop := e.retired = false ∧ e.source = x

/-- The entries of both stacks, in the order in which the stacks are emptied (R124). -/
def Table.entries (t : Table) : List Entry := t.contexts.a.stack ++ t.contexts.b.stack

theorem Table.mem_entries {t : Table} {e : Entry} : e ∈ t.entries ↔ ∃ p, e ∈ (t.contexts.get p).stack := by
  rw [Table.entries, List.mem_append]
  constructor
  · rintro (a | b)
    · exact ⟨.A, a⟩
    · exact ⟨.B, b⟩
  · rintro ⟨_ | _, mem⟩
    · exact .inl mem
    · exact .inr mem

theorem Table.TakenLaw.names_taken {t : Table} (h : t.TakenLaw) {e : Entry} (mem : e ∈ t.entries) {i : Fin 64}
    (named : e.Names (.order i (t.slot i).generation)) :
    ∃ o c, t.order i = some o ∧ o.call = some c ∧ c.state = .taken ∧ c.level = e.level := by
  obtain ⟨p, mem⟩ := Table.mem_entries.mp mem
  have backs := h.backed p e mem named.1
  simp only [Table.Backs, named.2] at backs
  obtain ⟨_, o, c, order, call, taken, level, _⟩ := backs
  exact ⟨o, c, order, call, taken, level⟩

theorem Table.TakenLaw.exists_names {t : Table} (h : t.TakenLaw) {i : Fin 64} {o : Order} {c : Call}
    (order : t.order i = some o) (call : o.call = some c) (taken : c.state = .taken) :
    ∃ e ∈ t.entries, e.Names (.order i (t.slot i).generation) ∧ e.level = c.level := by
  obtain ⟨e, mem, source⟩ := List.mem_map.mp (h.orders i o c order call taken)
  obtain ⟨mem, live⟩ := List.mem_filter.mp mem
  have named : e.Names (.order i (t.slot i).generation) := ⟨by simpa using live, source⟩
  have mem : e ∈ t.entries := Table.mem_entries.mpr ⟨_, mem⟩
  obtain ⟨o', c', order', call', _, level⟩ := h.names_taken mem named
  cases order.symm.trans order'
  cases call.symm.trans call'
  exact ⟨e, mem, named, level.symm⟩

/-- An entry that names a group is never marked retired (R106). -/
theorem Table.TakenLaw.group_names {t : Table} (h : t.TakenLaw) {e : Entry} (mem : e ∈ t.entries) {g : Fin 8}
    (source : e.source = .group g) : e.Names (.group g) := by
  obtain ⟨p, mem⟩ := Table.mem_entries.mp mem
  refine ⟨Bool.eq_false_iff.mpr fun retired => ?_, source⟩
  obtain ⟨i, generation, order⟩ := h.unretired p e mem retired
  cases source.symm.trans order

theorem Table.TakenLaw.group_taken {t : Table} (h : t.TakenLaw) {e : Entry} (mem : e ∈ t.entries) {g : Fin 8}
    (source : e.source = .group g) : (t.group g).call = some .taken := by
  have named := h.group_names mem source
  obtain ⟨p, mem⟩ := Table.mem_entries.mp mem
  have backs := h.backed p e mem named.1
  simp only [Table.Backs, source] at backs
  exact backs.1

theorem Table.TakenLaw.exists_group {t : Table} (h : t.TakenLaw) {g : Fin 8} (taken : (t.group g).call = some .taken) :
    ∃ e ∈ t.entries, e.source = .group g := by
  obtain ⟨c, _, mem⟩ := h.groups g taken
  obtain ⟨e, mem, source⟩ := List.mem_map.mp mem
  exact ⟨e, Table.mem_entries.mpr ⟨_, List.mem_of_mem_filter mem⟩, source⟩

/-- No two entries name one source: around an entry that names it stand none that do. -/
theorem Table.TakenLaw.names_once {t : Table} (h : t.TakenLaw) {l k : List Entry} {e : Entry}
    (split : t.entries = l ++ e :: k) {x : Source} (named : e.Names x) : ∀ f ∈ l ++ k, ¬ f.Names x := by
  have distinct : ((t.entries.filter fun e => !e.retired).map Entry.source).Nodup := by
    rw [Table.entries, List.filter_append, List.map_append]
    exact h.distinct
  have perm : t.entries.Perm (e :: (l ++ k)) := split ▸ List.perm_middle
  rw [((perm.filter _).map _).nodup_iff, List.filter_cons_of_pos (by simp [named.1]), List.map_cons, List.nodup_cons,
    named.2] at distinct
  intro f mem other
  exact distinct.1 (List.mem_map.mpr ⟨f, List.mem_filter.mpr ⟨mem, by simp [other.1]⟩, other.2⟩)

/-! ### One entry dealt with (R124 to R126) -/

theorem Table.entryOrder_eq_some {t : Table} {e : Entry} {i : Fin 64} {o : Order} :
    t.entryOrder e = some (i, o) ↔ e.Names (.order i (t.slot i).generation) ∧ t.order i = some o := by
  unfold Table.entryOrder Entry.Names
  cases e.retired with
  | true => simp
  | false =>
    cases e.source with
    | group g => simp
    | order j generation =>
      simp only [Bool.false_eq_true, if_false, true_and, Source.order.injEq]
      constructor
      · intro named
        split at named
        · next same =>
          obtain ⟨x, order, pair⟩ := Option.map_eq_some_iff.mp named
          cases pair
          exact ⟨⟨rfl, same.symm⟩, order⟩
        · cases named
      · rintro ⟨⟨rfl, rfl⟩, order⟩
        rw [if_pos rfl, order, Option.map_some]

section
variable {t : Table} {e : Entry} (start : Byte → Option Elapsed)

theorem Table.returnCall_slot_named {i : Fin 64} {o : Order} (named : e.Names (.order i (t.slot i).generation))
    (order : t.order i = some o) :
    (Table.returnCall start t e).slot i = { t.slot i with order := some (o.reRaise e.level start) } := by
  simp only [Table.returnCall, named.2, Table.entryOrder_eq_some.mpr ⟨named, order⟩, Table.slot_setOrder, if_true]

theorem Table.returnCall_slot_other {i : Fin 64} (other : ¬ e.Names (.order i (t.slot i).generation)) :
    (Table.returnCall start t e).slot i = t.slot i := by
  unfold Table.returnCall
  split
  · split
    · next j o named =>
      rw [Table.slot_setOrder, if_neg]
      rintro rfl
      exact other (Table.entryOrder_eq_some.mp named).1
    · rfl
  · rfl

theorem Table.returnCall_generation (i : Fin 64) :
    ((Table.returnCall start t e).slot i).generation = (t.slot i).generation := by
  unfold Table.returnCall
  split
  · split
    · rw [Table.slot_setOrder]
      split
      · next own => rw [own]
      · rfl
    · rfl
  · rfl

theorem Table.returnCall_group_named {g : Fin 8} (source : e.source = .group g) :
    (Table.returnCall start t e).group g = (t.group g).endTaken := by
  simp only [Table.returnCall, source, Table.group_setGroup, if_true]

theorem Table.returnCall_group_other {g : Fin 8} (other : e.source ≠ .group g) :
    (Table.returnCall start t e).group g = t.group g := by
  unfold Table.returnCall
  split
  · split <;> rfl
  · next h source =>
    rw [Table.group_setGroup, if_neg]
    rintro rfl
    exact other source

theorem Table.returnCall_rest : (Table.returnCall start t e).quotas = t.quotas
    ∧ (Table.returnCall start t e).arbiter = t.arbiter ∧ (Table.returnCall start t e).inBackup = t.inBackup
    ∧ (Table.returnCall start t e).inHand = t.inHand := by
  unfold Table.returnCall
  split
  · split <;> exact ⟨rfl, rfl, rfl, rfl⟩
  · exact ⟨rfl, rfl, rfl, rfl⟩

end

/-! ### Both stacks emptied (R33, R124) -/

/-- What a fold shows of its state when no element touches it. -/
theorem foldl_view_other {α β γ : Type} {f : α → β → α} {v : α → γ} {l : List β} {a : α}
    (other : ∀ u, v u = v a → ∀ b ∈ l, v (f u b) = v u) : v (l.foldl f a) = v a :=
  List.foldlRecOn (motive := fun u => v u = v a) l f rfl fun u same b mem => (other u same b mem).trans same

/-- What a fold shows of its state when one element alone touches it. -/
theorem foldl_view_once {α β γ : Type} {f : α → β → α} {v : α → γ} {l k : List β} {b : β} {a : α} {y : γ}
    (before : ∀ u, v u = v a → ∀ c ∈ l, v (f u c) = v u) (hit : ∀ u, v u = v a → v (f u b) = y)
    (after : ∀ u, v u = y → ∀ c ∈ k, v (f u c) = v u) : v ((l ++ b :: k).foldl f a) = y := by
  rw [List.foldl_append, List.foldl_cons]
  have reached := hit _ (foldl_view_other before)
  exact (foldl_view_other fun u same => after u (same.trans reached)).trans reached

/-- Both stacks emptied are their entries dealt with in turn. -/
theorem Table.emptyStacks_eq (t : Table) (start : Byte → Option Elapsed) : t.emptyStacks start =
    { t.entries.foldl (Table.returnCall start) t with contexts := ⟨Context.powerOn, Context.powerOn⟩ } := by
  rw [Table.entries, List.foldl_append]
  rfl

theorem Table.emptyStacks_slot (t : Table) (start : Byte → Option Elapsed) (i : Fin 64) :
    (t.emptyStacks start).slot i = (t.entries.foldl (Table.returnCall start) t).slot i :=
  (congrArg (fun u : Table => u.slot i) (t.emptyStacks_eq start) :)

theorem Table.emptyStacks_group (t : Table) (start : Byte → Option Elapsed) (g : Fin 8) :
    (t.emptyStacks start).group g = (t.entries.foldl (Table.returnCall start) t).group g :=
  (congrArg (fun u : Table => u.group g) (t.emptyStacks_eq start) :)

section
variable {t : Table} (h : t.TakenLaw) (start : Byte → Option Elapsed)
include h

/-- A slot that holds no taken call is left as it was. -/
theorem Table.TakenLaw.emptyStacks_slot_other {i : Fin 64}
    (other : ∀ o c, t.order i = some o → o.call = some c → c.state ≠ .taken) :
    (t.emptyStacks start).slot i = t.slot i := by
  rw [Table.emptyStacks_slot]
  refine foldl_view_other (v := fun u : Table => u.slot i) fun u same e mem =>
    Table.returnCall_slot_other start fun named => ?_
  rw [show u.slot i = t.slot i from same] at named
  obtain ⟨o, c, order, call, taken, _⟩ := h.names_taken mem named
  exact other o c order call taken

/-- A taken order call is raised again once, at its taken level (R125). -/
theorem Table.TakenLaw.emptyStacks_slot_taken {i : Fin 64} {o : Order} {c : Call} (order : t.order i = some o)
    (call : o.call = some c) (taken : c.state = .taken) :
    (t.emptyStacks start).slot i = { t.slot i with order := some (o.reRaise c.level start) } := by
  obtain ⟨e, mem, named, level⟩ := h.exists_names order call taken
  obtain ⟨l, k, split⟩ := List.append_of_mem mem
  have once := h.names_once split named
  rw [Table.emptyStacks_slot, split, ← level]
  refine foldl_view_once (v := fun u : Table => u.slot i) (fun u same f mem => ?_) (fun u same => ?_)
    fun u same f mem => ?_
  · refine Table.returnCall_slot_other start ?_
    rw [show u.slot i = t.slot i from same]
    exact once f (List.mem_append_left _ mem)
  · have same : u.slot i = t.slot i := same
    rw [← same] at named ⊢
    exact Table.returnCall_slot_named start named ((congrArg Slot.order same).trans order)
  · refine Table.returnCall_slot_other start ?_
    rw [same]
    exact once f (List.mem_append_right _ mem)

/-- A taken group call ends, and is judged at once (R126). -/
theorem Table.TakenLaw.emptyStacks_group_taken {g : Fin 8} (taken : (t.group g).call = some .taken) :
    (t.emptyStacks start).group g = (t.group g).endTaken := by
  obtain ⟨e, mem, source⟩ := h.exists_group taken
  have named := h.group_names mem source
  obtain ⟨l, k, split⟩ := List.append_of_mem mem
  have once : ∀ f ∈ l ++ k, f.source ≠ .group g := fun f mem same =>
    h.names_once split named f mem (h.group_names (split ▸ by
      rcases List.mem_append.mp mem with mem | mem
      · exact List.mem_append_left _ mem
      · exact List.mem_append_right _ (List.mem_cons_of_mem _ mem)) same)
  rw [Table.emptyStacks_group, split]
  refine foldl_view_once (v := fun u : Table => u.group g) (fun u _ f mem => ?_) (fun u same => ?_) fun u _ f mem => ?_
  · exact Table.returnCall_group_other start (once f (List.mem_append_left _ mem))
  · exact (Table.returnCall_group_named start source).trans (congrArg Group.endTaken same)
  · exact Table.returnCall_group_other start (once f (List.mem_append_right _ mem))

theorem Table.TakenLaw.emptyStacks_group_other {g : Fin 8} (other : (t.group g).call ≠ some .taken) :
    (t.emptyStacks start).group g = t.group g := by
  rw [Table.emptyStacks_group]
  exact foldl_view_other (v := fun u : Table => u.group g) fun u _ e mem =>
    Table.returnCall_group_other start fun source => other (h.group_taken mem source)

end

theorem Table.emptyStacks_generation (t : Table) (start : Byte → Option Elapsed) (i : Fin 64) :
    ((t.emptyStacks start).slot i).generation = (t.slot i).generation := by
  rw [Table.emptyStacks_slot]
  exact foldl_view_other (v := fun u : Table => (u.slot i).generation) fun u _ e _ =>
    Table.returnCall_generation start i

theorem Table.emptyStacks_rest (t : Table) (start : Byte → Option Elapsed) : (t.emptyStacks start).quotas = t.quotas
    ∧ (t.emptyStacks start).arbiter = t.arbiter ∧ (t.emptyStacks start).inBackup = t.inBackup
    ∧ (t.emptyStacks start).inHand = t.inHand := by
  rw [Table.emptyStacks_eq]
  exact List.foldlRecOn (motive := fun u : Table => u.quotas = t.quotas ∧ u.arbiter = t.arbiter
    ∧ u.inBackup = t.inBackup ∧ u.inHand = t.inHand) t.entries _ ⟨rfl, rfl, rfl, rfl⟩ fun u same e _ => by
      obtain ⟨quotas, arbiter, inBackup, inHand⟩ := same
      obtain ⟨quotas', arbiter', inBackup', inHand'⟩ := Table.returnCall_rest (t := u) (e := e) start
      exact ⟨quotas'.trans quotas, arbiter'.trans arbiter, inBackup'.trans inBackup, inHand'.trans inHand⟩

theorem Order.reRaise_eq (o : Order) (level : Nat) (start : Byte → Option Elapsed) : o.reRaise level start = { o with
    call := if o.level = 7 then none else some ⟨.raised, max o.floor (min level o.level), start o.window⟩ } := by
  unfold Order.reRaise
  split <;> rfl

/-- What the works leave of the table with the stacks emptied: a raised call as `kept` has it, a taken order call raised
again with a deadline by `start`, a taken group call by its sets. -/
structure Table.EmptiedTo (t t' : Table) (start : Byte → Option Elapsed) (kept : Call → Call) : Prop where
  quotas : t'.quotas = t.quotas
  contexts : ∀ p, t'.contexts.get p = ⟨7, false, []⟩
  generation : ∀ i, (t'.slot i).generation = (t.slot i).generation
  free : ∀ i, t.order i = none → t'.order i = none
  silent : ∀ i o, t.order i = some o → o.call = none → t'.order i = some o
  raised : ∀ i o c, t.order i = some o → o.call = some c → c.state = .raised →
    t'.order i = some { o with call := some (kept c) }
  taken : ∀ i o c, t.order i = some o → o.call = some c → c.state = .taken → t'.order i = some { o with
    call := if o.level = 7 then none else some ⟨.raised, max o.floor (min c.level o.level), start o.window⟩ }
  group : ∀ g, t'.group g = { t.group g with
    call := if (t.group g).call = some .taken then
        (if (t.group g).factor &&& (t.group g).enable ≠ 0 then some .raised else none)
      else (t.group g).call }

theorem Table.TakenLaw.emptyStacks_to {t : Table} (h : t.TakenLaw) (start : Byte → Option Elapsed) :
    t.EmptiedTo (t.emptyStacks start) start id where
  quotas := (t.emptyStacks_rest start).1
  contexts p := by cases p <;> rfl
  generation := t.emptyStacks_generation start
  free i free := (congrArg Slot.order (h.emptyStacks_slot_other start fun o _ order => by
    rw [free] at order; cases order)).trans free
  silent i o order silent := (congrArg Slot.order (h.emptyStacks_slot_other start fun o' c order' call => by
    cases order.symm.trans order'
    rw [silent] at call; cases call)).trans order
  raised i o c order call raised := by
    have same := congrArg Slot.order (h.emptyStacks_slot_other start (i := i) fun o' c' order' call' => by
      cases order.symm.trans order'
      cases call.symm.trans call'
      rw [raised]; nofun)
    rw [id_eq, ← call]
    exact same.trans order
  taken i o c order call taken := by
    rw [← Order.reRaise_eq]
    exact congrArg Slot.order (h.emptyStacks_slot_taken start order call taken)
  group g := by
    split
    · next taken => rw [h.emptyStacks_group_taken start taken, Group.endTaken_eq]
    · next other => exact h.emptyStacks_group_other start other

theorem Table.backupWork_order (t : Table) (i : Fin 64) : t.backupWork.order i =
    ((t.emptyStacks fun _ => none).order i).map fun o => o.withDeadline fun _ => none :=
  (t.emptyStacks fun _ => none).order_mapOrders _ i

/-- The backup-entry work also takes the deadline from every raised order call (R34, R138). -/
theorem Table.TakenLaw.backupWork_to {t : Table} (h : t.TakenLaw) :
    t.EmptiedTo t.backupWork (fun _ => none) fun c => { c with deadline := none } := by
  have emptied := h.emptyStacks_to fun _ => none
  refine ⟨emptied.quotas, emptied.contexts, fun i => ?_, fun i free => ?_, fun i o order silent => ?_,
    fun i o c order call raised => ?_, fun i o c order call taken => ?_, emptied.group⟩
  · have mapped := (t.emptyStacks fun _ => none).slot_mapOrders (fun o => o.withDeadline fun _ => none) i
    exact Eq.trans (congrArg Slot.generation mapped :) (emptied.generation i)
  · rw [Table.backupWork_order, emptied.free i free, Option.map_none]
  · rw [Table.backupWork_order, emptied.silent i o order silent, Option.map_some,
      Order.withDeadline_other fun c call => by rw [silent] at call; cases call]
  · rw [Table.backupWork_order, emptied.raised i o c order call raised, Option.map_some,
      Order.withDeadline_raised (c := c) rfl raised]
  · rw [Table.backupWork_order, emptied.taken i o c order call taken, Option.map_some]
    refine congrArg some ?_
    split
    · exact Order.withDeadline_other (fun _ call => by cases call) _
    · exact Order.withDeadline_raised (c := ⟨.raised, _, _⟩) rfl rfl _

/-- Settles O55: one entry names each taken call, so the works deal with it once. -/
theorem resetAndBackupWorkEmptyTheStacks : Obligations.ResetAndBackupWorkEmptyTheStacks := by
  intro rest s law emptied
  have states : ∀ {t start kept}, s.table.EmptiedTo t start kept → emptied t start kept := fun h =>
    ⟨h.quotas, h.contexts, h.generation, h.free,
      fun i o order => ⟨h.silent i o order, fun c => h.raised i o c order, fun c => h.taken i o c order⟩, h.group⟩
  refine ⟨fun due => ?_, fun due => ?_⟩
  · obtain ⟨_, arbiter, inBackup, inHand⟩ := s.table.emptyStacks_rest (startDeadline s.clock.elapsed)
    exact ⟨_, s.table.resetWork s.clock.elapsed, rfl, due.completes (barred := s.sched.barred) rfl arbiter inHand,
      inBackup, states (law.emptyStacks_to _)⟩
  · obtain ⟨_, arbiter, _, inHand⟩ := s.table.emptyStacks_rest fun _ => none
    exact ⟨_, s.table.backupWork, rfl, due.completes (barred := s.sched.barred) rfl arbiter inHand, rfl,
      states law.backupWork_to⟩

end Sys2Proof.Machine
end

section
/-! AMND at the table: its checks in their order, the fields it writes, the call it restarts and the membership it moves
(R35, R40 to R46). -/

namespace Sys2Proof.Machine

/-! ### AMND's checks in their order (R35, R40) -/

section
variable {p : Port} {h : InHand} {args : List Byte} {t : Table} {slot generation hi lo : Byte} {rest : List Byte}
  {i : Fin 64} {o : Order}

theorem serveAmnd_layout (short : args.length < 4) : serveAmnd p h args t = t.answer .badArgument := by
  unfold serveAmnd
  split
  · simp only [List.length_cons] at short
    omega
  · rfl

theorem serveAmnd_reserved (high : 8 ≤ hi.toNat) :
    serveAmnd p h (slot :: generation :: hi :: lo :: rest) t = t.answer .badArgument := if_pos high

theorem serveAmnd_unknown (low : hi.toNat < 8) (unknown : t.resolve slot generation = none) :
    serveAmnd p h (slot :: generation :: hi :: lo :: rest) t = t.answer .noSuchOrder := by
  simp only [serveAmnd, if_neg (Nat.not_le.mpr low), unknown]

theorem serveAmnd_denied (low : hi.toNat < 8) (named : t.resolve slot generation = some (i, o))
    (no : p = .B ∧ o.owner = .A) :
    serveAmnd p h (slot :: generation :: hi :: lo :: rest) t = t.answer .notPermitted := by
  simp only [serveAmnd, if_neg (Nat.not_le.mpr low), named, denied_iff.mpr no, if_true]

theorem serveAmnd_permitted (low : hi.toNat < 8) (named : t.resolve slot generation = some (i, o))
    (yes : ¬ (p = .B ∧ o.owner = .A)) :
    serveAmnd p h (slot :: generation :: hi :: lo :: rest) t = amendOrder h i o (hi ++ lo : BitVec 16) rest t := by
  simp only [serveAmnd, if_neg (Nat.not_le.mpr low), named, mt denied_iff.mp yes, Bool.false_eq_true, if_false]

end

/-- An AMND of an order with a call is barred where it would move the call to another port, or would give the order a
membership (R41). -/
theorem amndCallBars_iff {o : Order} {a : Amend} : amndCallBars o a = true ↔ o.call ≠ none
    ∧ (a.answering.getD o.answering ≠ o.answering ∨ o.member = none ∧ a.member.getD none ≠ none) := by
  simp only [amndCallBars, Bool.and_eq_true, Bool.or_eq_true, bne_iff_ne, Option.isSome_iff_ne_none,
    Option.isNone_iff_eq_none]

section
variable {h : InHand} {t : Table} {i : Fin 64} {o : Order} {sel : BitVec 16} {rest : List Byte} {a : Amend}

theorem amendOrder_undecoded {c : ReplyCode} (e : amndDecode o sel rest = .error c) :
    amendOrder h i o sel rest t = t.answer c := by
  simp only [amendOrder, e]

theorem amendOrder_unjoined {c : ReplyCode} (e : amndDecode o sel rest = .ok a)
    (refusal : t.joinRefusal (some i) (a.member.getD none) = some c) : amendOrder h i o sel rest t = t.answer c := by
  simp only [amendOrder, e, refusal]

theorem amendOrder_barred (e : amndDecode o sel rest = .ok a) (joins : t.Open (some i) (a.member.getD none))
    (bars : amndCallBars o a = true) : amendOrder h i o sel rest t = t.answer .callOutstanding := by
  simp only [amendOrder, e, Table.joinRefusal_of_open joins, if_pos bars]

theorem amendOrder_amends (e : amndDecode o sel rest = .ok a) (joins : t.Open (some i) (a.member.getD none))
    (free : ¬ amndCallBars o a = true) :
    amendOrder h i o sel rest t = (t.amend i o h.elapsed a, .done (t.handle i ++ [(a.standing o).byte])) := by
  simp only [amendOrder, e, Table.joinRefusal_of_open joins, if_neg free]

end

/-- Settles O24: the select set, the handle, the rights, the field checks, the membership and the call, in turn. -/
theorem amndRefusesByItsFirstFailure : Obligations.AmndRefusesByItsFirstFailure := by
  intro p args h s hs
  have refused : ∀ {c}, serveAmnd p h args s.table = s.table.answer c → Answers (.amnd p) s p ⟨c, []⟩ s.table :=
    hs.refused rfl rfl
  refine ⟨fun short => refused (serveAmnd_layout short), ?_⟩
  rintro slot generation hi lo rest rfl
  refine ⟨fun high => refused (serveAmnd_reserved high), fun low unknown => refused (serveAmnd_unknown low unknown),
    fun i o low named => ⟨fun no => refused (serveAmnd_denied low named no), fun yes => ?_⟩⟩
  have amends : ∀ {c}, amendOrder h i o (hi ++ lo : BitVec 16) rest s.table = s.table.answer c →
      Answers (.amnd p) s p ⟨c, []⟩ s.table := fun e => refused ((serveAmnd_permitted low named yes).trans e)
  exact ⟨fun c bad => amends (amendOrder_undecoded bad), fun a decoded =>
    ⟨fun m member unconfigured => amends (amendOrder_unjoined decoded
      (member ▸ Table.joinRefusal_noSuchGroup unconfigured)),
    fun m member configured filled other => amends (amendOrder_unjoined decoded
      (member ▸ Table.joinRefusal_positionTaken configured filled other)),
    fun joins call bars => amends (amendOrder_barred decoded joins (amndCallBars_iff.mpr ⟨call, bars⟩))⟩⟩

/-! ### The record an AMND leaves (R42, R43, R46) -/

theorem Amend.standing_of_none {a : Amend} (o : Order) (due : a.due = none) : a.standing o = o.standing := by
  simp only [Amend.standing, due]

theorem Amend.standing_of_some {a : Amend} (o : Order) {d : DateTime} (due : a.due = some d) :
    a.standing o = match o.standing with
      | .held _ => .held d
      | .waiting _ => .waiting d
      | .spent => .waiting d := by
  cases standing : o.standing <;> simp only [Amend.standing, due, standing]

/-- The record an AMND writes, its membership included (R42 to R45). -/
def Amend.written (a : Amend) (e : Elapsed) (o : Order) : Order :=
  { a.order e o with member := a.member.getD o.member }

theorem Amend.written_applied (a : Amend) (e : Elapsed) (o : Order) : a.Applied o (a.written e o) where
  owner := rfl
  missed := rfl
  tally := rfl
  rule := rfl
  remaining := rfl
  anchoring := rfl
  policy := rfl
  level := rfl
  floor := rfl
  window := rfl
  answering := rfl
  member := rfl
  label := rfl
  kept due := ⟨a.standing_of_none o due,
    by simp only [Amend.written, Amend.order, due, Option.isSome_none, Bool.false_eq_true, if_false]⟩
  moved d due := ⟨by simp only [Amend.written, Amend.order, due, Option.isSome_some, if_true], a.standing_of_some o due⟩

/-! ### The call an AMND leaves (R44) -/

section
variable {a : Amend} {e : Elapsed} {o : Order}

theorem Amend.call_unselected (level : a.level = none) (floor : a.floor = none) : a.call e o = o.call := by
  simp only [Amend.call, level, floor, Option.isSome_none, Bool.or_self, Bool.false_eq_true, if_false]

theorem Amend.call_selected (sel : a.level ≠ none ∨ a.floor ≠ none) :
    a.call e o = o.call.bind (restartCall e (a.level.getD o.level) (a.window.getD o.window)) := by
  refine if_pos ?_
  simpa only [Bool.or_eq_true, Option.isSome_iff_ne_none] using sel

theorem Amend.call_of_none (call : o.call = none) : a.call e o = none := by
  simp only [Amend.call, call, Option.bind_none, ite_self]

/-- A RAISED call begins again at the order's new level, or is withdrawn at level 7. -/
theorem Amend.call_of_raised (sel : a.level ≠ none ∨ a.floor ≠ none) {c : Call} (call : o.call = some c)
    (raised : c.state = .raised) : a.call e o = if a.level.getD o.level = 7 then none
      else some ⟨.raised, a.level.getD o.level, deadlineAfter e (a.window.getD o.window)⟩ := by
  rw [Amend.call_selected sel, call, Option.bind_some, restartCall, raised]
  rfl

/-- A TAKEN call stands, whatever is selected. -/
theorem Amend.call_of_taken {c : Call} (call : o.call = some c) (taken : c.state = .taken) : a.call e o = some c := by
  have stands : ∀ level window, restartCall e level window c = some c := fun _ _ => by simp only [restartCall, taken]
  simp only [Amend.call, call, Option.bind_some, stands, ite_self]

end

/-! ### AMND carried out (R45, R46) -/

/-- A change of membership touches the groups alone. -/
theorem Table.moveMember_rest (t : Table) (i : Fin 64) (old new : Option Member) :
    (t.moveMember i old new).slots = t.slots ∧ (t.moveMember i old new).quotas = t.quotas
    ∧ (t.moveMember i old new).contexts = t.contexts ∧ (t.moveMember i old new).arbiter = t.arbiter
    ∧ (t.moveMember i old new).inBackup = t.inBackup := by
  unfold Table.moveMember
  split
  · exact ⟨rfl, rfl, rfl, rfl, rfl⟩
  · obtain ⟨slots, quotas, contexts, arbiter, inBackup⟩ := t.leaveIf_rest old
    obtain ⟨slots', quotas', contexts', arbiter', inBackup'⟩ := (t.leaveIf old).joinIf_rest i new
    exact ⟨slots'.trans slots, quotas'.trans quotas, contexts'.trans contexts, arbiter'.trans arbiter,
      inBackup'.trans inBackup⟩

/-- Each group of a moved member is left, then joined. -/
theorem Table.group_moveMember (t : Table) (i : Fin 64) {old new : Option Member} (moves : new ≠ old) (g : Fin 8) :
    ∃ x, Group.LeftBy old g (t.group g) x ∧ Group.JoinedBy i new g x ((t.moveMember i old new).group g) := by
  rw [Table.moveMember, if_neg moves.symm]
  exact ⟨_, t.group_leaveIf old g, (t.leaveIf old).group_joinIf i new g⟩

/-- An AMND writes its record and changes the membership. -/
theorem Table.amend_eq (t : Table) (i : Fin 64) (o : Order) (e : Elapsed) (a : Amend) :
    t.amend i o e a = (t.setOrder i (a.written e o)).moveMember i o.member (a.member.getD o.member) := rfl

/-- Outside the groups an AMND writes its record and nothing else. -/
theorem Table.amend_rest (t : Table) (i : Fin 64) (o : Order) (e : Elapsed) (a : Amend) :
    (t.amend i o e a).slots = (t.setOrder i (a.written e o)).slots ∧ (t.amend i o e a).quotas = t.quotas
    ∧ (t.amend i o e a).contexts = t.contexts ∧ (t.amend i o e a).arbiter = t.arbiter
    ∧ (t.amend i o e a).inBackup = t.inBackup :=
  (t.setOrder i (a.written e o)).moveMember_rest i o.member (a.member.getD o.member)

/-- An AMND that passes its checks completes with the handle and the standing it leaves. -/
theorem Carries.amends {p : Port} {slot generation hi lo : Byte} {rest : List Byte} {h : InHand} {s : State}
    {i : Fin 64} {o : Order} {a : Amend} (hs : Carries s p .amnd (slot :: generation :: hi :: lo :: rest) h)
    (low : hi.toNat < 8) (named : s.table.resolve slot generation = some (i, o)) (yes : ¬ (p = .B ∧ o.owner = .A))
    (decoded : amndDecode o (hi ++ lo : BitVec 16) rest = .ok a)
    (joins : s.table.Open (some i) (a.member.getD none)) (free : ¬ amndCallBars o a = true) :
    Answers (.amnd p) s p ⟨.done, [slot, generation, (a.standing o).byte]⟩ (s.table.amend i o h.elapsed a) := by
  have served := (serveAmnd_permitted (h := h) low named yes).trans (amendOrder_amends decoded joins free)
  rw [Table.handle_of_resolve named] at served
  obtain ⟨_, _, _, arbiter, _⟩ := s.table.amend_rest i o h.elapsed a
  exact hs.answers rfl rfl served arbiter

/-- Settles O22. -/
theorem amndChangesTheSelectedFields : Obligations.AmndChangesTheSelectedFields := by
  intro p slot generation hi lo rest h s i o a hs low named yes decoded joins same port
  have free : ¬ amndCallBars o a = true := fun bars => by
    obtain ⟨call, moved | ⟨alone, joining⟩⟩ := amndCallBars_iff.mp bars
    · exact moved (port call)
    · obtain ⟨m, new⟩ := Option.ne_none_iff_exists'.mp joining
      cases member : a.member with
      | none => rw [member] at new; cases new
      | some n => rw [member] at new same; exact joining (member ▸ same.trans alone)
  have amended := hs.amends low named yes decoded joins free
  rw [Table.amend_eq, same, Table.moveMember, if_pos rfl] at amended
  exact ⟨_, amended, a.written_applied h.elapsed o, Amend.call_unselected, fun sel c => Amend.call_of_raised sel,
    fun c => Amend.call_of_taken, Amend.call_of_none⟩

/-- Settles O23: the groups by `Table.group_moveMember`, the rest by `Table.amend_rest`. -/
theorem amndMovesTheMembership : Obligations.AmndMovesTheMembership := by
  intro p slot generation hi lo rest h s i o a hs low named yes decoded joins moves silent
  have free : ¬ amndCallBars o a = true := fun bars => (amndCallBars_iff.mp bars).1 silent
  have amended := hs.amends low named yes decoded joins free
  obtain ⟨slots, quotas, contexts, _, inBackup⟩ := s.table.amend_rest i o h.elapsed a
  have slot : ∀ j, (s.table.amend i o h.elapsed a).slot j = (s.table.setOrder i (a.written h.elapsed o)).slot j :=
    fun j => by simp only [Table.slot, slots]
  refine ⟨_, a.written h.elapsed o, amended, ?_, a.written_applied h.elapsed o, Amend.call_of_none silent, ?_,
    fun j other => ?_, contexts, quotas, inBackup, fun g => ?_⟩
  · rw [Table.order, slot, Table.slot_setOrder, if_pos rfl]
  · rw [slot, Table.slot_setOrder, if_pos rfl]
  · rw [slot, Table.slot_setOrder, if_neg other]
  · obtain ⟨x, left, joined⟩ := (s.table.setOrder i (a.written h.elapsed o)).group_moveMember i moves g
    rw [Table.group_setOrder] at left
    rw [Table.amend_eq]
    refine ⟨joined.config.trans left.config, joined.enable.trans left.enable, fun q => ?_, fun q => ?_, ?_⟩
    · rw [joined.positions q, left.positions q]
    · rw [joined.factor, left.factor q]
    · rw [joined.call, joined.factor, joined.enable, left.call]

end Sys2Proof.Machine
end

section
/-! HOLD and RSUM, LOOK and LIST at the table (R47, R48, R54 to R57, R184). -/

namespace Sys2Proof.Machine

/-! ### HOLD and RSUM (R47, R48) -/

section
variable {p : Port} {h : InHand} {t : Table} {slot generation : Byte} {i : Fin 64} {o : Order} {d : DateTime}
  (named : t.resolve slot generation = some (i, o)) (yes : ¬ (p = .B ∧ o.owner = .A))
include named yes

theorem serveHold_waiting (standing : o.standing = .waiting d) : serveHold p h [slot, generation] t =
    (t.setOrder i { o with standing := .held d }, .done (slot :: generation :: dueBytes d)) := by
  rw [serveHold, withHandle_permitted named yes, standing, Table.handle_of_resolve named]
  rfl

theorem serveHold_refused (standing : o.standing = .held d ∨ o.standing = .spent) :
    serveHold p h [slot, generation] t = t.answer .notWaiting := by
  rw [serveHold, withHandle_permitted named yes]
  rcases standing with standing | standing <;> rw [standing]

theorem serveRsum_held (standing : o.standing = .held d) : serveRsum p h [slot, generation] t =
    (t.setOrder i { o with standing := .waiting d }, .done (slot :: generation :: dueBytes d)) := by
  rw [serveRsum, withHandle_permitted named yes, standing, Table.handle_of_resolve named]
  rfl

theorem serveRsum_refused (standing : o.standing = .waiting d ∨ o.standing = .spent) :
    serveRsum p h [slot, generation] t = t.answer .notHeld := by
  rw [serveRsum, withHandle_permitted named yes]
  rcases standing with standing | standing <;> rw [standing]

end

/-- Settles O26. -/
theorem holdAndRsumMoveTheOrder : Obligations.HoldAndRsumMoveTheOrder := by
  intro p slot generation h s i o d named yes
  exact ⟨fun hs => ⟨fun waiting => hs.answers rfl rfl (serveHold_waiting named yes waiting) rfl,
      fun other => hs.refused rfl rfl (serveHold_refused named yes other)⟩,
    fun hs => ⟨fun held => hs.answers rfl rfl (serveRsum_held named yes held) rfl,
      fun other => hs.refused rfl rfl (serveRsum_refused named yes other)⟩⟩

/-! ### LOOK (R54, R55) -/

/-- LOOK completes with the reply it reads and leaves the table as it is. -/
theorem Carries.looks {p : Port} {args : List Byte} {h : InHand} {s : State} (hs : Carries s p .look args h) {r : Reply}
    (served : serveLook p h args s = (s, r)) : Answers (.look p) s p r s.table := by
  have still : whileReliable (serve .look p serveLook) s
      = whileReliable (serve .look p (tableService fun _ _ _ t => (t, r))) s := by
    simp only [whileReliable, hs.reliable, if_true, serve, Table.handOf_eq hs.inHand hs.request, served]
    rfl
  exact hs.answers (i := .look p) (f := fun _ _ _ t => (t, r)) rfl (congrArg Host.Outcome.next still) rfl rfl

section
variable {p : Port} {h : InHand} {args : List Byte} {s : State} {slot generation : Byte}

theorem serveLook_layout (bad : args.length ≠ 2) : serveLook p h args s = (s, .bare .badArgument) := by
  unfold serveLook
  split
  · exact absurd rfl bad
  · rfl

theorem serveLook_unknown (unknown : s.table.resolve slot generation = none) :
    serveLook p h [slot, generation] s = (s, .bare .noSuchOrder) := by
  simp only [serveLook, unknown]

theorem serveLook_found {i : Fin 64} {o : Order} (named : s.table.resolve slot generation = some (i, o)) :
    serveLook p h [slot, generation] s = (s, .done (s.table.lookBytes s.clock.elapsed i o)) := by
  simp only [serveLook, named]

end

theorem Standing.dueBytes_eq (x : Standing) : x.dueBytes = match x.due with
    | none => [0xFF, 0xFF, 0xFF, 0xFF, 0xFF, 0xFF, 0xFF]
    | some d => requestTime d ++ [byteOf (weekdayOf d)] := by
  cases x <;> rfl

theorem memberBytes_eq (m : Option Member) : memberBytes m = match m with
    | none => [0xFF, 0xFF]
    | some m => [byteOf m.group.val, byteOf m.position.val] := by
  cases m <;> rfl

theorem remainingBytes_eq (r : Option Nat) : remainingBytes r = [if r = none then 0 else 1, byteOf (r.getD 0)] := by
  cases r <;> rfl

/-- A deadline is reported with the seconds it has left, 0 once it has lapsed (R55). -/
theorem deadlineBytes_eq (e : Elapsed) (d : Option Elapsed) : deadlineBytes e d = match d with
    | none => [0, 0]
    | some d => [1, if (d - e).toNat ≤ 255 then byteOf (d - e).toNat else 0] := by
  cases d with
  | none => rfl
  | some d =>
    rw [deadlineBytes, secondsRemaining_eq, apply_ite byteOf]
    rfl

theorem Context.entryOf_eq (c : Context) (i : Fin 64) (generation : BitVec 4) : c.entryOf i generation =
    c.stack.find? fun e => e.source = .order i generation ∧ e.retired = false := by
  refine congrArg (List.find? · c.stack) (funext fun e => ?_)
  rw [Bool.decide_and, ← beq_eq_decide, Bool.decide_eq_false]

/-- Settles O30. -/
theorem lookReportsTheRecord : Obligations.LookReportsTheRecord := by
  intro p args h s hs
  refine ⟨fun bad => hs.looks (serveLook_layout bad), ?_⟩
  rintro slot generation rfl
  refine ⟨fun unknown => hs.looks (serveLook_unknown unknown), fun i o named => ?_⟩
  have reply := hs.looks (serveLook_found named)
  rw [Table.lookBytes, Table.handle_of_resolve named, Standing.dueBytes_eq, remainingBytes_eq, Table.callBytes,
    memberBytes_eq, Context.entryOf_eq] at reply
  simp only [deadlineBytes_eq, labelBytes, Config.maxLabel, bytes2, flagByte, List.append_assoc, List.cons_append,
    List.nil_append] at reply ⊢
  exact reply

/-! ### LIST (R56, R57, R184) -/

theorem serveList_refused {p : Port} {h : InHand} {args : List Byte} {t : Table} (bad : filtersOf args = none) :
    serveList p h args t = t.answer .badArgument := by
  simp only [serveList, bad]

theorem serveList_listed {p : Port} {h : InHand} {args : List Byte} {t : Table} {f : Filters}
    (good : filtersOf args = some f) :
    serveList p h args t = (t, .done (byteOf (t.listed f).length :: (t.listed f).flatMap t.handle)) := by
  simp only [serveList, good]

/-- The three bytes of a LIST are read each by its own encoding. -/
theorem filtersOf_eq_some {o st g : Byte} {f : Filters} : filtersOf [o, st, g] = some f ↔
    ownerFilterOf o = some f.owner ∧ stateFilterOf st = some f.state ∧ groupFilterOf g = some f.group := by
  constructor
  · intro read
    simp only [filtersOf] at read
    split at read
    · next owner state group => cases read; exact ⟨owner, state, group⟩
    · cases read
  · rintro ⟨owner, state, group⟩
    simp only [filtersOf, owner, state, group]

theorem ownerFilterOf_isSome {b : Byte} : (∃ f, ownerFilterOf b = some f) ↔ b.toNat ≤ 2 := by
  rw [← Option.ne_none_iff_exists', ne_eq, ownerFilterOf_eq_none, Nat.not_lt]

theorem stateFilterOf_isSome {b : Byte} : (∃ f, stateFilterOf b = some f) ↔ b.toNat ≤ 3 := by
  rw [← Option.ne_none_iff_exists', ne_eq, stateFilterOf_eq_none, Nat.not_lt]

theorem groupFilterOf_isSome {b : Byte} : (∃ f, groupFilterOf b = some f) ↔ b.toNat ≤ 7 ∨ b = 0xFE ∨ b = 0xFF := by
  rw [← Option.ne_none_iff_exists', ne_eq, groupFilterOf_eq_none, not_not]

/-- Arguments that are not three bytes, each within its encoding, give no filters (R56, R184). -/
theorem filtersOf_eq_none {args : List Byte} : filtersOf args = none ↔ ¬ ∃ o st g, args = [o, st, g] ∧ o.toNat ≤ 2
    ∧ st.toNat ≤ 3 ∧ (g.toNat ≤ 7 ∨ g = 0xFE ∨ g = 0xFF) := by
  rw [Option.eq_none_iff_forall_ne_some, ← not_exists]
  refine not_congr ⟨?_, ?_⟩
  · rintro ⟨f, read⟩
    match args, read with
    | [o, st, g], read =>
      obtain ⟨owner, state, group⟩ := filtersOf_eq_some.mp read
      exact ⟨o, st, g, rfl, ownerFilterOf_isSome.mp ⟨_, owner⟩, stateFilterOf_isSome.mp ⟨_, state⟩,
        groupFilterOf_isSome.mp ⟨_, group⟩⟩
  · rintro ⟨o, st, g, rfl, owner, state, group⟩
    obtain ⟨fo, owner⟩ := ownerFilterOf_isSome.mpr owner
    obtain ⟨fs, state⟩ := stateFilterOf_isSome.mpr state
    obtain ⟨fg, group⟩ := groupFilterOf_isSome.mpr group
    exact ⟨⟨fo, fs, fg⟩, filtersOf_eq_some.mpr ⟨owner, state, group⟩⟩

theorem Order.isWaiting_iff {o : Order} : o.isWaiting = true ↔ ∃ d, o.standing = .waiting d := by
  cases standing : o.standing <;> simp [Order.isWaiting, standing]

theorem Order.isHeld_iff {o : Order} : o.isHeld = true ↔ ∃ d, o.standing = .held d := by
  cases standing : o.standing <;> simp [Order.isHeld, standing]

theorem Order.isSpent_iff {o : Order} : o.isSpent = true ↔ o.standing = .spent := by
  cases standing : o.standing <;> simp [Order.isSpent, standing]

theorem ownerAdmits_iff {f : Option Port} {o : Order} : ownerAdmits f o = true ↔ ∀ q, f = some q → o.owner = q := by
  cases f <;> simp [ownerAdmits]

theorem StateFilter.admits_iff {f : StateFilter} {o : Order} : f.admits o = true ↔
    (f = .waiting → ∃ d, o.standing = .waiting d) ∧ (f = .held → ∃ d, o.standing = .held d)
      ∧ (f = .spent → o.standing = .spent) := by
  cases f <;> simp [StateFilter.admits, Order.isWaiting_iff, Order.isHeld_iff, Order.isSpent_iff]

theorem GroupFilter.admits_iff {f : GroupFilter} {o : Order} : f.admits o = true ↔
    (f = .none → o.member = Option.none) ∧ ∀ g, f = .group g → o.member.map Member.group = some g := by
  cases f with
  | any => simp [GroupFilter.admits]
  | none => simp [GroupFilter.admits]
  | group g => cases member : o.member <;> simp [GroupFilter.admits, member]

/-- An order is listed exactly where it matches the three filters (R56). -/
theorem Filters.admits_iff {f : Filters} {o : Order} : f.admits o = true ↔
    (∀ q, f.owner = some q → o.owner = q)
      ∧ (f.state = .waiting → ∃ d, o.standing = .waiting d) ∧ (f.state = .held → ∃ d, o.standing = .held d)
      ∧ (f.state = .spent → o.standing = .spent)
      ∧ (f.group = .none → o.member = none) ∧ ∀ g, f.group = .group g → o.member.map Member.group = some g := by
  rw [Filters.admits, Bool.and_eq_true, Bool.and_eq_true, ownerAdmits_iff, StateFilter.admits_iff,
    GroupFilter.admits_iff]
  simp only [and_assoc]

/-- The due list holds the slots of the WAITING orders (R19). -/
theorem Table.mem_dueList_slots {t : Table} {i : Fin 64} :
    i ∈ t.dueList.map DueEntry.slot ↔ ∃ o d, t.order i = some o ∧ o.standing = .waiting d := by
  constructor
  · intro mem
    obtain ⟨⟨_, d⟩, entry, rfl⟩ := List.mem_map.mp mem
    obtain ⟨o, order, waiting⟩ := Table.mem_dueList.mp entry
    exact ⟨o, d, order, waiting⟩
  · rintro ⟨o, d, order, waiting⟩
    exact List.mem_map.mpr ⟨⟨i, d⟩, Table.mem_dueList.mpr ⟨o, order, waiting⟩, rfl⟩

section
variable {t : Table} {f : Filters}

theorem Table.listed_waiting (waiting : f.state = .waiting) : t.listed f =
    (t.dueList.map DueEntry.slot).filter fun i => (t.ordersWhere f.admits).contains i := if_pos waiting

theorem Table.listed_other (other : f.state ≠ .waiting) : t.listed f = t.ordersWhere f.admits := if_neg other

/-- LIST reports the slots of the matching orders: with the filter WAITING, every match stands in the due list. -/
theorem Table.mem_listed {i : Fin 64} : i ∈ t.listed f ↔ ∃ o, t.order i = some o ∧ f.admits o = true := by
  by_cases waiting : f.state = .waiting
  · rw [Table.listed_waiting waiting, List.mem_filter, List.contains_iff_mem, Table.mem_ordersWhere]
    refine and_iff_right_of_imp ?_
    rintro ⟨o, order, admits⟩
    obtain ⟨_, stands, _⟩ := Filters.admits_iff.mp admits
    obtain ⟨d, standing⟩ := stands waiting
    exact Table.mem_dueList_slots.mpr ⟨o, d, order, standing⟩
  · rw [Table.listed_other waiting, Table.mem_ordersWhere]

theorem Table.listed_nodup : (t.listed f).Nodup := by
  by_cases waiting : f.state = .waiting
  · rw [Table.listed_waiting waiting]
    exact t.dueList_slots_nodup.filter _
  · rw [Table.listed_other waiting]
    exact t.ordersWhere_nodup _

end

/-- Settles O31. -/
theorem listReportsTheMatchingOrders : Obligations.ListReportsTheMatchingOrders := by
  intro p args h s hs
  refine ⟨fun f good => ⟨s.table.listed f, hs.answers rfl rfl (serveList_listed good) rfl, Table.listed_nodup,
      fun i => ?_, fun other => ?_, fun waiting => ?_⟩,
    fun bad => hs.refused rfl rfl (serveList_refused bad), filtersOf_eq_none, ?_⟩
  · rw [Table.mem_listed]
    simp only [Filters.admits_iff]
  · rw [Table.listed_other other]
    exact s.table.ordersWhere_sorted _
  · rw [Table.listed_waiting waiting]
    exact List.filter_sublist
  · rintro o st g f rfl
    exact filtersOf_eq_some

end Sys2Proof.Machine
end

section
/-! PURG at the table: every order of a port retired in turn (R50, R53). -/

namespace Sys2Proof.Machine

/-! ### Entries marked retired (R50) -/

/-- The entry with the retired mark, where it is to be marked. -/
def Entry.retireIf (mark : Bool) (e : Entry) : Entry := if mark then { e with retired := true } else e

@[simp] theorem Entry.retireIf_source (mark : Bool) (e : Entry) : (e.retireIf mark).source = e.source := by
  cases mark <;> rfl

theorem Entry.retireIf_retireIf (a b : Bool) (e : Entry) : (e.retireIf a).retireIf b = e.retireIf (a || b) := by
  cases a <;> cases b <;> rfl

/-- The retirement of a slot's order marks this entry of a port's stack: it names that order's taken call. -/
def Table.marks (t : Table) (q : Port) (i : Fin 64) (e : Entry) : Bool :=
  match t.order i with
  | some o => decide (q = o.answering ∧ o.call.map Call.state = some .taken
      ∧ e.source = .order i (t.slot i).generation)
  | none => false

theorem Table.marks_eq {t : Table} {i : Fin 64} {o : Order} (order : t.order i = some o) (q : Port) (e : Entry) :
    t.marks q i e = decide (q = o.answering ∧ o.call.map Call.state = some .taken
      ∧ e.source = .order i (t.slot i).generation) := by
  simp only [Table.marks, order]

theorem Table.marks_of_slot {t u : Table} {i : Fin 64} (same : u.slot i = t.slot i) (q : Port) (e : Entry) :
    u.marks q i e = t.marks q i e := by
  simp only [Table.marks, Table.order, same]

theorem Table.marks_of_source {t : Table} {q : Port} {i : Fin 64} {e e' : Entry} (same : e'.source = e.source) :
    t.marks q i e' = t.marks q i e := by
  simp only [Table.marks, same]

/-! ### Positions left (R45, R50, R142) -/

/-- The record a group is left with when the members of some of its positions are retired: those positions are empty and
their factor bits clear, and its call is judged where any was. -/
structure Group.LeftAt (left : Fin 8 → Prop) (x y : Group) : Prop where
  config : y.config = x.config
  enable : y.enable = x.enable
  emptied : ∀ q, left q → y.positions[q.val] = none ∧ y.factor.getLsbD q.val = false
  kept : ∀ q, ¬ left q → y.positions[q.val] = x.positions[q.val] ∧ y.factor.getLsbD q.val = x.factor.getLsbD q.val
  judged : (∃ q, left q) → y.call = if x.call = some .raised ∧ y.factor &&& y.enable = 0 then none else x.call
  unjudged : (¬ ∃ q, left q) → y.call = x.call

theorem Group.LeftAt.refl {left : Fin 8 → Prop} (nowhere : ∀ q, ¬ left q) (x : Group) : Group.LeftAt left x x :=
  ⟨rfl, rfl, fun q here => absurd here (nowhere q), fun _ _ => ⟨rfl, rfl⟩, fun ⟨q, here⟩ => absurd here (nowhere q),
    fun _ => rfl⟩

/-- A group that none of its members left stands as it was. -/
theorem Group.LeftAt.eq_of_nowhere {left : Fin 8 → Prop} {x y : Group} (h : Group.LeftAt left x y)
    (nowhere : ∀ q, ¬ left q) : y = x := by
  have same : Group.LeftBy none 0 x y :=
    { config := h.config, enable := h.enable
      positions := fun q => (h.kept q (nowhere q)).1
      factor := fun q => by simpa using (h.kept q (nowhere q)).2
      call := h.unjudged fun ⟨q, here⟩ => nowhere q here }
  exact same.eq_of_other nofun

/-- A group empty of enabled factor bits stays so when a member leaves it. -/
theorem Group.LeftBy.and_enable_eq_zero {old : Option Member} {g : Fin 8} {x y : Group} (h : Group.LeftBy old g x y)
    (empty : x.factor &&& x.enable = 0) : y.factor &&& y.enable = 0 := by
  refine BitVec.eq_of_getLsbD_eq fun q hq => ?_
  have bit : (x.factor &&& x.enable).getLsbD q = false := by rw [empty]; exact BitVec.getLsbD_zero
  rw [BitVec.getLsbD_and] at bit
  rw [BitVec.getLsbD_and, h.factor ⟨q, hq⟩, h.enable, Bool.and_right_comm, bit, Bool.false_and]
  exact BitVec.getLsbD_zero.symm

/-- The call of such a group stands, or was withdrawn with the last of its enabled factor bits. -/
theorem Group.LeftAt.call_cases {left : Fin 8 → Prop} {x y : Group} (h : Group.LeftAt left x y) :
    y.call = x.call ∨ x.call = some .raised ∧ y.call = none ∧ y.factor &&& y.enable = 0 := by
  by_cases somewhere : ∃ q, left q
  · have judged := h.judged somewhere
    split at judged
    · next withdrawn => exact .inr ⟨withdrawn.1, judged, withdrawn.2⟩
    · exact .inl judged
  · exact .inl (h.unjudged somewhere)

/-- One more member leaves. -/
theorem Group.LeftAt.leave {left : Fin 8 → Prop} {old : Option Member} {g : Fin 8} {x y z : Group}
    (h : Group.LeftAt left x y) (one : Group.LeftBy old g y z) :
    Group.LeftAt (fun q => left q ∨ old = some ⟨g, q⟩) x z where
  config := one.config.trans h.config
  enable := one.enable.trans h.enable
  emptied q gone := by
    rw [one.positions q, one.factor q]
    by_cases now : old = some ⟨g, q⟩
    · rw [if_pos now, decide_eq_true now, Bool.not_true, Bool.and_false]
      exact ⟨rfl, rfl⟩
    · rw [if_neg now, decide_eq_false now, Bool.not_false, Bool.and_true]
      exact h.emptied q (gone.resolve_right now)
  kept q stays := by
    obtain ⟨before, now⟩ := not_or.mp stays
    rw [one.positions q, one.factor q, if_neg now, decide_eq_false now, Bool.not_false, Bool.and_true]
    exact h.kept q before
  judged := by
    rintro ⟨q, gone⟩
    by_cases here : old.map Member.group = some g
    · have call := one.call
      simp only [here, true_and] at call
      obtain same | ⟨raised, withdrawn, empty⟩ := h.call_cases
      · rw [call, same]
      · rw [call, withdrawn, if_neg nofun, if_pos ⟨raised, one.and_enable_eq_zero empty⟩]
    · obtain rfl := one.eq_of_other here
      exact h.judged ⟨q, gone.resolve_right fun now => here (now ▸ rfl)⟩
  unjudged stays := by
    have elsewhere : old.map Member.group ≠ some g := fun here => by
      obtain ⟨m, rfl, rfl⟩ := Option.map_eq_some_iff.mp here
      exact stays ⟨m.position, .inr rfl⟩
    obtain rfl := one.eq_of_other elsewhere
    exact h.unjudged fun ⟨q, before⟩ => stays ⟨q, .inl before⟩

/-! ### Orders retired in turn (R50, R53) -/

/-- The order of one of some slots holds a position of a group. -/
def Table.holdsAt (t : Table) (gone : List (Fin 64)) (g q : Fin 8) : Prop :=
  ∃ i ∈ gone, ∃ o, t.order i = some o ∧ o.member = some ⟨g, q⟩

/-- What is left of a table when the orders of some slots are retired one after another, as a function of the table
before. -/
structure Table.RetiredAll (t : Table) (gone : List (Fin 64)) (u : Table) : Prop where
  freed : ∀ i ∈ gone, u.slot i = ⟨(t.slot i).generation + 1, none⟩
  kept : ∀ i, i ∉ gone → u.slot i = t.slot i
  quotas : u.quotas = t.quotas
  arbiter : u.arbiter = t.arbiter
  inBackup : u.inBackup = t.inBackup
  contexts : ∀ q, u.contexts.get q = { t.contexts.get q with
    stack := (t.contexts.get q).stack.map fun e => e.retireIf (gone.any fun i => t.marks q i e) }
  group : ∀ g, Group.LeftAt (t.holdsAt gone g) (t.group g) (u.group g)

theorem Table.RetiredAll.refl (t : Table) : t.RetiredAll [] t where
  freed _ mem := absurd mem List.not_mem_nil
  kept _ _ := rfl
  quotas := rfl
  arbiter := rfl
  inBackup := rfl
  contexts _ := congrArg (Context.mk _ _) (List.map_id _).symm
  group _ := .refl (fun _ ⟨_, mem, _⟩ => absurd mem List.not_mem_nil) _

/-- What one retirement does to the contexts. -/
theorem Table.RetiredTo.contexts_eq {t u : Table} {i : Fin 64} {o : Order} (h : t.RetiredTo u i o)
    (order : t.order i = some o) (q : Port) : u.contexts.get q = { t.contexts.get q with
      stack := (t.contexts.get q).stack.map fun e => e.retireIf (t.marks q i e) } := by
  rw [h.ctx q]
  refine congrArg (Context.mk _ _) (List.map_congr_left fun e _ => ?_)
  rw [Entry.retireIf, Table.marks_eq order]
  simp only [decide_eq_true_eq]

/-- A position is held by one of the slots, or by the slot of the one order more. -/
theorem Table.holdsAt_concat {t : Table} {gone : List (Fin 64)} {i : Fin 64} {o : Order} (order : t.order i = some o)
    (g : Fin 8) : t.holdsAt (gone ++ [i]) g = fun q => t.holdsAt gone g q ∨ o.member = some ⟨g, q⟩ := by
  refine funext fun q => propext ⟨?_, ?_⟩
  · rintro ⟨j, mem, x, order', member⟩
    rcases List.mem_append.mp mem with before | now
    · exact .inl ⟨j, before, x, order', member⟩
    · obtain rfl := List.mem_singleton.mp now
      cases order.symm.trans order'
      exact .inr member
  · rintro (⟨j, mem, x, order', member⟩ | member)
    · exact ⟨j, List.mem_append_left _ mem, x, order', member⟩
    · exact ⟨i, List.mem_append_right _ List.mem_cons_self, o, order, member⟩

/-- One order more is retired: its slot still stands as in the table before. -/
theorem Table.RetiredAll.retire {t u : Table} {gone : List (Fin 64)} (h : t.RetiredAll gone u) {i : Fin 64}
    (fresh : i ∉ gone) {o : Order} (order : t.order i = some o) : t.RetiredAll (gone ++ [i]) (u.retire i o) := by
  have same := h.kept i fresh
  have spec := u.retire_spec i o
  refine ⟨fun j mem => ?_, fun j other => ?_, spec.quotas.trans h.quotas, spec.arbiter.trans h.arbiter,
    spec.inBackup.trans h.inBackup, fun q => ?_, fun g => ?_⟩
  · rcases List.mem_append.mp mem with before | now
    · rw [spec.other j fun e => fresh (e ▸ before), h.freed j before]
    · obtain rfl := List.mem_singleton.mp now
      rw [spec.slot, same]
  · obtain ⟨before, now⟩ := not_or.mp (mt List.mem_append.mpr other)
    rw [spec.other j fun e => now (List.mem_singleton.mpr e), h.kept j before]
  · rw [spec.contexts_eq ((congrArg Slot.order same).trans order), h.contexts q, List.map_map]
    refine congrArg (Context.mk _ _) (List.map_congr_left fun e _ => ?_)
    rw [Function.comp_apply, Table.marks_of_slot same, Table.marks_of_source (e.retireIf_source _),
      Entry.retireIf_retireIf, List.any_append, List.any_cons, List.any_nil, Bool.or_false]
  · rw [Table.holdsAt_concat order]
    exact (h.group g).leave (spec.group g)

/-! ### The orders of one port (R53) -/

/-- The slot's order is one of the port's. -/
def Table.ownedBy (t : Table) (owner : Port) (i : Fin 64) : Bool := (t.order i).any fun o => o.owner == owner

theorem Table.ownedBy_iff {t : Table} {owner : Port} {i : Fin 64} :
    t.ownedBy owner i = true ↔ ∃ o, t.order i = some o ∧ o.owner = owner := by
  simp only [Table.ownedBy, Option.any_eq_true, beq_iff_eq]

theorem Table.purgeSlot_own {t : Table} {owner : Port} {i : Fin 64} {o : Order} (order : t.order i = some o)
    (own : o.owner = owner) : Table.purgeSlot owner t i = t.retire i o := by
  simp only [Table.purgeSlot, order, own, if_true]

theorem Table.purgeSlot_other {t : Table} {owner : Port} {i : Fin 64} (other : ¬ t.ownedBy owner i = true) :
    Table.purgeSlot owner t i = t := by
  unfold Table.purgeSlot
  split
  · next o order => exact if_neg fun own => other (Table.ownedBy_iff.mpr ⟨o, order, own⟩)
  · rfl

/-- The slots dealt with in turn: those of the port's orders are retired. -/
theorem Table.foldl_purgeSlot (t : Table) (owner : Port) {l : List (Fin 64)} (nodup : l.Nodup) :
    t.RetiredAll (l.filter (t.ownedBy owner)) (l.foldl (Table.purgeSlot owner) t) := by
  induction l using List.reverseRecOn with
  | nil => exact .refl t
  | append_singleton l i ih =>
    obtain ⟨nodup, _, apart⟩ := List.nodup_append.mp nodup
    have fresh : i ∉ l.filter (t.ownedBy owner) := fun mem =>
      apart i (List.mem_of_mem_filter mem) i List.mem_cons_self rfl
    have h := ih nodup
    have same := h.kept i fresh
    rw [List.foldl_append, List.foldl_cons, List.foldl_nil, List.filter_append]
    by_cases own : t.ownedBy owner i = true
    · obtain ⟨o, order, owns⟩ := Table.ownedBy_iff.mp own
      rw [Table.purgeSlot_own ((congrArg Slot.order same).trans order) owns, List.filter_cons_of_pos own,
        List.filter_nil]
      exact h.retire fresh order
    · have other : ¬ (l.foldl (Table.purgeSlot owner) t).ownedBy owner i = true := by
        rwa [Table.ownedBy, Table.order, same]
      rw [Table.purgeSlot_other other, List.filter_cons_of_neg own, List.filter_nil, List.append_nil]
      exact h

theorem Table.mem_ownedSlots {t : Table} {owner : Port} {i : Fin 64} :
    i ∈ allSlots.filter (t.ownedBy owner) ↔ ∃ o, t.order i = some o ∧ o.owner = owner := by
  rw [List.mem_filter, Table.ownedBy_iff, and_iff_right (mem_allSlots i)]

/-- What a PURG does: the port's orders are retired. -/
theorem Table.purge_spec (t : Table) (owner : Port) :
    t.RetiredAll (allSlots.filter (t.ownedBy owner)) (t.purge owner) :=
  t.foldl_purgeSlot owner (List.nodup_finRange 64)

section
variable {t : Table} {owner : Port}

/-- The entry names the taken call of one of the port's orders, in the stack that the call answers (R50, R53). -/
theorem Table.purges_iff {q : Port} {e : Entry} : t.purges owner q e = true ↔ ∃ i o, t.order i = some o
    ∧ o.owner = owner ∧ q = o.answering ∧ o.call.map Call.state = some .taken
    ∧ e.source = .order i (t.slot i).generation := by
  unfold Table.purges
  cases e.source with
  | group g => simp
  | order i generation =>
    constructor
    · intro purges
      obtain ⟨same, purges⟩ := Bool.and_eq_true_iff.mp purges
      split at purges
      · next o order =>
        simp only [Bool.and_eq_true, beq_iff_eq] at purges same
        obtain ⟨⟨own, answers⟩, taken⟩ := purges
        exact ⟨i, o, order, own, answers.symm, taken, by rw [same]⟩
      · cases purges
    · rintro ⟨j, o, order, own, answers, taken, source⟩
      cases source
      simp [order, own, answers, taken]

/-- The entries a PURG marks are those that one of the retirements marks (R50). -/
theorem Table.any_marks_eq (q : Port) (e : Entry) :
    (allSlots.filter (t.ownedBy owner)).any (fun i => t.marks q i e) = t.purges owner q e := by
  rw [Bool.eq_iff_iff, List.any_eq_true, Table.purges_iff]
  constructor
  · rintro ⟨i, mem, marks⟩
    obtain ⟨o, order, own⟩ := Table.mem_ownedSlots.mp mem
    rw [Table.marks_eq order, decide_eq_true_eq] at marks
    exact ⟨i, o, order, own, marks⟩
  · rintro ⟨i, o, order, own, named⟩
    exact ⟨i, Table.mem_ownedSlots.mpr ⟨o, order, own⟩, by rwa [Table.marks_eq order, decide_eq_true_eq]⟩

/-- The positions a PURG empties are those of the port's members. -/
theorem Table.holdsAt_ownedSlots (g : Fin 8) :
    t.holdsAt (allSlots.filter (t.ownedBy owner)) g = t.ownsMember owner g := by
  refine funext fun q => propext ⟨?_, ?_⟩
  · rintro ⟨i, mem, o, order, member⟩
    obtain ⟨o', order', own⟩ := Table.mem_ownedSlots.mp mem
    cases order.symm.trans order'
    exact ⟨i, o, order, own, member⟩
  · rintro ⟨i, o, order, own, member⟩
    exact ⟨i, Table.mem_ownedSlots.mpr ⟨o, order, own⟩, o, order, member⟩

/-- A PURG leaves the port no order. -/
theorem Table.purge_owned : (t.purge owner).owned owner = 0 := by
  have spec := t.purge_spec owner
  refine List.length_eq_zero_iff.mpr (List.eq_nil_iff_forall_not_mem.mpr fun i mem => ?_)
  obtain ⟨o, order, own⟩ := Table.mem_owned.mp mem
  by_cases gone : i ∈ allSlots.filter (t.ownedBy owner)
  · rw [Table.order, spec.freed i gone] at order
    cases order
  · rw [Table.order, spec.kept i gone] at order
    exact gone (Table.mem_ownedSlots.mpr ⟨o, order, own⟩)

end

/-! ### PURG (R53) -/

section
variable {p : Port} {h : InHand} {args : List Byte} {t : Table} {owner : Port}

theorem servePurg_layout (bad : args.length ≠ 1) : servePurg p h args t = t.answer .badArgument := by
  unfold servePurg
  split
  · exact absurd rfl bad
  · rfl

theorem servePurg_range {b : Byte} (bad : 1 < b.toNat) : servePurg p h [b] t = t.answer .badArgument := by
  simp only [servePurg, portOf_eq_none.mpr bad]

theorem servePurg_denied (no : p = .B ∧ owner = .A) : servePurg p h [portByte owner] t = t.answer .notPermitted := by
  simp only [servePurg, portOf_portByte, denied_iff.mpr no, if_true]

theorem servePurg_purged (yes : ¬ (p = .B ∧ owner = .A)) :
    servePurg p h [portByte owner] t = (t.purge owner, .done [byteOf (t.owned owner)]) := by
  simp only [servePurg, portOf_portByte, mt denied_iff.mp yes, Bool.false_eq_true, if_false]

end

/-- Settles O29, by `Table.purge_spec`. -/
theorem purgRetiresThePortsOrders : Obligations.PurgRetiresThePortsOrders := by
  intro p owner args h s hs
  refine ⟨fun bad => hs.refused rfl rfl (servePurg_layout bad), ?_, ?_, ?_⟩
  · rintro b rfl bad
    exact hs.refused rfl rfl (servePurg_range bad)
  · rintro rfl b a
    exact hs.refused rfl rfl (servePurg_denied ⟨b, a⟩)
  · rintro rfl yes
    have spec := s.table.purge_spec owner
    refine ⟨_, hs.answers rfl rfl (servePurg_purged yes) spec.arbiter, Table.purge_owned, spec.quotas, spec.inBackup,
      fun i o order own => spec.freed i (Table.mem_ownedSlots.mpr ⟨o, order, own⟩), fun i other => ?_, fun q => ?_,
      fun g => ?_⟩
    · refine spec.kept i fun mem => ?_
      obtain ⟨o, order, own⟩ := Table.mem_ownedSlots.mp mem
      exact other o order own
    · rw [spec.contexts q]
      simp only [Table.any_marks_eq, Entry.retireIf]
    · have left := spec.group g
      rw [Table.holdsAt_ownedSlots] at left
      exact ⟨left.config, left.enable, left.eq_of_nowhere, fun q => ⟨left.emptied q, left.kept q⟩, left.judged⟩

end Sys2Proof.Machine
end

section
/-! The calendar counts seconds: the day number by Table 5-1, the second number and its inverse, and the calendar step
(R60 to R65). -/

namespace Sys2Proof.Machine

/-! ### Day numbers by the month lengths (R60, R61) -/

theorem daysOfMonths_eq_sum (year n : Nat) :
    daysOfMonths year n = ((List.range n).map fun m => monthLength year (m + 1)).sum := by
  induction n with
  | zero => rfl
  | succ n ih =>
    rw [daysOfMonths, ih, List.range_succ, List.map_append, List.sum_append, List.map_singleton, List.sum_singleton]

/-- One of four numbers in a row is divisible by 4. -/
theorem length_filter_fours (n : Nat) : ((List.range n).filter fun k => k % 4 = 0).length = (n + 3) / 4 := by
  induction n with
  | zero => rfl
  | succ n ih =>
    rw [List.range_succ, List.filter_append, List.length_append, ih, List.filter_singleton]
    by_cases four : n % 4 = 0
    · simp only [four, decide_true, cond_true, List.length_singleton]
      omega
    · simp only [four, decide_false, cond_false, List.length_nil]
      omega

theorem leapsBefore_eq_length (year : Nat) :
    leapsBefore year = ((List.range (year - 2000)).filter fun k => k % 4 = 0).length :=
  (length_filter_fours _).symm

theorem secondNumber_eq (d : DateTime) :
    secondNumber d = 86400 * dayNumber d + 3600 * d.hour + 60 * d.minute + d.second := by
  unfold secondNumber secondOfDay
  omega

/-! ### A second number belongs to one date and time (R62) -/

/-- Steps of a monotone function do not overlap. -/
theorem step_unique_of_monotone {f : Nat → Nat} (mono : Monotone f) {a b n : Nat} (loa : f a ≤ n) (hia : n < f (a + 1))
    (lob : f b ≤ n) (hib : n < f (b + 1)) : a = b :=
  Nat.le_antisymm (Nat.le_of_lt_succ (mono.reflect_lt (loa.trans_lt hib)))
    (Nat.le_of_lt_succ (mono.reflect_lt (lob.trans_lt hia)))

theorem firstDay_monotone : Monotone firstDay := fun y z (_ : y ≤ z) => by
  unfold firstDay leapsBefore
  omega

theorem daysOfMonths_monotone (year : Nat) : Monotone (daysOfMonths year) :=
  monotone_nat_of_le_succ fun _ => Nat.le_add_right _ _

/-- The day of a real date within its year lies within its month. -/
theorem dayOfYear_bounds {d : DateTime} (h : d.real = true) :
    daysOfMonths d.year (d.month - 1) ≤ dayNumber d - firstDay d.year
      ∧ dayNumber d - firstDay d.year < daysOfMonths d.year (d.month - 1 + 1) := by
  obtain ⟨_, _, _, _, dlo, dhi, _⟩ := (DateTime.real_iff d).mp h
  have month : d.month - 1 + 1 = d.month := by omega
  rw [dayNumber_eq, daysOfMonths, month]
  omega

/-- The day of a real date lies within its year. -/
theorem dayNumber_bounds {d : DateTime} (h : d.real = true) :
    firstDay d.year ≤ dayNumber d ∧ dayNumber d < firstDay (d.year + 1) := by
  obtain ⟨ylo, _, mlo, mhi, _⟩ := (DateTime.real_iff d).mp h
  obtain ⟨_, inMonth⟩ := dayOfYear_bounds h
  have inYear : daysOfMonths d.year (d.month - 1 + 1) ≤ daysOfMonths d.year 12 :=
    daysOfMonths_monotone d.year (by omega)
  have total : daysOfMonths d.year 12 = yearLength d.year := daysOfMonths_eleven d.year
  rw [firstDay_succ ylo]
  refine ⟨by rw [dayNumber_eq]; omega, by omega⟩

theorem dayNumber_le {d : DateTime} (h : d.real = true) : dayNumber d ≤ Config.maxDay := by
  obtain ⟨_, yhi, _⟩ := (DateTime.real_iff d).mp h
  have last : firstDay (d.year + 1) ≤ firstDay 2100 := firstDay_monotone (by omega)
  have range : firstDay 2100 = Config.maxDay + 1 := rfl
  have := (dayNumber_bounds h).2
  omega

theorem secondNumber_le {d : DateTime} (h : d.real = true) : secondNumber d ≤ Config.maxSecond := by
  have day := dayNumber_le h
  have time := secondOfDay_lt h
  unfold secondNumber
  simp only [Config.maxDay, Config.maxSecond] at day ⊢
  omega

/-- Two real dates with one day number are one date. -/
theorem date_eq_of_dayNumber {d e : DateTime} (hd : d.real = true) (he : e.real = true)
    (same : dayNumber d = dayNumber e) : d.year = e.year ∧ d.month = e.month ∧ d.day = e.day := by
  obtain ⟨_, _, dmonth, _, dday, _⟩ := (DateTime.real_iff d).mp hd
  obtain ⟨_, _, emonth, _, eday, _⟩ := (DateTime.real_iff e).mp he
  have boundsD := dayNumber_bounds hd
  have boundsE := dayNumber_bounds he
  rw [← same] at boundsE
  have year : d.year = e.year := step_unique_of_monotone firstDay_monotone boundsD.1 boundsD.2 boundsE.1 boundsE.2
  have withinD := dayOfYear_bounds hd
  have withinE := dayOfYear_bounds he
  rw [← same, ← year] at withinE
  have month : d.month - 1 = e.month - 1 :=
    step_unique_of_monotone (daysOfMonths_monotone _) withinD.1 withinD.2 withinE.1 withinE.2
  rw [dayNumber_eq, dayNumber_eq, ← year, ← month] at same
  exact ⟨year, by omega, by omega⟩

/-- Two real times with one second number are one time (R62). -/
theorem secondNumber_injective {d e : DateTime} (hd : d.real = true) (he : e.real = true)
    (same : secondNumber d = secondNumber e) : d = e := by
  obtain ⟨_, _, _, _, _, _, dh, dm, ds⟩ := (DateTime.real_iff d).mp hd
  obtain ⟨_, _, _, _, _, _, eh, em, es⟩ := (DateTime.real_iff e).mp he
  rw [secondNumber_eq, secondNumber_eq] at same
  obtain ⟨year, month, day⟩ := date_eq_of_dayNumber hd he (by omega)
  have hour : d.hour = e.hour := by omega
  have minute : d.minute = e.minute := by omega
  have second : d.second = e.second := by omega
  cases d
  cases e
  simp_all only

theorem dayNumber_ofDayAndSecond (day second : Nat) : dayNumber (ofDayAndSecond day second) = day := by
  obtain ⟨_, _, years, _⟩ := splitYears_spec 99 (le_refl 2000) day
  obtain ⟨_, _, months, _⟩ := splitMonths_spec (splitYears 99 2000 day).1 11 0 (splitYears 99 2000 day).2
  have start : firstDay 2000 = 0 := rfl
  simp only [dayNumber_eq, ofDayAndSecond, Nat.add_sub_cancel]
  simp only [daysOfMonths.eq_1, Nat.zero_add] at months
  omega

theorem secondOfDay_ofDayAndSecond (day second : Nat) : secondOfDay (ofDayAndSecond day second) = second := by
  simp only [secondOfDay, ofDayAndSecond]
  omega

theorem secondNumber_ofSecondNumber (n : Nat) : secondNumber (ofSecondNumber n) = n := by
  rw [secondNumber, ofSecondNumber, dayNumber_ofDayAndSecond, secondOfDay_ofDayAndSecond, Nat.div_add_mod]

/-- A real date and time is that of its second number (R62). -/
theorem ofSecondNumber_secondNumber {d : DateTime} (h : d.real = true) : ofSecondNumber (secondNumber d) = d :=
  secondNumber_injective (ofSecondNumber_real (secondNumber_le h)) h (secondNumber_ofSecondNumber _)

/-! ### The calendar step (R64, R65) -/

/-- A midnight of the day after the last second of a day is one second later. -/
theorem secondNumber_midnight {d e : DateTime} (day : dayNumber e = dayNumber d + 1) (midnight : secondOfDay e = 0)
    (last : secondOfDay d = 86399) : secondNumber e = secondNumber d + 1 := by
  simp only [secondNumber, day, midnight, last]
  omega

/-- A calendar step is one second (R64). -/
theorem Calendar.secondNumber_next {c c' : Calendar} (real : c.now.real = true) (e : c.next = some c') :
    secondNumber c'.now = secondNumber c.now + 1 := by
  obtain ⟨ylo, yhi, mlo, mhi, dlo, dhi, hh, hm, hs⟩ := (DateTime.real_iff _).mp real
  simp only [Calendar.next] at e
  split at e
  · cases e; rfl
  split at e
  · next second _ =>
    cases e
    simp only [secondNumber, dayNumber, secondOfDay]
    omega
  split at e
  · next second minute _ =>
    cases e
    simp only [secondNumber, dayNumber, secondOfDay]
    omega
  next second minute hour =>
  have midnight : secondOfDay c.now = 86399 := by
    unfold secondOfDay
    omega
  split at e
  · cases e; exact secondNumber_midnight (dayNumber_nextDay dlo 0 0 0) rfl midnight
  next day =>
  have last : c.now.day = monthLength c.now.year c.now.month := by omega
  split at e
  · cases e; exact secondNumber_midnight (dayNumber_nextMonth mlo dlo last 0 0 0) rfl midnight
  next month =>
  have december : c.now.month = 12 := by omega
  rw [december, monthLength_twelve] at last
  split at e
  · cases e; exact secondNumber_midnight (dayNumber_nextYear ylo december last 0 0 0) rfl midnight
  · cases e

/-- The last second of the range alone has no next (R65). -/
theorem Calendar.next_eq_none {c : Calendar} (real : c.now.real = true) :
    c.next = none ↔ c.now = ⟨2099, 12, 31, 23, 59, 59⟩ := by
  obtain ⟨_, yhi, _, mhi, _, dhi, hh, hm, hs⟩ := (DateTime.real_iff _).mp real
  constructor
  · intro e
    simp only [Calendar.next] at e
    iterate 6
      split at e
      · cases e
    rename_i second minute hour day month year
    have december : c.now.month = 12 := by omega
    rw [december, monthLength_twelve] at dhi day
    obtain ⟨⟨_, _, _, _, _, _⟩, _⟩ := c
    simp only [DateTime.mk.injEq] at *
    omega
  · intro last
    simp only [Calendar.next, last]
    rfl

/-- Settles O44. -/
theorem calendarCountsSeconds : Obligations.CalendarCountsSeconds := by
  refine ⟨fun c lawful => ?_, fun d real => ⟨secondNumber_le real, ofSecondNumber_secondNumber real⟩,
    fun n range => ⟨ofSecondNumber_real range, secondNumber_ofSecondNumber n⟩, by decide, by decide, monthLength_eq,
    fun d _ => ⟨?_, rfl, secondNumber_eq d⟩⟩
  · have real := (c.lawful_iff.mp lawful).1
    exact ⟨fun c' e => ⟨Calendar.next_lawful lawful e, Calendar.secondNumber_next real e⟩, Calendar.next_eq_none real⟩
  · rw [dayNumber, leapsBefore_eq_length, daysOfMonths_eq_sum]

end Sys2Proof.Machine
end

section
/-! The clock: its commands CKRD, CKST, CKHD, CKRL and CKSE, its events, the crystal cycle, and how a unit hands it a
command (R66 to R77, R173). -/

namespace Sys2Proof.Machine

/-! ### The crystal cycle (R68, R70; entry 1) -/

theorem whileReliable_of_reliable {s : State} (reliable : s.reliable = true) (f : State → State) :
    whileReliable f s = f s := if_pos reliable

theorem Clock.counting_iff {k : Clock} : k.counting = true ↔ k.state = .running ∨ k.state = .held := by
  simp [Clock.counting]

theorem Clock.settlingArmed_iff {k : Clock} : k.settlingArmed = true ↔ k.state = .settling ∧ k.armed = true := by
  simp [Clock.settlingArmed]

/-- A settling clock does not count seconds (R67). -/
theorem Clock.counting_of_settling {k : Clock} (settling : k.state = .settling) : k.counting = false := by
  simp [Clock.counting, settling]

section
variable {s : State}

theorem State.crystalCycle_divides (counting : s.clock.counting = true) (more : s.clock.divider < 32767) :
    s.crystalCycle = s.setClock { s.clock with divider := s.clock.divider + 1 } := by
  have below : s.clock.divider + 1 < Config.dividerModulus := Nat.succ_lt_succ more
  rw [State.crystalCycle, if_pos counting, if_pos below]

theorem State.crystalCycle_second (counting : s.clock.counting = true) (last : s.clock.divider = 32767) :
    s.crystalCycle = s.second := by
  have full : ¬ s.clock.divider + 1 < Config.dividerModulus := by rw [last]; decide
  rw [State.crystalCycle, if_pos counting, if_neg full]

theorem State.crystalCycle_settles (settling : s.clock.state = .settling) (armed : s.clock.armed = true)
    (more : s.clock.settleCount + 1 < s.clock.settleTarget) :
    s.crystalCycle = s.setClock { s.clock with settleCount := s.clock.settleCount + 1 } := by
  rw [State.crystalCycle, Clock.counting_of_settling settling, if_neg Bool.false_ne_true,
    if_pos (Clock.settlingArmed_iff.mpr ⟨settling, armed⟩), if_pos more]

theorem State.crystalCycle_endsSettling (settling : s.clock.state = .settling) (armed : s.clock.armed = true)
    (last : s.clock.settleCount + 1 = s.clock.settleTarget) : s.crystalCycle = s.settle := by
  rw [State.crystalCycle, Clock.counting_of_settling settling, if_neg Bool.false_ne_true,
    if_pos (Clock.settlingArmed_iff.mpr ⟨settling, armed⟩), if_neg last.not_lt]

theorem State.crystalCycle_silent (silent : s.clock.state = .lost ∨ s.clock.state = .settling ∧ s.clock.armed = false) :
    s.crystalCycle = s := by
  have counts : ¬ s.clock.counting = true := by
    rw [Clock.counting_iff]
    rcases silent with lost | ⟨settling, _⟩ <;> simp_all
  have settles : ¬ s.clock.settlingArmed = true := by
    rw [Clock.settlingArmed_iff]
    rcases silent with lost | ⟨_, unarmed⟩ <;> simp_all
  rw [State.crystalCycle, if_neg counts, if_neg settles]

theorem step_of_empty (empty : s.pending = []) : step s = .next (whileReliable State.crystalCycle s) := by
  simp only [step, empty]

end

/-- Settles O2. -/
theorem emptyQueueIsACrystalCycle : Obligations.EmptyQueueIsACrystalCycle := by
  intro s empty
  have cycle {s' : State} (reliable : s.reliable = true) (e : s.crystalCycle = s') : step s = .next s' := by
    rw [step_of_empty empty, whileReliable_of_reliable reliable, e]
  have event {f : State → State} (reliable : s.reliable = true) (e : s.crystalCycle = f s) :
      step s = .next (whileReliable f s) := by
    rw [cycle reliable e, whileReliable_of_reliable reliable]
  refine ⟨fun unreliable => ?_, fun reliable counting => ⟨fun more => ?_, fun last => ?_⟩,
    fun reliable settling armed => ⟨fun more => ?_, fun last => ?_⟩, fun reliable silent => ?_⟩
  · rw [step_of_empty empty, whileReliable, unreliable, if_neg Bool.false_ne_true]
  · exact cycle reliable (State.crystalCycle_divides (Clock.counting_iff.mpr counting) more)
  · exact event reliable (State.crystalCycle_second (Clock.counting_iff.mpr counting) last)
  · exact cycle reliable (State.crystalCycle_settles settling armed more)
  · exact event reliable (State.crystalCycle_endsSettling settling armed last)
  · exact cycle reliable (State.crystalCycle_silent silent)

/-! ### The clock's events (R65 to R72) -/

/-- An event that replaces the clock and then presents it: the state seen, judged and arbitrated. -/
theorem State.event_settles {i : Instr} {f : State → State} {s m : State} {k : Clock} (reliable : s.reliable = true)
    (row : exec i s = .next (whileReliable f s)) (acts : f s = (m.setClock k).afterClock) :
    ∃ s', exec i s = .next s' ∧ Settles (m.seen k) s' := by
  rw [whileReliable_of_reliable reliable, acts] at row
  exact ⟨_, row, m.afterClock_settles k⟩

section
variable {k : Clock}

theorem Clock.second_running (running : k.state = .running) {c : Calendar} (next : k.calendar.next = some c) :
    k.second = { k with elapsed := k.elapsed + 1, divider := 0, calendar := c } := by
  simp only [Clock.second, running, if_true, Clock.stepCalendar, next]

theorem Clock.second_wrap (running : k.state = .running) (last : k.calendar.next = none) : k.second = { k with
    elapsed := k.elapsed + 1, divider := 0, calendar := ⟨rangeStart, 6⟩, valid := false } := by
  simp only [Clock.second, running, if_true, Clock.stepCalendar, last]

theorem Clock.second_held (held : k.state = .held) : k.second = { k with elapsed := k.elapsed + 1, divider := 0 } := by
  simp only [Clock.second, held, reduceCtorEq, if_false]

end

theorem State.second_of_counting {s : State} (counting : s.clock.counting = true) :
    s.second = (s.setClock s.clock.second).afterClock := if_pos counting

theorem State.settle_of_armed {s : State} (settling : s.clock.state = .settling) (armed : s.clock.armed = true) :
    s.settle = (s.setClock s.clock.settled).afterClock := if_pos (Clock.settlingArmed_iff.mpr ⟨settling, armed⟩)

/-- An oscillator loss sets CLOCK-LOST in both alert words (R71). -/
theorem State.loseOscillator_of_judged {s : State} (judged : s.clock.counting = true ∨ s.clock.settlingArmed = true) :
    s.loseOscillator =
      ({ s with units := s.units.map fun _ u => u.setAlert .clockLost }.setClock s.clock.lose).afterClock :=
  if_pos (Bool.or_eq_true_iff.mpr judged)

/-- Settles O45. -/
theorem clockEventsChangeTheClock : Obligations.ClockEventsChangeTheClock := by
  intro s reliable
  have second {k : Clock} (counting : s.clock.state = .running ∨ s.clock.state = .held) (e : s.clock.second = k) :
      ∃ s', exec .second s = .next s' ∧ Settles (s.seen k) s' :=
    State.event_settles reliable rfl (e ▸ State.second_of_counting (Clock.counting_iff.mpr counting))
  refine ⟨fun running c next => ?_, fun running last => ?_, fun held => ?_, fun settling armed => ?_, fun judged => ?_,
    fun lost => ?_, fun settling unarmed => ?_⟩
  · exact second (.inl running) (Clock.second_running running next)
  · exact second (.inl running) (Clock.second_wrap running last)
  · exact second (.inr held) (Clock.second_held held)
  · exact State.event_settles reliable rfl (State.settle_of_armed settling armed)
  · refine State.event_settles reliable rfl (State.loseOscillator_of_judged ?_)
    rw [Clock.counting_iff, Clock.settlingArmed_iff, or_assoc]
    exact judged
  · exact State.event_settles reliable rfl (if_pos lost)
  · have first : s.seeFirstCycle = s.setClock s.clock.seeFirst := if_pos ⟨settling, unarmed⟩
    exact congrArg Host.Outcome.next ((whileReliable_of_reliable reliable _).trans first)

/-! ### Commands the clock takes (R73 to R77) -/

section
variable {i : Instr} {p : Port} {c : Code} {args : List Byte} {rest : List Command} {s : State}
  {f : List Byte → Clock → Clock × Reply} {k : Clock} {r : Reply}

/-- A command that the clock answers without presenting itself. -/
theorem ClockTurn.answers (turn : ClockTurn s p c args rest) (block : c.block = .clock)
    (row : exec i s = .next (whileReliable (takeClock c p f id) s)) (answer : f args s.clock = (k, r)) :
    exec i s = .next ({ s with clock := { k with taking := s.clock.taking.set p rest } }.hold p r) := by
  rw [row, takeClock_eq turn block, answer]
  rfl

/-- A command that the clock answers and presents itself after: the state seen, judged and arbitrated. -/
theorem ClockTurn.settles (turn : ClockTurn s p c args rest) (block : c.block = .clock)
    (row : exec i s = .next (whileReliable (takeClock c p f State.afterClock) s)) (answer : f args s.clock = (k, r)) :
    ∃ s', exec i s = .next s' ∧ Settles ((s.hold p r).seen { k with taking := s.clock.taking.set p rest }) s' := by
  rw [takeClock_eq turn block, answer] at row
  exact ⟨_, row, (s.hold p r).afterClock_settles _⟩

/-- CKHD answers (R76). -/
theorem ClockTurn.ckhd (turn : ClockTurn s .A .ckhd args rest) (answer : clockHold args s.clock = (k, r)) :
    ∃ s', exec .ckhd s = .next s' ∧ Settles ((s.hold .A r).seen { k with taking := s.clock.taking.set .A rest }) s' :=
  turn.settles rfl rfl answer

/-- CKRL answers (R76). -/
theorem ClockTurn.ckrl (turn : ClockTurn s .A .ckrl args rest) (answer : clockRelease args s.clock = (k, r)) :
    ∃ s', exec .ckrl s = .next s' ∧ Settles ((s.hold .A r).seen { k with taking := s.clock.taking.set .A rest }) s' :=
  turn.settles rfl rfl answer

/-- CKST answers (R75). -/
theorem ClockTurn.ckst (turn : ClockTurn s .A .ckst args rest) (answer : clockSet args s.clock = (k, r)) :
    ∃ s', exec .ckst s = .next s' ∧ Settles ((s.hold .A r).seen { k with taking := s.clock.taking.set .A rest }) s' :=
  turn.settles rfl rfl answer

end

section
variable {args : List Byte} {k : Clock}

/-- CKRD reports the clock (R74). -/
theorem clockRead_reports : clockRead [] k = (k, .done k.bytes) := rfl

theorem clockRead_layout (bad : args ≠ []) : clockRead args k = (k, .bare .badArgument) := by
  obtain ⟨_, _, rfl⟩ := List.exists_cons_of_ne_nil bad
  rfl

theorem clockSettle_choice {b : Byte} (choice : b.toNat ≤ 4) :
    clockSettle [b] k = ({ k with choice := b.toNat }, .done [b]) := if_pos choice

theorem clockSettle_refused (bad : ∀ b, args = [b] → 4 < b.toNat) : clockSettle args k = (k, .bare .badArgument) := by
  unfold clockSettle
  split
  · next b => exact if_neg (bad b rfl).not_ge
  · rfl

theorem clockHold_layout (bad : args ≠ []) : clockHold args k = (k, .bare .badArgument) := by
  obtain ⟨_, _, rfl⟩ := List.exists_cons_of_ne_nil bad
  rfl

theorem clockHold_running (running : k.state = .running) :
    clockHold [] k = ({ k with state := .held }, .done [ClockState.held.byte]) := by
  simp only [clockHold, Clock.halt, running, if_true]

theorem clockHold_other (other : k.state ≠ .running) : clockHold [] k = (k, .done [k.state.byte]) := by
  simp only [clockHold, Clock.halt, other, if_false]

theorem clockRelease_layout (bad : args ≠ []) : clockRelease args k = (k, .bare .badArgument) := by
  obtain ⟨_, _, rfl⟩ := List.exists_cons_of_ne_nil bad
  rfl

theorem clockRelease_held (held : k.state = .held) :
    clockRelease [] k = ({ k with state := .running, divider := 0 }, .done [ClockState.running.byte]) := by
  simp only [clockRelease, Clock.resume, held, if_true]

theorem clockRelease_other (other : k.state ≠ .held) : clockRelease [] k = (k, .done [k.state.byte]) := by
  simp only [clockRelease, Clock.resume, other, if_false]

theorem clockSet_layout (bad : args.length ≠ 6) : clockSet args k = (k, .bare .badArgument) := if_neg bad

theorem clockSet_lost (six : args.length = 6) (lost : k.state = .lost) : clockSet args k = (k, .bare .clockLost) := by
  simp only [clockSet, six, lost, if_true]

theorem clockSet_badTime (six : args.length = 6) (kept : k.state ≠ .lost) (bad : timeOf args = none) :
    clockSet args k = (k, .bare .badTime) := by
  simp only [clockSet, six, kept, bad, if_true, if_false]

theorem clockSet_loads {d : DateTime} (real : d.real = true) (kept : k.state ≠ .lost) :
    clockSet (requestTime d) k = (k.load d, .done (Calendar.ofDateTime d).bytes) := by
  have six : (requestTime d).length = 6 := rfl
  simp only [clockSet, six, kept, timeOf_requestTime real, if_true, if_false]

end

/-- Settles O40. -/
theorem ckrdReportsAndCkseSetsTheChoice : Obligations.CkrdReportsAndCkseSetsTheChoice := by
  intro p args rest s
  refine ⟨fun turn => ⟨?_, fun bad => turn.answers rfl rfl (clockRead_layout bad)⟩, ?_⟩
  · rintro rfl
    exact turn.answers rfl rfl clockRead_reports
  · rintro rfl turn
    refine ⟨?_, fun bad => turn.answers rfl rfl (clockSettle_refused bad)⟩
    rintro b rfl choice
    exact turn.answers rfl rfl (clockSettle_choice choice)

/-- Settles O41. -/
theorem ckhdAndCkrlHoldAndRelease : Obligations.CkhdAndCkrlHoldAndRelease := by
  intro args rest s
  refine ⟨fun turn => ⟨fun bad => turn.ckhd (clockHold_layout bad), ?_, ?_⟩,
    fun turn => ⟨fun bad => turn.ckrl (clockRelease_layout bad), ?_, ?_⟩⟩
  · rintro rfl running
    exact (turn.ckhd (clockHold_running running) :)
  · rintro rfl other
    exact (turn.ckhd (clockHold_other other) :)
  · rintro rfl held
    exact (turn.ckrl (clockRelease_held held) :)
  · rintro rfl other
    exact (turn.ckrl (clockRelease_other other) :)

/-- Settles O42. -/
theorem ckstLoadsTheCalendar : Obligations.CkstLoadsTheCalendar := by
  intro args rest s turn
  refine ⟨fun bad => turn.ckst (clockSet_layout bad), fun six lost => turn.ckst (clockSet_lost six lost),
    fun six kept bad => turn.ckst (clockSet_badTime six kept bad), ?_⟩
  rintro d real rfl kept
  exact (turn.ckst (clockSet_loads real kept) :)

/-! ### How a unit refuses or hands over (R173) -/

/-- A command that the unit does not keep, taken in IDLE, is routed (R172, R173). -/
theorem State.takeFrame_routed {s : State} {p : Port} {c : Code} {args : List Byte} (routed : c.route p ≠ .unit)
    (idle : (s.units.get p).phase = .idle) : s.takeFrame p ⟨c, args⟩ = s.routeCommand p ⟨c, args⟩ := by
  have other {d : Code} (unit : d.route p = .unit) : c ≠ d := by
    rintro rfl
    exact routed unit
  simp only [State.takeFrame, other (d := .stat) rfl, other (d := .rply) rfl, other (d := .cncl) rfl, or_self, if_false,
    if_true, idle]

/-- The whole transfer of a command that is routed (R172, R173). -/
theorem exec_requestFrame_routed {s : State} {p : Port} {c : Code} {args : List Byte} (serving : s.serving = true)
    (line : s.LineIdle p) (idle : (s.units.get p).phase = .idle) (fits : args.length ≤ 40)
    (routed : c.route p ≠ .unit) : exec (.requestFrame p (.whole (requestBytes c args))) s =
      .next ((s.transferred p (args.length + 3)).routeCommand p ⟨c, args⟩) := by
  have other : c ≠ .rply := by
    rintro rfl
    exact routed rfl
  have still : ((s.transferred p (args.length + 3)).units.get p).phase = .idle := by
    rw [(s.transferred_frame p _).unit, CmdUnit.reported_phase, idle]
  exact congrArg Host.Outcome.next
    ((frameEvent_command serving line fits other).trans (State.takeFrame_routed routed still))

theorem State.routeCommand_refusal {s : State} {p : Port} {c : Command} (route : c.code.route p = .refusal) :
    s.routeCommand p c = s.modUnit p fun u => u.place (.bare .notPermitted) := by
  rw [State.routeCommand, route]

theorem State.routeCommand_clock {s : State} {p : Port} {c : Command} (route : c.code.route p = .clock) :
    s.routeCommand p c = (s.setClock (s.clock.hand p c)).modUnit p fun u => { u with phase := .working c } := by
  rw [State.routeCommand, route]

/-- Port A's own commands are refused on port B (R173; Table 11-2). -/
theorem route_of_reserved : ∀ c ∈ [Code.ckst, .ckhd, .ckrl, .ckse, .ckad, .quot, .gset], c.route .B = .refusal := by
  decide

/-- CKRD goes to the clock from both ports, the other clock commands from port A (R73, R173; Table 11-2). -/
theorem route_of_clockCommands {c : Code} {p : Port}
    (h : c = .ckrd ∨ p = .A ∧ c ∈ [Code.ckst, .ckhd, .ckrl, .ckse]) : c.route p = .clock := by
  have portA : ∀ c ∈ [Code.ckst, .ckhd, .ckrl, .ckse], c.route .A = .clock := by decide
  rcases h with rfl | ⟨rfl, mem⟩
  · rfl
  · exact portA c mem

/-- Settles O7. -/
theorem unitRefusesOrHandsToTheClock : Obligations.UnitRefusesOrHandsToTheClock := by
  intro p c args s serving line idle fits
  have sent := exec_requestFrame_routed (c := c) serving line idle fits
  have frame := s.transferred_frame p (args.length + 3)
  refine ⟨?_, fun clock => ?_⟩
  · rintro rfl reserved
    have route := route_of_reserved c reserved
    refine ⟨_, sent (by rw [route]; nofun), ?_⟩
    rw [State.routeCommand_refusal route]
    exact frame.modUnit _
  · have route := route_of_clockCommands clock
    refine ⟨_, sent (by rw [route]; nofun), ?_⟩
    rw [State.routeCommand_clock route]
    refine ⟨(frame.frame.setClock _).modUnit _, frame.table, ?_, ?_⟩
    · simp only [State.modUnit_clock, State.setClock_clock, Clock.hand, frame.clock]
    · rw [State.modUnit_units, PerPort.get_set_same, State.setClock_units, frame.unit]

end Sys2Proof.Machine
end

section
/-! CKAD: the adjustment of the calendar and of the dues anchored ELAPSED (R78 to R80). -/

namespace Sys2Proof.Machine

/-! ### The orders an adjustment moves (R80) -/

/-- The order is WAITING or HELD and anchored ELAPSED, and the sum of its due with an adjustment has a property. -/
def Order.Moved (n : Int) (o : Order) (f : Int → Prop) : Prop :=
  o.anchoring = .elapsed ∧ ∃ d, o.standing.due = some d ∧ f ((secondNumber d : Int) + n)

/-- A standing with its due replaced, where it has one. -/
def Standing.withDue (x : DateTime) : Standing → Standing
  | .waiting _ => .waiting x
  | .held _ => .held x
  | .spent => .spent

section
variable {n : Int} {o : Order} {d : DateTime}

theorem Order.elapsedDue_eq_some : o.elapsedDue = some d ↔ o.anchoring = .elapsed ∧ o.standing.due = some d :=
  Option.ite_none_right_eq_some

theorem Order.moved_iff {f : Int → Prop} :
    o.Moved n f ↔ ∃ d, o.elapsedDue = some d ∧ f ((secondNumber d : Int) + n) := by
  simp only [Order.Moved, Order.elapsedDue_eq_some, and_assoc, exists_and_left]

theorem Order.shifts_iff : o.shifts n = true ↔ o.Moved n (· ≤ 3155759999) := by
  rw [Order.moved_iff, Order.shifts]
  cases o.elapsedDue with
  | none => exact ⟨nofun, nofun⟩
  | some d => simp only [shiftDue_isSome, Option.some.injEq, exists_eq_left']

theorem Order.outruns_iff : o.outruns n = true ↔ o.Moved n (3155759999 < ·) := by
  rw [Order.moved_iff, Order.outruns]
  cases o.elapsedDue with
  | none => exact ⟨nofun, nofun⟩
  | some d => simp only [shiftDue_isNone, Option.some.injEq, exists_eq_left']

theorem shiftStanding_within {x : DateTime} {standing : Standing} (due : standing.due = some d)
    (within : shiftDue n d = some x) : shiftStanding n standing = standing.withDue x := by
  cases standing with
  | spent => cases due
  | waiting => cases due; simp only [shiftStanding, within, Standing.withDue]
  | held => cases due; simp only [shiftStanding, within, Standing.withDue]

theorem shiftStanding_beyond {standing : Standing} (due : standing.due = some d) (beyond : shiftDue n d = none) :
    shiftStanding n standing = .spent := by
  cases standing with
  | spent => rfl
  | waiting => cases due; simp only [shiftStanding, beyond]
  | held => cases due; simp only [shiftStanding, beyond]

/-- An order that has no due, or is not anchored ELAPSED, stands as it was (R80). -/
theorem Order.shift_unmoved (h : ¬ o.Moved n fun _ => True) : o.shift n = o := by
  by_cases elapsed : o.anchoring = .elapsed
  · have spent : o.standing = .spent := by
      cases e : o.standing with
      | spent => rfl
      | waiting d => exact absurd ⟨elapsed, d, by rw [e]; rfl, trivial⟩ h
      | held d => exact absurd ⟨elapsed, d, by rw [e]; rfl, trivial⟩ h
    rw [Order.shift, if_pos elapsed, spent, shiftStanding, ← spent]
  · rw [Order.shift, if_neg elapsed]

/-- An order carried beyond the range becomes SPENT (R80). -/
theorem Order.shift_beyond (h : o.Moved n (3155759999 < ·)) : o.shift n = { o with standing := .spent } := by
  obtain ⟨elapsed, d, due, beyond⟩ := h
  rw [Order.shift, if_pos elapsed, shiftStanding_beyond due (Option.isNone_iff_eq_none.mp (shiftDue_isNone.mpr beyond))]

/-- An order whose due is moved takes the new due (R80). -/
theorem Order.shift_within {x : DateTime} (elapsed : o.anchoring = .elapsed) (due : o.standing.due = some d)
    (within : shiftDue n d = some x) : o.shift n = { o with standing := o.standing.withDue x } := by
  rw [Order.shift, if_pos elapsed, shiftStanding_within due within]

end

/-! ### The checks of CKAD (R78) -/

theorem adjustmentOf_layout {args : List Byte} (bad : args.length ≠ 2) : adjustmentOf args = none := by
  unfold adjustmentOf
  split
  · exact absurd rfl bad
  · rfl

theorem adjustmentOf_eq (hi lo : Byte) : adjustmentOf [hi, lo] =
    if -7200 ≤ (hi ++ lo : BitVec 16).toInt ∧ (hi ++ lo : BitVec 16).toInt ≤ 7200 then
      some (hi ++ lo : BitVec 16).toInt else none :=
  if_congr (by rw [Bool.and_eq_true, decide_eq_true_eq, decide_eq_true_eq]; rfl) rfl rfl

section
variable {p : Port} {h : InHand} {args : List Byte} {s : State} {n : Int}

theorem serveCkad_badArgument (bad : adjustmentOf args = none) : serveCkad p h args s = (s, .bare .badArgument) := by
  simp only [serveCkad, bad]

theorem serveCkad_unset (read : adjustmentOf args = some n) (unset : s.clock.valid = false) :
    serveCkad p h args s = (s, .bare .clockUnset) := by
  simp only [serveCkad, read, unset, Bool.false_eq_true, if_false]

theorem serveCkad_outside (read : adjustmentOf args = some n) (valid : s.clock.valid = true)
    (outside : (secondNumber s.clock.calendar.now : Int) + n < 0
      ∨ 3155759999 < (secondNumber s.clock.calendar.now : Int) + n) :
    serveCkad p h args s = (s, .bare .badArgument) := by
  simp only [serveCkad, read, valid, if_true]
  exact if_pos outside

/-- CKAD applied: the clock adjusted and seen, the table shifted (R79, R80). -/
theorem serveCkad_adjusts (read : adjustmentOf args = some n) (valid : s.clock.valid = true)
    (lo : 0 ≤ (secondNumber s.clock.calendar.now : Int) + n)
    (hi : (secondNumber s.clock.calendar.now : Int) + n ≤ 3155759999) :
    let k := s.clock.adjust ((secondNumber s.clock.calendar.now : Int) + n).toNat
    serveCkad p h args s = ((s.seen k).setTable (s.table.shift n), .done (k.calendar.bytes
      ++ [byteOf (s.table.ordersWhere (Order.shifts n)).length,
        byteOf (s.table.ordersWhere (Order.outruns n)).length])) := by
  have inside : ¬ ((secondNumber s.clock.calendar.now : Int) + n < 0
      ∨ (Config.maxSecond : Int) < (secondNumber s.clock.calendar.now : Int) + n) :=
    not_or.mpr ⟨lo.not_gt, hi.not_gt⟩
  simp only [serveCkad, read, valid, if_true, if_neg inside]
  rfl

end

/-! ### CKAD in hand (R28, R78 to R80) -/

/-- The request in hand is served and completes (R28). -/
theorem Carries.completes {s m : State} {p : Port} {c : Code} {args : List Byte} {h : InHand} {f : Service} {r : Reply}
    (hs : Carries s p c args h) (served : f p h args s = (m, r)) :
    whileReliable (serve c p f) s = m.completeCommand p r := by
  simp only [whileReliable, hs.reliable, if_true, serve, Table.handOf_eq hs.inHand hs.request, served]

/-- A CKAD that is refused changes nothing. -/
theorem Carries.ckad_refused {s : State} {args : List Byte} {h : InHand} {c : ReplyCode}
    (hs : Carries s .A .ckad args h) (served : serveCkad .A h args s = (s, .bare c)) :
    Answers .ckad s .A ⟨c, []⟩ s.table :=
  ⟨_, congrArg Host.Outcome.next (hs.completes served),
    State.completeCommand_replied (s := s) (t := s.table) _ hs.phase rfl hs.marker rfl⟩

/-- A CKAD that is applied completes from the state in which the adjusted clock is seen (R72). -/
theorem Carries.ckad_applied {s : State} {args : List Byte} {h : InHand} {k : Clock} {t : Table} {r : Reply}
    (hs : Carries s .A .ckad args h) (served : serveCkad .A h args s = ((s.seen k).setTable t, r))
    (rest : t.arbiter = s.table.arbiter) : ∃ s', exec .ckad s = .next s' ∧ Replied (s.seen k) s' .A r t :=
  ⟨_, congrArg Host.Outcome.next (hs.completes served),
    State.completeCommand_replied (s := s.seen k) r hs.phase rfl hs.marker rest⟩

/-- Settles O43: the orders that move are those that `Order.shifts` and `Order.outruns` count. -/
theorem ckadShiftsTheCalendarAndTheDues : Obligations.CkadShiftsTheCalendarAndTheDues := by
  intro args h s hs
  refine ⟨fun bad => hs.ckad_refused (serveCkad_badArgument (adjustmentOf_layout bad)), ?_⟩
  rintro hi lo rfl
  have read := adjustmentOf_eq hi lo
  intro n sum
  have readIn (low : -7200 ≤ n) (high : n ≤ 7200) : adjustmentOf [hi, lo] = some n := read.trans (if_pos ⟨low, high⟩)
  refine ⟨fun out => hs.ckad_refused (serveCkad_badArgument (read.trans (if_neg (by omega)))),
    fun low high unset => hs.ckad_refused (serveCkad_unset (readIn low high) unset),
    fun low high valid outside => hs.ckad_refused (serveCkad_outside (readIn low high) valid outside),
    fun low high valid start stop => ?_⟩
  obtain ⟨s', row, replied⟩ := hs.ckad_applied (serveCkad_adjusts (readIn low high) valid start stop) rfl
  refine ⟨s', _, _, _, row, replied, s.table.ordersWhere_nodup _, fun i => ?_, s.table.ordersWhere_nodup _, fun i => ?_,
    rfl, rfl, rfl, rfl, fun i => ?_, fun i free => ?_, fun i o order => ?_⟩
  · simp only [Table.mem_ordersWhere, Order.shifts_iff]
    rfl
  · simp only [Table.mem_ordersWhere, Order.outruns_iff]
    rfl
  · rw [Table.slot_shift]
  · rw [Table.order_shift, free]
    rfl
  · rw [Table.order_shift, order, Option.map_some]
    refine ⟨fun unmoved => congrArg some (Order.shift_unmoved unmoved),
      fun beyond => congrArg some (Order.shift_beyond beyond), ?_⟩
    rintro ⟨elapsed, d, due, within⟩
    exact ⟨d, due, congrArg some (Order.shift_within elapsed due (shiftDue_eq_some within))⟩

end Sys2Proof.Machine
end

section
/-! The occurrences of an order: which a firing passed, and the first after the calendar (R89 to R92). -/

namespace Sys2Proof.Machine

/-! ### What a search through the occurrences finds (R89) -/

/-- A search for the occurrences `P` that has already counted `k` of them ends in `f`: it counts those at or before `now`,
and its next is the first after `now`. -/
structure Passed.Finds (f : Passed) (P : DateTime → Prop) (now k : Nat) : Prop where
  counted : ∃ l : List DateTime, k + l.length = f.k ∧ l.Pairwise (fun x y => secondNumber x < secondNumber y)
    ∧ ∀ x, x ∈ l ↔ P x ∧ secondNumber x ≤ now
  first : ∀ x, f.next = some x →
    P x ∧ now < secondNumber x ∧ ∀ y, P y → now < secondNumber y → secondNumber x ≤ secondNumber y
  last : f.next = none → ∀ y, P y → secondNumber y ≤ now

/-- `o` is the first of the occurrences `P`, and `Q` are those after it. -/
structure FirstOf (o : DateTime) (P Q : DateTime → Prop) : Prop where
  split : ∀ x, P x ↔ x = o ∨ Q x
  before : ∀ x, Q x → secondNumber o < secondNumber x

section
variable {f : Passed} {P Q : DateTime → Prop} {o : DateTime} {now k : Nat}

/-- Where no occurrence is left, none is counted and there is no next. -/
theorem Passed.Finds.nothing (empty : ∀ x, ¬ P x) : Passed.Finds ⟨k, none⟩ P now k :=
  ⟨⟨[], rfl, .nil, fun x => by simp [empty x]⟩, fun _ e => (nomatch e), fun _ y occ => absurd occ (empty y)⟩

/-- A first occurrence at or before `now` is counted, and the search goes on after it. -/
theorem Passed.Finds.passed (head : FirstOf o P Q) (le : secondNumber o ≤ now) (rest : f.Finds Q now (k + 1)) :
    f.Finds P now k := by
  obtain ⟨⟨l, length, sorted, mem⟩, first, last⟩ := rest
  refine ⟨⟨o :: l, by rw [List.length_cons]; omega, ?_, fun x => ?_⟩, fun x e => ?_, fun e y occ => ?_⟩
  · exact List.pairwise_cons.mpr ⟨fun x hx => head.before x ((mem x).mp hx).1, sorted⟩
  · rw [List.mem_cons, mem, head.split]
    constructor
    · rintro (rfl | ⟨occ, reached⟩)
      · exact ⟨.inl rfl, le⟩
      · exact ⟨.inr occ, reached⟩
    · rintro ⟨rfl | occ, reached⟩
      · exact .inl rfl
      · exact .inr ⟨occ, reached⟩
  · obtain ⟨occ, after, least⟩ := first x e
    refine ⟨(head.split x).mpr (.inr occ), after, fun y occ' after' => ?_⟩
    obtain rfl | occ' := (head.split y).mp occ'
    · omega
    · exact least y occ' after'
  · obtain rfl | occ := (head.split y).mp occ
    · exact le
    · exact last e y occ

/-- A first occurrence after `now` is the next, and nothing more is counted. -/
theorem Passed.Finds.next (head : FirstOf o P Q) (gt : now < secondNumber o) : Passed.Finds ⟨k, some o⟩ P now k := by
  have least : ∀ x, P x → secondNumber o ≤ secondNumber x := fun x occ => by
    obtain rfl | occ := (head.split x).mp occ
    · exact le_rfl
    · exact (head.before x occ).le
  refine ⟨⟨[], rfl, .nil, fun x => ?_⟩, fun x e => ?_, fun e => (nomatch e)⟩
  · refine iff_of_false List.not_mem_nil ?_
    rintro ⟨occ, reached⟩
    have := least x occ
    omega
  · cases e
    exact ⟨(head.split o).mpr (.inl rfl), gt, fun y occ _ => least y occ⟩

/-- The same search for occurrences described otherwise. -/
theorem Passed.Finds.congr (found : f.Finds Q now k) (same : ∀ x, P x ↔ Q x) : f.Finds P now k := by
  obtain rfl : P = Q := funext fun x => propext (same x)
  exact found

/-- Of real occurrences the next is the only first one after `now` (R62). -/
theorem Passed.Finds.next_iff (found : f.Finds P now k) (real : ∀ x, P x → x.real = true) (x : DateTime) :
    f.next = some x ↔ P x ∧ now < secondNumber x ∧ ∀ y, P y → now < secondNumber y → secondNumber x ≤ secondNumber y := by
  refine ⟨found.first x, ?_⟩
  rintro ⟨occ, after, least⟩
  cases e : f.next with
  | none => have := found.last e x occ; omega
  | some z =>
    obtain ⟨occ', after', least'⟩ := found.first z e
    have same := Nat.le_antisymm (least' x occ after) (least z occ' after')
    rw [secondNumber_injective (real z occ') (real x occ) same]

theorem Passed.Finds.next_eq_none_iff (found : f.Finds P now k) :
    f.next = none ↔ ∀ y, P y → secondNumber y ≤ now := by
  refine ⟨found.last, fun passed => ?_⟩
  cases e : f.next with
  | none => rfl
  | some z =>
    obtain ⟨occ, after, _⟩ := found.first z e
    exact absurd (passed z occ) (by omega)

end

/-! ### INTERVAL (R90) -/

section
variable {due now : DateTime} {len : Nat}

/-- The later occurrences of a rule of `len` seconds. -/
def laterInterval (len : Nat) (due x : DateTime) : Prop :=
  x.real = true ∧ ∃ j : Nat, 1 ≤ j ∧ secondNumber x = secondNumber due + j * len

theorem laterInterval_of_le {j : Nat} (one : 1 ≤ j) (range : secondNumber due + j * len ≤ Config.maxSecond) :
    laterInterval len due (ofSecondNumber (secondNumber due + j * len)) :=
  ⟨ofSecondNumber_real range, j, one, secondNumber_ofSecondNumber _⟩

/-- The occurrence of number `j` has passed when `j` is at most the quotient of R90. -/
theorem interval_passed_iff (pos : 0 < len) (le : secondNumber due ≤ secondNumber now) (j : Nat) :
    secondNumber due + j * len ≤ secondNumber now ↔ j ≤ (secondNumber now - secondNumber due) / len := by
  rw [Nat.le_div_iff_mul_le pos]
  omega

theorem passedInterval_finds (pos : 0 < len) (real : now.real = true) (le : secondNumber due ≤ secondNumber now) :
    (passedInterval len due now).Finds (laterInterval len due) (secondNumber now) 0 := by
  have passed := interval_passed_iff pos le
  have max := secondNumber_le real
  simp only [passedInterval]
  generalize (secondNumber now - secondNumber due) / len = k at passed ⊢
  have step {i j : Nat} (lt : i < j) : i * len < j * len := Nat.mul_lt_mul_of_pos_right lt pos
  refine ⟨⟨(List.range k).map fun j => ofSecondNumber (secondNumber due + (j + 1) * len), by simp, ?_, fun x => ?_⟩,
    fun x e => ?_, fun e y => ?_⟩
  · refine List.pairwise_map.mpr (List.pairwise_lt_range.imp fun {i j} lt => ?_)
    rw [secondNumber_ofSecondNumber, secondNumber_ofSecondNumber]
    exact Nat.add_lt_add_left (step (Nat.succ_lt_succ lt)) _
  · simp only [List.mem_map, List.mem_range]
    constructor
    · rintro ⟨j, lt, rfl⟩
      have reached := (passed (j + 1)).mpr lt
      exact ⟨laterInterval_of_le (by omega) (reached.trans max), by rwa [secondNumber_ofSecondNumber]⟩
    · rintro ⟨⟨realx, j, one, e⟩, reached⟩
      rw [e] at reached
      have lt := (passed j).mp reached
      exact ⟨j - 1, by omega, by rw [Nat.sub_add_cancel one, ← e, ofSecondNumber_secondNumber realx]⟩
  · simp only [Option.ite_none_right_eq_some, Option.some.injEq] at e
    obtain ⟨range, rfl⟩ := e
    have after := mt (passed (k + 1)).mp (by omega)
    refine ⟨laterInterval_of_le (by omega) range, by rw [secondNumber_ofSecondNumber]; omega, ?_⟩
    rintro y ⟨_, j, _, e⟩ gt
    rw [secondNumber_ofSecondNumber, e]
    have lt := mt (passed j).mpr (by omega)
    have := Nat.mul_le_mul_right len (show k + 1 ≤ j by omega)
    omega
  · rintro ⟨realy, j, _, ey⟩
    have range : ¬ secondNumber due + (k + 1) * len ≤ Config.maxSecond := fun range => by simp [range] at e
    have maxy := secondNumber_le realy
    rw [ey] at maxy ⊢
    refine (passed j).mpr (Nat.le_of_not_lt fun lt => range ?_)
    have := Nat.mul_le_mul_right len (show k + 1 ≤ j from lt)
    omega

end

/-! ### MONTHLY (R91) -/

/-- Of two real dates the one in the later month lies later (R61, R62). -/
theorem secondNumber_lt_of_monthCount_lt {x y : DateTime} (hx : x.real = true) (hy : y.real = true)
    (lt : monthCount x < monthCount y) : secondNumber x < secondNumber y := by
  obtain ⟨xlo, _, xm, xm', _⟩ := (DateTime.real_iff x).mp hx
  obtain ⟨ylo, _, ym, ym', _⟩ := (DateTime.real_iff y).mp hy
  have day : dayNumber x < dayNumber y := by
    have boundsX := dayNumber_bounds hx
    have boundsY := dayNumber_bounds hy
    unfold monthCount at lt
    obtain year | year : x.year < y.year ∨ x.year = y.year := by omega
    · have := firstDay_monotone (show x.year + 1 ≤ y.year from year)
      omega
    · have withinX := dayOfYear_bounds hx
      have withinY := dayOfYear_bounds hy
      rw [← year] at withinY boundsY
      have := daysOfMonths_monotone x.year (show x.month - 1 + 1 ≤ y.month - 1 by omega)
      omega
  have time := secondOfDay_lt hx
  unfold secondNumber
  omega

section
variable {step day : Nat} {due now : DateTime}

/-- The occurrences of a MONTHLY rule from the `j`-th on. -/
def monthlyFrom (step day : Nat) (due : DateTime) (j : Nat) (x : DateTime) : Prop :=
  ∃ i, j ≤ i ∧ monthlyOccurrence step day due i = some x

theorem monthlyOccurrence_eq_none {j : Nat} :
    monthlyOccurrence step day due j = none ↔ Config.maxMonth < monthCount due + j * step := by
  simp only [monthlyOccurrence]
  split
  · next beyond => exact iff_of_true rfl beyond
  · next within => exact iff_of_false (by simp) within

theorem monthlyOccurrence_monthCount {j : Nat} {x : DateTime} (h : monthlyOccurrence step day due j = some x) :
    monthCount x = monthCount due + j * step := by
  simp only [monthlyOccurrence] at h
  split at h
  · cases h
  · cases h
    simp only [monthCount]
    omega

/-- No occurrence follows one that lies beyond December 2099 (R63). -/
theorem monthlyFrom_none {j : Nat} (beyond : Config.maxMonth < monthCount due + j * step) (x : DateTime) :
    ¬ monthlyFrom step day due j x := by
  rintro ⟨i, le, occ⟩
  have later := Nat.mul_le_mul_right step le
  rw [monthlyOccurrence_eq_none.mpr (by omega)] at occ
  cases occ

theorem monthlyFrom_first (positive : 1 ≤ step) (one : 1 ≤ day) (real : due.real = true) {j : Nat} {o : DateTime}
    (occ : monthlyOccurrence step day due j = some o) :
    FirstOf o (monthlyFrom step day due j) (monthlyFrom step day due (j + 1)) := by
  refine ⟨fun x => ⟨?_, ?_⟩, ?_⟩
  · rintro ⟨i, le, occ'⟩
    obtain rfl | lt := Nat.eq_or_lt_of_le le
    · exact .inl (Option.some.inj (occ'.symm.trans occ))
    · exact .inr ⟨i, lt, occ'⟩
  · rintro (rfl | ⟨i, lt, occ'⟩)
    · exact ⟨j, le_rfl, occ⟩
    · exact ⟨i, Nat.le_of_succ_le lt, occ'⟩
  · rintro x ⟨i, lt, occ'⟩
    refine secondNumber_lt_of_monthCount_lt (monthlyOccurrence_real real one occ)
      (monthlyOccurrence_real real one occ') ?_
    rw [monthlyOccurrence_monthCount occ, monthlyOccurrence_monthCount occ']
    have := Nat.mul_lt_mul_of_pos_right (show j < i from lt) (show 0 < step from positive)
    omega

/-- The fuel of the scan outlasts the months of the range. -/
theorem scanMonthly_finds (positive : 1 ≤ step) (one : 1 ≤ day) (real : due.real = true) {fuel j : Nat}
    (enough : Config.maxMonth < fuel + j) (k : Nat) :
    (scanMonthly step day due now fuel j k).Finds (monthlyFrom step day due j) (secondNumber now) k := by
  induction fuel generalizing j k with
  | zero =>
    have := Nat.le_mul_of_pos_right j positive
    exact .nothing (monthlyFrom_none (by omega))
  | succ fuel ih =>
    rw [scanMonthly]
    cases occ : monthlyOccurrence step day due j with
    | none => exact .nothing (monthlyFrom_none (monthlyOccurrence_eq_none.mp occ))
    | some o =>
      have head := monthlyFrom_first positive one real occ
      by_cases le : secondNumber o ≤ secondNumber now
      · simp only [DateTime.atOrBefore, le, decide_true, if_true]
        exact .passed head le (ih (by omega) (k + 1))
      · simp only [DateTime.atOrBefore, le, decide_false, Bool.false_eq_true, if_false]
        exact .next head (by omega)

/-- The `j`-th later occurrence is the real date `j` steps of months on, on the intended or the last day of its month and
at the time of day of the due (R63, R91). -/
theorem monthlyOccurrence_eq_some_iff (one : 1 ≤ day) (real : due.real = true) {j : Nat} {x : DateTime} :
    monthlyOccurrence step day due j = some x ↔ x.real = true
      ∧ 12 * x.year + x.month = 12 * due.year + due.month + j * step
      ∧ x.day = min day (monthLength x.year x.month) ∧ secondOfDay x = secondOfDay due := by
  obtain ⟨dlo, _, dm, _⟩ := (DateTime.real_iff due).mp real
  constructor
  · intro occ
    have realx := monthlyOccurrence_real real one occ
    obtain ⟨xlo, _, xm, _⟩ := (DateTime.real_iff x).mp realx
    have count := monthlyOccurrence_monthCount occ
    refine ⟨realx, by unfold monthCount at count; omega, ?_⟩
    simp only [monthlyOccurrence] at occ
    split at occ
    · cases occ
    · cases occ; exact ⟨rfl, rfl⟩
  · rintro ⟨realx, month, onDay, time⟩
    obtain ⟨xlo, xhi, xm, xm', _⟩ := (DateTime.real_iff x).mp realx
    have count : monthCount due + j * step = monthCount x := by unfold monthCount; omega
    have within : ¬ Config.maxMonth < monthCount x := by rw [monthCount, Config.maxMonth]; omega
    have year : 2000 + monthCount x / 12 = x.year := by unfold monthCount; omega
    have month : monthCount x % 12 + 1 = x.month := by unfold monthCount; omega
    cases occ : monthlyOccurrence step day due j with
    | none => exact absurd (monthlyOccurrence_eq_none.mp occ) (by rwa [count])
    | some o =>
      refine congrArg some (secondNumber_injective (monthlyOccurrence_real real one occ) realx ?_)
      simp only [monthlyOccurrence, count, if_neg within, year, month, ← onDay, Option.some.injEq] at occ
      subst occ
      exact congrArg (86400 * dayNumber x + ·) time.symm

/-- The occurrences counted are the later ones of the rule (R91). -/
theorem later_monthly_iff (one : 1 ≤ day) (real : due.real = true) (x : DateTime) :
    (Rule.monthly step day).Later due x ↔ monthlyFrom step day due 1 x := by
  simp only [Rule.Later, monthlyFrom, monthlyOccurrence_eq_some_iff one real]
  constructor
  · rintro ⟨realx, j, first, occ⟩
    exact ⟨j, first, realx, occ⟩
  · rintro ⟨j, first, realx, occ⟩
    exact ⟨realx, j, first, occ⟩

end

/-! ### WEEKDAYS (R92) -/

section
variable {set : Byte} {second now : Nat}

/-- The occurrences of a WEEKDAYS rule at a second of the day, from a day number on. -/
def weekdaysFrom (set : Byte) (second day : Nat) (x : DateTime) : Prop :=
  x.real = true ∧ day ≤ dayNumber x ∧ inWeekdaySet set (weekdayOf x) = true ∧ secondOfDay x = second

theorem secondNumber_ofDayAndSecond (day second : Nat) :
    secondNumber (ofDayAndSecond day second) = 86400 * day + second := by
  rw [secondNumber, dayNumber_ofDayAndSecond, secondOfDay_ofDayAndSecond]

/-- No occurrence lies on a day above 36524. -/
theorem weekdaysFrom_none {day : Nat} (beyond : Config.maxDay < day) (x : DateTime) : ¬ weekdaysFrom set second day x := by
  rintro ⟨real, le, _⟩
  have := dayNumber_le real
  omega

theorem weekdaysFrom_first {day : Nat} (range : day ≤ Config.maxDay) (lt : second < 86400)
    (inSet : inWeekdaySet set (weekdayOfDay day) = true) :
    FirstOf (ofDayAndSecond day second) (weekdaysFrom set second day) (weekdaysFrom set second (day + 1)) := by
  refine ⟨fun x => ⟨?_, ?_⟩, ?_⟩
  · rintro ⟨real, le, weekday, time⟩
    obtain same | later := Nat.eq_or_lt_of_le le
    · refine .inl (secondNumber_injective real (ofDayAndSecond_real range lt) ?_)
      rw [secondNumber_ofDayAndSecond, secondNumber, ← same, time]
    · exact .inr ⟨real, later, weekday, time⟩
  · rintro (rfl | ⟨real, later, weekday, time⟩)
    · refine ⟨ofDayAndSecond_real range lt, ?_, ?_, secondOfDay_ofDayAndSecond _ _⟩
      · rw [dayNumber_ofDayAndSecond]
      · rwa [weekdayOf, dayNumber_ofDayAndSecond]
    · exact ⟨real, Nat.le_of_succ_le later, weekday, time⟩
  · rintro x ⟨real, later, _, time⟩
    rw [secondNumber_ofDayAndSecond, secondNumber, time]
    omega

/-- A day whose weekday is not in the set holds no occurrence. -/
theorem weekdaysFrom_skip {day : Nat} (out : ¬ inWeekdaySet set (weekdayOfDay day) = true) (x : DateTime) :
    weekdaysFrom set second day x ↔ weekdaysFrom set second (day + 1) x := by
  constructor
  · rintro ⟨real, le, weekday, time⟩
    obtain rfl | later := Nat.eq_or_lt_of_le le
    · exact absurd weekday out
    · exact ⟨real, later, weekday, time⟩
  · rintro ⟨real, later, weekday, time⟩
    exact ⟨real, Nat.le_of_succ_le later, weekday, time⟩

/-- The fuel of the scan outlasts the days of the range. -/
theorem scanWeekdays_finds (lt : second < 86400) {fuel day : Nat} (enough : Config.maxDay < fuel + day) (k : Nat) :
    (scanWeekdays set second now fuel day k).Finds (weekdaysFrom set second day) now k := by
  induction fuel generalizing day k with
  | zero => exact .nothing (weekdaysFrom_none (by omega))
  | succ fuel ih =>
    have rest (k : Nat) := ih (day := day + 1) (by omega) k
    rw [scanWeekdays]
    split
    · next beyond => exact .nothing (weekdaysFrom_none beyond)
    next range =>
    split
    · next inSet =>
      have head := weekdaysFrom_first (Nat.not_lt.mp range) lt inSet
      have number := secondNumber_ofDayAndSecond day second
      split
      · next le => exact .passed head (by rwa [number]) (rest (k + 1))
      · next gt => exact .next head (by rw [number]; omega)
    · next out => exact (rest k).congr (weekdaysFrom_skip out)

end

/-! ### Every rule (R89) -/

/-- A firing searches the later occurrences of its rule. -/
theorem passed_finds {r : Rule} {due now : DateTime} (lawful : r.lawful = true) (real : due.real = true)
    (realNow : now.real = true) (le : secondNumber due ≤ secondNumber now) :
    (passed r due now).Finds (r.Later due) (secondNumber now) 0 := by
  cases r with
  | single => exact .nothing fun x later => later.2
  | interval d h m s =>
    have pos : 0 < intervalSeconds d h m s := by
      simp only [Rule.lawful, Bool.and_eq_true, Bool.or_eq_true, bne_iff_ne] at lawful
      unfold intervalSeconds
      omega
    exact passedInterval_finds pos realNow le
  | monthly step day =>
    simp only [Rule.lawful, Bool.and_eq_true, decide_eq_true_eq] at lawful
    obtain ⟨⟨⟨positive, _⟩, one⟩, _⟩ := lawful
    exact (scanMonthly_finds positive one real (by decide) 0).congr (later_monthly_iff one real)
  | weekdays set =>
    have enough : Config.maxDay < 36526 + (dayNumber due + 1) := by
      simp only [Config.maxDay]
      omega
    exact scanWeekdays_finds (secondOfDay_lt real) enough 0

/-- Settles O46. -/
theorem firingCountsTheOccurrencesPassed : Obligations.FiringCountsTheOccurrencesPassed := by
  intro r due now lawful real realNow le
  have found := passed_finds lawful real realNow le
  obtain ⟨l, length, sorted, mem⟩ := found.counted
  exact ⟨⟨l, (Nat.zero_add _).symm.trans length, sorted, mem⟩, found.next_iff fun _ later => later.1,
    found.next_eq_none_iff⟩

end Sys2Proof.Machine
end

section
/-! FIRE at the table: when it fires, and what a firing leaves of the order and of its group (R87, R88, R93 to R97, R102). -/

namespace Sys2Proof.Machine

/-! ### What a FIRE finds (R87) -/

section
variable {t : Table} {h : InHand} {x : DueEntry}

theorem Table.fire_unset (unset : h.valid = false) : t.fire h = t := by simp [Table.fire, unset]

theorem Table.fire_empty (empty : t.head = none) : t.fire h = t := by simp [Table.fire, empty]

theorem Table.fire_early (head : t.head = some x) (early : secondNumber h.now < secondNumber x.due) : t.fire h = t := by
  simp [Table.fire, head, DateTime.atOrBefore, early]

theorem Table.fire_head {o : Order} (valid : h.valid = true) (head : t.head = some x)
    (due : secondNumber x.due ≤ secondNumber h.now) (order : t.order x.slot = some o) :
    t.fire h = t.fireOrder h x.slot o x.due := by
  simp [Table.fire, valid, head, DateTime.atOrBefore, due, order]

end

/-! ### What a firing leaves (R88, R94 to R96) -/

section
variable (t : Table) (h : InHand) (i : Fin 64) {o : Order} {d : DateTime}

theorem Table.fireOrder_dropped (dropped : secondNumber d < secondNumber h.now ∧ o.policy = .drop) :
    t.fireOrder h i o d = t.setOrder i { o.advanced (passed o.rule d h.now) with skipped := true } :=
  if_pos dropped

theorem Table.fireOrder_member {m : Member} (counts : ¬ (secondNumber d < secondNumber h.now ∧ o.policy = .drop))
    (member : o.member = some m) : t.fireOrder h i o d =
      (t.setOrder i (o.advanced (passed o.rule d h.now)).counted).setGroup m.group
        ((t.group m.group).fired m.position) := by
  simp only [Table.fireOrder, if_neg counts, member]

theorem Table.fireOrder_alone (counts : ¬ (secondNumber d < secondNumber h.now ∧ o.policy = .drop))
    (alone : o.member = none) : t.fireOrder h i o d =
      t.setOrder i ((o.advanced (passed o.rule d h.now)).counted.call1 (passed o.rule d h.now).k
        (t.fireDeadline h.elapsed)) := by
  simp only [Table.fireOrder, if_neg counts, alone]

end

/-- A firing of a member changes the factor and the call of the group alone (R95, R142). -/
theorem Group.fired_eq (g : Group) (pos : Fin 8) : g.fired pos = { g with
    factor := g.factor ||| positionBit pos
    call := if g.call = none ∧ (g.factor ||| positionBit pos) &&& g.enable ≠ 0 then some .raised else g.call } :=
  Group.raise_eq _

section
variable {o : Order} (k : Nat) (start : Byte → Option Elapsed)

theorem Order.call1_silent (silent : o.level = 7) : o.call1 k start = o := if_pos silent

theorem Order.call1_raises (loud : o.level ≠ 7) (absent : o.call = none) : o.call1 k start =
    { o with call := some ⟨.raised, o.level, start o.window⟩, missed := min 15 (o.missed + k) } := by
  simp only [Order.call1, if_neg loud, absent]
  rfl

theorem Order.call1_misses (loud : o.level ≠ 7) (present : o.call ≠ none) :
    o.call1 k start = { o with missed := min 15 (o.missed + (1 + k)) } := by
  obtain ⟨c, call⟩ := Option.ne_none_iff_exists'.mp present
  simp only [Order.call1, if_neg loud, call]
  rfl

end

/-! ### FIRE in hand (R28, R87) -/

section
variable {s : State} {h : InHand}

/-- A FIRE in hand completes with what the table makes of it. -/
theorem CarriesSched.fires (hs : CarriesSched s .fire h) {t : Table} (fired : s.table.fire h = t)
    (rest : t.arbiter = s.table.arbiter) : Serves .fire s t s.alerts := by
  have row : exec .fire s = .next (s.setTable t).completeSched := by
    simp only [exec, execFire, whileReliable, hs.reliable, if_true, State.fire, hs.inHand, hs.request, fired]
  exact ⟨_, row, State.completeSched_completion rfl rest rfl rfl ⟨rfl, rfl, rfl, rfl, rfl, rfl, rfl⟩ fun _ => rfl⟩

/-- The same where the head is due: its order is fired. -/
theorem CarriesSched.firesHead (hs : CarriesSched s .fire h) {x : DueEntry} {o : Order} {t : Table}
    (valid : h.valid = true) (head : s.table.head = some x) (due : secondNumber x.due ≤ secondNumber h.now)
    (order : s.table.order x.slot = some o) (fired : s.table.fireOrder h x.slot o x.due = t)
    (rest : t.arbiter = s.table.arbiter) : Serves .fire s t s.alerts :=
  hs.fires ((Table.fire_head valid head due order).trans fired) rest

end

/-- Settles O47. -/
theorem fireFiresTheHead : Obligations.FireFiresTheHead := by
  intro h s hs t
  refine ⟨?_, fun x o valid head due order => ?_⟩
  · rintro (unset | empty | ⟨x, head, early⟩)
    · exact hs.fires (Table.fire_unset unset) rfl
    · exact hs.fires (Table.fire_empty empty) rfl
    · exact hs.fires (Table.fire_early head early) rfl
  intro f remaining standing placed counted late
  have fires {u : Table} := hs.firesHead (t := u) valid head due order
  refine ⟨fun isLate drop => fires (t.fireOrder_dropped h x.slot ⟨isLate, drop⟩) rfl, fun counts => ?_⟩
  have alone (member : o.member = none) := t.fireOrder_alone h x.slot counts member
  refine ⟨fun m member => ?_, fun member silent => ?_, fun member loud absent => ?_, fun member loud present => ?_⟩
  · refine fires ((t.fireOrder_member h x.slot counts member).trans ?_) rfl
    exact congrArg ((t.setOrder x.slot counted).setGroup m.group) (Group.fired_eq _ _)
  · exact fires ((alone member).trans (congrArg (t.setOrder x.slot) (Order.call1_silent _ _ silent))) rfl
  · exact fires ((alone member).trans (congrArg (t.setOrder x.slot) (Order.call1_raises _ _ loud absent))) rfl
  · exact fires ((alone member).trans (congrArg (t.setOrder x.slot) (Order.call1_misses _ _ loud present))) rfl

end Sys2Proof.Machine
end

section
/-! The deadlines a table holds, the earliest lapsed one, and the one presented to the scheduler (R83, R128, R130). -/

namespace Sys2Proof.Machine

/-! ### The first deadline of greatest lapse amount (R130) -/

/-- `x` has lapsed, its lapse amount is above that of every lapsed deadline before it in the list, and none after it has a
greater one. -/
def FirstGreatest (e : Elapsed) (l : List (DeadlineHolder × Elapsed)) (x : DeadlineHolder × Elapsed) : Prop :=
  ∃ pre post, l = pre ++ x :: post ∧ lapsed x.2 e = true
    ∧ (∀ y ∈ pre, lapsed y.2 e = true → lapseAmount y.2 e < lapseAmount x.2 e)
    ∧ ∀ y ∈ post, lapsed y.2 e = true → lapseAmount y.2 e ≤ lapseAmount x.2 e

section
variable {e : Elapsed} {l : List (DeadlineHolder × Elapsed)} {d x : DeadlineHolder × Elapsed}

/-- It is the first of the list, or the first greatest of the rest and above the first of the list. -/
theorem firstGreatest_cons : FirstGreatest e (d :: l) x ↔
    (x = d ∧ lapsed d.2 e = true ∧ ∀ y ∈ l, lapsed y.2 e = true → lapseAmount y.2 e ≤ lapseAmount d.2 e)
    ∨ FirstGreatest e l x ∧ (lapsed d.2 e = true → lapseAmount d.2 e < lapseAmount x.2 e) := by
  constructor
  · rintro ⟨pre, post, split, lap, before, after⟩
    cases pre with
    | nil =>
      obtain ⟨rfl, rfl⟩ := List.cons.inj split
      exact .inl ⟨rfl, lap, after⟩
    | cons y pre =>
      obtain ⟨rfl, rfl⟩ := List.cons.inj split
      obtain ⟨first, before⟩ := List.forall_mem_cons.mp before
      exact .inr ⟨⟨pre, post, rfl, lap, before, after⟩, first⟩
  · rintro (⟨rfl, lap, after⟩ | ⟨⟨pre, post, rfl, lap, before, after⟩, first⟩)
    · exact ⟨[], l, rfl, lap, fun y hy => absurd hy List.not_mem_nil, after⟩
    · exact ⟨d :: pre, post, rfl, lap, List.forall_mem_cons.mpr ⟨first, before⟩, after⟩

theorem FirstGreatest.mem (h : FirstGreatest e l x) : x ∈ l ∧ lapsed x.2 e = true := by
  obtain ⟨pre, post, rfl, lap, _⟩ := h
  exact ⟨by simp, lap⟩

theorem FirstGreatest.le (h : FirstGreatest e l x) {y : DeadlineHolder × Elapsed} (mem : y ∈ l)
    (lap : lapsed y.2 e = true) : lapseAmount y.2 e ≤ lapseAmount x.2 e := by
  obtain ⟨pre, post, rfl, _, before, after⟩ := h
  obtain inPre | rfl | inPost := by simpa using mem
  · exact (before y inPre lap).le
  · exact le_rfl
  · exact after y inPost lap

/-- What the choice does at the first of the list. -/
theorem earliestLapsed_cons : earliestLapsed e (d :: l) = some x ↔
    (x = d ∧ lapsed d.2 e = true ∧ ∀ b, earliestLapsed e l = some b → lapseAmount b.2 e ≤ lapseAmount d.2 e)
    ∨ earliestLapsed e l = some x ∧ (lapsed d.2 e = true → lapseAmount d.2 e < lapseAmount x.2 e) := by
  rw [earliestLapsed]
  by_cases lap : lapsed d.2 e = true
  · rw [if_pos lap]
    cases earliestLapsed e l with
    | none => simp [lap, eq_comm]
    | some b =>
      dsimp only
      split
      · next more =>
        simp only [Option.some.injEq, forall_eq', Nat.not_le.mpr more, and_false, false_or, lap, forall_const]
        exact ⟨fun same => ⟨same, same ▸ more⟩, And.left⟩
      · next most =>
        simp only [Option.some.injEq, forall_eq', Nat.not_lt.mp most, and_true, lap, forall_const]
        refine ⟨fun same => .inl same.symm, ?_⟩
        rintro (same | ⟨rfl, more⟩)
        · exact same.symm
        · exact absurd more most
  · simp [lap]

/-- The choice of the model is that of R130. -/
theorem earliestLapsed_iff : earliestLapsed e l = some x ↔ FirstGreatest e l x := by
  induction l generalizing x with
  | nil => exact iff_of_false (by simp [earliestLapsed]) fun h => absurd h.mem.1 List.not_mem_nil
  | cons d l ih =>
    have above : (∀ b, FirstGreatest e l b → lapseAmount b.2 e ≤ lapseAmount d.2 e)
        ↔ ∀ y ∈ l, lapsed y.2 e = true → lapseAmount y.2 e ≤ lapseAmount d.2 e := by
      refine ⟨fun bound y mem lap => ?_, fun bound b greatest => bound b greatest.mem.1 greatest.mem.2⟩
      obtain ⟨b, chosen⟩ := Option.ne_none_iff_exists'.mp fun unlapsed => earliestLapsed_eq_none.mp unlapsed y mem lap
      exact ((ih.mp chosen).le mem lap).trans (bound b (ih.mp chosen))
    simp only [earliestLapsed_cons, firstGreatest_cons, ih, above]

end

/-! ### The deadlines held, in their order (R130) -/

section
variable {t : Table} {d : Elapsed}

theorem Order.raisedDeadline_eq_some {o : Order} :
    o.raisedDeadline = some d ↔ ∃ c, o.call = some c ∧ c.state = .raised ∧ c.deadline = some d := by
  unfold Order.raisedDeadline
  cases o.call <;> simp

theorem Table.callDeadlines_holder {x : DeadlineHolder × Elapsed} (h : x ∈ t.callDeadlines) : ∃ i, x.1 = .call i := by
  obtain ⟨i, _, h⟩ := List.mem_filterMap.mp h
  obtain ⟨_, _, rfl⟩ := Option.map_eq_some_iff.mp h
  exact ⟨i, rfl⟩

theorem Table.mem_callDeadlines {i : Fin 64} {o : Order} (order : t.order i = some o) (h : o.raisedDeadline = some d) :
    (.call i, d) ∈ t.callDeadlines :=
  List.mem_filterMap.mpr ⟨i, mem_allSlots i, by rw [order, Option.bind_some, h, Option.map_some]⟩

/-- The deadlines of raised order calls stand by slot (R130, item 2). -/
theorem Table.callDeadlines_preferred (t : Table) : t.callDeadlines.Pairwise fun x y => x.1.preferred y.1 := by
  refine allSlots_sorted.filterMap _ fun i j lt x hx y hy => ?_
  obtain ⟨_, _, rfl⟩ := Option.map_eq_some_iff.mp hx
  obtain ⟨_, _, rfl⟩ := Option.map_eq_some_iff.mp hy
  exact lt

/-- The finish deadlines of a stack stand from the top down, the lower preferred (R130, item 4). -/
theorem entryDeadlines_preferred (p : Port) (n : Nat) (l : List Entry) :
    (entryDeadlines p n l).Pairwise fun x y => y.1.preferred x.1 := by
  induction l generalizing n with
  | nil => exact .nil
  | cons x l ih =>
    rw [entryDeadlines]
    split
    · refine List.pairwise_cons.mpr ⟨?_, ih (n + 1)⟩
      rintro ⟨_, d⟩ mem
      obtain ⟨k, rfl⟩ := entryDeadlines_holder mem
      obtain ⟨_, lower, _⟩ := mem_entryDeadlines.mp mem
      exact .inr ⟨rfl, lower⟩
    · exact ih (n + 1)

/-- Order calls come first, then the entries of port A, then those of port B (R130, items 2 to 4). -/
theorem Table.deadlines_preferred (t : Table) : t.deadlines.Pairwise fun x y => x.1.preferred y.1 := by
  have entries (p : Port) (l : List Entry) := List.pairwise_reverse.mpr (entryDeadlines_preferred p 0 l)
  refine List.pairwise_append.mpr ⟨List.pairwise_append.mpr ⟨t.callDeadlines_preferred, entries .A _, ?_⟩,
    entries .B _, ?_⟩
  · rintro ⟨_, _⟩ call ⟨_, _⟩ entry
    obtain ⟨i, rfl⟩ := Table.callDeadlines_holder call
    obtain ⟨k, rfl⟩ := entryDeadlines_holder (List.mem_reverse.mp entry)
    trivial
  · rintro ⟨_, _⟩ other ⟨_, _⟩ entry
    obtain ⟨k, rfl⟩ := entryDeadlines_holder (List.mem_reverse.mp entry)
    obtain call | entryA := List.mem_append.mp other
    · obtain ⟨i, rfl⟩ := Table.callDeadlines_holder call
      trivial
    · obtain ⟨j, rfl⟩ := entryDeadlines_holder (List.mem_reverse.mp entryA)
      exact .inl ⟨rfl, rfl⟩

/-- The deadlines of calls are those of the RAISED calls of orders (R128). -/
theorem Table.call_mem_deadlines {i : Fin 64} : (DeadlineHolder.call i, d) ∈ t.deadlines ↔
    ∃ o c, t.order i = some o ∧ o.call = some c ∧ c.state = .raised ∧ c.deadline = some d := by
  refine ⟨Table.deadlines_call, ?_⟩
  rintro ⟨o, c, order, call⟩
  exact List.mem_append_left _ (List.mem_append_left _
    (Table.mem_callDeadlines order (Order.raisedDeadline_eq_some.mpr ⟨c, call⟩)))

/-- The deadlines of entries are those of the stacks (R128). -/
theorem Table.entry_mem_deadlines {p : Port} {n : Nat} : (DeadlineHolder.entry p n, d) ∈ t.deadlines ↔
    ∃ x : Entry, (t.contexts.get p).stack[n]? = some x ∧ x.deadline = some d := by
  have noCall : (DeadlineHolder.entry p n, d) ∉ t.callDeadlines := fun h => by
    obtain ⟨_, e⟩ := Table.callDeadlines_holder h
    cases e
  simp only [Table.deadlines, List.mem_append, List.mem_reverse, mem_entryDeadlines, noCall, false_or, Nat.zero_le,
    Nat.sub_zero, true_and]
  cases p <;> simp

end

/-- Settles O48. -/
theorem earliestLapsedDeadlineIsChosen : Obligations.EarliestLapsedDeadlineIsChosen := by
  intro t e reached remaining
  refine ⟨t.deadlines_preferred, fun x => ?_, ?_, nearest_eq_none, fun d view => ?_, fun i d => Table.call_mem_deadlines,
    fun p n d => Table.entry_mem_deadlines⟩
  · simpa only [FirstGreatest, lapsed_iff, lapseAmount] using earliestLapsed_iff
  · simpa only [lapsed_iff] using earliestLapsed_eq_none
  · simpa only [secondsRemaining_eq] using nearest_least view

end Sys2Proof.Machine
end

section
/-! The best offered call of a port (R109, R110). -/

namespace Sys2Proof.Machine

section
variable {t : Table} {p : Port} {x : RaisedCall}

theorem Table.mem_offered : x ∈ t.offered p ↔ t.raises p x ∧ x.level < (t.contexts.get p).ceiling := by
  rw [Table.offered, List.mem_filter, Table.mem_raisedCalls, decide_eq_true_eq]

/-- The best offered call stands before every other offered call. -/
theorem Table.bestOffered_eq_some : t.bestOffered p = some x ↔
    (t.raises p x ∧ x.level < (t.contexts.get p).ceiling)
      ∧ ∀ y, t.raises p y → y.level < (t.contexts.get p).ceiling → y = x ∨ x.before y := by
  rw [Table.bestOffered, Table.offered, lowest_some ((t.raisedCalls_sorted p).filter _), ← Table.offered]
  simp only [Table.mem_offered, and_imp]

theorem Table.bestOffered_raises (best : t.bestOffered p = some x) : t.raises p x :=
  (Table.bestOffered_eq_some.mp best).1.1

theorem Table.offered_eq_nil : t.offered p = [] ↔ ∀ y, t.raises p y → (t.contexts.get p).ceiling ≤ y.level := by
  simp only [List.eq_nil_iff_forall_not_mem, Table.mem_offered, not_and, Nat.not_lt]

theorem Table.bestOffered_eq_none :
    t.bestOffered p = none ↔ ∀ y, t.raises p y → (t.contexts.get p).ceiling ≤ y.level :=
  lowest_eq_none.trans Table.offered_eq_nil

theorem Table.offers_iff : t.offers p = true ↔ ∃ y, t.raises p y ∧ y.level < (t.contexts.get p).ceiling := by
  rw [Table.offers, Bool.not_eq_true', List.isEmpty_eq_false_iff_exists_mem]
  simp only [Table.mem_offered]

end

/-- Settles O33: the offered calls stand in source order, and the first of lowest level is chosen. -/
theorem bestOfferedCallIsTheLowest : Obligations.BestOfferedCallIsTheLowest := by
  intro t p c ceiling
  have same : c.ceiling = ceiling := rfl
  rw [← same]
  exact ⟨rfl, fun x => Table.bestOffered_eq_some.trans and_assoc, Table.bestOffered_eq_none, Table.offers_iff⟩

end Sys2Proof.Machine
end

section
/-! The law of the taken calls as a graph (R107): the entries of both stacks that are not marked retired are, each once,
the pairs of a source and the TAKEN call it names. -/

namespace Sys2Proof.Machine

/-! ### Lists of pairs that are the graph of a partial function -/

section
variable {α β : Type}

/-- A list of pairs names no key twice and holds the values of a partial function. -/
structure IsGraph (l : List (α × β)) (f : α → Option β) : Prop where
  once : (l.map Prod.fst).Nodup
  mem_iff : ∀ x v, (x, v) ∈ l ↔ f x = some v

variable {l k : List (α × β)} {f : α → Option β}

theorem IsGraph.nil : IsGraph ([] : List (α × β)) fun _ => none := ⟨List.nodup_nil, fun _ _ => ⟨nofun, nofun⟩⟩

theorem IsGraph.perm (h : IsGraph l f) (perm : l.Perm k) : IsGraph k f :=
  ⟨(perm.map Prod.fst).nodup_iff.mp h.once, fun x v => perm.mem_iff.symm.trans (h.mem_iff x v)⟩

variable [DecidableEq α]

/-- A pair with a new key is added. -/
theorem IsGraph.cons (h : IsGraph l f) {x : α} (fresh : f x = none) (v : β) :
    IsGraph ((x, v) :: l) (Function.update f x (some v)) where
  once := by
    refine List.nodup_cons.mpr ⟨fun mem => ?_, h.once⟩
    obtain ⟨⟨y, w⟩, pair, rfl⟩ := List.mem_map.mp mem
    exact nomatch fresh.symm.trans ((h.mem_iff y w).mp pair)
  mem_iff y w := by
    rw [List.mem_cons, Prod.mk.injEq, h.mem_iff]
    by_cases same : y = x
    · subst same
      simp [fresh, eq_comm]
    · simp [same]

/-- The pairs of a key are left out. -/
theorem IsGraph.without (h : IsGraph l f) (x : α) :
    IsGraph (l.filter fun a => a.1 ≠ x) (Function.update f x none) where
  once := h.once.sublist (List.filter_sublist.map Prod.fst)
  mem_iff y w := by
    rw [List.mem_filter, h.mem_iff]
    by_cases same : y = x
    · subst same
      simp
    · simp [same]

/-- The first pair is dropped. -/
theorem IsGraph.tail {x : α} {v : β} (h : IsGraph ((x, v) :: l) f) : IsGraph l (Function.update f x none) := by
  obtain ⟨fresh, _⟩ := List.nodup_cons.mp h.once
  have without := h.without x
  rwa [List.filter_cons_of_neg (by simp), List.filter_eq_self.mpr fun a mem => ?_] at without
  exact decide_eq_true fun same => fresh (List.mem_map.mpr ⟨a, mem, same⟩)

end

/-! ### What the entries name -/

/-- What an entry of a port's stack names: a source with the port it answers and the taken level, or nothing where it
is marked retired. -/
def Entry.naming (p : Port) (e : Entry) : Option (Source × Port × Nat) :=
  if e.retired then none else some (e.source, p, e.level)

theorem Entry.naming_retired {p : Port} {e : Entry} (retired : e.retired = true) : e.naming p = none := if_pos retired

theorem Entry.naming_live {p : Port} {e : Entry} (live : e.retired = false) :
    e.naming p = some (e.source, p, e.level) := if_neg (by simp [live])

theorem Entry.naming_eq_some {p q : Port} {e : Entry} {x : Source} {level : Nat} :
    e.naming q = some (x, p, level) ↔ e.Names x ∧ q = p ∧ e.level = level := by
  unfold Entry.naming Entry.Names
  cases e.retired <;> simp

/-- What the entries of a port's context name. -/
def Context.named (c : Context) (p : Port) : List (Source × Port × Nat) := c.stack.filterMap (Entry.naming p)

/-- What the entries of both stacks name. -/
def Table.named (t : Table) : List (Source × Port × Nat) := (t.contexts.get .A).named .A ++ (t.contexts.get .B).named .B

theorem Context.named_sources (c : Context) (p : Port) : (c.named p).map Prod.fst = c.sources := by
  unfold Context.named Context.sources
  induction c.stack with
  | nil => rfl
  | cons e l ih =>
    cases live : e.retired with
    | true => rw [List.filterMap_cons_none (Entry.naming_retired live), List.filter_cons_of_neg (by simp [live]), ih]
    | false =>
      rw [List.filterMap_cons_some (Entry.naming_live live), List.filter_cons_of_pos (by simp [live]), List.map_cons,
        List.map_cons, ih]

theorem Context.mem_named {c : Context} {p q : Port} {x : Source} {level : Nat} :
    (x, p, level) ∈ c.named q ↔ q = p ∧ ∃ e ∈ c.stack, e.Names x ∧ e.level = level := by
  simp only [Context.named, List.mem_filterMap, Entry.naming_eq_some]
  constructor
  · rintro ⟨e, mem, names, port, at_⟩
    exact ⟨port, e, mem, names, at_⟩
  · rintro ⟨port, e, mem, names, at_⟩
    exact ⟨e, mem, names, port, at_⟩

theorem Table.mem_named {t : Table} {p : Port} {x : Source} {level : Nat} :
    (x, p, level) ∈ t.named ↔ ∃ e ∈ (t.contexts.get p).stack, e.Names x ∧ e.level = level := by
  rw [Table.named, List.mem_append, Context.mem_named, Context.mem_named]
  cases p <;> simp

theorem Context.mem_sources {c : Context} {x : Source} : x ∈ c.sources ↔ ∃ e ∈ c.stack, e.Names x := by
  simp only [Context.sources, List.mem_map, List.mem_filter, Bool.not_eq_true', and_assoc, Entry.Names]

/-! ### The taken calls of a table -/

/-- The port and the level of an order's call, where it is TAKEN. -/
def Order.takenCall (o : Order) : Option (Port × Nat) :=
  o.call.bind fun c => if c.state = .taken then some (o.answering, c.level) else none

/-- The port and the level of a group's call, where it is TAKEN. -/
def Group.takenCall (g : Group) : Option (Port × Nat) :=
  if g.call = some .taken then g.config.map fun c => (c.answering, c.level) else none

/-- The TAKEN call that a source names (R107). -/
def Table.takenCall (t : Table) : Source → Option (Port × Nat)
  | .order i generation => if (t.slot i).generation = generation then (t.order i).bind Order.takenCall else none
  | .group g => (t.group g).takenCall

theorem Order.takenCall_eq_some {o : Order} {p : Port} {level : Nat} : o.takenCall = some (p, level) ↔
    ∃ c, o.call = some c ∧ c.state = .taken ∧ c.level = level ∧ o.answering = p := by
  simp only [Order.takenCall, Option.bind_eq_some_iff, Option.ite_none_right_eq_some, Option.some.injEq, Prod.mk.injEq,
    and_comm (a := o.answering = p)]

theorem Order.takenCall_of_not_taken {o : Order} (other : ∀ c, o.call = some c → c.state ≠ .taken) :
    o.takenCall = none :=
  Option.eq_none_iff_forall_ne_some.mpr fun ⟨_, _⟩ taken => by
    obtain ⟨c, call, state, _⟩ := Order.takenCall_eq_some.mp taken
    exact other c call state

theorem Group.takenCall_eq_some {g : Group} {p : Port} {level : Nat} : g.takenCall = some (p, level) ↔
    g.call = some .taken ∧ ∃ c, g.config = some c ∧ c.level = level ∧ c.answering = p := by
  simp only [Group.takenCall, Option.ite_none_right_eq_some, Option.map_eq_some_iff, Prod.mk.injEq,
    and_comm (a := _ = p)]

theorem Group.takenCall_of_not_taken {g : Group} (other : g.call ≠ some .taken) : g.takenCall = none := if_neg other

theorem Table.takenCall_order (t : Table) (i : Fin 64) :
    t.takenCall (.order i (t.slot i).generation) = (t.order i).bind Order.takenCall := if_pos rfl

/-- An entry is backed by the TAKEN call that its source names. -/
theorem Table.backs_iff {t : Table} {p : Port} {e : Entry} :
    t.Backs p e ↔ t.takenCall e.source = some (p, e.level) := by
  unfold Table.Backs
  cases e.source with
  | order i generation =>
    simp only [Table.takenCall, Option.ite_none_right_eq_some, Option.bind_eq_some_iff, Order.takenCall_eq_some,
      exists_and_left]
  | group g => exact Group.takenCall_eq_some.symm

/-! ### The law as a graph -/

/-- A TAKEN group call is a configured group's (R139). -/
def Group.CallConfigured (g : Group) : Prop := g.call = some .taken → g.config ≠ none

/-- An order that holds a membership has no call of its own (R12, R16). -/
def Order.CallAlone (o : Order) : Prop := o.member ≠ none → o.call = none

/-- An entry marked retired names an order's source (R106). -/
def Entry.OrdersRetire (e : Entry) : Prop := e.retired = true → ∃ i generation, e.source = .order i generation

/-- The law of the taken calls (R107): the entries name each TAKEN call once, and nothing else. -/
structure Table.CallsLaw (t : Table) : Prop where
  graph : IsGraph t.named t.takenCall
  retired : ∀ p, ∀ e ∈ (t.contexts.get p).stack, e.OrdersRetire
  configured : ∀ g, (t.group g).CallConfigured
  alone : t.EveryOrder Order.CallAlone

theorem Table.TakenLaw.callsLaw {t : Table} (h : t.TakenLaw) : t.CallsLaw where
  graph := by
    have backed : ∀ p, ∀ e ∈ (t.contexts.get p).stack, ∀ x, e.Names x → t.takenCall x = some (p, e.level) :=
      fun p e mem x ⟨live, source⟩ => source ▸ Table.backs_iff.mp (h.backed p e mem live)
    refine ⟨by rw [Table.named, List.map_append, Context.named_sources, Context.named_sources]; exact h.distinct,
      fun x ⟨p, level⟩ => Table.mem_named.trans ⟨?_, fun taken => ?_⟩⟩
    · rintro ⟨e, mem, names, rfl⟩
      exact backed p e mem x names
    · have source : x ∈ (t.contexts.get p).sources := by
        cases x with
        | order i generation =>
          obtain ⟨rfl, bound⟩ := Option.ite_none_right_eq_some.mp taken
          obtain ⟨o, order, own⟩ := Option.bind_eq_some_iff.mp bound
          obtain ⟨c, call, state, _, rfl⟩ := Order.takenCall_eq_some.mp own
          exact h.orders i o c order call state
        | group g =>
          obtain ⟨state, c, config, _, rfl⟩ := Group.takenCall_eq_some.mp taken
          obtain ⟨c', config', mem⟩ := h.groups g state
          cases config.symm.trans config'
          exact mem
      obtain ⟨e, mem, names⟩ := Context.mem_sources.mp source
      cases taken.symm.trans (backed p e mem x names)
      exact ⟨e, mem, names, rfl⟩
  retired := h.unretired
  configured g taken := by
    obtain ⟨c, config, _⟩ := h.groups g taken
    rw [config]
    nofun
  alone := h.grouped

theorem Table.CallsLaw.takenLaw {t : Table} (h : t.CallsLaw) : t.TakenLaw where
  backed p e mem live := Table.backs_iff.mpr <|
    (h.graph.mem_iff _ _).mp (Table.mem_named.mpr ⟨e, mem, ⟨live, rfl⟩, rfl⟩)
  distinct := by
    have once := h.graph.once
    rwa [Table.named, List.map_append, Context.named_sources, Context.named_sources] at once
  orders i o c order call state := by
    have taken : t.takenCall (.order i (t.slot i).generation) = some (o.answering, c.level) := by
      rw [Table.takenCall_order, order]
      exact Order.takenCall_eq_some.mpr ⟨c, call, state, rfl, rfl⟩
    obtain ⟨e, mem, names, _⟩ := Table.mem_named.mp ((h.graph.mem_iff _ _).mpr taken)
    exact Context.mem_sources.mpr ⟨e, mem, names⟩
  groups g state := by
    obtain ⟨c, config⟩ := Option.ne_none_iff_exists'.mp (h.configured g state)
    have taken : t.takenCall (.group g) = some (c.answering, c.level) :=
      Group.takenCall_eq_some.mpr ⟨state, c, config, rfl, rfl⟩
    obtain ⟨e, mem, names, _⟩ := Table.mem_named.mp ((h.graph.mem_iff _ _).mpr taken)
    exact ⟨c, config, Context.mem_sources.mpr ⟨e, mem, names⟩⟩
  unretired := h.retired
  grouped := h.alone

theorem Table.takenLaw_iff {t : Table} : t.TakenLaw ↔ t.CallsLaw :=
  ⟨Table.TakenLaw.callsLaw, Table.CallsLaw.takenLaw⟩

end Sys2Proof.Machine
end

section
/-! Which changes of an order or a group record keep its taken call (R107). -/

namespace Sys2Proof.Machine

/-! ### One group -/

/-- A change of a group that neither takes nor ends a TAKEN call, and leaves the configuration of a group whose call is
TAKEN. -/
structure Group.TakenKept (x y : Group) : Prop where
  call : y.call = some .taken ↔ x.call = some .taken
  config : x.call = some .taken → y.config = x.config

theorem Group.TakenKept.takenCall {x y : Group} (h : x.TakenKept y) : y.takenCall = x.takenCall := by
  unfold Group.takenCall
  by_cases taken : x.call = some .taken
  · rw [if_pos taken, if_pos (h.call.mpr taken), h.config taken]
  · rw [if_neg taken, if_neg (mt h.call.mp taken)]

theorem Group.TakenKept.callConfigured {x y : Group} (h : x.TakenKept y) (law : x.CallConfigured) :
    y.CallConfigured := fun taken => by
  have before := h.call.mp taken
  rw [h.config before]
  exact law before

/-- A group's call is left, or passes between NONE and RAISED. -/
theorem Group.TakenKept.of_judged {x y : Group} (config : y.config = x.config)
    (call : y.call = x.call ∨ x.call ≠ some .taken ∧ y.call ≠ some .taken) : x.TakenKept y := by
  refine ⟨?_, fun _ => config⟩
  obtain same | ⟨before, after⟩ := call
  · rw [same]
  · exact iff_of_false after before

theorem Group.TakenKept.trans {x y z : Group} (a : x.TakenKept y) (b : y.TakenKept z) : x.TakenKept z :=
  ⟨b.call.trans a.call, fun taken => (b.config (a.call.mpr taken)).trans (a.config taken)⟩

/-- A change that leaves the configuration and the call. -/
theorem Group.TakenKept.of_same {x y : Group} (config : y.config = x.config) (call : y.call = x.call) : x.TakenKept y :=
  .of_judged config (.inl call)

theorem Group.TakenKept.raise {x y : Group} (h : x.TakenKept y) : x.TakenKept y.raise := by
  refine h.trans ?_
  rw [Group.raise_eq]
  refine .of_judged rfl ?_
  dsimp only
  split
  · next raised => exact .inr ⟨by rw [raised.1]; nofun, nofun⟩
  · exact .inl rfl

theorem Group.TakenKept.withdraw {x y : Group} (h : x.TakenKept y) : x.TakenKept y.withdraw := by
  refine h.trans ?_
  rw [Group.withdraw_eq]
  refine .of_judged rfl ?_
  dsimp only
  split
  · next withdrawn => exact .inr ⟨by rw [withdrawn.1]; nofun, nofun⟩
  · exact .inl rfl

theorem Group.leave_takenKept (x : Group) (q : Fin 8) : x.TakenKept (x.leave q) :=
  Group.TakenKept.withdraw (.of_same rfl rfl)

theorem Group.join_takenKept (x : Group) (q : Fin 8) (i : Fin 64) : x.TakenKept (x.join q i) := .of_same rfl rfl

theorem Group.fired_takenKept (x : Group) (q : Fin 8) : x.TakenKept (x.fired q) :=
  Group.TakenKept.raise (.of_same rfl rfl)

theorem Group.clear_takenKept (x : Group) (set : Byte) : x.TakenKept (x.clear set) :=
  Group.TakenKept.withdraw (.of_same rfl rfl)

/-- GSET configure leaves level and port where a call is TAKEN (R147), or finds no configuration and so no call. -/
theorem Group.set_takenKept {x y : Group} (law : x.CallConfigured) {c : GroupConfig} {enable : Byte}
    (set : x.set c enable = some y) : x.TakenKept y := by
  unfold Group.set at set
  split at set
  · next vacant =>
    cases set
    have free : x.call ≠ some .taken := fun taken => law taken vacant
    exact ⟨iff_of_false nofun free, fun taken => absurd taken free⟩
  next old config =>
  unfold Group.reconfigure at set
  split at set
  · next free =>
    cases set
    have untaken : x.call ≠ some .taken := by rw [free]; nofun
    exact .raise ⟨Iff.rfl, fun taken => absurd taken untaken⟩
  · split at set
    · cases set
      exact .withdraw (.of_same rfl rfl)
    · cases set
  · split at set
    · next same =>
      cases set
      exact .of_same (by rw [config, same]) rfl
    · cases set

theorem Group.endTaken_not_taken (x : Group) : x.endTaken.call ≠ some .taken := by
  rw [Group.endTaken_eq]
  dsimp only
  split <;> nofun

/-! ### One order -/

/-- A change of an order that keeps its TAKEN call with its port and level, and gives no call to a member of a group. -/
structure Order.TakenKept (o o' : Order) : Prop where
  takenCall : o'.takenCall = o.takenCall
  alone : o.CallAlone → o'.CallAlone

theorem Order.TakenKept.refl (o : Order) : o.TakenKept o := ⟨rfl, id⟩

theorem Order.TakenKept.trans {o o' o'' : Order} (a : o.TakenKept o') (b : o'.TakenKept o'') : o.TakenKept o'' :=
  ⟨b.takenCall.trans a.takenCall, b.alone ∘ a.alone⟩

/-- A change that leaves the call, the membership and the answering port. -/
theorem Order.TakenKept.of_same {o o' : Order} (call : o'.call = o.call) (member : o'.member = o.member)
    (answering : o'.answering = o.answering) : o.TakenKept o' :=
  ⟨by simp only [Order.takenCall, call, answering], fun law => by unfold Order.CallAlone; rw [call, member]; exact law⟩

/-- A change of an order without a membership, whose call is TAKEN neither before nor after. -/
theorem Order.TakenKept.of_untaken {o o' : Order} (before : ∀ c, o.call = some c → c.state ≠ .taken)
    (after : ∀ c, o'.call = some c → c.state ≠ .taken) (alone : o.CallAlone → o'.CallAlone) : o.TakenKept o' :=
  ⟨by rw [Order.takenCall_of_not_taken before, Order.takenCall_of_not_taken after], alone⟩

/-- An order with a call holds no membership. -/
theorem Order.CallAlone.member_eq_none {o : Order} (h : o.CallAlone) {c : Call} (call : o.call = some c) :
    o.member = none := by
  by_contra member
  exact nomatch call.symm.trans (h member)

theorem Order.CallAlone.of_member {o : Order} (member : o.member = none) : o.CallAlone := fun h => absurd member h

/-- A RAISED call replaced by another. -/
theorem Order.withRaised_takenKept {o : Order} {c d : Call} (call : o.call = some c) (before : c.state = .raised)
    (after : d.state = .raised) : o.TakenKept { o with call := some d } :=
  .of_untaken (fun k e => by cases call.symm.trans e; rw [before]; nofun) (fun k e => by cases e; rw [after]; nofun)
    fun law => .of_member (law.member_eq_none call)

theorem Order.expired_takenKept {o : Order} {c : Call} (call : o.call = some c) (raised : c.state = .raised)
    (e : Elapsed) : o.TakenKept (o.expired e c) := by
  unfold Order.expired
  split <;> exact Order.withRaised_takenKept call raised raised

theorem Order.withDeadline_takenKept (o : Order) (d : Option Elapsed → Option Elapsed) :
    o.TakenKept (o.withDeadline d) := by
  unfold Order.withDeadline
  split
  · next c call =>
    split
    · next raised => exact Order.withRaised_takenKept call raised raised
    · exact .refl o
  · exact .refl o

theorem Order.shift_takenKept (o : Order) (n : Int) : o.TakenKept (o.shift n) := by
  unfold Order.shift
  split
  · exact .of_same rfl rfl rfl
  · exact .refl o

/-- A firing raises the call of an order that holds no membership. -/
theorem Order.call1_takenKept {o : Order} (member : o.member = none) (k : Nat) (start : Byte → Option Elapsed) :
    o.TakenKept (o.call1 k start) := by
  unfold Order.call1
  split
  · exact .refl o
  split
  · next absent =>
    exact .of_untaken (fun c call => nomatch absent.symm.trans call) (fun c call => by cases call; nofun) fun _ =>
      .of_member member
  · exact .of_same rfl rfl rfl

/-- The call that an AMND leaves of a RAISED one is RAISED (R44). -/
theorem Amend.call_stays_raised {a : Amend} {e : Elapsed} {o : Order} {c k : Call} (call : o.call = some c)
    (raised : c.state = .raised) (left : a.call e o = some k) : k.state = .raised := by
  by_cases selected : a.level ≠ none ∨ a.floor ≠ none
  · rw [Amend.call_of_raised selected call raised] at left
    split at left
    · cases left
    · cases left
      rfl
  · obtain ⟨level, floor⟩ := not_or.mp selected
    rw [Amend.call_unselected (not_not.mp level) (not_not.mp floor), call] at left
    cases left
    exact raised

/-- An AMND that its call check lets pass keeps a TAKEN call and joins no order that has a call to a group
(R41, R44). -/
theorem Amend.written_takenKept {a : Amend} {o : Order} (law : o.CallAlone) (free : ¬ amndCallBars o a = true)
    (e : Elapsed) : o.TakenKept (a.written e o) := by
  rw [amndCallBars_iff] at free
  cases call : o.call with
  | none =>
    have silent : (a.written e o).call = none := Amend.call_of_none call
    exact .of_untaken (fun c own => nomatch call.symm.trans own) (fun c own => nomatch silent.symm.trans own)
      fun _ _ => silent
  | some c =>
    have outside := law.member_eq_none call
    have stays : ¬ (a.answering.getD o.answering ≠ o.answering
        ∨ o.member = none ∧ a.member.getD none ≠ none) := fun bars => free ⟨by rw [call]; nofun, bars⟩
    obtain ⟨port, joins⟩ := not_or.mp stays
    have alone : (a.written e o).CallAlone := .of_member <| by
      show a.member.getD o.member = none
      rw [outside]
      exact not_not.mp fun joining => joins ⟨outside, joining⟩
    cases state : c.state with
    | taken =>
      have stands : (a.written e o).call = o.call := (Amend.call_of_taken call state).trans call.symm
      have answering : (a.written e o).answering = o.answering := not_not.mp port
      exact ⟨by simp only [Order.takenCall, stands, answering], fun _ => alone⟩
    | raised =>
      exact .of_untaken (fun k own => by cases call.symm.trans own; rw [state]; nofun)
        (fun k own => by rw [Amend.call_stays_raised call state own]; nofun) fun _ => alone

end Sys2Proof.Machine
end

section
/-! The changes of the table that keep the taken calls and what the entries name, and with them the law of the taken
calls (R107). -/

namespace Sys2Proof.Machine

/-! ### Taken calls after a write -/

theorem Table.takenCall_setOrder (t : Table) (i : Fin 64) (o : Order) : (t.setOrder i o).takenCall =
    Function.update t.takenCall (.order i (t.slot i).generation) o.takenCall := by
  funext x
  cases x with
  | group g => simp [Table.takenCall]
  | order j generation =>
    by_cases own : j = i
    · subst own
      by_cases same : (t.slot j).generation = generation
      · subst same
        simp [Table.takenCall]
      · simp [Table.takenCall, same, Ne.symm same]
    · simp [Table.takenCall, own]

theorem Table.takenCall_setGroup (t : Table) (g : Fin 8) (x : Group) : (t.setGroup g x).takenCall =
    Function.update t.takenCall (.group g) x.takenCall := by
  funext y
  cases y with
  | order j generation =>
    have other : Source.order j generation ≠ .group g := nofun
    rw [Function.update_of_ne other]
    rfl
  | group h => by_cases own : h = g <;> simp [Table.takenCall, own]

theorem Table.takenCall_eq {t u : Table} (slot : ∀ i, u.slot i = t.slot i) (group : ∀ g, u.group g = t.group g) :
    u.takenCall = t.takenCall := by
  funext x
  cases x with
  | order i generation => simp only [Table.takenCall, Table.order, slot]
  | group g => simp only [Table.takenCall, group]

/-! ### Changes that keep the taken calls and what the entries name -/

section
variable {t : Table} (h : t.CallsLaw)
include h

/-- The law speaks of the slots, the groups and the entries alone. -/
theorem Table.CallsLaw.of_reads {u : Table} (slot : ∀ i, u.slot i = t.slot i) (group : ∀ g, u.group g = t.group g)
    (contexts : u.contexts = t.contexts) : u.CallsLaw where
  graph := by
    rw [Table.takenCall_eq slot group, Table.named, contexts]
    exact h.graph
  retired := by
    rw [contexts]
    exact h.retired
  configured g := group g ▸ h.configured g
  alone := Table.EveryOrder.mono h.alone fun i o order => (congrArg Slot.order (slot i)).symm.trans order

/-- A record written at the slot's generation, with the taken call that stood there. -/
theorem Table.CallsLaw.setOrder {i : Fin 64} {o : Order} (same : o.takenCall = (t.order i).bind Order.takenCall)
    (alone : o.CallAlone) : (t.setOrder i o).CallsLaw where
  graph := by
    rw [Table.takenCall_setOrder, same, ← Table.takenCall_order, Function.update_eq_self]
    exact h.graph
  retired := h.retired
  configured := h.configured
  alone := Table.EveryOrder.setOrder h.alone alone

theorem Table.CallsLaw.changeOrder {i : Fin 64} {o o' : Order} (order : t.order i = some o) (kept : o.TakenKept o') :
    (t.setOrder i o').CallsLaw :=
  h.setOrder (kept.takenCall.trans (by rw [order]; rfl)) (kept.alone (h.alone i o order))

theorem Table.CallsLaw.mapOrders {f : Order → Order} (kept : ∀ o : Order, o.TakenKept (f o)) :
    (t.mapOrders f).CallsLaw where
  graph := by
    have same : (t.mapOrders f).takenCall = t.takenCall := by
      funext x
      cases x with
      | group g => rfl
      | order i generation =>
        simp only [Table.takenCall, Table.slot_mapOrders, Table.order_mapOrders]
        refine if_congr Iff.rfl ?_ rfl
        cases t.order i with
        | none => rfl
        | some o => exact (kept o).takenCall
    rw [same]
    exact h.graph
  retired := h.retired
  configured := h.configured
  alone := Table.EveryOrder.mapOrders h.alone fun o => (kept o).alone

theorem Table.CallsLaw.setGroup {g : Fin 8} {x : Group} (kept : (t.group g).TakenKept x) :
    (t.setGroup g x).CallsLaw where
  graph := by
    rw [Table.takenCall_setGroup, kept.takenCall]
    have same : (t.group g).takenCall = t.takenCall (.group g) := rfl
    rw [same, Function.update_eq_self]
    exact h.graph
  retired := h.retired
  configured k := by
    rw [Table.group_setGroup]
    split
    · exact kept.callConfigured (h.configured g)
    · exact h.configured k
  alone := h.alone

theorem Table.CallsLaw.leaveIf (m : Option Member) : (t.leaveIf m).CallsLaw := by
  cases m with
  | none => exact h
  | some m => exact h.setGroup (Group.leave_takenKept _ _)

theorem Table.CallsLaw.joinIf (i : Fin 64) (m : Option Member) : (t.joinIf i m).CallsLaw := by
  cases m with
  | none => exact h
  | some m => exact h.setGroup (Group.join_takenKept _ _ _)

/-- A context whose entries name what they named. -/
theorem Table.CallsLaw.setContext {p : Port} {c : Context} (named : c.named p = (t.contexts.get p).named p)
    (retired : ∀ e ∈ c.stack, e.OrdersRetire) : (t.setContext p c).CallsLaw where
  graph := by
    have same : ∀ q, ((t.setContext p c).contexts.get q).named q = (t.contexts.get q).named q := fun q => by
      rw [Table.setContext_contexts, PerPort.get_set]
      split
      · next own => exact own ▸ named
      · rfl
    rw [Table.named, same, same]
    exact h.graph
  retired q := by
    rw [Table.setContext_contexts, PerPort.get_set]
    split
    · exact retired
    · exact h.retired q
  configured := h.configured
  alone := h.alone

end

end Sys2Proof.Machine
end

section
/-! TAKE, FNSH, the retirements and the works that empty the stacks: the taken calls and the entries change together
(R107, R113, R114, R119, R120, R124). -/

namespace Sys2Proof.Machine

/-! ### One entry more on a stack -/

/-- One table's stacks are another's with one entry more on a port's top. -/
structure Table.Tops (u t : Table) (p : Port) (e : Entry) : Prop where
  here : (u.contexts.get p).stack = e :: (t.contexts.get p).stack
  there : ∀ q, q ≠ p → (u.contexts.get q).stack = (t.contexts.get q).stack

theorem Table.push_tops {t u : Table} (contexts : u.contexts = t.contexts) (p : Port) (e : Entry) :
    (u.push p e).Tops t p e where
  here := by rw [Table.push, Table.setContext_contexts, PerPort.get_set, if_pos rfl, contexts]
  there q other := by rw [Table.push, Table.setContext_contexts, PerPort.get_set, if_neg other, contexts]

theorem Table.tops_pop {t : Table} {p : Port} {e : Entry} {rest : List Entry}
    (stack : (t.contexts.get p).stack = e :: rest) : t.Tops (t.pop p) p e where
  here := by rw [Table.pop, Table.setContext_contexts, PerPort.get_set, if_pos rfl, stack, List.tail_cons]
  there q other := by rw [Table.pop, Table.setContext_contexts, PerPort.get_set, if_neg other]

section
variable {t u : Table} {p : Port} {e : Entry} (tops : u.Tops t p e)
include tops

theorem Table.Tops.named_live (live : e.retired = false) : u.named.Perm ((e.source, p, e.level) :: t.named) := by
  have here : (u.contexts.get p).named p = (e.source, p, e.level) :: (t.contexts.get p).named p := by
    rw [Context.named, tops.here, List.filterMap_cons_some (Entry.naming_live live), ← Context.named]
  have there : ∀ q, q ≠ p → (u.contexts.get q).named q = (t.contexts.get q).named q := fun q other => by
    rw [Context.named, tops.there q other, ← Context.named]
  unfold Table.named
  cases p with
  | A => rw [here, there .B nofun]; exact .refl _
  | B => rw [here, there .A nofun]; exact List.perm_middle

theorem Table.Tops.named_retired (retired : e.retired = true) : u.named = t.named := by
  have same : ∀ q, (u.contexts.get q).named q = (t.contexts.get q).named q := fun q => by
    by_cases own : q = p
    · rw [own, Context.named, tops.here, List.filterMap_cons_none (Entry.naming_retired retired), ← Context.named]
    · rw [Context.named, tops.there q own, ← Context.named]
  rw [Table.named, same, same, ← Table.named]

theorem Table.Tops.mem_stack {q : Port} {f : Entry} :
    f ∈ (u.contexts.get q).stack ↔ q = p ∧ f = e ∨ f ∈ (t.contexts.get q).stack := by
  by_cases own : q = p
  · subst own
    rw [tops.here, List.mem_cons]
    simp
  · rw [tops.there q own]
    simp [own]

end

/-! ### TAKE (R113, R114) -/

/-- An entry pushed for a call that was not TAKEN, and now is at the entry's level. -/
theorem Table.CallsLaw.push {t u : Table} (h : t.CallsLaw) {p : Port} {e : Entry} (contexts : u.contexts = t.contexts)
    (live : e.retired = false) (fresh : t.takenCall e.source = none)
    (taken : u.takenCall = Function.update t.takenCall e.source (some (p, e.level)))
    (configured : ∀ g, (u.group g).CallConfigured) (alone : u.EveryOrder Order.CallAlone) : (u.push p e).CallsLaw where
  graph := by
    have same : (u.push p e).takenCall = u.takenCall := Table.takenCall_eq (fun _ => rfl) fun _ => rfl
    rw [same, taken]
    exact (h.graph.cons fresh _).perm ((Table.push_tops contexts p e).named_live live).symm
  retired q f mem retired := by
    obtain ⟨_, rfl⟩ | mem := (Table.push_tops contexts p e).mem_stack.mp mem
    · exact nomatch live.symm.trans retired
    · exact h.retired q f mem retired
  configured := configured
  alone := alone

theorem Table.CallsLaw.takeOrder {t : Table} (h : t.CallsLaw) {p : Port} {i : Fin 64} {o : Order} {c : Call}
    (order : t.order i = some o) (call : o.call = some c) (raised : c.state = .raised) (answering : o.answering = p)
    (e : Elapsed) (level : Nat) : (t.takeOrder p e i o level).CallsLaw := by
  have untaken : o.takenCall = none := Order.takenCall_of_not_taken fun k own => by
    cases call.symm.trans own
    rw [raised]
    nofun
  have taken : (o.taken level).takenCall = some (p, level) :=
    Order.takenCall_eq_some.mpr ⟨_, rfl, rfl, rfl, answering⟩
  refine h.push rfl rfl ?_ ?_ h.configured
    (Table.EveryOrder.setOrder h.alone (.of_member ((h.alone i o order).member_eq_none call)))
  · exact (t.takenCall_order i).trans (by rw [order]; exact untaken)
  · rw [Table.takenCall_setOrder, taken]
    rfl

theorem Table.CallsLaw.takeGroup {t : Table} (h : t.CallsLaw) {p : Port} {g : Fin 8} {c : GroupConfig}
    (call : (t.group g).call = some .raised) (config : (t.group g).config = some c) (answering : c.answering = p) :
    (t.takeGroup p g c.level).CallsLaw := by
  have taken : Group.takenCall { t.group g with call := some .taken } = some (p, c.level) :=
    Group.takenCall_eq_some.mpr ⟨rfl, c, config, rfl, answering⟩
  refine h.push rfl rfl (Group.takenCall_of_not_taken (by rw [call]; nofun)) ?_ (fun k => ?_) h.alone
  · rw [Table.takenCall_setGroup, taken]
    rfl
  · rw [Table.group_setGroup]
    split
    · exact fun _ => by rw [config]; nofun
    · exact h.configured k

theorem serveTake_keeps_callsLaw : ServiceKeeps Table.CallsLaw serveTake := by
  intro p g args t h
  unfold serveTake
  split
  · exact h
  split
  · exact h
  split
  · exact h
  next x best =>
  have raises := Table.bestOffered_raises best
  unfold Table.raises at raises
  unfold Table.takeCall
  cases origin : x.origin with
  | order i =>
    simp only [origin] at raises
    obtain ⟨o, c, order, call, raised, _, answering⟩ := raises
    simp only [order]
    exact h.takeOrder order call raised answering _ _
  | group k =>
    simp only [origin] at raises
    obtain ⟨call, c, config, level, answering⟩ := raises
    rw [← level]
    exact h.takeGroup call config answering

/-! ### FNSH (R118 to R120) -/

theorem Table.takenCall_pop (t : Table) (p : Port) : (t.pop p).takenCall = t.takenCall :=
  Table.takenCall_eq (fun _ => rfl) fun _ => rfl

section
variable {t : Table} (h : t.CallsLaw) {p : Port} {e : Entry} {rest : List Entry}
  (stack : (t.contexts.get p).stack = e :: rest)
include h stack

theorem Table.CallsLaw.takenCall_top (live : e.retired = false) : t.takenCall e.source = some (p, e.level) :=
  (h.graph.mem_iff _ _).mp (Table.mem_named.mpr ⟨e, by rw [stack]; exact List.mem_cons_self, ⟨live, rfl⟩, rfl⟩)

theorem Table.CallsLaw.pop_retired (retired : e.retired = true) : (t.pop p).CallsLaw := by
  have tops := Table.tops_pop stack
  exact ⟨by rw [Table.takenCall_pop, ← tops.named_retired retired]; exact h.graph,
    fun q f mem => h.retired q f (tops.mem_stack.mpr (.inr mem)), h.configured, h.alone⟩

/-- The top entry popped, and the call it names TAKEN no more. -/
theorem Table.CallsLaw.pop_live (live : e.retired = false) {u : Table} (contexts : u.contexts = (t.pop p).contexts)
    (ended : u.takenCall = Function.update t.takenCall e.source none) (configured : ∀ g, (u.group g).CallConfigured)
    (alone : u.EveryOrder Order.CallAlone) : u.CallsLaw := by
  have tops := Table.tops_pop stack
  have named : u.named = (t.pop p).named := by rw [Table.named, contexts, ← Table.named]
  refine ⟨?_, fun q f mem => ?_, configured, alone⟩
  · rw [named, ended]
    exact (h.graph.perm (tops.named_live live)).tail
  · rw [contexts] at mem
    exact h.retired q f (tops.mem_stack.mpr (.inr mem))

/-- An orphan's entry is popped alone. -/
theorem Table.CallsLaw.finish_orphan (retired : e.retired = true) (hold : Bool) :
    ((t.pop p).finishCall e hold).1.CallsLaw := by
  obtain ⟨i, generation, source⟩ := h.retired p e (by rw [stack]; exact List.mem_cons_self) retired
  have orphan : (t.pop p).entryOrder e = none := if_pos retired
  simp only [Table.finishCall, source, orphan]
  exact h.pop_retired stack retired

/-- An order's entry is popped with its call (R119). -/
theorem Table.CallsLaw.finish_order (live : e.retired = false) {i : Fin 64} {generation : BitVec 4}
    (source : e.source = .order i generation) (hold : Bool) : ((t.pop p).finishCall e hold).1.CallsLaw := by
  have taken := h.takenCall_top stack live
  rw [source] at taken
  obtain ⟨own, bound⟩ := Option.ite_none_right_eq_some.mp taken
  obtain ⟨o, order, _⟩ := Option.bind_eq_some_iff.mp bound
  subst own
  have named : (t.pop p).entryOrder e = some (i, o) := Table.entryOrder_eq_some.mpr ⟨⟨live, source⟩, order⟩
  have silent : (o.finished hold).takenCall = none := Order.takenCall_of_not_taken nofun
  simp only [Table.finishCall, source, named]
  refine h.pop_live stack live rfl ?_ h.configured (Table.EveryOrder.setOrder h.alone fun _ => rfl)
  rw [Table.takenCall_setOrder, silent, Table.takenCall_pop, source]
  rfl

/-- A group's entry is popped with its call, which is judged at once (R120). -/
theorem Table.CallsLaw.finish_group (live : e.retired = false) {g : Fin 8} (source : e.source = .group g)
    (hold : Bool) : ((t.pop p).finishCall e hold).1.CallsLaw := by
  have ended := Group.endTaken_not_taken (t.group g)
  simp only [Table.finishCall, source]
  refine h.pop_live stack live rfl ?_ (fun k => ?_) h.alone
  · rw [Table.takenCall_setGroup, Table.takenCall_pop, source]
    exact congrArg _ (Group.takenCall_of_not_taken ended)
  · rw [Table.group_setGroup]
    split
    · exact fun taken => absurd taken ended
    · exact h.configured k

theorem Table.CallsLaw.finish (hold : Bool) : ((t.pop p).finishCall e hold).1.CallsLaw := by
  cases retired : e.retired with
  | true => exact h.finish_orphan stack retired hold
  | false =>
    cases source : e.source with
    | order i generation => exact h.finish_order stack retired source hold
    | group g => exact h.finish_group stack retired source hold

end

theorem serveFnsh_keeps_callsLaw : ServiceKeeps Table.CallsLaw serveFnsh := by
  intro p g args t h
  unfold serveFnsh
  split
  · exact h
  split
  · exact h
  next stack =>
  split
  · exact h.finish stack _
  · exact h

/-! ### Retirement (R50) -/

/-- Retiring an order marks the entry that names its taken call. -/
theorem Table.CallsLaw.retired_naming {t : Table} (h : t.CallsLaw) {i : Fin 64} {o : Order}
    (order : t.order i = some o) {q : Port} {e : Entry} (mem : e ∈ (t.contexts.get q).stack) :
    (e.retireIf (t.marks q i e)).naming q =
      (e.naming q).filter fun a => decide (a.1 ≠ .order i (t.slot i).generation) := by
  cases retired : e.retired with
  | true =>
    have stays : (e.retireIf (t.marks q i e)).retired = true := by
      unfold Entry.retireIf
      split
      · rfl
      · exact retired
    rw [Entry.naming_retired stays, Entry.naming_retired retired, Option.filter_none]
  | false =>
    rw [Entry.naming_live retired]
    by_cases source : e.source = .order i (t.slot i).generation
    · have taken := (h.graph.mem_iff _ _).mp (Table.mem_named.mpr ⟨e, mem, ⟨retired, source⟩, rfl⟩)
      rw [Table.takenCall_order, order] at taken
      obtain ⟨c, call, state, _, answering⟩ := Order.takenCall_eq_some.mp taken
      have marked : t.marks q i e = true := by
        rw [Table.marks_eq order, decide_eq_true_eq, call]
        exact ⟨answering.symm, congrArg some state, source⟩
      rw [marked, Option.filter_some_neg (by simp [source])]
      exact Entry.naming_retired rfl
    · have unmarked : t.marks q i e = false := by
        rw [Table.marks_eq order, decide_eq_false_iff_not]
        exact fun marked => source marked.2.2
      rw [unmarked, Option.filter_some_pos (by simp [source])]
      exact Entry.naming_live retired

theorem Table.retire_group_takenKept (t : Table) (i : Fin 64) (o : Order) (g : Fin 8) :
    (t.group g).TakenKept ((t.retire i o).group g) := by
  have left := (t.retire_spec i o).group g
  refine .of_judged left.config ?_
  rw [left.call]
  split
  · next withdrawn => exact .inr ⟨by rw [withdrawn.2.1]; nofun, nofun⟩
  · exact .inl rfl

/-- The retired order's source names no call any more, and neither does its slot's next generation. -/
theorem Table.takenCall_retire (t : Table) (i : Fin 64) (o : Order) : (t.retire i o).takenCall =
    Function.update t.takenCall (.order i (t.slot i).generation) none := by
  have spec := t.retire_spec i o
  funext x
  by_cases own : x = .order i (t.slot i).generation
  · subst own
    rw [Function.update_self]
    simp only [Table.takenCall, Table.order, spec.slot, Option.bind_none, ite_self]
  rw [Function.update_of_ne own]
  cases x with
  | group g => exact (t.retire_group_takenKept i o g).takenCall
  | order j generation =>
    by_cases slot : j = i
    · subst slot
      have other : (t.slot j).generation ≠ generation := fun same => own (by rw [same])
      simp only [Table.takenCall, Table.order, spec.slot, Option.bind_none, ite_self, if_neg other]
    · simp only [Table.takenCall, Table.order, spec.other j slot]

theorem Table.retire_stack {t : Table} {i : Fin 64} {o : Order} (order : t.order i = some o) (q : Port) :
    ((t.retire i o).contexts.get q).stack = (t.contexts.get q).stack.map fun e => e.retireIf (t.marks q i e) := by
  rw [(t.retire_spec i o).contexts_eq order]

/-- An entry that a retirement marks names an order. -/
theorem Table.marks_ordersRetire {t : Table} {i : Fin 64} {q : Port} {e : Entry} (law : e.OrdersRetire) :
    (e.retireIf (t.marks q i e)).OrdersRetire := by
  intro retired
  rw [Entry.retireIf_source]
  cases order : t.order i with
  | none =>
    simp only [Table.marks, order, Entry.retireIf, Bool.false_eq_true, if_false] at retired
    exact law retired
  | some o =>
    rw [Table.marks_eq order] at retired
    by_cases marked : q = o.answering ∧ o.call.map Call.state = some .taken
        ∧ e.source = .order i (t.slot i).generation
    · exact ⟨i, _, marked.2.2⟩
    · rw [decide_eq_false marked] at retired
      exact law retired

theorem Table.CallsLaw.retire {t : Table} (h : t.CallsLaw) {i : Fin 64} {o : Order} (order : t.order i = some o) :
    (t.retire i o).CallsLaw where
  graph := by
    have named : ∀ q, ((t.retire i o).contexts.get q).named q = ((t.contexts.get q).named q).filter fun a =>
        decide (a.1 ≠ .order i (t.slot i).generation) := fun q => by
      rw [Context.named, Table.retire_stack order, List.filterMap_map, Context.named, List.filter_filterMap]
      exact List.filterMap_congr fun e mem => h.retired_naming order mem
    rw [Table.takenCall_retire, Table.named, named, named, ← List.filter_append]
    exact h.graph.without _
  retired q f mem := by
    rw [Table.retire_stack order] at mem
    obtain ⟨e, before, rfl⟩ := List.mem_map.mp mem
    exact Table.marks_ordersRetire (h.retired q e before)
  configured g := (t.retire_group_takenKept i o g).callConfigured (h.configured g)
  alone := Table.EveryOrder.retire h.alone i o

theorem Table.CallsLaw.purge {t : Table} (h : t.CallsLaw) (owner : Port) : (t.purge owner).CallsLaw :=
  List.foldlRecOn allSlots (Table.purgeSlot owner) h fun u law i _ => by
    unfold Table.purgeSlot
    split
    · next order =>
      split
      · exact law.retire order
      · exact law
    · exact law

/-! ### The works that empty the stacks (R124) -/

section
variable {t u : Table} {start : Byte → Option Elapsed} {kept : Call → Call} (emptied : t.EmptiedTo u start kept)
include emptied

/-- Each order left had its membership before; without a call it has none now, and with one none that is TAKEN. -/
theorem Table.EmptiedTo.order_cases (raised : ∀ c, c.state = .raised → (kept c).state = .raised) {i : Fin 64}
    {o' : Order} (left : u.order i = some o') : ∃ o, t.order i = some o ∧ o'.member = o.member
      ∧ (o.call = none → o'.call = none) ∧ ∀ c, o'.call = some c → c.state ≠ .taken := by
  cases order : t.order i with
  | none => exact nomatch left.symm.trans (emptied.free i order)
  | some o =>
    refine ⟨o, rfl, ?_⟩
    cases call : o.call with
    | none =>
      cases left.symm.trans (emptied.silent i o order call)
      exact ⟨rfl, fun _ => call, fun c own => nomatch call.symm.trans own⟩
    | some c =>
      cases state : c.state with
      | raised =>
        cases left.symm.trans (emptied.raised i o c order call state)
        exact ⟨rfl, nofun, fun k own => by cases own; rw [raised c state]; nofun⟩
      | taken =>
        cases left.symm.trans (emptied.taken i o c order call state)
        refine ⟨rfl, nofun, fun k own => ?_⟩
        cases (Option.ite_none_left_eq_some.mp own).2
        nofun

theorem Table.EmptiedTo.group_not_taken (g : Fin 8) : (u.group g).call ≠ some .taken := by
  rw [emptied.group g]
  dsimp only
  split
  · split <;> nofun
  · next other => exact other

theorem Table.EmptiedTo.takenCall (raised : ∀ c, c.state = .raised → (kept c).state = .raised) :
    u.takenCall = fun _ => none := by
  funext x
  cases x with
  | group g => exact Group.takenCall_of_not_taken (emptied.group_not_taken g)
  | order i generation =>
    simp only [Table.takenCall]
    cases left : u.order i with
    | none => exact ite_self _
    | some o' =>
      obtain ⟨_, _, _, _, other⟩ := emptied.order_cases raised left
      rw [Option.bind_some, Order.takenCall_of_not_taken other, ite_self]

/-- Empty stacks and no TAKEN call obey the law. -/
theorem Table.EmptiedTo.callsLaw (raised : ∀ c, c.state = .raised → (kept c).state = .raised) (h : t.CallsLaw) :
    u.CallsLaw where
  graph := by
    have none_named : u.named = [] := by
      rw [Table.named, emptied.contexts, emptied.contexts]
      rfl
    rw [emptied.takenCall raised, none_named]
    exact .nil
  retired q e mem := by
    rw [emptied.contexts] at mem
    cases mem
  configured g taken := absurd taken (emptied.group_not_taken g)
  alone i o' left member := by
    obtain ⟨o, order, same, silent, _⟩ := emptied.order_cases raised left
    exact silent (h.alone i o order (same ▸ member))

end

end Sys2Proof.Machine
end

section
/-! Every change of the table keeps the law of the taken calls (R107). -/

namespace Sys2Proof.Machine

/-! ### The services -/

theorem servePlac_keeps_callsLaw : ServiceKeeps Table.CallsLaw servePlac := by
  intro p g args t h
  unfold servePlac
  split
  · exact h
  next a _ =>
  split
  · exact h
  split
  · exact h
  split
  · exact h
  next i _ pool =>
  have free : t.order i = none := by
    have mem : i ∈ t.freePool := pool ▸ List.mem_cons_self
    simpa using List.of_mem_filter mem
  rw [Table.place_eq]
  exact (h.setOrder (o := a.order p) (by rw [free]; rfl) fun _ => rfl).joinIf i _

theorem serveAmnd_keeps_callsLaw : ServiceKeeps Table.CallsLaw serveAmnd := by
  intro p g args t h
  unfold serveAmnd
  split
  · split
    · exact h
    split
    · exact h
    next i o named =>
    split
    · exact h
    unfold amendOrder
    split
    · exact h
    split
    · exact h
    split
    · exact h
    next a _ _ free =>
    obtain ⟨_, _, order⟩ := (Table.resolve_eq_some _ _ _ _ _).mp named
    have written := h.changeOrder order (Amend.written_takenKept (h.alone i o order) free g.elapsed)
    rw [Table.amend_eq, Table.moveMember]
    split
    · exact written
    · exact (written.leaveIf _).joinIf _ _
  · exact h

theorem serveHold_keeps_callsLaw : ServiceKeeps Table.CallsLaw serveHold := fun _ _ _ _ h =>
  withHandle_keeps h fun i o order => by
    split
    · exact h.changeOrder order (.of_same rfl rfl rfl)
    · exact h
    · exact h

theorem serveRsum_keeps_callsLaw : ServiceKeeps Table.CallsLaw serveRsum := fun _ _ _ _ h =>
  withHandle_keeps h fun i o order => by
    split
    · exact h.changeOrder order (.of_same rfl rfl rfl)
    · exact h
    · exact h

theorem serveRtir_keeps_callsLaw : ServiceKeeps Table.CallsLaw serveRtir := fun _ _ _ _ h =>
  withHandle_keeps h fun _ _ order => h.retire order

theorem servePurg_keeps_callsLaw : ServiceKeeps Table.CallsLaw servePurg := by
  intro p g args t h
  unfold servePurg
  split
  · split
    · exact h
    next owner _ =>
    split
    · exact h
    · dsimp only
      exact h.purge owner
  · exact h

theorem serveList_keeps_callsLaw : ServiceKeeps Table.CallsLaw serveList := fun _ _ _ _ h => by
  unfold serveList
  split <;> exact h

theorem serveQuot_keeps_callsLaw : ServiceKeeps Table.CallsLaw serveQuot := fun p g args t h => by
  unfold serveQuot
  split
  · split
    · exact h
    split
    · exact h
    split
    · exact h
    · exact h.of_reads (fun _ => rfl) (fun _ => rfl) rfl
  · exact h

theorem serveInfo_keeps_callsLaw : ServiceKeeps Table.CallsLaw serveInfo := fun _ _ _ _ h => by
  unfold serveInfo
  split <;> exact h

theorem serveCeil_keeps_callsLaw : ServiceKeeps Table.CallsLaw serveCeil := by
  intro p g args t h
  unfold serveCeil
  split
  · dsimp only
    split
    · exact h
    split
    · exact h.setContext rfl (h.retired p)
    · exact h
  · exact h

theorem serveNest_keeps_callsLaw : ServiceKeeps Table.CallsLaw serveNest := by
  intro p g args t h
  unfold serveNest
  split
  · dsimp only
    split
    · exact h
    split
    · exact h.setContext rfl (h.retired p)
    · exact h
  · exact h

theorem serveConfigure_keeps_callsLaw : ServiceKeeps Table.CallsLaw serveConfigure := fun _ _ _ _ h => by
  unfold serveConfigure
  split
  · split
    · next set => exact h.setGroup (Group.set_takenKept (h.configured _) set)
    · exact h
  · exact h
  · exact h

/-- GSET release passes over a group with a standing call (R148). -/
theorem serveRelease_keeps_callsLaw : ServiceKeeps Table.CallsLaw serveRelease := fun _ _ _ t h => by
  unfold serveRelease
  split
  · next n _ =>
    split
    · exact h
    split
    · exact h
    split
    · exact h
    next silent =>
    have untaken : (t.group n).call ≠ some .taken := fun taken => silent (by rw [taken]; rfl)
    exact h.setGroup ⟨Iff.rfl, fun taken => absurd taken untaken⟩
  · exact h
  · exact h

theorem serveGred_keeps_callsLaw : ServiceKeeps Table.CallsLaw serveGred := fun _ _ _ _ h => by
  unfold serveGred
  split
  · split
    · exact h
    · split <;> exact h
  · exact h

theorem serveGclr_keeps_callsLaw : ServiceKeeps Table.CallsLaw serveGclr := fun _ _ _ _ h => by
  unfold serveGclr
  split
  · split
    · exact h
    split
    · exact h
    split
    · exact h
    · exact h.setGroup (Group.clear_takenKept _ _)
  · exact h

theorem tableServices_keep_callsLaw : ∀ f ∈ tableServices, ServiceKeeps Table.CallsLaw f := by
  simp only [tableServices, List.forall_mem_cons]
  exact ⟨servePlac_keeps_callsLaw, serveAmnd_keeps_callsLaw, serveHold_keeps_callsLaw, serveRsum_keeps_callsLaw,
    serveRtir_keeps_callsLaw, servePurg_keeps_callsLaw, serveList_keeps_callsLaw, serveQuot_keeps_callsLaw,
    serveInfo_keeps_callsLaw, serveTake_keeps_callsLaw, serveFnsh_keeps_callsLaw, serveCeil_keeps_callsLaw,
    serveNest_keeps_callsLaw, serveConfigure_keeps_callsLaw, serveRelease_keeps_callsLaw, serveGred_keeps_callsLaw,
    serveGclr_keeps_callsLaw, fun _ mem => absurd mem List.not_mem_nil⟩

/-! ### Firing, expiry and the works -/

section
variable {t : Table} (h : t.CallsLaw)
include h

theorem Table.CallsLaw.fireOrder {i : Fin 64} {o : Order} (order : t.order i = some o) (g : InHand) (d : DateTime) :
    (t.fireOrder g i o d).CallsLaw := by
  have counted (f : Passed) : o.TakenKept (o.advanced f).counted := .of_same rfl rfl rfl
  by_cases dropped : secondNumber d < secondNumber g.now ∧ o.policy = .drop
  · rw [t.fireOrder_dropped g i dropped]
    exact h.changeOrder order (.of_same rfl rfl rfl)
  · cases member : o.member with
    | some m =>
      rw [t.fireOrder_member g i dropped member]
      exact (h.changeOrder order (counted _)).setGroup (Group.fired_takenKept _ _)
    | none =>
      rw [t.fireOrder_alone g i dropped member]
      exact h.changeOrder order ((counted _).trans (Order.call1_takenKept (o := (o.advanced _).counted) member _ _))

theorem Table.CallsLaw.fire (g : InHand) : (t.fire g).CallsLaw := by
  unfold Table.fire
  split
  · split
    · exact h
    split
    · split
      · next order => exact h.fireOrder order g _
      · exact h
    · exact h
  · exact h

/-- An entry made overdue names what it named (R134). -/
theorem Table.CallsLaw.expiredEntry (p : Port) (n : Nat) : (t.setContext p
    { t.contexts.get p with stack := (t.contexts.get p).stack.modify n Entry.markOverdue }).CallsLaw := by
  have named (l : List Entry) : (l.modify n Entry.markOverdue).filterMap (Entry.naming p)
      = l.filterMap (Entry.naming p) := by
    induction l generalizing n with
    | nil => rw [List.modify_nil]
    | cons e l ih =>
      cases n with
      | zero => rfl
      | succ n => rw [List.modify_succ_cons, List.filterMap_cons, List.filterMap_cons, ih]
  refine h.setContext (named _) fun f mem => ?_
  obtain ⟨k, hk, rfl⟩ := List.getElem_of_mem mem
  rw [List.getElem_modify]
  have before := h.retired p _ (List.getElem_mem (by simpa using hk))
  split
  · exact before
  · exact before

theorem Table.CallsLaw.returnWork (e : Elapsed) : (t.returnWork e).CallsLaw := by
  refine (h.mapOrders fun o => ?_).of_reads (fun _ => rfl) (fun _ => rfl) rfl
  split
  · exact .refl o
  · exact o.withDeadline_takenKept _

end

theorem Table.CallsLaw.keeps : Table.Keeps Table.CallsLaw where
  stored _ _ e h := by
    obtain ⟨_, _, _, contexts, _⟩ := Table.stored_eq e
    exact h.of_reads (Table.slot_stored e) (Table.group_stored e) contexts
  powerOn := Table.powerOn_takenLaw.callsLaw
  service := tableServices_keep_callsLaw
  shift _ n h := h.mapOrders fun o => o.shift_takenKept n
  fire _ g h := h.fire g
  expiredCall _ e _ _ _ order call raised h := h.changeOrder order (Order.expired_takenKept call raised e)
  expiredEntry _ p n h := h.expiredEntry p n
  resetWork _ _ h := (h.takenLaw.emptyStacks_to _).callsLaw (fun _ => id) h
  backupWork _ h := h.takenLaw.backupWork_to.callsLaw (fun _ => id) h
  returnWork _ e h := h.returnWork e

/-- Settles O59: the law, read as a graph, survives every change of the table. -/
theorem everyStepKeepsTheTakenLaw : Obligations.EveryStepKeepsTheTakenLaw := by
  unfold Obligations.EveryStepKeepsTheTakenLaw
  simp only [Table.takenLaw_iff]
  exact Table.CallsLaw.keeps.step

end Sys2Proof.Machine
end

section
/-! TAKE, FNSH, CEIL and NEST at the table: their checks in their order, and what they do (R112 to R123). -/

namespace Sys2Proof.Machine

/-! ### TAKE (R112 to R115) -/

section
variable {p : Port} {h : InHand} {args : List Byte} {t : Table}

theorem serveTake_layout (bad : args ≠ []) : serveTake p h args t = t.answer .badArgument := by
  unfold serveTake
  split
  · rfl
  · exact absurd rfl bad

theorem serveTake_full (full : 4 ≤ (t.contexts.get p).stack.length) : serveTake p h [] t = t.answer .stackFull :=
  if_pos full

theorem serveTake_nothing (room : (t.contexts.get p).stack.length < 4) (best : t.bestOffered p = none) :
    serveTake p h [] t = t.answer .nothing := by
  simp only [serveTake, Config.stackDepth, if_neg (Nat.not_le.mpr room), best]

theorem serveTake_order (room : (t.contexts.get p).stack.length < 4) {level : Nat} {i : Fin 64} {o : Order}
    (best : t.bestOffered p = some ⟨level, .order i⟩) (order : t.order i = some o) :
    serveTake p h [] t = (t.takeOrder p h.elapsed i o level, .done (takeOrderBytes t i o level)) := by
  simp only [serveTake, Config.stackDepth, if_neg (Nat.not_le.mpr room), best, Table.takeCall, order]

theorem serveTake_group (room : (t.contexts.get p).stack.length < 4) {level : Nat} {g : Fin 8}
    (best : t.bestOffered p = some ⟨level, .group g⟩) :
    serveTake p h [] t = (t.takeGroup p g level, .done (takeGroupBytes g (t.group g) level)) := by
  simp only [serveTake, Config.stackDepth, if_neg (Nat.not_le.mpr room), best, Table.takeCall]

end

/-- Settles O34. -/
theorem takeTakesTheBestOfferedCall : Obligations.TakeTakesTheBestOfferedCall := by
  intro p args h s hs t c
  refine ⟨fun bad => hs.refused rfl rfl (serveTake_layout bad), ?_, ?_, ?_⟩
  · rintro rfl full
    exact hs.refused rfl rfl (serveTake_full full)
  · rintro rfl room best
    exact hs.refused rfl rfl (serveTake_nothing room best)
  · rintro rfl room
    exact ⟨fun level i o best order => hs.answers rfl rfl (serveTake_order room best order) rfl,
      fun level g best => hs.answers rfl rfl (serveTake_group room best) rfl⟩

/-! ### CEIL and NEST (R122, R123) -/

section
variable {p : Port} {h : InHand} {args : List Byte} {t : Table} {b : Byte}

theorem serveCeil_layout (bad : args.length ≠ 1) : serveCeil p h args t = t.answer .badArgument := by
  unfold serveCeil
  split
  · exact absurd rfl bad
  · rfl

theorem serveCeil_range (bad : 7 < b.toNat) : serveCeil p h [b] t = t.answer .badArgument := by
  simp only [serveCeil, levelOf_eq_none.mpr bad]

theorem serveCeil_occupied (level : b.toNat ≤ 7) (occupied : (t.contexts.get p).stack ≠ []) :
    serveCeil p h [b] t = t.answer .stackNotEmpty := by
  simp only [serveCeil, levelOf_eq, if_pos level, List.isEmpty_iff, if_neg occupied]

theorem serveCeil_sets (level : b.toNat ≤ 7) (empty : (t.contexts.get p).stack = []) :
    serveCeil p h [b] t = (t.setContext p { t.contexts.get p with base := b.toNat }, .done [b, b]) := by
  have read : byteOf b.toNat = b := by simp [byteOf]
  simp only [serveCeil, levelOf_eq, if_pos level, List.isEmpty_iff, Context.ceiling, empty, read, if_true]

theorem serveNest_layout (bad : args.length ≠ 1) : serveNest p h args t = t.answer .badArgument := by
  unfold serveNest
  split
  · exact absurd rfl bad
  · rfl

theorem serveNest_range (bad : 1 < b.toNat) : serveNest p h [b] t = t.answer .badArgument := by
  simp only [serveNest, flagOf_eq_none.mpr bad]

/-- A flag byte is that of the flag it stands for (Table A-4). -/
theorem flagByte_of_le_one (flag : b.toNat ≤ 1) : flagByte (b = 1) = b := by
  by_cases one : b = 1
  · rw [one]
    rfl
  · have zero : b = 0 := by bv_omega
    rw [zero]
    rfl

theorem flagOf_of_le_one (flag : b.toNat ≤ 1) : flagOf b = some (decide (b = 1)) := by
  conv_lhs => rw [← flagByte_of_le_one flag]
  exact flagOf_flagByte _

theorem serveNest_occupied (flag : b.toNat ≤ 1) (occupied : (t.contexts.get p).stack ≠ []) :
    serveNest p h [b] t = t.answer .stackNotEmpty := by
  simp only [serveNest, flagOf_of_le_one flag, List.isEmpty_iff, if_neg occupied]

theorem serveNest_sets (flag : b.toNat ≤ 1) (empty : (t.contexts.get p).stack = []) : serveNest p h [b] t =
    (t.setContext p { t.contexts.get p with nesting := b = 1 }, .done [b, byteOf (t.contexts.get p).base]) := by
  simp only [serveNest, flagOf_of_le_one flag, List.isEmpty_iff, Context.ceiling, empty, flagByte_of_le_one flag,
    if_true]

end

/-- Settles O36. -/
theorem ceilAndNestSetTheContext : Obligations.CeilAndNestSetTheContext := by
  intro p args h s t c
  refine ⟨fun hs => ⟨fun bad => hs.refused rfl rfl (serveCeil_layout bad), ?_⟩,
    fun hs => ⟨fun bad => hs.refused rfl rfl (serveNest_layout bad), ?_⟩⟩
  · rintro b rfl
    exact ⟨fun bad => hs.refused rfl rfl (serveCeil_range bad),
      fun level occupied => hs.refused rfl rfl (serveCeil_occupied level occupied),
      fun level empty => hs.answers rfl rfl (serveCeil_sets level empty) rfl⟩
  · rintro b rfl
    exact ⟨fun bad => hs.refused rfl rfl (serveNest_range bad),
      fun flag occupied => hs.refused rfl rfl (serveNest_occupied flag occupied),
      fun flag empty => hs.answers rfl rfl (serveNest_sets flag empty) rfl⟩

end Sys2Proof.Machine
end

section
/-! FNSH at the table: the arguments it accepts, and what it leaves of the entry and the call it names
(R117 to R120). -/

namespace Sys2Proof.Machine

/-! ### The arguments of FNSH (R117) -/

theorem fnshArgs_layout {args : List Byte} (bad : args.length ≠ 3) : fnshArgs args = none := by
  unfold fnshArgs
  split
  · exact absurd rfl bad
  · rfl

theorem sourceOf_unknown {x generation : Byte} (bad : 72 ≤ x.toNat) : sourceOf x generation = none := by
  have above : 8 ≤ (x - 0x40).toNat := by bv_omega
  rw [sourceOf, finOf_eq_none.mpr (by omega)]
  exact congrArg (Option.map Source.group) (finOf_eq_none.mpr above)

theorem sourceOf_generation {x generation : Byte} (order : x.toNat < 64) (bad : 16 ≤ generation.toNat) :
    sourceOf x generation = none := by
  rw [sourceOf, finOf_eq_some (i := ⟨x.toNat, order⟩).mpr rfl]
  exact if_neg (Nat.not_lt.mpr bad)

/-- A byte from 0x40 up names no order. -/
theorem sourceOf_not_order {x generation : Byte} (group : 64 ≤ x.toNat) (i : Fin 64) (g : BitVec 4) :
    sourceOf x generation ≠ some (.order i g) := by
  rw [sourceOf, finOf_eq_none.mpr group]
  intro named
  obtain ⟨_, _, wrong⟩ := Option.map_eq_some_iff.mp named
  cases wrong

theorem fnshArgs_unnamed {x generation hold : Byte} (bad : sourceOf x generation = none) :
    fnshArgs [x, generation, hold] = none := by
  simp only [fnshArgs, bad]

theorem fnshArgs_flag {x generation hold : Byte} (bad : 1 < hold.toNat) : fnshArgs [x, generation, hold] = none := by
  simp only [fnshArgs, flagOf_eq_none.mpr bad]
  cases sourceOf x generation with
  | none => rfl
  | some y => cases y <;> rfl

/-- A group takes no hold-after option. -/
theorem fnshArgs_group_hold {x generation hold : Byte} (group : 64 ≤ x.toNat) (asked : hold ≠ 0) :
    fnshArgs [x, generation, hold] = none := by
  by_cases flag : hold.toNat ≤ 1
  · have yes : hold = 1 := by bv_omega
    subst yes
    cases named : sourceOf x generation with
    | none => exact fnshArgs_unnamed named
    | some y =>
      cases y with
      | order i g => exact absurd named (sourceOf_not_order group i g)
      | group g => simp only [fnshArgs, named]; rfl
  · exact fnshArgs_flag (Nat.not_le.mp flag)

theorem fnshArgs_range {x generation hold : Byte} (bad : 72 ≤ x.toNat ∨ (x.toNat < 64 ∧ 16 ≤ generation.toNat)
    ∨ 1 < hold.toNat ∨ (64 ≤ x.toNat ∧ hold ≠ 0)) : fnshArgs [x, generation, hold] = none := by
  obtain unknown | ⟨order, high⟩ | flag | ⟨group, asked⟩ := bad
  · exact fnshArgs_unnamed (sourceOf_unknown unknown)
  · exact fnshArgs_unnamed (sourceOf_generation order high)
  · exact fnshArgs_flag flag
  · exact fnshArgs_group_hold group asked

theorem fnshArgs_order (i : Fin 64) (generation : BitVec 4) (hold : Bool) :
    fnshArgs [byteOf i.val, byteOf generation.toNat, flagByte hold] = some (.order i generation, hold) := by
  simp only [fnshArgs, sourceOf_order, flagOf_flagByte]

theorem fnshArgs_group (g : Fin 8) (b : Byte) :
    fnshArgs [byteOf (64 + g.val), b, 0] = some (.group g, false) := by
  have no : flagOf 0 = some false := rfl
  simp only [fnshArgs, sourceOf_group, no, Bool.false_eq_true, if_false]

/-! ### The call a popped entry named (R119, R120) -/

theorem holdOutcome_byte (hold : Bool) (x : Standing) : (holdOutcome hold x).byte = if hold then (match x with
    | .waiting _ => 1
    | .held _ => 2
    | .spent => 2) else 0 := by
  cases hold with
  | false => rfl
  | true => cases x <;> rfl

theorem holdUntouched_byte (hold : Bool) : (holdUntouched hold).byte = if hold then 2 else 0 := by cases hold <;> rfl

theorem finishFlags_eq (e : Entry) :
    finishFlags e = (if e.overdue then 1 else 0) + (if e.retired then 2 else 0) := by
  unfold finishFlags
  cases e.overdue <;> cases e.retired <;> rfl

section
variable {t : Table} {e : Entry} {hold : Bool}

theorem Table.finishCall_contexts : (t.finishCall e hold).1.contexts = t.contexts := by
  unfold Table.finishCall
  split
  · split <;> rfl
  · rfl

theorem Table.finishCall_order {i : Fin 64} {o : Order} (source : e.source = .order i (t.slot i).generation)
    (live : e.retired = false) (order : t.order i = some o) :
    t.finishCall e hold = (t.setOrder i (o.finished hold), holdOutcome hold o.standing) := by
  have named : t.entryOrder e = some (i, o) := Table.entryOrder_eq_some.mpr ⟨⟨live, source⟩, order⟩
  simp only [Table.finishCall, source, named]

/-- An orphan's call is none. -/
theorem Table.finishCall_orphan {i : Fin 64} {generation : BitVec 4} (source : e.source = .order i generation)
    (retired : e.retired = true) : t.finishCall e hold = (t, holdUntouched hold) := by
  have orphan : t.entryOrder e = none := if_pos retired
  simp only [Table.finishCall, source, orphan]

theorem Table.finishCall_group {g : Fin 8} (source : e.source = .group g) :
    t.finishCall e hold = (t.setGroup g (t.group g).endTaken, holdUntouched hold) := by
  simp only [Table.finishCall, source]

end

/-! ### FNSH at the table (R117, R118) -/

section
variable {p : Port} {h : InHand} {args : List Byte} {t : Table} {x : Source} {hold : Bool} {e : Entry}
  {rest : List Entry}

theorem serveFnsh_refused (bad : fnshArgs args = none) : serveFnsh p h args t = t.answer .badArgument := by
  simp only [serveFnsh, bad]

theorem serveFnsh_empty (named : fnshArgs args = some (x, hold)) (empty : (t.contexts.get p).stack = []) :
    serveFnsh p h args t = t.answer .stackEmpty := by
  simp only [serveFnsh, named, empty]

theorem serveFnsh_notTop (named : fnshArgs args = some (x, hold)) (stack : (t.contexts.get p).stack = e :: rest)
    (other : e.source ≠ x) : serveFnsh p h args t = t.answer .notTop := by
  simp only [serveFnsh, named, stack, if_neg other]

/-- The entry named is popped, and its call dealt with on the popped stack, whose ceiling the reply reports. -/
theorem serveFnsh_top (named : fnshArgs args = some (e.source, hold)) (stack : (t.contexts.get p).stack = e :: rest)
    {u : Table} {outcome : HoldOutcome}
    (finished : (t.setContext p { t.contexts.get p with stack := rest }).finishCall e hold = (u, outcome)) :
    serveFnsh p h args t = (u, .done (e.source.bytes ++ [(if e.overdue then 1 else 0) + (if e.retired then 2 else 0),
      outcome.byte, byteOf (Context.ceiling { t.contexts.get p with stack := rest })])) := by
  have popped : t.pop p = t.setContext p { t.contexts.get p with stack := rest } := by
    simp only [Table.pop, stack, List.tail_cons]
  have left : u.contexts.get p = { t.contexts.get p with stack := rest } := by
    have contexts := Table.finishCall_contexts (t := t.setContext p { t.contexts.get p with stack := rest }) (e := e)
      (hold := hold)
    rw [finished] at contexts
    rw [contexts, Table.setContext_contexts, PerPort.get_set, if_pos rfl]
  simp only [serveFnsh, named, stack, if_true, popped, finished, finishFlags_eq, left]

end

/-- Settles O35. -/
theorem fnshFinishesTheTopEntry : Obligations.FnshFinishesTheTopEntry := by
  intro p x b hold args h s hs t c popped reply
  refine ⟨?_, fun bad => hs.refused rfl rfl (serveFnsh_refused (fnshArgs_layout bad)), fun layout => ?_⟩
  · rintro x0 x1 x2 rfl bad
    exact hs.refused rfl rfl (serveFnsh_refused (fnshArgs_range bad))
  have named : fnshArgs args = some (x, hold) := by
    cases x with
    | order i generation => exact layout ▸ fnshArgs_order i generation hold
    | group g =>
      obtain ⟨rfl, rfl⟩ := layout
      exact fnshArgs_group g b
  refine ⟨fun empty => hs.refused rfl rfl (serveFnsh_empty named empty), fun e rest stack =>
    ⟨fun other => hs.refused rfl rfl (serveFnsh_notTop named stack other), ?_⟩⟩
  rintro rfl
  refine ⟨fun i o source live order => ?_, fun i generation source retired => ?_, fun g source => ?_⟩
  · have served := serveFnsh_top (h := h) named stack (Table.finishCall_order source live order)
    rw [holdOutcome_byte, source] at served
    simp only [reply, source]
    exact hs.answers rfl rfl served rfl
  · have served := serveFnsh_top (h := h) named stack (Table.finishCall_orphan source retired)
    rw [holdUntouched_byte, source] at served
    simp only [reply, source]
    exact hs.answers rfl rfl served rfl
  · have served := serveFnsh_top (h := h) named stack (Table.finishCall_group source)
    have unheld : hold = false := by
      rw [source] at layout
      exact layout.2
    rw [Group.endTaken_eq, unheld, source] at served
    simp only [reply, source]
    exact hs.answers rfl rfl served rfl

end Sys2Proof.Machine
end

section
/-! EXPIRE at the table: what it does to the call or the entry that holds the earliest lapsed deadline, and to the alert
words (R131 to R134). -/

namespace Sys2Proof.Machine

/-! ### The holder of the earliest lapsed deadline (R131 to R134) -/

section
variable {s : State} {e d : Elapsed}

/-- Nothing has lapsed: nothing changes (R131). -/
theorem State.expireAt_unlapsed (unlapsed : earliestLapsed e s.table.deadlines = none) :
    s.expireAt e = s.setTable s.table := by
  simp only [State.expireAt, unlapsed]
  rfl

section
variable {i : Fin 64} {o : Order} {c : Call} (first : earliestLapsed e s.table.deadlines = some (.call i, d))
  (order : s.table.order i = some o) (call : o.call = some c)
include first order call

/-- Above its floor a raised call is escalated, and no alert bit is set (R132). -/
theorem State.expireAt_escalates (above : o.floor < c.level) : s.expireAt e =
    s.setTable (s.table.setOrder i { o with call := some ⟨c.state, c.level - 1, deadlineAfter e o.window⟩ }) := by
  simp only [State.expireAt, first, State.expireCall, order, call, Order.expired, if_pos above]
  rfl

/-- At its floor a raised call loses its deadline, and its answering port is sent UNANSWERED (R133). -/
theorem State.expireAt_unanswered (atFloor : c.level ≤ o.floor) : s.expireAt e =
    (s.setTable (s.table.setOrder i { o with call := some ⟨c.state, c.level, none⟩ })).alert o.answering .unanswered := by
  simp only [State.expireAt, first, State.expireCall, order, call, Order.expired, if_neg atFloor.not_gt]

end

/-- An entry is marked overdue, and the port of its stack is sent OVERDUE (R134). -/
theorem State.expireAt_overdue {p : Port} {n : Nat}
    (first : earliestLapsed e s.table.deadlines = some (.entry p n, d)) : s.expireAt e =
    (s.setTable (s.table.setContext p { s.table.contexts.get p with
      stack := (s.table.contexts.get p).stack.modify n Entry.markOverdue })).alert p .overdue := by
  simp only [State.expireAt, first, State.expireEntry]

end

/-! ### EXPIRE in hand (R28, R131) -/

section
variable {s : State} {h : InHand} {t : Table}

theorem CarriesSched.exec_expire (hs : CarriesSched s .expire h) :
    exec .expire s = .next (s.expireAt h.elapsed).completeSched := by
  simp only [exec, execExpire, whileReliable, hs.reliable, if_true, State.expire, hs.inHand, hs.request]

/-- An EXPIRE that changes the table alone completes with the alert words as they were. -/
theorem CarriesSched.expires (hs : CarriesSched s .expire h) (does : s.expireAt h.elapsed = s.setTable t)
    (rest : t.arbiter = s.table.arbiter) : Serves .expire s t s.alerts := by
  have row := does ▸ hs.exec_expire
  exact ⟨_, row,
    State.completeSched_completion rfl rest rfl rfl ⟨rfl, rfl, rfl, rfl, rfl, rfl, rfl⟩ fun _ => rfl⟩

/-- An EXPIRE that also sends an alert bit completes with that bit set in the word of that port alone. -/
theorem CarriesSched.expiresAlerting (hs : CarriesSched s .expire h) {p : Port} {b : AlertBit}
    (does : s.expireAt h.elapsed = (s.setTable t).alert p b) (rest : t.arbiter = s.table.arbiter) :
    Serves .expire s t fun q => if q = p then s.alerts q ||| b.mask else s.alerts q := by
  have row := does ▸ hs.exec_expire
  exact ⟨_, row,
    State.completeSched_completion rfl rest rfl rfl ⟨rfl, rfl, rfl, rfl, rfl, rfl, rfl⟩ fun q =>
      State.units_alert (s.setTable t) p q b⟩

end

/-- Settles O49. -/
theorem expireDealsWithTheEarliestLapse : Obligations.ExpireDealsWithTheEarliestLapse := by
  intro h s hs t
  refine ⟨fun unlapsed => ?_, fun i d o c first order call => ⟨fun above => ?_, fun atFloor => ?_⟩, fun p n d first => ?_⟩
  · exact hs.expires (State.expireAt_unlapsed unlapsed) rfl
  · exact hs.expires (State.expireAt_escalates first order call above) rfl
  · exact hs.expiresAlerting (State.expireAt_unanswered first order call atFloor) rfl
  · exact hs.expiresAlerting (State.expireAt_overdue first) rfl

end Sys2Proof.Machine
end

section
/-! One group record by itself: which changes keep it lawful (R139, R141, R142). -/

namespace Sys2Proof.Machine

/-- What the laws say of one group record, a RAISED call apart: a group that is not configured is empty, and a factor
bit belongs to a filled position (R139, R141). -/
structure Group.SetsLaw (x : Group) : Prop where
  vacant : x.config = none → x.factor = 0 ∧ x.enable = 0 ∧ x.call = none ∧ ∀ q : Fin 8, x.positions[q.val] = none
  factor : ∀ q : Fin 8, x.factor.getLsbD q.val = true → x.positions[q.val] ≠ none

/-- What the laws say of one group record: its call is also RAISED only while its sets meet (R142). -/
structure Group.Lawful (x : Group) : Prop extends x.SetsLaw where
  raised : x.call = some .raised → x.factor &&& x.enable ≠ 0

/-- A group with a filled position is configured. -/
theorem Group.SetsLaw.config_ne_none {x : Group} (h : x.SetsLaw) {q : Fin 8} (filled : x.positions[q.val] ≠ none) :
    x.config ≠ none := fun unset => by
  obtain ⟨_, _, _, empty⟩ := h.vacant unset
  exact filled (empty q)

/-- A factor set without a bit is empty. -/
theorem Byte.eq_zero_of_bits {b : Byte} (clear : ∀ q : Fin 8, b.getLsbD q.val = false) : b = 0 :=
  BitVec.eq_of_getLsbD_eq fun q hq => (clear ⟨q, hq⟩).trans BitVec.getLsbD_zero.symm

/-! ### A group judged (R142) -/

theorem Group.Lawful.raise {x : Group} (h : x.Lawful) : x.raise.Lawful := by
  unfold Group.raise
  split
  · next judged =>
    obtain ⟨_, meet⟩ := judged
    refine ⟨⟨fun unset => ?_, h.factor⟩, fun _ => meet⟩
    obtain ⟨factor, _⟩ := h.vacant unset
    exact absurd ((congrArg (· &&& x.enable) factor).trans BitVec.zero_and) meet
  · exact h

theorem Group.SetsLaw.withdraw {x : Group} (h : x.SetsLaw) : x.withdraw.Lawful := by
  unfold Group.withdraw
  split
  · refine ⟨⟨fun unset => ?_, h.factor⟩, nofun⟩
    obtain ⟨factor, enable, _, empty⟩ := h.vacant unset
    exact ⟨factor, enable, rfl, empty⟩
  · next stands => exact ⟨h, fun raised empty => stands ⟨raised, empty⟩⟩

theorem Group.Lawful.endTaken {x : Group} (h : x.Lawful) : x.endTaken.Lawful := by
  refine Group.Lawful.raise ⟨⟨fun unset => ?_, h.factor⟩, nofun⟩
  obtain ⟨factor, enable, _, empty⟩ := h.vacant unset
  exact ⟨factor, enable, rfl, empty⟩

/-- A configured group's call taken (R114). -/
theorem Group.Lawful.take {x : Group} (h : x.Lawful) (config : x.config ≠ none) :
    Group.Lawful { x with call := some .taken } := ⟨⟨fun unset => absurd unset config, h.factor⟩, nofun⟩

/-! ### The factor set changed (R95, R141, R150) -/

theorem Group.Lawful.fired {x : Group} (h : x.Lawful) {pos : Fin 8} (filled : x.positions[pos.val] ≠ none) :
    (x.fired pos).Lawful := by
  refine Group.Lawful.raise ⟨⟨fun unset => absurd unset (h.config_ne_none filled), fun q bit => ?_⟩,
    fun raised empty => h.raised raised ?_⟩
  · rw [BitVec.getLsbD_or, positionBit_get, Bool.or_eq_true, decide_eq_true_eq] at bit
    obtain before | rfl := bit
    · exact h.factor q before
    · exact filled
  · rw [BitVec.and_or_distrib_right] at empty
    exact (BitVec.or_eq_zero_iff.mp empty).1

theorem Group.Lawful.clear {x : Group} (h : x.Lawful) (set : Byte) : (x.clear set).Lawful := by
  refine Group.SetsLaw.withdraw ⟨fun unset => ?_, fun q bit => ?_⟩
  · obtain ⟨factor, enable, call, empty⟩ := h.vacant unset
    exact ⟨(congrArg (· &&& ~~~set) factor).trans BitVec.zero_and, enable, call, empty⟩
  · rw [BitVec.getLsbD_and, Bool.and_eq_true] at bit
    exact h.factor q bit.1

/-! ### A member leaves or joins (R38, R45, R50) -/

theorem Group.Lawful.leftBy {old : Option Member} {g : Fin 8} {x y : Group} (h : x.Lawful)
    (left : Group.LeftBy old g x y) : y.Lawful := by
  by_cases here : old.map Member.group = some g
  · refine ⟨⟨fun unset => ?_, fun q bit => ?_⟩, fun raised => ?_⟩
    · obtain ⟨factor, enable, call, empty⟩ := h.vacant (left.config.symm.trans unset)
      refine ⟨Byte.eq_zero_of_bits fun q => ?_, left.enable.trans enable, ?_, fun q => ?_⟩
      · exact (left.factor q).trans (by simp [factor])
      · rw [left.call, call, ite_self]
      · rw [left.positions, empty, ite_self]
    · rw [left.factor, Bool.and_eq_true, Bool.not_eq_true', decide_eq_false_iff_not] at bit
      obtain ⟨before, other⟩ := bit
      rw [left.positions, if_neg other]
      exact h.factor q before
    · rw [left.call] at raised
      obtain ⟨stands, raised⟩ := Option.ite_none_left_eq_some.mp raised
      exact fun empty => stands ⟨here, raised, empty⟩
  · rw [left.eq_of_other here]
    exact h

theorem Group.Lawful.joinedBy {i : Fin 64} {new : Option Member} {g : Fin 8} {x y : Group} (h : x.Lawful)
    (joined : Group.JoinedBy i new g x y) (config : ∀ m, new = some m → m.group = g → x.config ≠ none) : y.Lawful := by
  refine ⟨⟨fun unset => ?_, fun q bit => ?_⟩, fun raised => ?_⟩
  · have unset := joined.config.symm.trans unset
    obtain ⟨factor, enable, call, empty⟩ := h.vacant unset
    refine ⟨joined.factor.trans factor, joined.enable.trans enable, joined.call.trans call, fun q => ?_⟩
    rw [joined.positions, if_neg fun here => config _ here rfl unset, empty]
  · rw [joined.factor] at bit
    rw [joined.positions]
    split
    · nofun
    · exact h.factor q bit
  · rw [joined.factor, joined.enable]
    exact h.raised (joined.call.symm.trans raised)

/-! ### GSET (R145 to R148) -/

theorem Group.Lawful.set {x y : Group} (h : x.Lawful) {c : GroupConfig} {enable : Byte}
    (set : x.set c enable = some y) : y.Lawful := by
  have configured : ∀ z : Group, z.config ≠ none → z.factor = x.factor → z.positions = x.positions → z.SetsLaw := by
    refine fun z config factor positions => ⟨fun unset => absurd unset config, ?_⟩
    rw [factor, positions]
    exact h.factor
  unfold Group.set at set
  split at set
  · cases set
    exact ⟨⟨nofun, fun q bit => by simp [Group.configured] at bit⟩, nofun⟩
  next old config =>
  have present : x.config ≠ none := by rw [config]; nofun
  unfold Group.reconfigure at set
  split at set
  · next idle =>
    cases set
    exact Group.Lawful.raise ⟨configured _ nofun rfl rfl, fun raised => nomatch idle.symm.trans raised⟩
  · split at set
    · cases set
      exact (configured { x with enable := enable } present rfl rfl).withdraw
    · cases set
  · next taken =>
    split at set
    · cases set
      exact ⟨configured _ present rfl rfl, fun raised => nomatch taken.symm.trans raised⟩
    · cases set

/-- A GSET configure leaves every position as it is: those of a group that is not configured are empty. -/
theorem Group.Lawful.positions_set {x y : Group} (h : x.Lawful) {c : GroupConfig} {enable : Byte}
    (set : x.set c enable = some y) : y.positions = x.positions := by
  unfold Group.set at set
  split at set
  · next unset =>
    cases set
    obtain ⟨_, _, _, empty⟩ := h.vacant unset
    exact Vector.ext fun q hq => by rw [empty ⟨q, hq⟩]; exact Vector.getElem_replicate hq
  unfold Group.reconfigure at set
  split at set
  · cases set
    rw [Group.raise_eq]
  · split at set
    · cases set
      rw [Group.withdraw_eq]
    · cases set
  · split at set
    · cases set
      rfl
    · cases set

/-- An empty idle group released. -/
theorem Group.Lawful.released {x : Group} (h : x.Lawful) (empty : ∀ q : Fin 8, x.positions[q.val] = none)
    (idle : x.call = none) : x.released.Lawful := by
  refine ⟨⟨fun _ => ⟨Byte.eq_zero_of_bits fun q => ?_, rfl, idle, empty⟩, h.factor⟩, fun raised => ?_⟩
  · exact Bool.eq_false_iff.mpr fun bit => h.factor q bit (empty q)
  · exact nomatch idle.symm.trans raised

end Sys2Proof.Machine
end

section
/-! The law of the groups, read as seats and memberships that name each other and a law of each group record
(R139 to R142), and the changes of the table that keep it. -/

namespace Sys2Proof.Machine

/-! ### Seats and memberships (R140) -/

/-- The slot at a position of a group. -/
def Table.seat (t : Table) (m : Member) : Option (Fin 64) := (t.group m.group).positions[m.position.val]

/-- The membership of a slot's order; a FREE slot has none. -/
def Table.membership (t : Table) (i : Fin 64) : Option Member := (t.order i).bind Order.member

/-- The law of the groups: seats and memberships name each other, and each group record is lawful. -/
structure Table.Grouped (t : Table) : Prop where
  seated : ∀ m i, t.seat m = some i ↔ t.membership i = some m
  lawful : ∀ g, (t.group g).Lawful

theorem Table.names_iff {t : Table} {i : Fin 64} {g q : Fin 8} : t.names i g q ↔ t.membership i = some ⟨g, q⟩ :=
  Option.bind_eq_some_iff.symm

theorem Table.groupLaw_iff {t : Table} : t.GroupLaw ↔ t.Grouped := by
  constructor
  · intro h
    exact ⟨fun m i => (h.members m.group m.position i).trans Table.names_iff,
      fun g => ⟨⟨h.vacant g, h.factor g⟩, h.raised g⟩⟩
  · intro h
    exact ⟨fun g q i => (h.seated ⟨g, q⟩ i).trans Table.names_iff.symm, fun g => (h.lawful g).vacant,
      fun g => (h.lawful g).factor, fun g => (h.lawful g).raised⟩

theorem Table.membership_of_order {t : Table} {i : Fin 64} {o : Order} (order : t.order i = some o) :
    t.membership i = o.member := by
  rw [Table.membership, order, Option.bind_some]

theorem Table.membership_setOrder (t : Table) (i : Fin 64) (o : Order) (j : Fin 64) :
    (t.setOrder i o).membership j = if j = i then o.member else t.membership j := by
  rw [Table.membership, Table.order_setOrder]
  split <;> rfl

/-! ### Changes that move no membership -/

section
variable {t : Table} (h : t.Grouped)
include h

theorem Table.Grouped.of_seats {u : Table} (membership : ∀ i, u.membership i = t.membership i)
    (positions : ∀ g, (u.group g).positions = (t.group g).positions) (lawful : ∀ g, (u.group g).Lawful) :
    u.Grouped where
  seated m i := by
    rw [Table.seat, positions, membership]
    exact h.seated m i
  lawful := lawful

/-- The law speaks of the orders and the groups alone. -/
theorem Table.Grouped.of_reads {u : Table} (order : ∀ i, u.order i = t.order i) (group : ∀ g, u.group g = t.group g) :
    u.Grouped :=
  h.of_seats (fun i => congrArg (·.bind Order.member) (order i)) (fun g => congrArg Group.positions (group g))
    fun g => group g ▸ h.lawful g

theorem Table.Grouped.changeOrder {i : Fin 64} {o o' : Order} (order : t.order i = some o)
    (member : o'.member = o.member) : (t.setOrder i o').Grouped := by
  refine h.of_seats (fun j => ?_) (fun _ => rfl) h.lawful
  rw [Table.membership_setOrder]
  split
  · next own => rw [own, Table.membership_of_order order, member]
  · rfl

theorem Table.Grouped.mapOrders {f : Order → Order} (member : ∀ o : Order, (f o).member = o.member) :
    (t.mapOrders f).Grouped := by
  refine h.of_seats (fun i => ?_) (fun _ => rfl) h.lawful
  rw [Table.membership, Table.order_mapOrders, Table.membership]
  cases t.order i with
  | none => rfl
  | some o => exact member o

theorem Table.Grouped.setGroup {g : Fin 8} {x : Group} (positions : x.positions = (t.group g).positions)
    (lawful : x.Lawful) : (t.setGroup g x).Grouped := by
  refine h.of_seats (fun _ => rfl) (fun k => ?_) fun k => ?_ <;> rw [Table.group_setGroup] <;> split
  · next own => rw [own, positions]
  · rfl
  · exact lawful
  · exact h.lawful k

/-! ### A membership moved (R38, R45, R50) -/

/-- A slot leaves the seat it names and takes one that is open to it. -/
theorem Table.Grouped.move {u : Table} {i : Fin 64} {new : Option Member} (opens : t.Open (some i) new)
    (membership : ∀ j, u.membership j = if j = i then new else t.membership j)
    (groups : ∀ g, ∃ x, Group.LeftBy (t.membership i) g (t.group g) x ∧ Group.JoinedBy i new g x (u.group g)) :
    u.Grouped where
  seated m j := by
    obtain ⟨x, left, joined⟩ := groups m.group
    have seat : u.seat m = if new = some m then some i else if t.membership i = some m then none else t.seat m := by
      rw [Table.seat, joined.positions, left.positions]
      rfl
    have mine := h.seated m i
    have other := h.seated m j
    rw [seat, membership]
    by_cases taken : new = some m
    · obtain ⟨_, free⟩ := opens m taken
      have free : t.seat m = none ∨ t.seat m = some i := free.imp_right And.right
      rw [if_pos taken]
      by_cases own : j = i
      · simp [taken, own]
      · rw [if_neg own, ← other]
        obtain free | free := free <;> simp [free, Ne.symm own]
    · rw [if_neg taken]
      by_cases own : j = i
      · subst own
        rw [if_pos rfl, iff_false_right taken]
        split
        · nofun
        · next elsewhere => exact fun here => elsewhere (mine.mp here)
      · rw [if_neg own, ← other]
        split
        · next held => simp [mine.mpr held, Ne.symm own]
        · rfl
  lawful g := by
    obtain ⟨x, left, joined⟩ := groups g
    refine ((h.lawful g).leftBy left).joinedBy joined fun m taken here => ?_
    obtain ⟨config, _⟩ := opens m taken
    rw [left.config, ← here]
    exact config

end

end Sys2Proof.Machine
end

section
/-! The changes of the table that keep the law of the groups (R139 to R142). -/

namespace Sys2Proof.Machine

/-! ### No change of a call or a due moves a membership -/

@[simp] theorem Order.call1_member (o : Order) (k : Nat) (start : Byte → Option Elapsed) :
    (o.call1 k start).member = o.member := by
  unfold Order.call1
  split
  · rfl
  · split <;> rfl

@[simp] theorem Order.expired_member (o : Order) (e : Elapsed) (c : Call) : (o.expired e c).member = o.member := by
  unfold Order.expired
  split <;> rfl

@[simp] theorem Order.shift_member (o : Order) (n : Int) : (o.shift n).member = o.member := by
  unfold Order.shift
  split <;> rfl

@[simp] theorem Order.reRaise_member (o : Order) (level : Nat) (start : Byte → Option Elapsed) :
    (o.reRaise level start).member = o.member := by
  unfold Order.reRaise
  split <;> rfl

@[simp] theorem Order.withDeadline_member (o : Order) (d : Option Elapsed → Option Elapsed) :
    (o.withDeadline d).member = o.member := by
  unfold Order.withDeadline
  split
  · split <;> rfl
  · rfl

/-! ### PLAC, AMND and the retirements (R37, R38, R40, R45, R50) -/

/-- A membership that is not refused can be taken (R37, R40). -/
theorem Table.open_of_joinRefusal {t : Table} {self : Option (Fin 64)} {m : Option Member}
    (passes : t.joinRefusal self m = none) : t.Open self m := by
  rintro x rfl
  unfold Table.joinRefusal at passes
  dsimp only at passes
  split at passes
  · cases passes
  next present =>
  refine ⟨by simpa using present, ?_⟩
  split at passes
  · next free => exact .inl free
  · next i held =>
    split at passes
    · next mine => exact .inr ⟨by rw [mine]; nofun, held.trans mine.symm⟩
    · cases passes

section
variable {t : Table} (h : t.Grouped) {i : Fin 64}
include h

/-- A PLAC fills a FREE slot, which named no seat. -/
theorem Table.Grouped.place {o : Order} (free : t.order i = none) (opens : t.Open none o.member) :
    (t.place i o).Grouped := by
  have unseated : t.membership i = none := by rw [Table.membership, free, Option.bind_none]
  have opens : t.Open (some i) o.member := fun m named => by
    obtain ⟨config, free | ⟨absent, _⟩⟩ := opens m named
    · exact ⟨config, .inl free⟩
    · exact absurd rfl absent
  rw [Table.place_eq]
  refine h.move opens (fun j => ?_) fun g => ⟨_, ?_, (t.setOrder i o).group_joinIf i o.member g⟩
  · rw [Table.membership, Table.order_joinIf]
    exact t.membership_setOrder i o j
  · rw [unseated]
    exact .other _ nofun

variable {o : Order} (order : t.order i = some o)
include order

theorem Table.Grouped.amend (e : Elapsed) {a : Amend} (opens : t.Open (some i) (a.member.getD none)) :
    (t.amend i o e a).Grouped := by
  rw [Table.amend_eq]
  by_cases same : a.member.getD o.member = o.member
  · rw [same, Table.moveMember, if_pos rfl]
    exact h.changeOrder order same
  · have opens : t.Open (some i) (a.member.getD o.member) := by
      cases selected : a.member with
      | none => exact absurd (by rw [selected, Option.getD_none]) same
      | some new => rwa [selected] at opens
    refine h.move opens (fun j => ?_) fun g => ?_
    · obtain ⟨slots, _⟩ := (t.setOrder i (a.written e o)).moveMember_rest i o.member (a.member.getD o.member)
      rw [Table.membership, Table.order, Table.slot, slots]
      exact t.membership_setOrder i (a.written e o) j
    · rw [Table.membership_of_order order]
      exact (t.setOrder i (a.written e o)).group_moveMember i same g

theorem Table.Grouped.retire : (t.retire i o).Grouped := by
  have spec := t.retire_spec i o
  refine h.move (i := i) (new := none) (fun _ => nofun) (fun j => ?_) fun g => ⟨_, ?_, .other _ nofun⟩
  · rw [Table.membership, Table.order]
    split
    · next own => rw [own, spec.slot, Option.bind_none]
    · next other => rw [spec.other j other, Table.membership, Table.order]
  · rw [Table.membership_of_order order]
    exact spec.group g

end

section
variable {t : Table} (h : t.Grouped)
include h

theorem Table.Grouped.purge (owner : Port) : (t.purge owner).Grouped :=
  List.foldlRecOn allSlots (Table.purgeSlot owner) h fun u law i _ => by
    unfold Table.purgeSlot
    split
    · next order =>
      split
      · exact law.retire order
      · exact law
    · exact law

/-! ### FIRE (R95, R141, R142) -/

/-- The position that an order names holds it. -/
theorem Table.Grouped.filled {i : Fin 64} {o : Order} {m : Member} (order : t.order i = some o)
    (member : o.member = some m) : (t.group m.group).positions[m.position.val] ≠ none := by
  have seat := (h.seated m i).mpr ((Table.membership_of_order order).trans member)
  rw [Table.seat] at seat
  rw [seat]
  nofun

theorem Table.Grouped.fireOrder {i : Fin 64} {o : Order} (order : t.order i = some o) (g : InHand) (d : DateTime) :
    (t.fireOrder g i o d).Grouped := by
  by_cases dropped : secondNumber d < secondNumber g.now ∧ o.policy = .drop
  · rw [t.fireOrder_dropped g i dropped]
    exact h.changeOrder order rfl
  · cases member : o.member with
    | some m =>
      rw [t.fireOrder_member g i dropped member]
      have counted : (t.setOrder i (o.advanced (passed o.rule d g.now)).counted).Grouped := h.changeOrder order rfl
      refine counted.setGroup ?_ ((h.lawful m.group).fired (h.filled order member))
      rw [Group.fired_eq]
      rfl
    | none =>
      rw [t.fireOrder_alone g i dropped member]
      exact h.changeOrder order (Order.call1_member _ _ _)

theorem Table.Grouped.fire (g : InHand) : (t.fire g).Grouped := by
  unfold Table.fire
  split
  · split
    · exact h
    split
    · split
      · next order => exact h.fireOrder order g _
      · exact h
    · exact h
  · exact h

/-! ### TAKE and the end of taken calls (R114, R119, R120, R124 to R126) -/

theorem Table.Grouped.setContext (p : Port) (c : Context) : (t.setContext p c).Grouped :=
  h.of_reads (fun _ => rfl) fun _ => rfl

theorem Table.Grouped.takeOrder {i : Fin 64} {o : Order} (order : t.order i = some o) (p : Port) (e : Elapsed)
    (level : Nat) : (t.takeOrder p e i o level).Grouped :=
  (h.changeOrder (o' := o.taken level) order rfl).setContext p _

theorem Table.Grouped.takeGroup {g : Fin 8} (config : (t.group g).config ≠ none) (p : Port) (level : Nat) :
    (t.takeGroup p g level).Grouped :=
  (h.setGroup (x := { t.group g with call := some .taken }) rfl ((h.lawful g).take config)).setContext p _

theorem Table.Grouped.endTaken (g : Fin 8) : (t.setGroup g (t.group g).endTaken).Grouped := by
  refine h.setGroup ?_ (h.lawful g).endTaken
  rw [Group.endTaken_eq]

theorem Table.Grouped.finishCall (e : Entry) (hold : Bool) : (t.finishCall e hold).1.Grouped := by
  unfold Table.finishCall
  split
  · split
    · next named => exact h.changeOrder (Table.order_of_entryOrder named) rfl
    · exact h
  · exact h.endTaken _

theorem Table.Grouped.returnCall (start : Byte → Option Elapsed) (e : Entry) :
    (Table.returnCall start t e).Grouped := by
  unfold Table.returnCall
  split
  · split
    · next named => exact h.changeOrder (Table.order_of_entryOrder named) (Order.reRaise_member _ _ _)
    · exact h
  · exact h.endTaken _

theorem Table.Grouped.emptyStacks (start : Byte → Option Elapsed) : (t.emptyStacks start).Grouped := by
  have emptied : (t.entries.foldl (Table.returnCall start) t).Grouped :=
    List.foldlRecOn t.entries _ h fun _ law e _ => law.returnCall start e
  rw [Table.emptyStacks_eq]
  exact emptied.of_reads (fun _ => rfl) fun _ => rfl

theorem Table.Grouped.backupWork : t.backupWork.Grouped :=
  ((h.emptyStacks _).mapOrders fun o => o.withDeadline_member _).of_reads (fun _ => rfl) fun _ => rfl

theorem Table.Grouped.returnWork (e : Elapsed) : (t.returnWork e).Grouped := by
  refine (h.mapOrders fun o => ?_).of_reads (fun _ => rfl) fun _ => rfl
  split
  · rfl
  · exact o.withDeadline_member _

/-! ### GSET and GCLR (R145 to R148, R150) -/

theorem Table.Grouped.configure {g : Fin 8} {c : GroupConfig} {enable : Byte} {x : Group}
    (set : (t.group g).set c enable = some x) : (t.setGroup g x).Grouped :=
  h.setGroup ((h.lawful g).positions_set set) ((h.lawful g).set set)

theorem Table.Grouped.release {g : Fin 8} (empty : (t.group g).vacant = true) (idle : (t.group g).call = none) :
    (t.setGroup g (t.group g).released).Grouped :=
  h.setGroup rfl ((h.lawful g).released ((t.group g).vacant_iff.mp empty) idle)

theorem Table.Grouped.clear (g : Fin 8) (set : Byte) : (t.setGroup g ((t.group g).clear set)).Grouped := by
  refine h.setGroup ?_ ((h.lawful g).clear set)
  rw [Group.clear, Group.withdraw_eq]

end

end Sys2Proof.Machine
end

section
/-! Every change of the table keeps the law of the groups (R139 to R142). -/

namespace Sys2Proof.Machine

/-! ### The services -/

theorem servePlac_keeps_grouped : ServiceKeeps Table.Grouped servePlac := by
  intro p g args t h
  unfold servePlac
  split
  · exact h
  split
  · exact h
  next passes =>
  split
  · exact h
  split
  · exact h
  next i _ pool =>
  have free : t.order i = none := by
    have mem : i ∈ t.freePool := pool ▸ List.mem_cons_self
    simpa using List.of_mem_filter mem
  exact h.place free (Table.open_of_joinRefusal passes)

theorem serveAmnd_keeps_grouped : ServiceKeeps Table.Grouped serveAmnd := by
  intro p g args t h
  unfold serveAmnd
  split
  · split
    · exact h
    split
    · exact h
    next i o named =>
    split
    · exact h
    unfold amendOrder
    split
    · exact h
    split
    · exact h
    next passes =>
    split
    · exact h
    obtain ⟨_, _, order⟩ := (Table.resolve_eq_some _ _ _ _ _).mp named
    exact h.amend order _ (Table.open_of_joinRefusal passes)
  · exact h

theorem serveHold_keeps_grouped : ServiceKeeps Table.Grouped serveHold := fun _ _ _ _ h =>
  withHandle_keeps h fun i o order => by
    split
    · exact h.changeOrder order rfl
    · exact h
    · exact h

theorem serveRsum_keeps_grouped : ServiceKeeps Table.Grouped serveRsum := fun _ _ _ _ h =>
  withHandle_keeps h fun i o order => by
    split
    · exact h.changeOrder order rfl
    · exact h
    · exact h

theorem serveRtir_keeps_grouped : ServiceKeeps Table.Grouped serveRtir := fun _ _ _ _ h =>
  withHandle_keeps h fun _ _ order => h.retire order

theorem servePurg_keeps_grouped : ServiceKeeps Table.Grouped servePurg := by
  intro p g args t h
  unfold servePurg
  split
  · split
    · exact h
    next owner _ =>
    split
    · exact h
    · dsimp only
      exact h.purge owner
  · exact h

theorem serveList_keeps_grouped : ServiceKeeps Table.Grouped serveList := fun _ _ _ _ h => by
  unfold serveList
  split <;> exact h

theorem serveQuot_keeps_grouped : ServiceKeeps Table.Grouped serveQuot := fun p g args t h => by
  unfold serveQuot
  split
  · split
    · exact h
    split
    · exact h
    split
    · exact h
    · exact h.of_reads (fun _ => rfl) fun _ => rfl
  · exact h

theorem serveInfo_keeps_grouped : ServiceKeeps Table.Grouped serveInfo := fun _ _ _ _ h => by
  unfold serveInfo
  split <;> exact h

theorem serveTake_keeps_grouped : ServiceKeeps Table.Grouped serveTake := by
  intro p g args t h
  unfold serveTake
  split
  · exact h
  split
  · exact h
  split
  · exact h
  next x best =>
  have raises := Table.bestOffered_raises best
  unfold Table.raises at raises
  unfold Table.takeCall
  cases origin : x.origin with
  | order i =>
    simp only [origin] at raises
    obtain ⟨o, c, order, _⟩ := raises
    simp only [order]
    exact h.takeOrder order _ _ _
  | group k =>
    simp only [origin] at raises
    obtain ⟨_, c, config, _⟩ := raises
    exact h.takeGroup (by rw [config]; nofun) _ _

theorem serveFnsh_keeps_grouped : ServiceKeeps Table.Grouped serveFnsh := by
  intro p g args t h
  unfold serveFnsh
  split
  · exact h
  split
  · exact h
  split
  · exact (h.setContext p _).finishCall _ _
  · exact h

theorem serveCeil_keeps_grouped : ServiceKeeps Table.Grouped serveCeil := by
  intro p g args t h
  unfold serveCeil
  split
  · dsimp only
    split
    · exact h
    split
    · exact h.setContext p _
    · exact h
  · exact h

theorem serveNest_keeps_grouped : ServiceKeeps Table.Grouped serveNest := by
  intro p g args t h
  unfold serveNest
  split
  · dsimp only
    split
    · exact h
    split
    · exact h.setContext p _
    · exact h
  · exact h

theorem serveConfigure_keeps_grouped : ServiceKeeps Table.Grouped serveConfigure := fun _ _ _ _ h => by
  unfold serveConfigure
  split
  · split
    · next set => exact h.configure set
    · exact h
  · exact h
  · exact h

theorem serveRelease_keeps_grouped : ServiceKeeps Table.Grouped serveRelease := fun _ _ _ t h => by
  unfold serveRelease
  split
  · split
    · exact h
    split
    · exact h
    next empty =>
    split
    · exact h
    next idle => exact h.release (by simpa using empty) (by simpa using idle)
  · exact h
  · exact h

theorem serveGred_keeps_grouped : ServiceKeeps Table.Grouped serveGred := fun _ _ _ _ h => by
  unfold serveGred
  split
  · split
    · exact h
    · split <;> exact h
  · exact h

theorem serveGclr_keeps_grouped : ServiceKeeps Table.Grouped serveGclr := fun _ _ _ _ h => by
  unfold serveGclr
  split
  · split
    · exact h
    split
    · exact h
    split
    · exact h
    · exact h.clear _ _
  · exact h

theorem tableServices_keep_grouped : ∀ f ∈ tableServices, ServiceKeeps Table.Grouped f := by
  simp only [tableServices, List.forall_mem_cons]
  exact ⟨servePlac_keeps_grouped, serveAmnd_keeps_grouped, serveHold_keeps_grouped, serveRsum_keeps_grouped,
    serveRtir_keeps_grouped, servePurg_keeps_grouped, serveList_keeps_grouped, serveQuot_keeps_grouped,
    serveInfo_keeps_grouped, serveTake_keeps_grouped, serveFnsh_keeps_grouped, serveCeil_keeps_grouped,
    serveNest_keeps_grouped, serveConfigure_keeps_grouped, serveRelease_keeps_grouped, serveGred_keeps_grouped,
    serveGclr_keeps_grouped, fun _ mem => absurd mem List.not_mem_nil⟩

/-! ### Every step -/

theorem Table.Grouped.keeps : Table.Keeps Table.Grouped where
  stored _ _ e h := h.of_reads (Table.order_stored e) (Table.group_stored e)
  powerOn := Table.groupLaw_iff.mp Table.powerOn_groupLaw
  service := tableServices_keep_grouped
  shift _ n h := h.mapOrders fun o => o.shift_member n
  fire _ g h := h.fire g
  expiredCall _ e _ o c order _ _ h := h.changeOrder order (o.expired_member e c)
  expiredEntry _ p _ h := h.setContext p _
  resetWork _ _ h := h.emptyStacks _
  backupWork _ h := h.backupWork
  returnWork _ e h := h.returnWork e

/-- Settles O58: the law, read as seats and memberships and a law of each record, survives every change of the table. -/
theorem everyStepKeepsTheGroupLaw : Obligations.EveryStepKeepsTheGroupLaw := by
  unfold Obligations.EveryStepKeepsTheGroupLaw
  simp only [Table.groupLaw_iff]
  exact Table.Grouped.keeps.step

end Sys2Proof.Machine
end

section
/-! GSET, GRED and GCLR at the table: the arguments they accept, and what they leave of the group they name
(R24, R144 to R150). -/

namespace Sys2Proof.Machine

/-! ### Which row carries out a GSET (R144; entry 15) -/

section
variable {args : List Byte} {h : InHand} {s : State} (hs : Carries s .A .gset args h)
include hs

theorem Carries.exec_gsetConfigure (form : ∀ b, args[1]? = some b → b = 0 ∨ 1 < b.toNat) :
    exec .gsetConfigure s = .next (whileReliable (serve .gset .A (tableService serveConfigure)) s) := by
  have served : s.table.gsetForm 0 = true := Table.gsetForm_of_bytes hs.inHand hs.request form
  simp only [exec, execGsetConfigure, whileReliable, served, if_true]

theorem Carries.exec_gsetRelease (form : ∀ b, args[1]? = some b → b = 1 ∨ 1 < b.toNat) :
    exec .gsetRelease s = .next (whileReliable (serve .gset .A (tableService serveRelease)) s) := by
  have served : s.table.gsetForm 1 = true := Table.gsetForm_of_bytes hs.inHand hs.request form
  simp only [exec, execGsetRelease, whileReliable, served, if_true]

end

/-! ### The arguments of a GSET (R144) -/

theorem gsetArgs_configure (g : Fin 8) {level : Nat} (range : level ≤ 6) (port : Port) (enable : Byte) :
    gsetArgs [byteOf g.val, 0, byteOf level, portByte port, enable] = some (.configure g level port enable) := by
  simp only [gsetArgs, if_true, finOf_groupByte, floorOf_byteOf range, portOf_portByte]

theorem gsetArgs_release (g : Fin 8) : gsetArgs [byteOf g.val, 1] = some (.release g) := by
  simp only [gsetArgs, if_true, finOf_groupByte, Option.map_some]

theorem gsetArgs_bad_release {g : Byte} {rest : List Byte} (bad : 8 ≤ g.toNat ∨ rest ≠ []) :
    gsetArgs (g :: 1 :: rest) = none := by
  have other : (1 : Byte) ≠ 0 := by decide
  match rest, bad with
  | [], .inl range => simp only [gsetArgs, if_true, finOf_eq_none.mpr range, Option.map_none]
  | [_], _ => rfl
  | [_, _], _ => rfl
  | [_, _, _], _ => simp only [gsetArgs, if_neg other]
  | _ :: _ :: _ :: _ :: _, _ => rfl

theorem gsetArgs_bad_configure {g : Byte} {rest : List Byte}
    (bad : 8 ≤ g.toNat ∨ rest.length ≠ 3 ∨ 6 < (byteAt rest 0).toNat ∨ 1 < (byteAt rest 1).toNat) :
    gsetArgs (g :: 0 :: rest) = none := by
  have other : (0 : Byte) ≠ 1 := by decide
  match rest, bad with
  | [], _ => simp only [gsetArgs, if_neg other]
  | [_], _ => rfl
  | [_, _], _ => rfl
  | [level, port, _], bad =>
    simp only [gsetArgs, if_true]
    obtain range | count | range | range := bad
    · rw [finOf_eq_none.mpr range]
    · exact absurd rfl count
    · rw [show floorOf level = none from floorOf_eq_none.mpr range]
      cases finOf 8 g <;> rfl
    · rw [show portOf port = none from portOf_eq_none.mpr range]
      cases finOf 8 g <;> cases floorOf level <;> rfl
  | _ :: _ :: _ :: _ :: _, _ => rfl

theorem gsetArgs_bad_form {args : List Byte} (bad : args.length < 2 ∨ 1 < (byteAt args 1).toNat) :
    gsetArgs args = none := by
  match args, bad with
  | [], _ => rfl
  | [_], _ => rfl
  | _ :: form :: rest, bad =>
    have unknown : 1 < form.toNat := bad.resolve_left (by simp)
    have notConfigure : form ≠ 0 := by rintro rfl; cases unknown
    have notRelease : form ≠ 1 := by rintro rfl; exact absurd unknown (by decide)
    match rest with
    | [] => exact if_neg notRelease
    | [_] => rfl
    | [_, _] => rfl
    | [_, _, _] => exact if_neg notConfigure
    | _ :: _ :: _ :: _ :: _ => rfl

/-! ### GSET configure (R144 to R147) -/

section
variable {x : Group} {old c : GroupConfig} {enable : Byte}

theorem Group.set_unconfigured (unset : x.config = none) :
    x.set c enable = some ⟨some c, enable, 0, Vector.replicate 8 none, none⟩ := by
  simp only [Group.set, unset, Group.configured]

theorem Group.set_idle (config : x.config = some old) (idle : x.call = none) : x.set c enable =
    some { x with config := some c, enable := enable
                  call := if x.factor &&& enable ≠ 0 then some .raised else none } := by
  simp only [Group.set, config, Group.reconfigure, idle, Group.raise_eq, true_and]

theorem Group.set_barred (config : x.config = some old) (stands : x.call ≠ none) (other : old ≠ c) :
    x.set c enable = none := by
  simp only [Group.set, config, Group.reconfigure]
  split
  · next idle => exact absurd idle stands
  · exact if_neg other
  · exact if_neg other

theorem Group.set_raised (config : x.config = some c) (raised : x.call = some .raised) : x.set c enable =
    some { x with enable := enable, call := if x.factor &&& enable = 0 then none else some .raised } := by
  simp only [Group.set, config, Group.reconfigure, raised, if_true, Group.withdraw_eq, true_and]

theorem Group.set_taken (config : x.config = some c) (taken : x.call = some .taken) :
    x.set c enable = some { x with enable := enable } := by
  simp only [Group.set, config, Group.reconfigure, taken, if_true]

end

section
variable {p : Port} {h : InHand} {args : List Byte} {t : Table} {g : Fin 8} {level : Nat} {port : Port} {enable : Byte}

theorem serveConfigure_refused (bad : gsetArgs args = none) : serveConfigure p h args t = t.answer .badArgument := by
  simp only [serveConfigure, bad]

theorem serveConfigure_barred (form : gsetArgs args = some (.configure g level port enable))
    (barred : (t.group g).set ⟨level, port⟩ enable = none) :
    serveConfigure p h args t = t.answer .callOutstanding := by
  simp only [serveConfigure, form, barred]

theorem serveConfigure_sets (form : gsetArgs args = some (.configure g level port enable)) {x : Group}
    (set : (t.group g).set ⟨level, port⟩ enable = some x) :
    serveConfigure p h args t = (t.setGroup g x, .done (configureBytes g ⟨level, port⟩ x)) := by
  simp only [serveConfigure, form, set]

end

/-- Settles O37: the group by the equations of `Group.set`, one for each case of R145 to R147. -/
theorem gsetConfigureSetsTheGroup : Obligations.GsetConfigureSetsTheGroup := by
  intro g level port enable h s range hs t x done
  have form := gsetArgs_configure g range port enable
  have row := hs.exec_gsetConfigure fun b read => .inl (Option.some.inj read).symm
  have sets : ∀ x' : Group, x'.enable = enable → x.set ⟨level, port⟩ enable = some x' → done x' := by
    rintro x' rfl set
    exact hs.answers rfl row (serveConfigure_sets form set) rfl
  refine ⟨fun unset => sets _ rfl (Group.set_unconfigured unset), fun c config => ?_⟩
  exact ⟨fun idle => sets _ rfl (Group.set_idle config idle),
    fun stands other => hs.refused rfl row (serveConfigure_barred form (Group.set_barred config stands other)),
    fun raised same => sets _ rfl (Group.set_raised (same ▸ config) raised),
    fun taken same => sets _ rfl (Group.set_taken (same ▸ config) taken)⟩

/-! ### GSET release (R144, R148) -/

section
variable {p : Port} {h : InHand} {args : List Byte} {t : Table} {g : Fin 8}

theorem serveRelease_refused (bad : gsetArgs args = none) : serveRelease p h args t = t.answer .badArgument := by
  simp only [serveRelease, bad]

theorem serveRelease_unconfigured (form : gsetArgs args = some (.release g)) (unset : (t.group g).config = none) :
    serveRelease p h args t = t.answer .noSuchGroup := by
  simp only [serveRelease, form, unset, Option.isNone_none, if_true]

variable (form : gsetArgs args = some (.release g)) (config : (t.group g).config ≠ none)
include form config

theorem serveRelease_inUse (filled : ¬ ∀ q : Fin 8, (t.group g).positions[q.val] = none) :
    serveRelease p h args t = t.answer .groupInUse := by
  have held : (t.group g).vacant = false := Bool.eq_false_iff.mpr (mt (t.group g).vacant_iff.mp filled)
  simp only [serveRelease, form, Option.isNone_iff_eq_none, if_neg config, held, Bool.not_false, if_true]

variable (empty : ∀ q : Fin 8, (t.group g).positions[q.val] = none)
include empty

theorem serveRelease_called (stands : (t.group g).call ≠ none) :
    serveRelease p h args t = t.answer .callOutstanding := by
  simp only [serveRelease, form, Option.isNone_iff_eq_none, if_neg config, (t.group g).vacant_iff.mpr empty,
    Bool.not_true, Bool.false_eq_true, if_false, Option.isSome_iff_ne_none, if_pos stands]

theorem serveRelease_releases (idle : (t.group g).call = none) : serveRelease p h args t =
    (t.setGroup g { t.group g with config := none, enable := 0 }, .done [byteOf g.val, 0]) := by
  simp only [serveRelease, form, Option.isNone_iff_eq_none, if_neg config, (t.group g).vacant_iff.mpr empty,
    Bool.not_true, Bool.false_eq_true, if_false, idle, Option.isSome_none, Group.released]

end

/-- Settles O38: the checks of a release in their order, and the arguments that neither row accepts. -/
theorem gsetReleaseAndItsRefusals : Obligations.GsetReleaseAndItsRefusals := by
  intro args h s hs t
  refine ⟨?_, ?_, ?_, fun bad => ?_⟩
  · rintro g rfl x empty
    have form := gsetArgs_release g
    have row := hs.exec_gsetRelease fun b read => .inl (Option.some.inj read).symm
    exact ⟨fun unset => hs.refused rfl row (serveRelease_unconfigured form unset),
      fun config filled => hs.refused rfl row (serveRelease_inUse form config filled),
      fun config vacant stands => hs.refused rfl row (serveRelease_called form config vacant stands),
      fun config vacant idle => hs.answers rfl row (serveRelease_releases form config vacant idle) rfl⟩
  · rintro g rest rfl bad
    exact hs.refused rfl (hs.exec_gsetRelease fun b read => .inl (Option.some.inj read).symm)
      (serveRelease_refused (gsetArgs_bad_release bad))
  · rintro g rest rfl bad
    exact hs.refused rfl (hs.exec_gsetConfigure fun b read => .inl (Option.some.inj read).symm)
      (serveConfigure_refused (gsetArgs_bad_configure bad))
  · have unknown : ∀ b, args[1]? = some b → 1 < b.toNat := fun b read => by
      obtain ⟨there, _⟩ := List.getElem?_eq_some_iff.mp read
      have form := bad.resolve_left (by omega)
      rwa [byteAt, List.getD_eq_getElem?_getD, read] at form
    have refused := gsetArgs_bad_form bad
    exact ⟨hs.refused rfl (hs.exec_gsetConfigure fun b read => .inr (unknown b read)) (serveConfigure_refused refused),
      hs.refused rfl (hs.exec_gsetRelease fun b read => .inr (unknown b read)) (serveRelease_refused refused)⟩

/-! ### GRED and GCLR (R24, R149, R150) -/

/-- Port B is barred from a group that does not answer it, and nothing else is (R24). -/
theorem Group.permits_iff {x : Group} {p : Port} :
    x.permits p = true ↔ ¬ (p = .B ∧ x.config.map GroupConfig.answering ≠ some .B) := by
  cases p with
  | A => simp [Group.permits]
  | B => cases config : x.config <;> simp [Group.permits, config]

theorem Table.positionBytes_eq (t : Table) (m : Option (Fin 64)) : t.positionBytes m = match m with
    | some i => [byteOf i.val, byteOf (t.slot i).generation.toNat]
    | none => [0xFF, 0xFF] := by
  cases m <;> rfl

/-- The positions of a group, in their order. -/
theorem Group.positions_toList (x : Group) :
    x.positions.toList = (List.finRange 8).map fun q => x.positions[q.val] := by
  refine List.ext_getElem (by simp) fun n _ _ => ?_
  simp

/-- The payload of GRED, written out (Table A-5). -/
theorem Table.groupBytes_eq (t : Table) (g : Fin 8) : t.groupBytes g =
    byteOf g.val :: (match (t.group g).config with
        | some c => [1, byteOf c.level, portByte c.answering]
        | none => [0, 0, 0xFF])
      ++ (List.finRange 8).flatMap (fun q => match (t.group g).positions[q.val] with
        | some i => [byteOf i.val, byteOf (t.slot i).generation.toNat]
        | none => [0xFF, 0xFF])
      ++ [(t.group g).factor, (t.group g).enable, callByte (t.group g).call] := by
  have positions : (t.group g).positions.toList.flatMap t.positionBytes = (List.finRange 8).flatMap fun q =>
      t.positionBytes (t.group g).positions[q.val] := by
    rw [Group.positions_toList, List.flatMap_map]
  simp only [Table.groupBytes, positions, Table.positionBytes_eq, Group.callState]
  cases (t.group g).config <;> rfl

section
variable {p : Port} {h : InHand} {args : List Byte} {t : Table} {g : Fin 8} {set : Byte}

theorem serveGred_layout (bad : args.length ≠ 1 ∨ 8 ≤ (byteAt args 0).toNat) :
    serveGred p h args t = t.answer .badArgument := by
  unfold serveGred
  split
  · next b =>
    have range : 8 ≤ b.toNat := bad.resolve_left fun count => count rfl
    rw [finOf_eq_none.mpr range]
  · rfl

theorem serveGred_barred (barred : p = .B ∧ (t.group g).config.map GroupConfig.answering ≠ some .B) :
    serveGred p h [byteOf g.val] t = t.answer .notPermitted := by
  have denied : ¬ (t.group g).permits p = true := fun permits => Group.permits_iff.mp permits barred
  simp only [serveGred, finOf_groupByte, if_neg denied]

theorem serveGred_reports (allowed : ¬ (p = .B ∧ (t.group g).config.map GroupConfig.answering ≠ some .B)) :
    serveGred p h [byteOf g.val] t = (t, .done (t.groupBytes g)) := by
  simp only [serveGred, finOf_groupByte, Group.permits_iff.mpr allowed, if_true]

theorem serveGclr_layout (bad : args.length ≠ 2 ∨ 8 ≤ (byteAt args 0).toNat) :
    serveGclr p h args t = t.answer .badArgument := by
  unfold serveGclr
  split
  · next b _ =>
    have range : 8 ≤ b.toNat := bad.resolve_left fun count => count rfl
    rw [finOf_eq_none.mpr range]
  · rfl

theorem serveGclr_barred (barred : p = .B ∧ (t.group g).config.map GroupConfig.answering ≠ some .B) :
    serveGclr p h [byteOf g.val, set] t = t.answer .notPermitted := by
  have denied : (t.group g).permits p = false :=
    Bool.eq_false_iff.mpr fun permits => Group.permits_iff.mp permits barred
  simp only [serveGclr, finOf_groupByte, denied, Bool.not_false, if_true]

variable (allowed : ¬ (p = .B ∧ (t.group g).config.map GroupConfig.answering ≠ some .B))
include allowed

theorem serveGclr_unconfigured (unset : (t.group g).config = none) :
    serveGclr p h [byteOf g.val, set] t = t.answer .noSuchGroup := by
  simp only [serveGclr, finOf_groupByte, Group.permits_iff.mpr allowed, Bool.not_true, Bool.false_eq_true, if_false,
    unset, Option.isNone_none, if_true]

theorem serveGclr_clears (config : (t.group g).config ≠ none) : serveGclr p h [byteOf g.val, set] t =
    (t.setGroup g ((t.group g).clear set),
      .done [byteOf g.val, ((t.group g).clear set).factor, callByte ((t.group g).clear set).call]) := by
  simp only [serveGclr, finOf_groupByte, Group.permits_iff.mpr allowed, Bool.not_true, Bool.false_eq_true, if_false,
    Option.isNone_iff_eq_none, if_neg config, Group.callState]

end

/-- A clear changes the factor and the call alone (R150). -/
theorem Group.clear_eq (x : Group) (set : Byte) : x.clear set = { x with
    factor := x.factor &&& ~~~set
    call := if x.call = some .raised ∧ (x.factor &&& ~~~set) &&& x.enable = 0 then none else x.call } :=
  Group.withdraw_eq _

/-- Settles O39. -/
theorem gredReportsAndGclrClears : Obligations.GredReportsAndGclrClears := by
  intro p args h s t barred
  refine ⟨fun hs => ⟨fun bad => hs.refused rfl rfl (serveGred_layout bad), ?_⟩,
    fun hs => ⟨fun bad => hs.refused rfl rfl (serveGclr_layout bad), ?_⟩⟩
  · rintro g rfl
    refine ⟨fun no => hs.refused rfl rfl (serveGred_barred no), fun yes => ?_⟩
    have reports := hs.answers (i := .gred p) rfl rfl (serveGred_reports yes) rfl
    rw [Table.groupBytes_eq] at reports
    exact reports
  · rintro g set rfl
    refine ⟨fun no => hs.refused rfl rfl (serveGclr_barred no),
      fun yes unset => hs.refused rfl rfl (serveGclr_unconfigured yes unset), fun yes config => ?_⟩
    have clears := hs.answers (i := .gclr p) rfl rfl (serveGclr_clears (set := set) yes config) rfl
    rw [Group.clear_eq] at clears
    exact clears

end Sys2Proof.Machine
end

section
/-! ALRD and ALCL, carried out by the unit itself, and the power-on values of the blocks (R154, R159, R162, R163, R173,
R182). -/

namespace Sys2Proof.Machine

/-! ### Commands a unit carries out itself (R162, R163, R173) -/

/-- A local command that ends in IDLE runs on the unit alone (R172, R173). -/
theorem State.takeFrame_local {s : State} {p : Port} {c : Command} (own : c.code = .alrd ∨ c.code = .alcl)
    (idle : (s.units.get p).phase = .idle) : s.takeFrame p c = s.modUnit p fun u => u.runLocal c := by
  rcases own with code | code <;>
    simp only [State.takeFrame, State.routeCommand, Code.route, code, idle, reduceCtorEq, or_self, if_false, if_true]

/-- The whole transfer of a local command in IDLE reaches the unit alone, and leaves it as the command does (R172,
R173). -/
theorem sendFrame_local {p : Port} {c : Code} {args : List Byte} {s : State} {v : CmdUnit} (own : c = .alrd ∨ c = .alcl)
    (serving : s.serving = true) (line : s.LineIdle p) (idle : (s.units.get p).phase = .idle)
    (fits : args.length ≤ 40) (runs : ((s.units.get p).reported p).runLocal ⟨c, args⟩ = v) :
    UnitOnly p s (s.sendFrame p c args) v := by
  have frame := s.transferred_frame p (args.length + 3)
  have still : ((s.transferred p (args.length + 3)).units.get p).phase = .idle := by
    rw [frame.unit, CmdUnit.reported_phase, idle]
  have other : c ≠ .rply := by rcases own with rfl | rfl <;> nofun
  rw [State.sendFrame, frameEvent_command serving line fits other, State.takeFrame_local own still, ← runs]
  exact frame.modUnit _

/-- Argument bytes of an ALRD are refused (R162). -/
theorem CmdUnit.alrd_refuses (u : CmdUnit) {args : List Byte} (given : args ≠ []) :
    u.alrd args = u.place (.bare .badArgument) := by
  cases args with
  | nil => exact absurd rfl given
  | cons => rfl

/-- An ALCL clears the bits its set names (R163). -/
theorem CmdUnit.alcl_clears (u : CmdUnit) (set : BitVec 4) : u.alcl [set.setWidth 8] =
    (u.clearAlert set).place (.done [(u.alert &&& ~~~set).setWidth 8]) := by
  have fits : (set.setWidth 8).toNat < 16 := by
    rw [BitVec.toNat_setWidth_of_le (by decide)]
    exact set.isLt
  have named : (set.setWidth 8).setWidth 4 = set := by
    rw [BitVec.setWidth_setWidth_of_le set (by decide), BitVec.setWidth_eq]
  simp only [CmdUnit.alcl, if_pos fits, named, CmdUnit.clearAlert]

/-- An ALCL without its one byte, or with a set that names a bit other than the four, is refused (R163). -/
theorem CmdUnit.alcl_refuses (u : CmdUnit) {args : List Byte} (bad : ∀ b, args = [b] → 16 ≤ b.toNat) :
    u.alcl args = u.place (.bare .badArgument) := by
  unfold CmdUnit.alcl
  split
  · next set => rw [if_neg (Nat.not_lt.mpr (bad set rfl))]
  · rfl

/-- Settles O14. -/
theorem alertCommandsReadAndClearTheWord : Obligations.AlertCommandsReadAndClearTheWord := by
  intro p s serving line idle
  have alrd {args v} := sendFrame_local (c := .alrd) (args := args) (v := v) (.inl rfl) serving line idle
  have alcl {args v} := sendFrame_local (c := .alcl) (args := args) (v := v) (.inr rfl) serving line idle
  exact ⟨⟨_, rfl, alrd (Nat.zero_le _) rfl⟩,
    fun _ given fits => ⟨_, rfl, alrd fits (CmdUnit.alrd_refuses _ given)⟩,
    fun set => ⟨_, rfl, alcl (Nat.le_of_ble_eq_true rfl) (CmdUnit.alcl_clears _ set)⟩,
    fun _ fits bad => ⟨_, rfl, alcl fits (CmdUnit.alcl_refuses _ bad)⟩⟩

/-! ### Power-on and the return with retention lost (R154, R159, R182) -/

/-- Every block at its power-on values, with the alert words at `alert`, in MAIN with ADDR sampled (R154, R159, R168). -/
def State.fresh (s : State) (high : Bool) (alert : BitVec 4) : State := { s with
  power := .main, retention := .held
  clock := State.reset.clock, sched := State.reset.sched, table := State.reset.table
  units := State.reset.units.map fun _ u => { u with alert := alert }
  linkB := { s.linkB with addrHigh := high } }

theorem exec_powerOn {s : State} (dark : s.power = .withoutSupply) (high : Bool) :
    exec (.powerOn high) s = .next (s.fresh high 0#4) :=
  congrArg Host.Outcome.next (if_pos dark)

/-- RETENTION-LOST stands alone in an alert word that was at its power-on value (R161, R182). -/
theorem CmdUnit.powerOn_retentionLost :
    CmdUnit.powerOn.setAlert .retentionLost = { CmdUnit.powerOn with alert := 2#4 } := by decide

/-- The return gives the power-on values and sets RETENTION-LOST (R159, entry 22). -/
theorem exec_returnRetentionLost {s : State} (backup : s.power = .backup) (lost : s.retention = .lost) (high : Bool) :
    exec (.returnRetentionLost high) s = .next (s.fresh high 2#4) := by
  have returns : exec (.returnRetentionLost high) s = .next { s.fresh high 0#4 with
      units := ⟨CmdUnit.powerOn.setAlert .retentionLost, CmdUnit.powerOn.setAlert .retentionLost⟩ } :=
    congrArg Host.Outcome.next (if_pos ⟨backup, lost⟩)
  rw [returns, CmdUnit.powerOn_retentionLost]
  rfl

/-- Settles O51. -/
theorem powerOnValuesAreTaken : Obligations.PowerOnValuesAreTaken := fun high _ =>
  ⟨fun dark => exec_powerOn dark high, fun backup lost => exec_returnRetentionLost backup lost high⟩

end Sys2Proof.Machine
end

section
/-! What each kind of command leaves alone: the commands of the blocks touch neither the supply nor the links, and no
transfer changes whether the links serve (R154, R156, R157, R167, R168, R180). -/

namespace Sys2Proof.Machine

/-! ### The commands of the blocks stay within the blocks -/

theorem Outside.serving {s s' : State} (h : Outside s s') : s'.serving = s.serving := by
  simp only [State.serving, h.power, h.resetAsserted]

/-- A change of the blocks alone. -/
theorem Outside.blocks {s s' : State} (h : s' = { s with
    clock := s'.clock, sched := s'.sched, table := s'.table, units := s'.units }) : Outside s s' := by
  rw [h]
  exact ⟨rfl, rfl, rfl, rfl, rfl, rfl, rfl⟩

/-- `Outside.trans` read backwards from the last change. -/
theorem Outside.after {s t u : State} (b : Outside t u) (a : Outside s t) : Outside s u := a.trans b

/-- An act that comes only under a condition. -/
theorem Outside.ite {c : Prop} [Decidable c] {s s' : State} (h : Outside s s') : Outside s (if c then s' else s) := by
  split
  · exact h
  · exact .refl s

theorem State.afterTable_outside (s : State) : Outside s s.afterTable :=
  s.presentTable.judge_arbitrate_settled.outside.after (.blocks rfl)

theorem State.afterClock_outside (s : State) : Outside s s.afterClock :=
  s.presentClock.judge_arbitrate_settled.outside.after (.blocks rfl)

theorem State.completeCommand_outside (s : State) (p : Port) (r : Reply) : Outside s (s.completeCommand p r) :=
  (State.afterTable_outside _).after (.blocks rfl)

theorem State.completeSched_outside (s : State) : Outside s s.completeSched :=
  (State.afterTable_outside _).after (.blocks rfl)

/-- A change of the clock, and what follows it (R72). -/
theorem State.setClock_afterClock_outside (s : State) (k : Clock) : Outside s (s.setClock k).afterClock :=
  (State.afterClock_outside _).after (.blocks rfl)

/-- A service acts at the table and the clock alone. -/
def Service.Within (f : Service) : Prop := ∀ p h args s, Outside s (f p h args s).1

theorem tableService_within (f : Port → InHand → List Byte → Table → Table × Reply) : (tableService f).Within :=
  fun _ _ _ _ => .blocks rfl

theorem serveLook_within : Service.Within serveLook := by
  intro p h args s
  unfold serveLook
  split
  · split <;> exact .refl s
  · exact .refl s

theorem serveCkad_within : Service.Within serveCkad := by
  intro p h args s
  unfold serveCkad
  split
  · exact .refl s
  · split
    · dsimp only
      split
      · exact .refl s
      · exact .blocks rfl
    · exact .refl s

theorem serve_outside {f : Service} (within : f.Within) (c : Code) (p : Port) (s : State) :
    Outside s (serve c p f s) := by
  unfold serve
  split
  · exact (within _ _ _ s).trans (State.completeCommand_outside _ _ _)
  · exact .refl s

theorem takeClock_outside {after : State → State} (within : ∀ s, Outside s (after s)) (c : Code) (p : Port)
    (f : List Byte → Clock → Clock × Reply) (s : State) : Outside s (takeClock c p f after s) := by
  unfold takeClock
  split
  · split
    · exact (within _).after (.blocks rfl)
    · exact .refl s
  · exact .refl s

theorem State.perform_outside {f : State → State} (within : ∀ s, Outside s (f s)) (i : Indication) (s : State) :
    Outside s (s.perform i f) := by
  unfold State.perform
  split
  · split
    · exact ((State.afterTable_outside _).after (.blocks rfl)).after (within s)
    · exact .refl s
  · exact .refl s

theorem State.fire_outside (s : State) : Outside s s.fire := by
  unfold State.fire
  split
  · split
    · exact (State.completeSched_outside _).after (.blocks rfl)
    · exact .refl s
    · exact .refl s
  · exact .refl s

theorem State.expireAt_outside (s : State) (e : Elapsed) : Outside s (s.expireAt e) := by
  unfold State.expireAt
  split
  · exact .refl s
  · unfold State.expireCall
    split
    · split
      · dsimp only
        split <;> exact .blocks rfl
      · exact .refl s
    · exact .refl s
  · exact .blocks rfl

theorem State.expire_outside (s : State) : Outside s s.expire := by
  unfold State.expire
  split
  · split
    · exact (State.expireAt_outside _ _).trans (State.completeSched_outside _)
    · exact .refl s
    · exact .refl s
  · exact .refl s

theorem State.second_outside (s : State) : Outside s s.second := .ite (s.setClock_afterClock_outside _)

theorem State.settle_outside (s : State) : Outside s s.settle := .ite (s.setClock_afterClock_outside _)

theorem State.loseOscillator_outside (s : State) : Outside s s.loseOscillator :=
  .ite ((State.afterClock_outside _).after (.blocks rfl))

theorem State.returnOscillation_outside (s : State) : Outside s s.returnOscillation :=
  .ite (s.setClock_afterClock_outside _)

theorem State.seeFirstCycle_outside (s : State) : Outside s s.seeFirstCycle :=
  .ite (.blocks rfl)

theorem State.crystalCycle_outside (s : State) : Outside s s.crystalCycle := by
  unfold State.crystalCycle
  split
  · split
    · exact .blocks rfl
    · exact s.second_outside
  · refine .ite ?_
    split
    · exact .blocks rfl
    · exact s.settle_outside

/-- An effect that acts only while the blocks can be relied upon, and at the blocks alone (R157). -/
def Blockwise (i : Instr) : Prop :=
  ∃ f : State → State, (∀ s, exec i s = .next (whileReliable f s)) ∧ ∀ s, Outside s (f s)

/-- Every command of the table, the clock or the scheduler acts at the blocks alone, while they can be relied upon. -/
theorem blockwise_of_actsAtBlocks {i : Instr} (acts : actsAtBlocks i = true) : Blockwise i := by
  cases i with
  | plac | amnd | hold | rsum | rtir | purg | list | quot | info | take | fnsh | ceil | nest | gred | gclr =>
    exact ⟨_, fun _ => rfl, serve_outside (tableService_within _) _ _⟩
  | gsetConfigure | gsetRelease =>
    exact ⟨_, fun _ => rfl, fun s => .ite (serve_outside (tableService_within _) .gset .A s)⟩
  | look => exact ⟨_, fun _ => rfl, serve_outside serveLook_within _ _⟩
  | ckad => exact ⟨_, fun _ => rfl, serve_outside serveCkad_within _ _⟩
  | ckrd | ckse => exact ⟨_, fun _ => rfl, takeClock_outside Outside.refl _ _ _⟩
  | ckst | ckhd | ckrl => exact ⟨_, fun _ => rfl, takeClock_outside State.afterClock_outside _ _ _⟩
  | fire => exact ⟨_, fun _ => rfl, State.fire_outside⟩
  | expire => exact ⟨_, fun _ => rfl, State.expire_outside⟩
  | second => exact ⟨_, fun _ => rfl, State.second_outside⟩
  | endOfSettling => exact ⟨_, fun _ => rfl, State.settle_outside⟩
  | oscillatorLoss => exact ⟨_, fun _ => rfl, State.loseOscillator_outside⟩
  | returnOfOscillation => exact ⟨_, fun _ => rfl, State.returnOscillation_outside⟩
  | firstCycleSeen => exact ⟨_, fun _ => rfl, State.seeFirstCycle_outside⟩
  | resetWork | backupEntryWork | returnWork =>
    exact ⟨_, fun _ => rfl, State.perform_outside (fun _ => .blocks rfl) _⟩
  | _ => cases acts

/-- Blocks that cannot be relied upon do not act (R157). -/
theorem Blockwise.unchanged {i : Instr} (h : Blockwise i) {s : State} (lost : s.reliable = false) :
    exec i s = .next s := by
  obtain ⟨f, e, -⟩ := h
  rw [e, whileReliable, lost]
  rfl

theorem whileReliable_outside {f : State → State} (within : ∀ s, Outside s (f s)) (s : State) :
    Outside s (whileReliable f s) := .ite (within s)

theorem Blockwise.outside {i : Instr} (h : Blockwise i) {s s' : State} (e : exec i s = .next s') : Outside s s' := by
  obtain ⟨f, blocks, within⟩ := h
  obtain rfl := Host.Outcome.next.inj ((blocks s).symm.trans e)
  exact whileReliable_outside within s

/-! ### Transfers leave the supply and the RESET line alone -/

theorem State.routeCommand_outside (s : State) (p : Port) (c : Command) : Outside s (s.routeCommand p c) := by
  unfold State.routeCommand
  split
  · exact .blocks rfl
  · exact .blocks rfl
  · exact .blocks rfl
  · exact (State.arbitrate_settled _).outside.after (.blocks rfl)

theorem State.cancel_outside (s : State) (p : Port) : Outside s (s.cancel p) := by
  unfold State.cancel
  split
  · exact .blocks rfl
  all_goals exact .refl s

theorem State.takeFrame_outside (s : State) (p : Port) (c : Command) : Outside s (s.takeFrame p c) := by
  unfold State.takeFrame
  split
  · exact .refl s
  split
  · exact s.cancel_outside p
  split
  · exact s.routeCommand_outside p c
  · exact .blocks rfl

theorem State.endFrame_outside (s : State) (p : Port) (bytes : List Byte) : Outside s (s.endFrame p bytes) := by
  unfold State.endFrame
  split
  · exact s.takeFrame_outside p _
  · exact .blocks rfl

theorem State.byteA_serving (s : State) (q : Period) (b : Byte) : (s.byteA q b).serving = s.serving := by
  unfold State.byteA
  dsimp only
  split
  · split <;> rfl
  · rfl

theorem State.clockBitA_serving (s : State) (b : Bool) : (s.clockBitA b).serving = s.serving := by
  unfold State.clockBitA
  split
  · split
    · rfl
    · exact s.byteA_serving _ _
  · rfl
  · rfl

/-- What each of a run of events leaves alone, the run leaves alone. -/
theorem foldl_serving {α : Type} {f : State → α → State} (h : ∀ s a, (f s a).serving = s.serving) (l : List α)
    (s : State) : (l.foldl f s).serving = s.serving := by
  induction l generalizing s with
  | nil => rfl
  | cons a l ih => exact (ih (f s a)).trans (h s a)

theorem State.clockByteA_serving (s : State) (b : Byte) : (s.clockByteA b).serving = s.serving := by
  unfold State.clockByteA
  split
  · split
    · exact s.byteA_serving _ _
    · exact foldl_serving State.clockBitA_serving _ s
  · rfl
  · rfl

theorem State.selectFalls_serving (s : State) : s.selectFalls.serving = s.serving := by
  unfold State.selectFalls
  split
  · split <;> rfl
  · rfl
  · rfl

theorem State.selectRises_serving (s : State) : s.selectRises.serving = s.serving := by
  unfold State.selectRises
  split
  · rfl
  · rfl
  · split
    · rfl
    · unfold State.endPeriod
      dsimp only
      split
      · exact (State.endFrame_outside _ _ _).serving
      · rfl
      · split <;> rfl

theorem State.endTransferB_serving (s : State) : s.endTransferB.serving = s.serving := by
  unfold State.endTransferB
  split
  · rfl
  · split
    · rfl
    · exact (State.endFrame_outside _ _ _).serving
  · dsimp only
    split <;> split <;> rfl

theorem State.startB_serving (s : State) (address : BitVec 7) (reads : Bool) :
    (s.startB address reads).serving = s.serving := by
  refine Eq.trans ?_ s.endTransferB_serving
  unfold State.startB
  dsimp only
  split
  · split <;> rfl
  · rfl

theorem State.clockByteB_serving (s : State) (b : Byte) : (s.clockByteB b).serving = s.serving := by
  unfold State.clockByteB
  split <;> rfl

theorem State.clockBitB_serving (s : State) (b : Bool) : (s.clockBitB b).serving = s.serving := by
  unfold State.clockBitB
  split
  · rfl
  · split <;> rfl
  · rfl

/-- No transfer toward a request frame changes whether the links serve. -/
theorem State.frameEvent_serving (s : State) (p : Port) (ev : FrameEvent) : (s.frameEvent p ev).serving = s.serving := by
  cases p with
  | A =>
    cases ev with
    | whole bytes =>
      exact (State.selectRises_serving _).trans
        ((foldl_serving State.clockByteA_serving bytes _).trans s.selectFalls_serving)
    | opens _ => exact s.selectFalls_serving
    | clocks bits => exact foldl_serving State.clockBitA_serving bits s
    | closes => exact s.selectRises_serving
  | B =>
    cases ev with
    | whole bytes =>
      exact (State.endTransferB_serving _).trans
        ((foldl_serving State.clockByteB_serving bytes _).trans (s.startB_serving _ _))
    | opens address => exact s.startB_serving address false
    | clocks bits => exact foldl_serving State.clockBitB_serving bits s
    | closes => exact s.endTransferB_serving

/-- No transfer toward a read changes whether the links serve. -/
theorem State.readEvent_serving (s : State) (ev : ReadEvent) : (s.readEvent ev).serving = s.serving := by
  cases ev with
  | whole count =>
    exact (State.endTransferB_serving _).trans
      ((foldl_serving State.clockByteB_serving _ _).trans (s.startB_serving _ _))
  | opens address => exact s.startB_serving address true
  | clocks count => exact foldl_serving State.clockBitB_serving _ s
  | closes => exact s.endTransferB_serving

/-- A command that is a transfer does what a transfer toward a frame or a read does. -/
theorem exec_of_isTransfer {i : Instr} (transfer : isTransfer i = true) :
    (∃ p ev, ∀ s, exec i s = .next (s.frameEvent p ev)) ∨ ∃ ev, ∀ s, exec i s = .next (s.readEvent ev) := by
  cases i with
  | requestFrame | stat | rply | cncl | alrd | alcl => exact .inl ⟨_, _, fun _ => rfl⟩
  | readTransaction => exact .inr ⟨_, fun _ => rfl⟩
  | _ => cases transfer

theorem exec_transfer_serving {i : Instr} (transfer : isTransfer i = true) {s s' : State}
    (e : exec i s = .next s') : s'.serving = s.serving := by
  obtain ⟨p, ev, h⟩ | ⟨ev, h⟩ := exec_of_isTransfer transfer
  · obtain rfl := Host.Outcome.next.inj ((h s).symm.trans e)
    exact s.frameEvent_serving p ev
  · obtain rfl := Host.Outcome.next.inj ((h s).symm.trans e)
    exact s.readEvent_serving ev

end Sys2Proof.Machine
end

section
/-! Links that do not serve, and blocks that lost retention or supply (R155 to R157, R167, R168). -/

namespace Sys2Proof.Machine

/-! ### A transfer on links that do not serve (R167, R168) -/

/-- Links that do not serve, with no transfer in progress: what `State.DeafLaw` says of a state that does not serve. -/
structure State.Deaf (s : State) : Prop where
  serving : s.serving = false
  select : ∀ q, s.linkA.line ≠ .period q
  transfer : s.linkB.line = .none

theorem State.DeafLaw.deaf {s : State} (h : s.DeafLaw) (serving : s.serving = false) : s.Deaf :=
  ⟨serving, (h serving).1, (h serving).2⟩

theorem State.Deaf.law {s : State} (h : s.Deaf) : s.DeafLaw := fun _ => ⟨h.select, h.transfer⟩

/-- SEL is high, or low in a select period that is ignored. -/
theorem State.Deaf.line {s : State} (h : s.Deaf) : s.linkA.line = .high ∨ s.linkA.line = .ignoring := by
  cases e : s.linkA.line with
  | high => exact .inl rfl
  | ignoring => exact .inr rfl
  | period q => exact absurd e (h.select q)

/-- SDO is at high impedance (R167). -/
theorem State.Deaf.sdoBit {s : State} (h : s.Deaf) : s.linkA.sdoBit = none := by
  unfold LinkA.sdoBit
  rcases h.line with e | e <;> rw [e]

/-- A transfer reached the links alone and left them deaf. -/
structure StaysDeaf (s s' : State) : Prop where
  links : LinksOnly s s'
  deaf : s'.Deaf

theorem StaysDeaf.refl {s : State} (h : s.Deaf) : StaysDeaf s s :=
  ⟨⟨rfl, rfl, rfl, rfl, rfl, rfl, rfl, rfl, rfl⟩, h⟩

/-- SEL changed with no select period taken (R167). -/
theorem State.Deaf.withLinkA {s : State} (h : s.Deaf) {l : LinkA} (idle : ∀ q, l.line ≠ .period q) :
    StaysDeaf s { s with linkA := l } :=
  ⟨⟨rfl, rfl, rfl, rfl, rfl, rfl, rfl, rfl, rfl⟩, h.serving, idle, h.transfer⟩

/-- An answer of port B without a transfer (R168). -/
theorem State.Deaf.withLinkB {s : State} (h : s.Deaf) {l : LinkB} (idle : l.line = .none) :
    StaysDeaf s { s with linkB := l } :=
  ⟨⟨rfl, rfl, rfl, rfl, rfl, rfl, rfl, rfl, rfl⟩, h.serving, h.select, idle⟩

/-- Port B gave an address no acknowledgement and holds no transfer (R168). -/
def State.unanswered (s : State) : State := { s with linkB := { s.linkB with line := .none, acks := [false] } }

theorem State.Deaf.unanswered {s : State} (h : s.Deaf) : StaysDeaf s s.unanswered := h.withLinkB rfl

theorem StaysDeaf.trans {s t u : State} (a : StaysDeaf s t) (b : StaysDeaf t u) : StaysDeaf s u where
  links := ⟨b.links.power.trans a.links.power, b.links.retention.trans a.links.retention,
    b.links.clock.trans a.links.clock, b.links.sched.trans a.links.sched, b.links.table.trans a.links.table,
    b.links.units.trans a.links.units, b.links.resetAsserted.trans a.links.resetAsserted,
    b.links.freeCount.trans a.links.freeCount, b.links.pending.trans a.links.pending⟩
  deaf := b.deaf

section
variable {s : State} (h : s.Deaf)
include h

theorem State.Deaf.selectFalls : StaysDeaf s s.selectFalls := by
  unfold State.selectFalls
  rcases h.line with high | ignoring
  · rw [high, h.serving]
    exact h.withLinkA nofun
  · rw [ignoring]
    exact .refl h

theorem State.Deaf.selectRises : StaysDeaf s s.selectRises := by
  unfold State.selectRises
  rcases h.line with high | ignoring
  · rw [high]
    exact .refl h
  · rw [ignoring]
    exact h.withLinkA nofun

theorem State.Deaf.clockBitA (b : Bool) : s.clockBitA b = s := by
  unfold State.clockBitA
  rcases h.line with e | e <;> rw [e]

theorem State.Deaf.clockByteA (b : Byte) : s.clockByteA b = s := by
  unfold State.clockByteA
  rcases h.line with e | e <;> rw [e]

theorem State.Deaf.endTransferB : s.endTransferB = s := by
  rw [State.endTransferB, h.transfer]

theorem State.Deaf.startB (address : BitVec 7) (reads : Bool) : s.startB address reads = s.unanswered := by
  rw [State.startB, h.endTransferB, h.serving]
  rfl

theorem State.Deaf.clockByteB (b : Byte) : s.clockByteB b = s := by
  rw [State.clockByteB, h.transfer]

theorem State.Deaf.clockBitB (b : Bool) : s.clockBitB b = s := by
  rw [State.clockBitB, h.transfer]

/-- A whole transfer on port B is an address without an acknowledgement (R168). -/
theorem State.Deaf.wholeB (address : BitVec 7) (reads : Bool) (bytes : List Byte) :
    (bytes.foldl State.clockByteB (s.startB address reads)).endTransferB = s.unanswered := by
  have deaf := h.unanswered.deaf
  rw [h.startB, List.foldl_fixed' deaf.clockByteB, deaf.endTransferB]

theorem State.Deaf.frameEvent (p : Port) (ev : FrameEvent) : StaysDeaf s (s.frameEvent p ev) := by
  cases p with
  | A =>
    cases ev with
    | whole bytes =>
      have falls := h.selectFalls
      rw [State.frameEvent, State.frameEventA, List.foldl_fixed' falls.deaf.clockByteA]
      exact falls.trans falls.deaf.selectRises
    | opens _ => exact h.selectFalls
    | clocks bits =>
      rw [State.frameEvent, State.frameEventA, List.foldl_fixed' h.clockBitA]
      exact .refl h
    | closes => exact h.selectRises
  | B =>
    cases ev with
    | whole bytes =>
      rw [State.frameEvent, State.frameEventB, h.wholeB]
      exact h.unanswered
    | opens address =>
      rw [State.frameEvent, State.frameEventB, h.startB]
      exact h.unanswered
    | clocks bits =>
      rw [State.frameEvent, State.frameEventB, List.foldl_fixed' h.clockBitB]
      exact .refl h
    | closes =>
      rw [State.frameEvent, State.frameEventB, h.endTransferB]
      exact .refl h

theorem State.Deaf.readEvent (ev : ReadEvent) : StaysDeaf s (s.readEvent ev) := by
  cases ev with
  | whole count =>
    rw [State.readEvent, h.wholeB]
    exact h.unanswered
  | opens address =>
    rw [State.readEvent, h.startB]
    exact h.unanswered
  | clocks count =>
    rw [State.readEvent, List.foldl_fixed' h.clockBitB]
    exact .refl h
  | closes =>
    rw [State.readEvent, h.endTransferB]
    exact .refl h

/-- A transfer on links that do not serve reaches the links alone (R167, R168). -/
theorem State.Deaf.exec_transfer {i : Instr} (transfer : isTransfer i = true) :
    ∃ s', exec i s = .next s' ∧ StaysDeaf s s' := by
  obtain ⟨p, ev, e⟩ | ⟨ev, e⟩ := exec_of_isTransfer transfer
  · exact ⟨_, e s, h.frameEvent p ev⟩
  · exact ⟨_, e s, h.readEvent ev⟩

/-- Links that do not serve acknowledge no address (R168). -/
theorem State.Deaf.exec_addressed {address : BitVec 7} {bytes : List Byte} {count : Nat} {i : Instr}
    (addressed : i ∈ [Instr.requestFrame .B (.opens address), .requestFrame .B (.whole bytes),
      .readTransaction (.opens address), .readTransaction (.whole count)]) :
    exec i s = .next s.unanswered := by
  simp only [List.mem_cons, List.not_mem_nil, or_false] at addressed
  rcases addressed with rfl | rfl | rfl | rfl
  · exact congrArg Host.Outcome.next (h.startB address false)
  · exact congrArg Host.Outcome.next (h.wholeB s.linkB.address false bytes)
  · exact congrArg Host.Outcome.next (h.startB address true)
  · exact congrArg Host.Outcome.next (h.wholeB s.linkB.address true (List.replicate count 0))

end

/-! ### Every step keeps deaf links deaf -/

/-- Links left as they were stay deaf, unless they stopped serving. -/
theorem State.DeafLaw.of_lines {s s' : State} (law : s.DeafLaw) (stops : s'.serving = false → s.serving = false)
    (lineA : s'.linkA.line = s.linkA.line) (lineB : s'.linkB.line = s.linkB.line) : s'.DeafLaw := by
  intro serving
  rw [lineA, lineB]
  exact law (stops serving)

theorem Outside.keeps_deafLaw {s s' : State} (h : Outside s s') (law : s.DeafLaw) : s'.DeafLaw :=
  law.of_lines (fun serving => h.serving.symm.trans serving) (congrArg _ h.linkA) (congrArg _ h.linkB)

/-- A transfer abandoned leaves no transfer in progress (R167, R168). -/
theorem State.abandonLinks_deafLaw (s : State) : s.abandonLinks.DeafLaw := by
  refine fun _ => ⟨fun q => ?_, rfl⟩
  cases e : s.linkA.line <;> simp [State.abandonLinks, e]

theorem exec_transfer_keeps_deafLaw {i : Instr} (transfer : isTransfer i = true) {s s' : State} (law : s.DeafLaw)
    (e : exec i s = .next s') : s'.DeafLaw := by
  intro serving
  have before : s.serving = false := (exec_transfer_serving transfer e).symm.trans serving
  obtain ⟨t, next, stays⟩ := (law.deaf before).exec_transfer transfer
  obtain rfl := Host.Outcome.next.inj (next.symm.trans e)
  exact stays.deaf.law serving

theorem State.serving_iff {s : State} : s.serving = true ↔ s.power = .main ∧ s.resetAsserted = false := by
  simp [State.serving]

theorem State.not_serving_of_power {s : State} (h : s.power ≠ .main) : s.serving = false :=
  Bool.eq_false_iff.mpr fun serving => h (State.serving_iff.mp serving).1

theorem State.not_serving_of_reset {s : State} (h : s.resetAsserted = true) : s.serving = false :=
  Bool.eq_false_iff.mpr fun serving => Bool.false_ne_true ((State.serving_iff.mp serving).2.symm.trans h)

theorem State.reliable_of_main {s : State} (h : s.power = .main) : s.reliable = true := by
  simp [State.reliable, h]

section
variable {s : State} (law : s.DeafLaw)
include law

theorem State.DeafLaw.powerUp (high : Bool) : (s.powerUp high).DeafLaw := by
  unfold State.powerUp
  split
  · next dark => exact law.of_lines (fun _ => State.not_serving_of_power (by rw [dark]; nofun)) rfl rfl
  · exact law

theorem State.DeafLaw.enterBackup (vbat : Nat) : (s.enterBackup vbat).DeafLaw := by
  unfold State.enterBackup
  split
  · split <;> exact State.abandonLinks_deafLaw _
  · exact law

theorem State.DeafLaw.loseRetention : s.loseRetention.DeafLaw := by
  unfold State.loseRetention
  split
  · exact law.of_lines id rfl rfl
  · exact law

theorem State.DeafLaw.loseSupply : s.loseSupply.DeafLaw := by
  unfold State.loseSupply
  split
  · next backup => exact law.of_lines (fun _ => State.not_serving_of_power (by rw [backup]; nofun)) rfl rfl
  · exact law

theorem State.DeafLaw.returnHeld (high : Bool) : (s.returnHeld high).DeafLaw := by
  unfold State.returnHeld
  split
  · next backup => exact law.of_lines (fun _ => State.not_serving_of_power (by rw [backup.1]; nofun)) rfl rfl
  · exact law

theorem State.DeafLaw.returnLost (high : Bool) : (s.returnLost high).DeafLaw := by
  unfold State.returnLost
  split
  · next backup => exact law.of_lines (fun _ => State.not_serving_of_power (by rw [backup.1]; nofun)) rfl rfl
  · exact law

/-- A RESET that falls while the links serve finds blocks that act, and abandons the transfers (R180). -/
theorem State.DeafLaw.assertReset : s.assertReset.DeafLaw := by
  unfold State.assertReset
  split
  · exact law
  · dsimp only
    split
    · exact State.abandonLinks_deafLaw _
    · next lost =>
      exact law.of_lines (fun _ => State.not_serving_of_power fun main => lost (State.reliable_of_main main)) rfl rfl

theorem State.DeafLaw.releaseReset (high : Bool) : (s.releaseReset high).DeafLaw := by
  unfold State.releaseReset
  split
  · next asserted => exact law.of_lines (fun _ => State.not_serving_of_reset asserted) rfl rfl
  · exact law

end

/-- Every command keeps deaf links deaf: the blocks' commands touch no link, a transfer finds the links deaf or serving,
and the supply and RESET abandon what they interrupt. -/
theorem exec_keeps_deafLaw {i : Instr} {s s' : State} (law : s.DeafLaw) (e : exec i s = .next s') : s'.DeafLaw := by
  by_cases acts : actsAtBlocks i = true
  · exact ((blockwise_of_actsAtBlocks acts).outside e).keeps_deafLaw law
  by_cases transfer : isTransfer i = true
  · exact exec_transfer_keeps_deafLaw transfer law e
  cases i with
  | powerOn high => exact Host.Outcome.next.inj e ▸ law.powerUp high
  | backupEntry vbat => exact Host.Outcome.next.inj e ▸ law.enterBackup vbat
  | retentionLost => exact Host.Outcome.next.inj e ▸ law.loseRetention
  | withoutSupply => exact Host.Outcome.next.inj e ▸ law.loseSupply
  | returnRetentionHeld high => exact Host.Outcome.next.inj e ▸ law.returnHeld high
  | returnRetentionLost high => exact Host.Outcome.next.inj e ▸ law.returnLost high
  | resetAssertion => exact Host.Outcome.next.inj e ▸ law.assertReset
  | resetRelease high => exact Host.Outcome.next.inj e ▸ law.releaseReset high
  | requestFrame | readTransaction | stat | rply | cncl | alrd | alcl => exact absurd rfl transfer
  | _ => exact absurd rfl acts

theorem step_keeps_deafLaw : StepKeeps State.DeafLaw := by
  intro s s' law e
  unfold step at e
  split at e
  · exact Host.Outcome.next.inj e ▸ (whileReliable_outside State.crystalCycle_outside s).keeps_deafLaw law
  · next rest _ =>
    have queued : State.DeafLaw { s with pending := rest } := law
    exact exec_keeps_deafLaw queued e

/-! ### Retention and supply lost (R155 to R157) -/

theorem exec_backupEntry_lost {s : State} (main : s.power = .main) {vbat : Nat} (low : vbat < 1800) :
    exec (.backupEntry vbat) s =
      .next { s with power := .backup, retention := .lost }.loseBlocks.abandonLinks := by
  have below : vbat < Config.holdLevel := low
  simp only [exec, execBackupEntry, State.enterBackup, main, if_true, if_pos below]

theorem exec_retentionLost {s : State} (backup : s.power = .backup) (held : s.retention = .held) :
    exec .retentionLost s = .next { s with retention := .lost }.loseBlocks :=
  congrArg Host.Outcome.next (if_pos ⟨backup, held⟩)

theorem exec_withoutSupply {s : State} (backup : s.power = .backup) :
    exec .withoutSupply s = .next { s with power := .withoutSupply }.loseBlocks :=
  congrArg Host.Outcome.next (if_pos backup)

/-- Blocks that lost retention or supply cannot be relied upon, and the links do not serve (R157, R167, R168). -/
theorem State.lost_spec {s : State} (lost : s.power = .backup ∧ s.retention = .lost ∨ s.power = .withoutSupply) :
    s.serving = false ∧ s.reliable = false := by
  rcases lost with ⟨power, retention⟩ | power
  · simp [State.serving, State.reliable, power, retention]
  · simp [State.serving, State.reliable, power]

/-- Settles O53: the links by `State.Deaf`, the blocks by `Blockwise`. -/
theorem lostBlocksDoNotAct : Obligations.LostBlocksDoNotAct := by
  refine ⟨fun s => ⟨fun main vbat low => ?_, fun backup held => ?_, fun backup => ?_, fun lost => ?_⟩,
    fun s serving law => ⟨fun i transfer => ?_, fun address bytes count i addressed => ?_⟩, step_keeps_deafLaw⟩
  · exact ⟨_, exec_backupEntry_lost main low, rfl, rfl, rfl, rfl, State.abandonLinks_spec s _ rfl rfl⟩
  · exact ⟨_, exec_retentionLost backup held, backup, rfl, rfl, rfl, rfl, rfl⟩
  · exact ⟨_, exec_withoutSupply backup, rfl, rfl, rfl, rfl, rfl⟩
  · obtain ⟨serving, unreliable⟩ := State.lost_spec lost
    exact ⟨serving, fun i acts => (blockwise_of_actsAtBlocks acts).unchanged unreliable⟩
  · obtain ⟨s', next, stays⟩ := (law.deaf serving).exec_transfer transfer
    exact ⟨s', next, stays.links, stays.deaf.sdoBit, stays.deaf.law⟩
  · exact ⟨_, (law.deaf serving).exec_addressed addressed, rfl⟩

end Sys2Proof.Machine
end

section
/-! Which frames a unit judges valid (R166, R169), and the bytes of codes and one-byte fields (R184; Tables A-2 to
A-4). -/

namespace Sys2Proof.Machine

/-! ### Valid frames (R166, R169) -/

/-- The check byte of a frame stands after its payload, and the bytes before it are one fewer. -/
theorem eq_take_append_check {rest : List Byte} {n : Nat} (counted : rest.length = n + 1) :
    ∃ check, rest = rest.take n ++ [check] :=
  ⟨rest[n], by rw [← List.take_succ_eq_append_getElem (by omega), ← counted, List.take_length]⟩

/-- Bytes of the announced count with sum 0 are the request frame of the code they begin with. -/
theorem eq_requestBytes {code n : Byte} {rest : List Byte} {c : Code} (known : codeOf code = some c)
    (counted : rest.length = n.toNat + 1) (sum : byteSum (code :: n :: rest) = 0) :
    code :: n :: rest = requestBytes c (rest.take n.toNat) := by
  obtain ⟨check, split⟩ := eq_take_append_check counted
  have announced : byteOf (rest.take n.toNat).length = n := by
    rw [List.length_take, counted, min_eq_left (Nat.le_succ _), byteOf_toNat]
  have frame : code :: n :: rest = code :: n :: rest.take n.toNat ++ [check] :=
    congrArg (code :: n :: ·) split
  rw [requestBytes, byte_of_codeOf known, announced, ← eq_withCheck (frame ▸ sum), ← frame]

theorem judgeFrame_eq_some {p : Port} {bytes : List Byte} {c : Code} {args : List Byte} :
    judgeFrame p bytes = some ⟨c, args⟩ ↔
      bytes = requestBytes c args ∧ args.length ≤ 40 ∧ ¬ (p = .B ∧ c = .rply) := by
  refine ⟨fun judged => ?_, fun ⟨frame, fits, port⟩ => frame ▸ judgeFrame_request fits port⟩
  unfold judgeFrame at judged
  split at judged
  · next code n rest =>
    split at judged
    · next checks =>
      simp only [Bool.and_eq_true, decide_eq_true_eq, beq_iff_eq] at checks
      obtain ⟨⟨fits, counted⟩, sum⟩ := checks
      split at judged
      · next d known =>
        split at judged
        · cases judged
        · next port =>
          cases judged
          exact ⟨eq_requestBytes known counted sum, (List.length_take_le _ _).trans fits, port⟩
      · cases judged
    · cases judged
  · cases judged

/-- A frame that is no command's request frame is faulty (R169). -/
theorem judgeFrame_eq_none {p : Port} {bytes : List Byte}
    (other : ∀ c args, args.length ≤ 40 → bytes = requestBytes c args → p = .B ∧ c = .rply) :
    judgeFrame p bytes = none :=
  Option.eq_none_iff_forall_ne_some.mpr fun ⟨c, args⟩ judged =>
    have ⟨frame, fits, port⟩ := judgeFrame_eq_some.mp judged
    port (other c args fits frame)

/-- A frame whose bytes do not sum to 0 is faulty (R166, R169). -/
theorem judgeFrame_bad_sum {p : Port} {bytes : List Byte} (sum : byteSum bytes ≠ 0) : judgeFrame p bytes = none :=
  judgeFrame_eq_none fun _ _ _ frame => absurd (frame ▸ byteSum_withCheck _) sum

theorem Reply.frame_eq (r : Reply) : r.frame
    = r.code.byte :: byteOf r.payload.length ::
      (r.payload ++ [-(byteSum (r.code.byte :: byteOf r.payload.length :: r.payload))]) := rfl

/-! ### Codes and one-byte fields (Tables A-2 to A-4) -/

theorem Code.mem_all (c : Code) : c ∈ Code.all := List.mem_of_find?_eq_some (codeOf_byte c)

theorem portOf_eq (b : Byte) : portOf b = if b = 0 then some .A else if b = 1 then some .B else none := by
  simp only [BitVec.toNat_eq, portOf]
  split <;> simp_all

theorem flagOf_eq (b : Byte) : flagOf b = if b = 0 then some false else if b = 1 then some true else none := by
  simp only [BitVec.toNat_eq, flagOf]
  split <;> simp_all

theorem anchoringOf_eq (b : Byte) :
    anchoringOf b = if b = 0 then some .wall else if b = 1 then some .elapsed else none := by
  simp only [BitVec.toNat_eq, anchoringOf]
  split <;> simp_all

theorem policyOf_eq (b : Byte) :
    policyOf b = if b = 0 then some .gather else if b = 1 then some .drop else none := by
  simp only [BitVec.toNat_eq, policyOf]
  split <;> simp_all

theorem answeringOf_eq (owner : Port) (b : Byte) : answeringOf owner b =
    if b = 0 then some .A else if b = 1 then some .B else if b = 2 then some owner else none := by
  simp only [BitVec.toNat_eq, answeringOf]
  split <;> simp_all

theorem ownerFilterOf_eq (b : Byte) : ownerFilterOf b =
    if b = 0 then some (some .A) else if b = 1 then some (some .B) else if b = 2 then some none else none := by
  simp only [BitVec.toNat_eq, ownerFilterOf]
  split <;> simp_all

theorem stateFilterOf_eq (b : Byte) : stateFilterOf b =
    if b = 0 then some .waiting else if b = 1 then some .held else if b = 2 then some .spent
    else if b = 3 then some .any else none := by
  simp only [BitVec.toNat_eq, stateFilterOf]
  split <;> simp_all

theorem groupFilterOf_eq (b : Byte) : groupFilterOf b =
    if b = 0xFF then some .any else if b = 0xFE then some .none
    else if h : b.toNat < 8 then some (.group ⟨b.toNat, h⟩) else none := by
  unfold groupFilterOf finOf
  by_cases h : b.toNat < 8 <;> simp [h]

theorem memberOf_eq (b q : Byte) : memberOf b q = if b = 0xFF then some none
    else if h : b.toNat < 8 ∧ q.toNat < 8 then some (some ⟨⟨b.toNat, h.1⟩, ⟨q.toNat, h.2⟩⟩) else none := by
  unfold memberOf finOf
  by_cases hb : b.toNat < 8 <;> by_cases hq : q.toNat < 8 <;> simp [hb, hq]

/-- Settles O5. -/
theorem validFramesAreTheRequestFrames : Obligations.ValidFramesAreTheRequestFrames := by
  refine ⟨fun _ _ _ _ => judgeFrame_eq_some, fun c args => ⟨_, requestBytes_eq c args, byteSum_withCheck _⟩,
    fun r => ⟨_, r.frame_eq, byteSum_withCheck _⟩,
    fun c => List.mem_map_of_mem (f := fun c => (c, c.byte)) c.mem_all, fun c => by cases c <;> decide,
    rfl, fun _ => rfl, fun b => ?_⟩
  exact ⟨portOf_eq b, flagOf_eq b, anchoringOf_eq b, policyOf_eq b, fun owner => answeringOf_eq owner b,
    ownerFilterOf_eq b, stateFilterOf_eq b, groupFilterOf_eq b, memberOf_eq b⟩

end Sys2Proof.Machine
end

section
/-! What a whole transfer comes to: faulty and refused frames, STAT, the fetch by RPLY on port A and the read on port B
(R169 to R172, R175 to R177). -/

namespace Sys2Proof.Machine

/-! ### Frames judged at the end of a transfer (R169, R172) -/

theorem State.endFrame_faulty {s : State} {p : Port} {bytes : List Byte} (faulty : judgeFrame p bytes = none) :
    s.endFrame p bytes = s.faultFrame p := by
  rw [State.endFrame, faulty]

/-- A faulty frame at the end of a whole transfer reaches FRAME-FAULT alone (R169). -/
theorem transferred_faultFrame (s : State) (p : Port) (count : Nat) :
    UnitOnly p s ((s.transferred p count).faultFrame p) { (s.units.get p).reported p with frameFault := true } :=
  (s.transferred_frame p count).modUnit _

theorem State.takeFrame_refused {s : State} {p : Port} {c : Command} (busy : (s.units.get p).phase ≠ .idle)
    (stat : c.code ≠ .stat) (rply : c.code ≠ .rply) (cncl : c.code ≠ .cncl) :
    s.takeFrame p c = s.modUnit p fun u => { u with refused := true } := by
  rw [State.takeFrame, if_neg (not_or.mpr ⟨stat, rply⟩), if_neg cncl, if_neg busy]

/-- Settles O9. -/
theorem frameOutsideIdleIsRefused : Obligations.FrameOutsideIdleIsRefused := by
  intro p c args s serving line busy fits stat rply cncl
  have frame := s.transferred_frame p (args.length + 3)
  have still : ((s.transferred p (args.length + 3)).units.get p).phase ≠ .idle := by
    rwa [frame.unit, CmdUnit.reported_phase]
  refine ⟨_, congrArg Host.Outcome.next (frameEvent_command serving line fits rply), ?_⟩
  rw [State.takeFrame_refused still stat rply cncl]
  exact frame.modUnit _

/-! ### An RPLY judged faulty (R176) -/

/-- Bytes cut short of the frame they announce, or announcing more than 40 arguments, hold no check byte (R166). -/
theorem endsRply_of_short {bytes : List Byte}
    (short : 40 < (byteAt bytes 1).toNat ∨ bytes.length < (byteAt bytes 1).toNat + 3) : endsRply bytes = false := by
  rcases bytes with _ | ⟨code, _ | ⟨n, rest⟩⟩
  · rfl
  · rfl
  · have cut : 40 < n.toNat ∨ rest.length ≠ n.toNat + 1 := by
      simp only [byteAt, List.getD_cons_succ, List.getD_cons_zero, List.length_cons] at short
      omega
    rcases cut with long | count
    · simp [endsRply, Config.maxArgs, Nat.not_le.mpr long]
    · simp [endsRply, count]

theorem byteAt_one_take (bytes : List Byte) (k : Nat) : byteAt (bytes.take (k + 2)) 1 = byteAt bytes 1 := by
  simp [byteAt, List.getD_eq_getElem?_getD]

/-- No part of such bytes ends an RPLY request. -/
theorem endsRply_take_of_short {bytes : List Byte}
    (short : 40 < (byteAt bytes 1).toNat ∨ bytes.length < (byteAt bytes 1).toNat + 3) (k : Nat) :
    endsRply (bytes.take k) = false := by
  rcases k with _ | _ | k
  · rfl
  · rcases bytes with _ | ⟨b, bytes⟩ <;> rfl
  · refine endsRply_of_short ?_
    rw [byteAt_one_take]
    exact short.imp_right (Nat.lt_of_le_of_lt (List.length_take_le' _ _))

/-- Such bytes are a faulty frame (R166, R169). -/
theorem judgeFrame_of_short {p : Port} {bytes : List Byte}
    (short : 40 < (byteAt bytes 1).toNat ∨ bytes.length < (byteAt bytes 1).toNat + 3) : judgeFrame p bytes = none := by
  refine judgeFrame_eq_none fun c args fits frame => absurd short ?_
  subst frame
  have count : byteAt (requestBytes c args) 1 = byteOf args.length := rfl
  rw [count, byteOf_toNat_small fits, requestBytes_length]
  omega

/-- A select period of an RPLY request with a bad check byte ends as one of any faulty frame does (R169, R176). -/
theorem frameEvent_rply_faulty {s : State} {args : List Byte} {check : Byte} (clocked : Nat)
    (serving : s.serving = true) (idle : s.LineIdle .A) (fits : args.length ≤ 40)
    (faulty : judgeFrame .A (0x01 :: byteOf args.length :: args ++ [check]) = none) :
    s.frameEvent .A (.whole (0x01 :: byteOf args.length :: args ++ [check] ++ List.replicate clocked 0))
      = (s.transferred .A (args.length + 3 + clocked)).faultFrame .A := by
  refine (frameEvent_rply check clocked serving idle fits).trans ?_
  have judged : judgeFrame .A (Code.rply.byte :: byteOf args.length :: args ++ [check]) = none := faulty
  have zeros : ((List.range clocked).map fun _ => (0 : Byte)) = List.replicate clocked 0 := by simp
  have carried : args.length + 3 + clocked - 1 = args.length + 2 + clocked := by omega
  rw [judged]
  simp only [State.endPeriod, State.transferred, zeros, carried, List.replicate_add, List.cons_append]
  simp only [State.faultFrame, State.modUnit, PerPort.get_set_same, PerPort.set_set, ← CmdUnit.clearReported_status]
  rfl

/-- Settles O8: a faulty RPLY leaves what any faulty frame leaves. -/
theorem faultyFrameIsNotActedOn : Obligations.FaultyFrameIsNotActedOn := by
  refine ⟨fun p bytes s serving line nonempty other head => ?_, fun args check clocked s serving line fits sum => ?_,
    fun bytes s serving line head short => ?_⟩
  · refine ⟨_, congrArg Host.Outcome.next (frameEvent_whole serving line nonempty head), ?_⟩
    rw [State.endFrame_faulty (judgeFrame_eq_none other)]
    exact transferred_faultFrame s p _
  · refine ⟨_, congrArg Host.Outcome.next (frameEvent_rply_faulty clocked serving line fits (judgeFrame_bad_sum sum)),
      transferred_faultFrame s .A _, ?_⟩
    have carried : args.length + 3 + clocked - 1 = args.length + 2 + clocked := by omega
    simp only [State.faultFrame, State.modUnit_linkA, State.transferred, carried]
  · have nonempty : bytes ≠ [] := by
      rintro rfl
      cases head
    have sent := frameEvent_A serving line nonempty fun k _ => endsRply_take_of_short short k
    rw [State.endFrame_faulty (judgeFrame_of_short short)] at sent
    exact ⟨_, congrArg Host.Outcome.next sent, transferred_faultFrame s .A _, rfl⟩

/-! ### The status byte and the call lines (R170, R179) -/

/-- Eight bits put at their places read back (Tables 11-1 and A-1). -/
theorem bitAt_places : ∀ a b c d e f g h : Bool,
    let x := bitAt 7 a ||| bitAt 6 b ||| bitAt 5 c ||| bitAt 4 d ||| bitAt 3 e ||| bitAt 2 f ||| bitAt 1 g ||| bitAt 0 h
    x.getLsbD 7 = a ∧ x.getLsbD 6 = b ∧ x.getLsbD 5 = c ∧ x.getLsbD 4 = d ∧ x.getLsbD 3 = e ∧ x.getLsbD 2 = f
      ∧ x.getLsbD 1 = g ∧ x.getLsbD 0 = h := by decide

theorem Phase.ready_iff {x : Phase} : x.ready = true ↔ ∃ r, x = .reply r := by cases x <;> simp [Phase.ready]

theorem Phase.busy_iff {x : Phase} : x.busy = true ↔ ∃ c, x = .pending c ∨ x = .working c := by
  cases x <;> simp [Phase.busy]

theorem CmdUnit.alerting_iff {u : CmdUnit} : u.alerting = true ↔ u.alert ≠ 0 := bne_iff_ne

theorem CmdUnit.callLine_main {u : CmdUnit} : u.callLine .main = true ↔ u.offer = true ∨ u.alert ≠ 0 := by
  simp only [CmdUnit.callLine, decide_true, Bool.true_and, Bool.or_eq_true, CmdUnit.alerting_iff]

theorem CmdUnit.callLine_released {u : CmdUnit} {power : Power} (h : power ≠ .main) : u.callLine power = false := by
  simp only [CmdUnit.callLine, decide_eq_false h, Bool.false_and]

/-- The whole transfer of a STAT frame (R172). -/
theorem sendFrame_stat {s : State} {p : Port} {args : List Byte} (serving : s.serving = true) (line : s.LineIdle p)
    (fits : args.length ≤ 40) : s.sendFrame p .stat args = s.transferred p (args.length + 3) :=
  (frameEvent_command (c := .stat) serving line fits nofun).trans (if_pos (.inl rfl))

/-- Settles O10. -/
theorem statClearsTheFlagsItReported : Obligations.StatClearsTheFlagsItReported := by
  refine ⟨fun p args s serving line fits => ?_, fun u => ?_, fun p s => ⟨fun main => ?_, fun off => ?_⟩⟩
  · refine ⟨_, congrArg Host.Outcome.next (sendFrame_stat serving line fits), s.transferred_frame p _, ?_⟩
    rintro rfl
    rfl
  · obtain ⟨ready, busy, refused, fault, offer, alert, valid, restarted⟩ := bitAt_places u.phase.ready u.phase.busy
      u.refused u.frameFault u.offer u.alerting u.valid u.restarted
    exact ⟨(Bool.eq_iff_iff.mp ready).trans Phase.ready_iff, (Bool.eq_iff_iff.mp busy).trans Phase.busy_iff, refused,
      fault, offer, (Bool.eq_iff_iff.mp alert).trans CmdUnit.alerting_iff, valid, restarted⟩
  · rw [State.callAsserted, main]
    exact CmdUnit.callLine_main
  · refine CmdUnit.callLine_released ?_
    rcases off with power | power <;> rw [power] <;> nofun

/-! ### The fetch (R175) -/

theorem CmdUnit.fetch_eq (u : CmdUnit) : u.fetch = (fetchedFrame u.phase, u.phase.ready) := by
  unfold CmdUnit.fetch
  split <;> next phase => rw [phase]; rfl

/-- A buffered reply is given up when its whole frame was carried (R175). -/
theorem CmdUnit.giveUp_when_whole (u : CmdUnit) (clocked : Nat) :
    (if u.phase.ready = true ∧ (fetchedFrame u.phase).length ≤ clocked then u.giveUp else u)
      = { u with phase := fetchedPhase u.phase clocked } := by
  obtain ⟨phase, _⟩ := u
  cases phase with
  | reply r =>
    by_cases whole : r.frame.length ≤ clocked <;>
      simp [CmdUnit.giveUp, fetchedPhase, fetchedFrame, Phase.ready, whole]
  | idle | pending c | working c => rfl

/-- The same, the flags that the transfer reported being cleared (R171). -/
theorem CmdUnit.giveUp_reported (u : CmdUnit) (clocked : Nat) :
    (if u.phase.ready = true ∧ (fetchedFrame u.phase).length ≤ clocked then (u.reported .A).giveUp else u.reported .A)
      = { u.reported .A with phase := fetchedPhase u.phase clocked } :=
  (u.reported .A).giveUp_when_whole clocked

/-! ### RPLY on port A (R167, R176) -/

/-- A select period of a valid RPLY, its reply's bytes shifted out after the check byte (R176). -/
theorem frameEvent_rply_valid {s : State} {args : List Byte} (clocked : Nat) (serving : s.serving = true)
    (idle : s.LineIdle .A) (fits : args.length ≤ 40) :
    s.frameEvent .A (.whole (requestBytes .rply args ++ List.replicate clocked 0)) = { s with
      linkA := { line := .high, sdo := s.units.a.status :: List.replicate (args.length + 2) 0
        ++ (List.range clocked).map fun i => (fetchedFrame s.units.a.phase).getD i 0 }
      units := s.units.set .A { s.units.a.reported .A with phase := fetchedPhase s.units.a.phase clocked } } := by
  have sent := frameEvent_rply (-(byteSum (Code.rply.byte :: byteOf args.length :: args))) clocked serving idle fits
  have judged : judgeFrame .A (Code.rply.byte :: byteOf args.length :: args
      ++ [-(byteSum (Code.rply.byte :: byteOf args.length :: args))]) = some ⟨.rply, args⟩ :=
    judgeFrame_request (p := .A) fits nofun
  have count : (Code.rply.byte :: byteOf args.length :: args
      ++ [-(byteSum (Code.rply.byte :: byteOf args.length :: args))] ++ List.replicate clocked 0).length
      = args.length + 3 + clocked := by
    simp only [List.length_append, List.length_cons, List.length_nil, List.length_replicate]
  refine sent.trans ?_
  rw [judged, ← CmdUnit.giveUp_reported, ← CmdUnit.clearReported_status]
  simp only [State.endPeriod, Period.gaveUp, count, CmdUnit.fetch_eq, Bool.and_eq_true, decide_eq_true_eq,
    Nat.add_le_add_iff_left, Nat.add_sub_cancel_left]
  split <;> simp only [State.modUnit, PerPort.get_set_same, PerPort.set_set]

/-- A transfer on port A that left the link idle and the unit as `u` reached nothing else. -/
theorem UnitOnly.linkA (s : State) (sdo : List Byte) (u : CmdUnit) :
    UnitOnly .A s { s with linkA := { line := .high, sdo := sdo }, units := s.units.set .A u } u :=
  ⟨⟨rfl, rfl, rfl, rfl, rfl, rfl, fun _ other => PerPort.get_set_other _ _ other, fun own => absurd rfl own,
    fun _ => rfl, rfl⟩, rfl, rfl, rfl⟩

/-- Settles O12. -/
theorem rplyShiftsOutTheReply : Obligations.RplyShiftsOutTheReply := fun _ clocked s serving line fits =>
  ⟨_, congrArg Host.Outcome.next (frameEvent_rply_valid clocked serving line fits), UnitOnly.linkA s _ _, rfl⟩

/-! ### A read on port B (R168, R177) -/

/-- A read that has carried so many bits. -/
def State.reading (s : State) (status : Byte) (frame : List Byte) (buffered : Bool) (clocked : Nat) : State :=
  { s with linkB := { s.linkB with
      line := .read status frame buffered clocked, sda := readOut status frame clocked } }

/-- The state a start condition of a read leaves: the address acknowledged, the status byte and the reply chosen (R170,
R177). -/
def State.readBegun (s : State) (clocked : Nat) : State :=
  { s with linkB := { s.linkB with acks := [true] } }.reading s.units.b.status (fetchedFrame s.units.b.phase)
    s.units.b.phase.ready clocked

theorem startB_read {s : State} (serving : s.serving = true) (idle : s.LineIdle .B) :
    s.startB s.linkB.address true = s.readBegun 0 := by
  have line : s.linkB.line = .none := idle
  simp [State.startB, State.endTransferB, line, serving, State.readBegun, State.reading, readOut, CmdUnit.fetch_eq]

theorem foldl_clockByteB_reading (s : State) (status : Byte) (frame : List Byte) (buffered : Bool) (bytes : List Byte)
    (clocked : Nat) : bytes.foldl State.clockByteB (s.reading status frame buffered clocked)
      = s.reading status frame buffered (clocked + 8 * bytes.length) := by
  induction bytes generalizing clocked with
  | nil => rfl
  | cons b bytes ih =>
    have count : clocked + 8 * (bytes.length + 1) = clocked + 8 + 8 * bytes.length := by omega
    rw [List.foldl_cons, List.length_cons, count]
    exact ih (clocked + 8)

/-- A fetch that carried no reply byte gives nothing up (R175). -/
theorem fetchedPhase_zero (x : Phase) : fetchedPhase x 0 = x := by
  cases x with
  | reply r => simp [fetchedPhase, Reply.frame_eq]
  | idle | pending c | working c => rfl

/-- A read ends: the flags its first byte reported are cleared, and a reply carried whole is given up (R171, R177). -/
theorem endTransferB_reading (s : State) (status : Byte) (frame : List Byte) (buffered : Bool) (clocked : Nat) :
    (s.reading status frame buffered clocked).endTransferB = { s with
      linkB := { s.linkB with line := .none, sda := readOut status frame clocked }
      units := s.units.set .B
        (let u := if 8 ≤ clocked then s.units.b.clearReported status else s.units.b
        if buffered = true ∧ 8 * (1 + frame.length) ≤ clocked then u.giveUp else u) } := by
  simp only [State.endTransferB, State.reading, Bool.and_eq_true, decide_eq_true_eq]
  by_cases first : 8 ≤ clocked <;> by_cases whole : buffered = true ∧ 8 * (1 + frame.length) ≤ clocked <;>
    simp only [first, whole, if_true, if_false, State.setLineB, State.modUnit, PerPort.set_set,
      PerPort.get_B] <;> rfl

/-- A read of whole bytes ends (R171, R177). -/
theorem endTransferB_readBegun (s : State) (count : Nat) : (s.readBegun (8 * count)).endTransferB = { s with
    linkB := { s.linkB with
      line := .none, acks := [true], sda := readOut s.units.b.status (fetchedFrame s.units.b.phase) (8 * count) }
    units := s.units.set .B { (if 1 ≤ count then s.units.b.reported .A else s.units.b) with
      phase := fetchedPhase s.units.b.phase (count - 1) } } := by
  rw [State.readBegun, endTransferB_reading]
  cases count with
  | zero => simp [fetchedPhase_zero]
  | succ n =>
    have first : 8 ≤ 8 * (n + 1) := Nat.le_mul_of_pos_right 8 n.succ_pos
    have whole : 8 * (1 + (fetchedFrame s.units.b.phase).length) ≤ 8 * (n + 1)
        ↔ (fetchedFrame s.units.b.phase).length ≤ n := by omega
    simp only [first, whole, Nat.le_add_left, Nat.add_sub_cancel, if_true, CmdUnit.clearReported_status,
      CmdUnit.giveUp_reported]

/-- A transfer on port B that left the link idle and the unit as `u` reached nothing else. -/
theorem UnitOnly.linkB (s : State) (l : LinkB) (idle : l.line = .none) (u : CmdUnit) :
    UnitOnly .B s { s with linkB := l, units := s.units.set .B u } u :=
  ⟨⟨rfl, rfl, rfl, rfl, rfl, rfl, fun _ other => PerPort.get_set_other _ _ other, fun _ => rfl,
    fun own => absurd rfl own, idle⟩, rfl, rfl, rfl⟩

/-- Settles O13. -/
theorem portBReadIsAFetch : Obligations.PortBReadIsAFetch := by
  intro count s serving line
  have read : s.readEvent (.whole count) = (s.readBegun (8 * count)).endTransferB := by
    rw [State.readEvent, startB_read serving line, State.readBegun, foldl_clockByteB_reading, List.length_replicate,
      Nat.zero_add]
    rfl
  rw [endTransferB_readBegun] at read
  refine ⟨_, congrArg Host.Outcome.next read, UnitOnly.linkB s _ rfl _, rfl, ?_⟩
  simp only [readOut, Nat.mul_div_cancel_left count (Nat.succ_pos 7)]

end Sys2Proof.Machine
end

section
/-! Transfers cut into phases (R167, R168, R177): eight bits are a byte, loose bits are discarded, and the bits that SDO
and SDA present meanwhile. -/

namespace Sys2Proof.Machine

/-! ### Eight bits are a byte (R167, R168) -/

/-- The first seven bits of a byte, most significant first. -/
def leadingBits (b : Byte) : List Bool := (List.range 7).map fun i => b.getLsbD (7 - i)

theorem bitsOfByte_eq (b : Byte) : bitsOfByte b = leadingBits b ++ [b.getLsbD 0] := rfl

theorem leadingBits_length (b : Byte) : (leadingBits b).length = 7 := rfl

theorem byteOfBits_bitsOfByte : ∀ b : Byte, byteOfBits (bitsOfByte b) = b := by decide

/-- Where a link that holds no loose bits takes the bits of a byte as the byte, it takes the bits of many bytes as the
bytes. -/
theorem foldl_flatMap_bitsOfByte {bit : State → Bool → State} {byte : State → Byte → State} {Whole : State → Prop}
    (eight : ∀ s b, Whole s → (bitsOfByte b).foldl bit s = byte s b) (keeps : ∀ s b, Whole s → Whole (byte s b))
    (bytes : List Byte) {s : State} (whole : Whole s) :
    (bytes.flatMap bitsOfByte).foldl bit s = bytes.foldl byte s ∧ Whole (bytes.foldl byte s) := by
  induction bytes generalizing s with
  | nil => exact ⟨rfl, whole⟩
  | cons b bytes ih =>
    rw [List.flatMap_cons, List.foldl_append, eight s b whole, List.foldl_cons]
    exact ih (keeps s b whole)

/-! ### Bits on port A (R167) -/

/-- The select period, if one is in progress, holds no loose bits. -/
def State.WholeA (s : State) : Prop := ∀ q, s.linkA.line = .period q → q.bits = []

/-- The select period in progress with these loose bits. -/
def State.looseA (s : State) (bits : List Bool) : State :=
  match s.linkA.line with
  | .period q => s.setLineA (.period { q with bits := bits })
  | .high | .ignoring => s

theorem State.looseA_period {s : State} {q : Period} (line : s.linkA.line = .period q) (bits : List Bool) :
    s.looseA bits = s.setLineA (.period { q with bits := bits }) := by
  rw [State.looseA, line]

/-- A link with no select period in progress takes no bits and no bytes. -/
theorem State.unselected {s : State} (line : ∀ q, s.linkA.line ≠ .period q) :
    (∀ b, s.clockBitA b = s) ∧ (∀ b, s.clockByteA b = s) ∧ ∀ bits, s.looseA bits = s := by
  unfold State.clockBitA State.clockByteA State.looseA
  cases e : s.linkA.line with
  | period q => exact absurd e (line q)
  | high | ignoring => exact ⟨fun _ => rfl, fun _ => rfl, fun _ => rfl⟩

/-- Fewer than eight bits since the last whole byte stand loose. -/
theorem foldl_clockBitA_period {s : State} {q : Period} (line : s.linkA.line = .period q) (bits : List Bool)
    (few : q.bits.length + bits.length < 8) :
    bits.foldl State.clockBitA s = s.looseA (q.bits ++ bits) := by
  induction bits generalizing s q with
  | nil =>
    rw [State.looseA_period line, List.append_nil, List.foldl_nil, State.setLineA, ← line]
  | cons b bits ih =>
    have room : q.bits.length < 7 := by
      rw [List.length_cons] at few
      omega
    have next : s.clockBitA b = s.setLineA (.period { q with bits := q.bits ++ [b] }) := by
      rw [State.clockBitA, line]
      exact if_pos room
    rw [List.foldl_cons, next, ih (q := { q with bits := q.bits ++ [b] }) rfl (by simp at few ⊢; omega),
      State.looseA_period rfl, State.looseA_period line, List.append_assoc]
    rfl

theorem foldl_clockBitA_loose {s : State} (whole : s.WholeA) {bits : List Bool} (few : bits.length < 8) :
    bits.foldl State.clockBitA s = s.looseA bits := by
  by_cases selected : ∃ q, s.linkA.line = .period q
  · obtain ⟨q, line⟩ := selected
    have none := whole q line
    have fits : q.bits.length + bits.length < 8 := by rwa [none, List.length_nil, Nat.zero_add]
    rw [foldl_clockBitA_period line bits fits, none, List.nil_append]
  · obtain ⟨still, -, loose⟩ := State.unselected fun q line => selected ⟨q, line⟩
    rw [List.foldl_fixed' still, loose]

/-- A byte that follows whole bytes is taken whole. -/
theorem State.clockByteA_period {s : State} {q : Period} (line : s.linkA.line = .period q) (none : q.bits = [])
    (b : Byte) : s.clockByteA b = s.byteA q b := by
  rw [State.clockByteA, line]
  exact if_pos (List.isEmpty_iff.mpr none)

/-- A byte is taken alike whatever bits stood loose. -/
theorem State.byteA_setLineA (s : State) (l : SelectLine) (q : Period) (bits : List Bool) (b : Byte) :
    (s.setLineA l).byteA { q with bits := bits } b = s.byteA q b := rfl

/-- Eight bits on port A are a byte. -/
theorem foldl_clockBitA_byte (s : State) (b : Byte) (whole : s.WholeA) :
    (bitsOfByte b).foldl State.clockBitA s = s.clockByteA b := by
  have leading : (leadingBits b).foldl State.clockBitA s = s.looseA (leadingBits b) :=
    foldl_clockBitA_loose whole (Nat.lt_succ_self 7)
  rw [bitsOfByte_eq, List.foldl_append, leading, List.foldl_cons, List.foldl_nil]
  by_cases selected : ∃ q, s.linkA.line = .period q
  · obtain ⟨q, line⟩ := selected
    have eighth : (s.looseA (leadingBits b)).clockBitA (b.getLsbD 0)
        = (s.looseA (leadingBits b)).byteA { q with bits := leadingBits b } (byteOfBits (bitsOfByte b)) := by
      rw [State.looseA_period line]
      rfl
    rw [eighth, byteOfBits_bitsOfByte, State.looseA_period line, State.byteA_setLineA,
      State.clockByteA_period line (whole q line)]
  · obtain ⟨still, byte, loose⟩ := State.unselected fun q line => selected ⟨q, line⟩
    rw [loose, still, byte]

theorem State.byteA_whole (s : State) (q : Period) (b : Byte) : (s.byteA q b).WholeA := by
  have line : ∀ r : Period, r.bits = [] → ∀ q', SelectLine.period r = .period q' → q'.bits = [] := by
    rintro r none _ ⟨⟩
    exact none
  unfold State.byteA
  dsimp only
  split
  · split <;> exact line _ rfl
  · exact line _ rfl

theorem State.clockByteA_whole (s : State) (b : Byte) (whole : s.WholeA) : (s.clockByteA b).WholeA := by
  by_cases selected : ∃ q, s.linkA.line = .period q
  · obtain ⟨q, line⟩ := selected
    rw [State.clockByteA_period line (whole q line)]
    exact s.byteA_whole q b
  · obtain ⟨-, byte, -⟩ := State.unselected fun q line => selected ⟨q, line⟩
    rwa [byte]

/-- A select period begins with the status byte formed at the fall of SEL (R167, R170). -/
theorem selectFalls_taken {s : State} (serving : s.serving = true) (idle : s.LineIdle .A) : s.selectFalls = { s with
    linkA := { line := .period ⟨s.units.a.status, [], [], .undecided⟩, sdo := [] } } := by
  have line : s.linkA.line = .high := idle
  simp only [State.selectFalls, line, serving, if_true]

theorem State.selectFalls_whole {s : State} (idle : s.LineIdle .A) : s.selectFalls.WholeA := by
  by_cases serving : s.serving = true
  · rw [selectFalls_taken serving idle]
    rintro _ ⟨⟩
    rfl
  · have line : s.linkA.line = .high := idle
    simp only [State.WholeA, State.selectFalls, line, serving]
    exact nofun

/-- The bits of a transfer on port A are its whole bytes, and then loose bits. -/
theorem foldl_clockBitA {s : State} (idle : s.LineIdle .A) (bytes : List Byte) {loose : List Bool}
    (few : loose.length < 8) : (bytes.flatMap bitsOfByte ++ loose).foldl State.clockBitA s.selectFalls
      = (bytes.foldl State.clockByteA s.selectFalls).looseA loose := by
  obtain ⟨taken, whole⟩ := foldl_flatMap_bitsOfByte foldl_clockBitA_byte State.clockByteA_whole bytes
    (State.selectFalls_whole idle)
  rw [List.foldl_append, taken, foldl_clockBitA_loose whole few]

/-- Loose bits are discarded at the rise of SEL. -/
theorem State.selectRises_looseA (s : State) (bits : List Bool) : (s.looseA bits).selectRises = s.selectRises := by
  by_cases selected : ∃ q, s.linkA.line = .period q
  · obtain ⟨q, line⟩ := selected
    rw [State.looseA_period line, State.selectRises, State.selectRises, line]
    rfl
  · obtain ⟨-, -, loose⟩ := State.unselected fun q line => selected ⟨q, line⟩
    rw [loose]

/-! ### Bits on port B (R168) -/

/-- A write is in progress and holds no loose bits. -/
def State.WholeB (s : State) : Prop := ∃ bytes, s.linkB.line = .write bytes []

/-- Fewer than eight bits since the last whole byte stand loose. -/
theorem foldl_clockBitB_loose {s : State} {bytes : List Byte} {bits more : List Bool}
    (line : s.linkB.line = .write bytes bits) (few : bits.length + more.length < 8) :
    more.foldl State.clockBitB s = s.setLineB (.write bytes (bits ++ more)) := by
  induction more generalizing s bits with
  | nil => rw [List.append_nil, List.foldl_nil, State.setLineB, ← line]
  | cons b more ih =>
    rw [List.length_cons] at few
    have next : s.clockBitB b = s.setLineB (.write bytes (bits ++ [b])) := by
      rw [State.clockBitB, line]
      exact if_pos (by omega)
    have fits : (bits ++ [b]).length + more.length < 8 := by
      rw [List.length_append, List.length_singleton]
      omega
    rw [List.foldl_cons, next, ih rfl fits, List.append_assoc]
    rfl

theorem State.clockByteB_write {s : State} {bytes : List Byte} {bits : List Bool}
    (line : s.linkB.line = .write bytes bits) (b : Byte) : s.clockByteB b = s.takeByteB (bytes ++ [b]) := by
  rw [State.clockByteB, line]

/-- Eight bits of a write are a byte. -/
theorem foldl_clockBitB_byte (s : State) (b : Byte) (whole : s.WholeB) :
    (bitsOfByte b).foldl State.clockBitB s = s.clockByteB b := by
  obtain ⟨bytes, line⟩ := whole
  have leading : (leadingBits b).foldl State.clockBitB s = s.setLineB (.write bytes (leadingBits b)) :=
    foldl_clockBitB_loose line (Nat.lt_succ_self 7)
  have eighth : (s.setLineB (.write bytes (leadingBits b))).clockBitB (b.getLsbD 0)
      = s.takeByteB (bytes ++ [byteOfBits (bitsOfByte b)]) := rfl
  rw [bitsOfByte_eq, List.foldl_append, leading, List.foldl_cons, List.foldl_nil, eighth, byteOfBits_bitsOfByte,
    State.clockByteB_write line]

theorem State.clockByteB_whole (s : State) (b : Byte) (whole : s.WholeB) : (s.clockByteB b).WholeB := by
  obtain ⟨bytes, line⟩ := whole
  rw [State.clockByteB_write line]
  exact ⟨_, rfl⟩

/-- A write begins: its own address is acknowledged (R168). -/
theorem startB_write {s : State} (serving : s.serving = true) (idle : s.LineIdle .B) :
    s.startB s.linkB.address false = { s with linkB := { s.linkB with line := .write [] [], acks := [true] } } := by
  have line : s.linkB.line = .none := idle
  simp [State.startB, State.endTransferB, line, serving]

/-- Another address is not acknowledged, nor is any while the links do not serve (R168). -/
theorem startB_unanswered {s : State} (idle : s.LineIdle .B) {address : BitVec 7} (reads : Bool)
    (other : s.serving = false ∨ address ≠ s.linkB.address) : s.startB address reads = s.unanswered := by
  have line : s.linkB.line = .none := idle
  have ends : s.endTransferB = s := by rw [State.endTransferB, line]
  rw [State.startB, ends]
  refine if_neg fun own => ?_
  rw [Bool.and_eq_true, beq_iff_eq] at own
  rcases other with deaf | other
  · exact Bool.false_ne_true (deaf.symm.trans own.1)
  · exact other own.2

theorem startB_other_address {s : State} (idle : s.LineIdle .B) {address : BitVec 7}
    (other : address ≠ s.linkB.address) (reads : Bool) :
    s.startB address reads = { s with linkB := { s.linkB with acks := [false] } } := by
  have line : s.linkB.line = .none := idle
  rw [startB_unanswered idle reads (.inr other), State.unanswered, ← line]

/-- Port B without a transfer takes no bits and no bytes. -/
theorem State.unaddressed {s : State} (idle : s.LineIdle .B) :
    (∀ b, s.clockBitB b = s) ∧ (∀ b, s.clockByteB b = s) ∧ s.endTransferB = s := by
  have line : s.linkB.line = .none := idle
  exact ⟨fun _ => by rw [State.clockBitB, line], fun _ => by rw [State.clockByteB, line],
    by rw [State.endTransferB, line]⟩

/-- The bits of a write are its whole bytes, each acknowledged, and then loose bits. -/
theorem foldl_clockBitB {s : State} (serving : s.serving = true) (idle : s.LineIdle .B) (bytes : List Byte)
    {loose : List Bool} (few : loose.length < 8) :
    (bytes.flatMap bitsOfByte ++ loose).foldl State.clockBitB (s.startB s.linkB.address false) = { s with
      linkB := { s.linkB with line := .write bytes loose, acks := List.replicate (bytes.length + 1) true } } := by
  rw [startB_write serving idle, List.foldl_append]
  obtain ⟨taken, -⟩ := foldl_flatMap_bitsOfByte foldl_clockBitB_byte State.clockByteB_whole bytes
    (s := { s with linkB := { s.linkB with line := .write [] [], acks := [true] } }) ⟨[], rfl⟩
  rw [taken, foldl_clockByteB _ bytes [] rfl, foldl_clockBitB_loose rfl (by rwa [List.length_nil, Nat.zero_add])]
  rfl

/-- The bits of a read, each carried. -/
theorem foldl_clockBitB_reading (s : State) (status : Byte) (frame : List Byte) (buffered : Bool) (bits : List Bool)
    (clocked : Nat) : bits.foldl State.clockBitB (s.reading status frame buffered clocked)
      = s.reading status frame buffered (clocked + bits.length) := by
  induction bits generalizing clocked with
  | nil => rfl
  | cons b bits ih =>
    rw [List.foldl_cons, List.length_cons, Nat.add_comm bits.length, ← Nat.add_assoc]
    exact ih (clocked + 1)

/-- A read of whole bytes begun at the address the part holds. -/
theorem foldl_clockByteB_read {s : State} (serving : s.serving = true) (idle : s.LineIdle .B) (bytes : List Byte) :
    bytes.foldl State.clockByteB (s.startB s.linkB.address true) = s.readBegun (8 * bytes.length) := by
  rw [startB_read serving idle, State.readBegun, foldl_clockByteB_reading, Nat.zero_add]
  rfl

theorem foldl_clockBitB_read {s : State} (serving : s.serving = true) (idle : s.LineIdle .B) (bits : List Bool) :
    bits.foldl State.clockBitB (s.startB s.linkB.address true) = s.readBegun bits.length := by
  rw [startB_read serving idle, State.readBegun, foldl_clockBitB_reading, Nat.zero_add]
  rfl

/-- The bits of a read that make no whole byte report and give up nothing (R171, R177). -/
theorem endTransferB_reading_loose (s : State) (status : Byte) (frame : List Byte) (buffered : Bool) (clocked : Nat) :
    (s.reading status frame buffered clocked).endTransferB
      = (s.reading status frame buffered (8 * (clocked / 8))).endTransferB := by
  have carried : readOut status frame clocked = readOut status frame (8 * (clocked / 8)) := by
    rw [readOut, readOut, Nat.mul_div_cancel_left _ (Nat.succ_pos 7)]
  have first : 8 ≤ clocked ↔ 8 ≤ 8 * (clocked / 8) := by omega
  have whole : 8 * (1 + frame.length) ≤ clocked ↔ 8 * (1 + frame.length) ≤ 8 * (clocked / 8) := by omega
  rw [endTransferB_reading, endTransferB_reading, carried]
  simp only [first, whole]

/-! ### Phases against the whole (R167, R168, R177) -/

/-- The ends of a port A transfer cut into phases and of the whole transfer agree. -/
theorem phased_frame_A {s : State} (idle : s.LineIdle .A) (bytes : List Byte) {loose : List Bool}
    (few : loose.length < 8) : ((bytes.flatMap bitsOfByte ++ loose).foldl State.clockBitA s.selectFalls).selectRises
      = s.frameEvent .A (.whole bytes) := by
  rw [foldl_clockBitA idle bytes few, State.selectRises_looseA]
  rfl

/-- The ends of a port B write cut into phases and of the whole write agree. -/
theorem phased_frame_B {s : State} (idle : s.LineIdle .B) (bytes : List Byte) {loose : List Bool}
    (few : loose.length < 8) :
    ((bytes.flatMap bitsOfByte ++ loose).foldl State.clockBitB (s.startB s.linkB.address false)).endTransferB
      = s.frameEvent .B (.whole bytes) := by
  rw [State.frameEvent, State.frameEventB]
  cases serving : s.serving with
  | true =>
    rw [foldl_clockBitB serving idle bytes few, startB_write serving idle, foldl_clockByteB _ bytes [] rfl]
    rfl
  | false =>
    obtain ⟨bit, byte, -⟩ := State.unaddressed (s := s.unanswered) rfl
    rw [startB_unanswered idle false (.inl serving), List.foldl_fixed' bit, List.foldl_fixed' byte]

theorem phased_read {s : State} (idle : s.LineIdle .B) (n : Nat) :
    ((List.replicate n false).foldl State.clockBitB (s.startB s.linkB.address true)).endTransferB
      = s.readEvent (.whole (n / 8)) := by
  rw [State.readEvent]
  cases serving : s.serving with
  | true =>
    rw [foldl_clockBitB_read serving idle, foldl_clockByteB_read serving idle, List.length_replicate,
      List.length_replicate]
    exact endTransferB_reading_loose _ _ _ _ n
  | false =>
    obtain ⟨bit, byte, -⟩ := State.unaddressed (s := s.unanswered) rfl
    rw [startB_unanswered idle true (.inl serving), List.foldl_fixed' bit, List.foldl_fixed' byte]

/-- A transfer that ended leaves port B without one, so that it does not end again (R168). -/
theorem State.endTransferB_idle (s : State) : s.endTransferB.LineIdle .B := by
  unfold State.endTransferB
  split
  · assumption
  · split
    · rfl
    · exact congrArg LinkB.line (State.endFrame_outside _ _ _).linkB
  · dsimp only
    split <;> split <;> rfl

theorem State.endTransferB_twice (s : State) : s.endTransferB.endTransferB = s.endTransferB := by
  obtain ⟨-, -, ends⟩ := State.unaddressed s.endTransferB_idle
  exact ends

/-- A start condition ends the transfer before it (R168). -/
theorem State.startB_repeated (s : State) (address : BitVec 7) (reads : Bool) :
    s.startB address reads = s.endTransferB.startB address reads := by
  rw [State.startB, State.startB, State.endTransferB_twice]

/-! ### The bits on SDO (R167, R176) -/

/-- SEL is high after its rise (R167). -/
theorem State.selectRises_idle (s : State) : s.selectRises.LineIdle .A := by
  unfold State.selectRises
  split
  · assumption
  · rfl
  · split
    · rfl
    · unfold State.endPeriod
      dsimp only
      split
      · exact congrArg LinkA.line (State.endFrame_outside _ _ _).linkA
      · rfl
      · split <;> rfl

/-- SDO is at high impedance while SEL is high (R167). -/
theorem State.sdoBit_idle {s : State} (idle : s.LineIdle .A) : s.linkA.sdoBit = none := by
  have line : s.linkA.line = .high := idle
  rw [LinkA.sdoBit, line]

/-- SDO presents the next bit of the byte that the period carries next (R167). -/
theorem State.sdoBit_looseA {s : State} {q : Period} (line : s.linkA.line = .period q) (bits : List Bool) :
    (s.looseA bits).linkA.sdoBit = some (q.nextOut.getLsbD (7 - bits.length)) := by
  rw [State.looseA_period line]
  rfl

/-- SDO carries 0x00 after the status byte while no RPLY request was judged (R167). -/
theorem Period.nextOut_undecided {q : Period} (begun : q.bytes ≠ []) (waits : q.rply = .undecided) : q.nextOut = 0 := by
  rw [Period.nextOut, if_neg (List.isEmpty_iff.not.mpr begun), waits]

/-- SDO carries the reply frame from the byte after the check byte on (R176). -/
theorem Period.nextOut_chosen {q : Period} {frame more : List Byte} {buffered : Bool} {start : Nat}
    (begun : q.bytes ≠ []) (chosen : q.rply = .chosen start frame buffered)
    (count : q.bytes.length = start + more.length) : q.nextOut = frame.getD more.length 0 := by
  rw [Period.nextOut, if_neg (List.isEmpty_iff.not.mpr begun), chosen, count]
  exact congrArg (frame.getD · 0) (Nat.add_sub_cancel_left _ _)

/-- The bytes of a period that ended no RPLY request, carried with the status byte and then 0x00. -/
theorem foldl_clockByteA_plain {s : State} (serving : s.serving = true) (idle : s.LineIdle .A) {b : Byte}
    {bytes : List Byte} (plain : ∀ k, endsRply ((b :: bytes).take k) = false) :
    (b :: bytes).foldl State.clockByteA s.selectFalls = { s with linkA :=
      { line := .period ⟨s.units.a.status, b :: bytes, [], .undecided⟩
        sdo := s.units.a.status :: List.replicate bytes.length 0 } } := by
  have one : endsRply [b] = false := rfl
  have first : s.selectFalls.clockByteA b = { s with linkA :=
      { line := .period ⟨s.units.a.status, [b], [], .undecided⟩, sdo := [s.units.a.status] } } := by
    rw [selectFalls_taken serving idle, State.clockByteA_period rfl rfl]
    simp [State.byteA, one, Period.nextOut, State.setLineA]
  rw [List.foldl_cons, first, foldl_clockByteA _ ⟨s.units.a.status, [b], [], .undecided⟩ bytes rfl rfl rfl
    (List.cons_ne_nil _ _) fun k _ => plain (k + 1)]
  rfl

/-- The check byte of a valid RPLY chooses the reply (R176). -/
theorem State.byteA_chooses {s : State} {q : Period} {b : Byte} {c : Command} (waits : q.rply = .undecided)
    (ends : endsRply (q.bytes ++ [b]) = true) (valid : judgeFrame .A (q.bytes ++ [b]) = some c) :
    (s.byteA q b).linkA.line = .period ⟨q.status, q.bytes ++ [b], [],
      .chosen (q.bytes ++ [b]).length (fetchedFrame s.units.a.phase) s.units.a.phase.ready⟩ := by
  simp only [State.byteA, waits, ends, and_self, if_true, valid, CmdUnit.fetch_eq]
  rfl

theorem endsRply_requestBytes {args : List Byte} (fits : args.length ≤ 40) :
    endsRply (requestBytes .rply args) = true := by
  simp [requestBytes_eq, endsRply, byteOf_toNat_small fits, Config.maxArgs, fits]

/-- The select period of a valid RPLY request and of the bytes clocked after it (R176). -/
theorem foldl_clockByteA_rply {s : State} (serving : s.serving = true) (idle : s.LineIdle .A) {args : List Byte}
    (fits : args.length ≤ 40) (more : List Byte) :
    ((requestBytes .rply args ++ more).foldl State.clockByteA s.selectFalls).linkA.line
      = .period ⟨s.units.a.status, requestBytes .rply args ++ more, [],
          .chosen (args.length + 3) (fetchedFrame s.units.a.phase) s.units.a.phase.ready⟩ := by
  have short (k : Nat) : endsRply ((Code.rply.byte :: byteOf args.length :: args).take k) = false := by
    refine endsRply_take_of_short (.inr ?_) k
    have count : byteAt (Code.rply.byte :: byteOf args.length :: args) 1 = byteOf args.length := rfl
    rw [count, byteOf_toNat_small fits]
    exact Nat.lt_succ_self _
  have upto := foldl_clockByteA_plain serving idle short
  have chosen : ((requestBytes .rply args).foldl State.clockByteA s.selectFalls).linkA.line
      = .period ⟨s.units.a.status, requestBytes .rply args, [],
          .chosen (args.length + 3) (fetchedFrame s.units.a.phase) s.units.a.phase.ready⟩ := by
    rw [← requestBytes_length .rply args, requestBytes, withCheck, List.foldl_append, upto, List.foldl_cons,
      List.foldl_nil, State.clockByteA_period rfl rfl]
    exact State.byteA_chooses rfl (endsRply_requestBytes fits) (judgeFrame_request (c := .rply) fits nofun)
  rw [List.foldl_append, foldl_clockByteA_judged _ _ more chosen rfl nofun (List.cons_ne_nil _ _)]

/-- After the first byte of a request other than RPLY, SDO presents 0 (R167). -/
theorem sdoBit_plain {s : State} (serving : s.serving = true) (idle : s.LineIdle .A) {b : Byte} (other : b ≠ 0x01)
    (bytes : List Byte) (loose : List Bool) :
    (((b :: bytes).foldl State.clockByteA s.selectFalls).looseA loose).linkA.sdoBit = some false := by
  rw [foldl_clockByteA_plain serving idle (endsRply_take other), State.sdoBit_looseA rfl,
    Period.nextOut_undecided (List.cons_ne_nil _ _) rfl]
  exact congrArg some BitVec.getLsbD_zero

/-- After the check byte of a valid RPLY, SDO presents the reply frame (R176). -/
theorem sdoBit_rply {s : State} (serving : s.serving = true) (idle : s.LineIdle .A) {args : List Byte}
    (fits : args.length ≤ 40) (more : List Byte) (loose : List Bool) :
    (((requestBytes .rply args ++ more).foldl State.clockByteA s.selectFalls).looseA loose).linkA.sdoBit
      = some (((fetchedFrame s.units.a.phase).getD more.length 0).getLsbD (7 - loose.length)) := by
  have count : (requestBytes .rply args ++ more).length = args.length + 3 + more.length := by
    rw [List.length_append, requestBytes_length]
  rw [State.sdoBit_looseA (foldl_clockByteA_rply serving idle fits more),
    Period.nextOut_chosen (List.cons_ne_nil _ _) rfl count]

/-- Settles O15: the phases against the whole, then the bits and the answers of each link. -/
theorem phasedTransferIsTheWhole : Obligations.PhasedTransferIsTheWhole := by
  refine ⟨fun p bytes loose s idle few => ?_, fun n s idle => ?_, fun address s => ?_,
    fun bytes loose s serving idle few => ?_, fun n s serving idle => ?_, fun bytes loose s serving idle few => ?_,
    fun s idle => ?_⟩
  · refine ⟨_, _, _, rfl, rfl, rfl, congrArg Host.Outcome.next ?_⟩
    cases p with
    | A => exact (phased_frame_A idle bytes few).symm
    | B => exact (phased_frame_B idle bytes few).symm
  · exact ⟨_, _, _, rfl, rfl, rfl, congrArg Host.Outcome.next (phased_read idle n).symm⟩
  · exact ⟨_, rfl, rfl, congrArg Host.Outcome.next (s.startB_repeated address false),
      congrArg Host.Outcome.next (s.startB_repeated address true)⟩
  · have bits := foldl_clockBitA idle bytes few
    refine ⟨_, _, _, rfl, congrArg Host.Outcome.next bits, rfl, State.sdoBit_idle idle,
      State.sdoBit_idle (State.selectRises_idle _), ?_, ?_, ?_, ?_⟩
    · exact congrArg (fun s => s.linkA.sdoBit) (selectFalls_taken serving idle)
    · rintro rfl
      rw [List.foldl_nil, selectFalls_taken serving idle, State.sdoBit_looseA rfl]
      rfl
    · intro nonempty head
      obtain ⟨b, bytes, rfl⟩ := List.exists_cons_of_ne_nil nonempty
      exact sdoBit_plain serving idle (fun code => head (congrArg some code)) bytes loose
    · rintro args more fits rfl
      exact sdoBit_rply serving idle fits more loose
  · have bits := foldl_clockBitB_read serving idle (List.replicate n false)
    rw [List.length_replicate] at bits
    refine ⟨_, _, rfl, congrArg Host.Outcome.next bits, ?_, rfl, rfl⟩
    exact congrArg (fun s => s.linkB.acks) (startB_read serving idle)
  · refine ⟨_, _, rfl, congrArg Host.Outcome.next (foldl_clockBitB serving idle bytes few), ?_, rfl⟩
    exact congrArg (fun s => s.linkB.acks) (startB_write serving idle)
  · obtain ⟨bit, -, ends⟩ := State.unaddressed idle
    refine ⟨fun address other i transfer => ?_, fun bits => congrArg Host.Outcome.next (List.foldl_fixed' bit bits),
      fun n => congrArg Host.Outcome.next (List.foldl_fixed' bit (List.replicate n false)),
      congrArg Host.Outcome.next ends, congrArg Host.Outcome.next ends⟩
    simp only [List.mem_cons, List.not_mem_nil, or_false] at transfer
    rcases transfer with rfl | rfl
    · exact congrArg Host.Outcome.next (startB_other_address idle other false)
    · exact congrArg Host.Outcome.next (startB_other_address idle other true)

end Sys2Proof.Machine
end

section
/-! The queue of commands (the model's own, entry 1): a step takes the command at the front, and no command touches the
commands behind it. -/

namespace Sys2Proof.Machine

/-- The counterpart of `step_of_empty`. -/
theorem step_of_front {s : State} {c : Instr} {rest : List Instr} (front : s.pending = c :: rest) :
    step s = exec c { s with pending := rest } := by
  simp only [step, front]

/-- Settles O1. -/
theorem stepTakesTheFront : Obligations.StepTakesTheFront := fun _ _ _ => step_of_front rfl

/-- Settles O3: whatever a command changes, the queue is not part of it. -/
theorem execLeavesTheQueue : Obligations.ExecLeavesTheQueue := fun _ _ _ answers => (exec_change answers).pending

end Sys2Proof.Machine
end
